-- ==== Sys2Proof/Word.lean ====
section
/-! DEFINITION. The words of the T416 and the names of its numbered things (spec 00, Names and numbering; R193). -/

namespace Sys2Proof

/-- A byte as it is shifted on a port (R172). -/
abbrev Byte := BitVec 8

/-- A two-byte number, most significant byte first on the wire (R193). -/
abbrev Half := BitVec 16

/-- A three-byte number: a period or a shift (R195, R196). -/
abbrev Triple := BitVec 24

/-- A 32-bit value of the time base TB (R1, R12). -/
abbrev Time := BitVec 32

/-- Ports P0 to P3. -/
abbrev Port := Fin 4

/-- Lines L0 to L15. -/
abbrev Line := Fin 16

/-- Exclusion groups; the value g stands for G(g+1), so 0 is G1 and 5 is G6. -/
abbrev Group := Fin 6

/-- Commit sets S0 to S7. -/
abbrev SetId := Fin 8

/-- Cue slots 0 to 95. -/
abbrev SlotId := Fin 96

end Sys2Proof
end

