-- ==== Sys2Proof/Syntax.lean ====
section
/-! DEFINITION. The commands of the T416: one constructor for each row of spec/opcode_table.json, which lists the
part's events, each whole and indivisible (spec 95). A command of a port carries no field of its own: its body stands
in the port's command queue, where the frame that brought it put it (R181, R183). -/

namespace Sys2Proof

/-- The level of an input pin. -/
inductive PinLevel
  | low
  | high
deriving DecidableEq, Repr

/-- The two causes of device reset (spec 00, Device Reset). -/
inductive ResetCause
  /-- Power is applied: the outside world may do this at any time. -/
  | powerOn
  /-- The sensed level of RESET# has become low (R200). -/
  | resetPin
deriving DecidableEq, Repr

/-- The two ways a port leaves and starts a port release (R130). -/
inductive Departure
  | detach
  | lapse
deriving DecidableEq, Repr

/-- The work of the claim unit that asks for safe-level drives and transfers (R90, R126, R128, R131, R132). -/
inductive Handover
  /-- A release of one line by the port as its holder (R126, R128). -/
  | release (p : Port)
  /-- A port release of the port (R130, R131). -/
  | departure (p : Port) (why : Departure)
  /-- The halt release (R132): one drive of every line, and no transfer of single lines. -/
  | halt
deriving DecidableEq, Repr

/-- The levels of the six sampled inputs at one rising edge of REFCLK (R200). -/
structure InputSample where
  reset : PinLevel
  fault : PinLevel
  sel   : Vector PinLevel 4
deriving DecidableEq, Repr

/-- The commands: the rows of spec/opcode_table.json in its order. -/
inductive Instr
  /-- DEVICE_RESET (R200, R192) -/
  | deviceReset (cause : ResetCause)
  /-- RESET_END (R107) -/
  | resetEnd
  /-- TB_STEP (R2) -/
  | tbStep
  /-- FAULT_LOW (R107) -/
  | faultLow
  /-- FAULT_HIGH (R107) -/
  | faultHigh
  /-- FRAME_START (R173) -/
  | frameStart (p : Port)
  /-- FRAME_END (R176): the bits sampled on SDIn while SELn# was low, in order (R172) -/
  | frameEnd (p : Port) (sdi : List Bool)
  /-- PRESENT_REQUEST (R137) -/
  | presentRequest (p : Port)
  /-- REPLY_ARRIVAL (R184) -/
  | replyArrival (p : Port)
  /-- EVENT_POSTED (R188) -/
  | eventPosted (p : Port)
  /-- BAD_KIND (R183) -/
  | badKind (p : Port)
  /-- READ_TIME (R10) -/
  | readTime (p : Port)
  /-- READ_EVENTS (R189) -/
  | readEvents (p : Port)
  /-- ACK_EVENTS (R190) -/
  | ackEvents (p : Port)
  /-- ATTACH (R149) -/
  | attach (p : Port)
  /-- WRITE_CONFIG (R156) -/
  | writeConfig (p : Port)
  /-- READ_CONFIG (R157) -/
  | readConfig (p : Port)
  /-- CONFIRM (R159) -/
  | confirm (p : Port)
  /-- HALT_VOTE (R162) -/
  | haltVote (p : Port)
  /-- CLAIM (R120) -/
  | claim (p : Port)
  /-- QUERY_LINE (R134) -/
  | queryLine (p : Port)
  /-- TRIP (R111) -/
  | trip (p : Port)
  /-- CLEAR_TRIP (R112) -/
  | clearTrip (p : Port)
  /-- ADD_CUE (R32) -/
  | addCue (p : Port)
  /-- CANCEL_CUE (R35) -/
  | cancelCue (p : Port)
  /-- QUERY_CUE (R37) -/
  | queryCue (p : Port)
  /-- STAGE (R70) -/
  | stage (p : Port)
  /-- UNSTAGE (R72) -/
  | unstage (p : Port)
  /-- OPEN_SET (R77) -/
  | openSet (p : Port)
  /-- COMMIT_SET (R78) -/
  | commitSet (p : Port)
  /-- ABANDON_SET (R79) -/
  | abandonSet (p : Port)
  /-- RELEASE (R125) -/
  | release (p : Port)
  /-- RELEASE_AT_CLAIM_UNIT (R128) -/
  | releaseAtClaimUnit (p : Port)
  /-- DETACH (R151) -/
  | detach (p : Port)
  /-- LAPSE_PURGE (R40) -/
  | lapsePurge (p : Port)
  /-- HALT_PURGE (R41) -/
  | haltPurge
  /-- SAFE_LEVEL_DRIVE (R90) asked for by one piece of the claim unit's work -/
  | safeLevelDrive (h : Handover)
  /-- CLAIM_TRANSFER (R126, R131) of one piece of the claim unit's work -/
  | claimTransfer (h : Handover)
  /-- PORT_RELEASE_START (R130) -/
  | portReleaseStart (p : Port) (why : Departure)
  /-- HALT_RELEASE (R132) -/
  | haltRelease
  /-- DETACH_COMPLETION (R151) -/
  | detachCompletion (p : Port)
  /-- HALT_COMPLETION (R163) -/
  | haltCompletion
  /-- LAPSE (R168) -/
  | lapse (p : Port)
  /-- LAPSE_CLEANUP_COMPLETION (R169) -/
  | lapseCleanupCompletion (p : Port)
  /-- OCCURRENCE (R43) of the cue at the head of the pending list -/
  | occurrence
  /-- COMMIT_TIME_EXPIRY (R80) -/
  | commitTimeExpiry (k : SetId)
  /-- OPENING_NOTICE (R62) -/
  | openingNotice (g : Group)
  /-- PULSE_END_EXPIRY (R94) -/
  | pulseEndExpiry (l : Line)
  /-- HOLDOFF_EXPIRY (R99) -/
  | holdoffExpiry (g : Group)
  /-- REFCLK_PERIOD_END (R2, R200): the levels sampled at the edge that ends the period -/
  | refclkPeriodEnd (pins : InputSample)
  /-- PORT_UNIT_NOT_ATTACHED (R183) -/
  | portUnitNotAttached (p : Port)
deriving DecidableEq, Repr

end Sys2Proof
end

