-- ==== Sys2Proof/Config.lean ====
section
/-! DEFINITION. The fixed bounds and sizes of the part. The manual leaves no result value open, so there is no free
value among them. -/

namespace Sys2Proof.Config

/-- The farthest distance at which a time is ahead (R4). -/
def aheadWindow : Nat := 2147483647

/-- Commands a command queue holds (R181). -/
def commandQueueBound : Nat := 4

/-- Entries of a reply queue, replies and a set-aside entry together (R183). -/
def replyQueueBound : Nat := 4

/-- Records an event queue holds (R188). -/
def eventQueueBound : Nat := 16

/-- Records one READ_EVENTS returns at most (R189). -/
def eventsPerRead : Nat := 4

/-- The longest request body (R174). -/
def maxRequestBody : Nat := 24

/-- Members an exclusion group has at most (R96, R103). -/
def groupBound : Nat := 4

/-- The largest sum of the four quotas at CONFIRM (R158), and the largest quota (R154). -/
def quotaLimit : Nat := 96

/-- Ticks in one unit of a lease (R154, R167). -/
def leaseUnit : Nat := 65536

/-- The largest missed count (R56). -/
def missedCeiling : Nat := 65535

/-- The byte SDOn carries after the outbound stream (R197). -/
def filler : Byte := 0xFF

/-- The code of an absent port or line (R193). -/
def absentCode : Byte := 0xFF

end Sys2Proof.Config
end

