-- ==== Sys2Proof/Machine/State.lean ====
section
/-! DEFINITION. The state of the T416: one record for each kind of block (spec 00, Blocks), as plain data, and its
value after device reset. -/

namespace Sys2Proof.Machine

/-! ### Time base (R1 to R3) -/

/-- The permitted prescales (R2). -/
inductive Prescale
  | by1
  | by2
  | by4
  | by8
deriving DecidableEq, Repr

/-- The time base. -/
structure TimeBase where
  tb : Time
  /-- prescale in force (R3) -/
  prescale : Prescale
  /-- REFCLK periods completed within the current tick (R2) -/
  tickCount : Nat
  pendingPrescale : Option Prescale
deriving DecidableEq, Repr

/-! ### Input pins (R200) -/

/-- One sampled input: the last sample, and the level sensed when two successive samples agree (R200). -/
structure Sampler where
  last : PinLevel
  sensed : PinLevel
deriving DecidableEq, Repr

/-- The sampled inputs, and the sensed changes not yet taken as events, oldest first. -/
structure Inputs where
  /-- device reset holds (R200) -/
  resetHeld : Bool
  resetPin : Sampler
  faultPin : Sampler
  selPins : Vector Sampler 4
  faultEdges : List PinLevel
  selEdges : Vector (List PinLevel) 4
deriving DecidableEq, Repr

/-! ### Cue table unit (R13 to R24, R68, R76) -/

/-- What an occurrence does to its line (R14). -/
inductive Action
  | set
  | clear
  | toggle
  | pulse
deriving DecidableEq, Repr

/-- Handling of a grid due that is not ahead of now (R14). -/
inductive MissPolicy
  | skip
  | fireLate
deriving DecidableEq, Repr

/-- A slot that is not FREE is PENDING or DEFERRED (R13). -/
inductive CueState
  | pending
  | deferred
deriving DecidableEq, Repr

/-- A staged record (R68). -/
structure StagedRecord where
  action : Option Action
  width : Option Half
  period : Option Triple
  remaining : Option Half
  /-- signed (R196) -/
  shift : Option Triple
deriving DecidableEq, Repr

/-- A cue record (R14). -/
structure Cue where
  state : CueState
  owner : Port
  line : Line
  action : Action
  width : Option Half
  gridDue : Time
  effDue : Option Time
  period : Option Triple
  remaining : Option Half
  notify : Bool
  missPolicy : MissPolicy
  missed : Half
  staged : Option StagedRecord
  set : Option SetId
  entry : Nat
deriving DecidableEq, Repr

/-- A slot: its generation, and its cue unless it is FREE (R13). -/
structure Slot where
  gen : Byte
  cue : Option Cue
deriving DecidableEq, Repr

/-- A commit set record (R76): owner and member count stand while it is not FREE, the commit time exactly in
SCHEDULED. -/
inductive CommitSet
  | free
  | opened (owner : Port) (members : Nat)
  | scheduled (owner : Port) (members : Nat) (commitTime : Time)
deriving DecidableEq, Repr

/-- The cue table unit. -/
structure CueTable where
  slots : Vector Slot 96
  /-- the pending list (R20) -/
  pendingList : List SlotId
  /-- the deferred lists of G1 to G6 (R23) -/
  deferred : Vector (List SlotId) 6
  /-- the next fresh entry order (R21) -/
  nextEntry : Nat
  sets : Vector CommitSet 8
deriving DecidableEq, Repr

/-! ### Output unit (R87, R96, R106) -/

/-- The level of a line. -/
inductive Level
  | inactive
  | active
deriving DecidableEq, Repr

/-- How a level shows at the pin (R88). -/
inductive Polarity
  | activeHigh
  | activeLow
deriving DecidableEq, Repr

/-- The answer of a group to an activation its check does not allow (R96). -/
inductive GroupPolicy
  | refuse
  | defer
deriving DecidableEq, Repr

/-- A line record (R87). -/
structure LineRecord where
  level : Level
  polarity : Polarity
  safe : Level
  group : Option Group
  pulseEnd : Option Time
  lastChange : Option Time
deriving DecidableEq, Repr

/-- A holdoff: the line that deactivated, or none when a configuration write set it, and the end of the gap (R96). -/
structure Holdoff where
  line : Option Line
  endsAt : Time
deriving DecidableEq, Repr

/-- A group record (R96). The members are the lines whose group field names the group. -/
structure GroupRecord where
  gap : Half
  policy : GroupPolicy
  holdoff : Option Holdoff
deriving DecidableEq, Repr

/-- The cause of a trip (R106). -/
inductive TripCause
  | input
  | port (p : Port)
deriving DecidableEq, Repr

/-- The trip record (R106): cause and entry time stand exactly while TRIPPED. -/
inductive Trip
  | normal
  | tripped (cause : TripCause) (entry : Time)
deriving DecidableEq, Repr

/-- The output unit with its trip controller. -/
structure OutputUnit where
  lines : Vector LineRecord 16
  groups : Vector GroupRecord 6
  trip : Trip
  /-- opening notices sent and not yet taken by the cue table unit (R101) -/
  notices : List Group
deriving DecidableEq, Repr

/-! ### Claim unit (R118, R126 to R132) -/

/-- What a reply needs to reach the command it answers: its port, its seq (R184), and how many lapses the port had
seen when the command was taken, which tells a reply owed to a flushed command (R185). -/
structure Ticket where
  port : Port
  seq : Byte
  epoch : Nat
deriving DecidableEq, Repr

/-- A holder and its claimed-at, present together (R118). -/
structure Holding where
  holder : Port
  claimedAt : Time
deriving DecidableEq, Repr

/-- A claim record (R118). -/
structure ClaimRecord where
  held : Option Holding
  waiters : List Port
deriving DecidableEq, Repr

/-- How far a RELEASE has come at the claim unit: passed without a purge and not yet decided (R128), waiting for its
safe-level drive, or waiting for its transfer (R126). -/
inductive ReleaseStage
  | undecided
  | drive
  | transfer
deriving DecidableEq, Repr

/-- A RELEASE in progress at the claim unit. -/
structure ReleaseJob where
  ticket : Ticket
  line : Line
  stage : ReleaseStage
deriving DecidableEq, Repr

/-- How far a port release has come (R130, R131): before its start event, or with lines still to give up in ascending
order and whether the drive of the first has been taken. -/
inductive GiveUp
  | notStarted
  | giving (lines : List Line) (driven : Bool)
deriving DecidableEq, Repr

/-- A port release in progress, with the DETACH reply it will owe, if any. -/
structure PortRelease where
  owes : Option Ticket
  stage : GiveUp
deriving DecidableEq, Repr

/-- How far the halt release has come (R132). -/
inductive HaltRelease
  | idle
  /-- the drive of every line is asked for -/
  | drive
  /-- the drive has been taken -/
  | release
  /-- the completion notice is on its way to the session unit -/
  | notice
deriving DecidableEq, Repr

/-- The claim unit. -/
structure ClaimUnit where
  records : Vector ClaimRecord 16
  releases : Vector (Option ReleaseJob) 4
  /-- RELEASEs of a lapsed port that were not over when its port release completed, oldest first (R128, R130; log 16) -/
  late : Vector (List ReleaseJob) 4
  /-- port releases of a DETACH -/
  detaching : Vector (Option PortRelease) 4
  /-- port releases of a lapse -/
  lapsing : Vector (Option PortRelease) 4
  /-- completion notices of DETACHes, oldest first -/
  detachDone : Vector (List Ticket) 4
  /-- completion notices of lapse cleanups -/
  lapseDone : Vector Bool 4
  halt : HaltRelease
deriving DecidableEq, Repr

/-! ### List arbiter (R136 to R142) -/

/-- The two classes of list-class requests (R136). -/
inductive ListClass
  | urgent
  | normal
deriving DecidableEq, Repr

/-- The two pairs of ports. -/
inductive PairName
  | pairA
  | pairB
deriving DecidableEq, Repr

/-- The seven switches (R140). A pair switch is written as the port it points at within its pair: `false` for the
first (P0 or P2), `true` for the second (P1 or P3). -/
structure Switches where
  classSwitch : ListClass
  urgentRoot : PairName
  urgentA : Bool
  urgentB : Bool
  normalRoot : PairName
  normalA : Bool
  normalB : Bool
deriving DecidableEq, Repr

/-- Purge requests that wait on an urgent leaf (R136, R138). -/
inductive PurgeRequest
  | lapse
  | halt
deriving DecidableEq, Repr

/-- The list arbiter. -/
structure Arbiter where
  switches : Switches
  /-- the port's head command waits on the leaf of its class -/
  presented : Vector Bool 4
  /-- purge requests on the port's urgent leaf, first in first out -/
  purges : Vector (List PurgeRequest) 4
deriving DecidableEq, Repr

/-! ### Session unit (R147, R154) -/

/-- The phase. -/
inductive Phase
  | setup
  | run
deriving DecidableEq, Repr

/-- What waits for the completion of a halt (R163, R165). -/
inductive HaltWaiter
  /-- the reply to the decisive vote, with the number of ports ATTACHED at the decision -/
  | vote (t : Ticket) (attached : Nat)
  /-- the reply to the DETACH whose completion decided the halt -/
  | detach (t : Ticket)
  /-- the cleanup flag of the port whose lapse cleanup decided the halt -/
  | lapse (p : Port)
deriving DecidableEq, Repr

/-- The session unit. Of the configuration (R154) it holds the prescale, the leases and the quotas; the items of lines
and groups are held in the records into which a write hands them in the same event (R156). -/
structure Session where
  phase : Phase
  prescale : Prescale
  lease : Vector Byte 4
  quota : Vector Byte 4
  version : Half
  confirmed : Vector Bool 4
  voted : Vector Bool 4
  haltCleanup : Bool
  haltWaiter : Option HaltWaiter
deriving DecidableEq, Repr

/-! ### Port units (chapter 10) -/

/-- Port states (R148). -/
inductive PortState
  | detached
  | attached
  | lapsed
deriving DecidableEq, Repr

/-- The kinds of command a request names (R194). -/
inductive CommandKind
  | null
  | attach
  | detach
  | readTime
  | writeConfig
  | readConfig
  | confirm
  | haltVote
  | claim
  | release
  | queryLine
  | addCue
  | cancelCue
  | queryCue
  | stage
  | unstage
  | openSet
  | commitSet
  | abandonSet
  | readEvents
  | ackEvents
  | trip
  | clearTrip
deriving DecidableEq, Repr

/-- Reply statuses (R197). -/
inductive Status
  | ok
  | queued
  | busy
  | notAttached
  | wrongPhase
  | notOwner
  | late
  | quota
  | noSlot
  | badField
  | badHandle
  | badKind
  | badConfig
  | versionMismatch
  | conflict
  | wrongState
  | stillFaulted
  /-- NONE, only in the empty reply (R173) -/
  | none
deriving DecidableEq, Repr

/-- Drop reasons (R182). -/
inductive DropReason
  | none
  | crc
  | short
  | badLength
  | queueFull
  | replyFull
  | duplicate
deriving DecidableEq, Repr

/-- Kinds of event record (R199). -/
inductive EventKind
  | fired
  | missed
  | refused
  | done
  | setApplied
  | claimGranted
  | peerLapsed
  | tripped
  | tripCleared
  | phase
deriving DecidableEq, Repr

/-- An event record (R188, R199). -/
structure EventRecord where
  kind : EventKind
  aux : Byte
  ref : Half
  value : Half
  time : Time
deriving DecidableEq, Repr

/-- A queued request (R174): the kind byte is judged when the request reaches the head (R181). -/
structure Request where
  kind : Byte
  seq : Byte
  body : List Byte
deriving DecidableEq, Repr

/-- A reply (R184, R197); its len is the length of its body and its CRC follows from the rest (R175). -/
structure Reply where
  status : Status
  seq : Byte
  body : List Byte
deriving DecidableEq, Repr

/-- The last accepted request (R180). -/
structure LastAccepted where
  seq : Byte
  crc : Half
  answered : Bool
deriving DecidableEq, Repr

/-- The fields of the status header (R187) as captured at the frame start. -/
structure StatusHeader where
  phase : Phase
  tripped : Bool
  portState : PortState
  cleanup : Bool
  replyCount : Nat
  commandFree : Nat
  eventCount : Nat
  drop : DropReason
  port : Port
deriving DecidableEq, Repr

/-- The outbound snapshot of an open frame (R173): the header, the reply shifted, and whether that reply is the head
of the reply queue (it is not when the empty reply was captured, or after a lapse emptied the queue, R176). -/
structure Snapshot where
  header : StatusHeader
  reply : Reply
  held : Bool
deriving DecidableEq, Repr

/-- A port unit. -/
structure PortUnit where
  state : PortState
  cleanup : Bool
  leaseEnd : Option Time
  cmds : List Request
  replies : List Reply
  setAside : Bool
  owed : Bool
  events : List EventRecord
  overflow : Byte
  lastAccepted : Option LastAccepted
  lastReply : Option Reply
  drop : DropReason
  snapshot : Option Snapshot
  /-- replies produced and not yet arrived (R184), in the order produced -/
  produced : List (Ticket × Reply)
  /-- event records posted and not yet taken by the port unit (R188), in the order posted -/
  posted : List EventRecord
  /-- the model's own count of lapses since reset (log 12) -/
  epoch : Nat
deriving DecidableEq, Repr

/-! ### The whole part -/

/-- The state of the part, with the commands that wait to be taken. -/
structure State where
  timeBase : TimeBase
  inputs : Inputs
  cueTable : CueTable
  output : OutputUnit
  claims : ClaimUnit
  arbiter : Arbiter
  session : Session
  ports : Vector PortUnit 4
  pending : List Instr
deriving DecidableEq, Repr

/-- Why a step stops with a fault: never. The manual names no event that stops the part, and every command of the
model answers a next state, so this type has no constructor. -/
inductive Fault
deriving DecidableEq, Repr

/-- Why a step is refused. -/
inductive Refusal
  /-- Raised by `exec` for a command that has no meaning yet, by its mnemonic. Safe: the model stops. No arm of
  `exec` raises it now. -/
  | notModelled (mnemonic : String)
deriving DecidableEq, Repr

/-- What a step answers. -/
abbrev Answer := Host.Outcome State Fault Refusal

/-! ### Reset values -/

/-- The time base after device reset (R1 to R3). -/
def TimeBase.reset : TimeBase := { tb := 0, prescale := .by1, tickCount := 0, pendingPrescale := none }

/-- An input that has stood high (log 6). -/
def Sampler.idle : Sampler := { last := .high, sensed := .high }

/-- The inputs right after a reset that has ended with every input high. DESIGN CHOICE, unsafe (log 6). -/
def Inputs.reset : Inputs :=
  { resetHeld := false, resetPin := .idle, faultPin := .idle, selPins := Vector.replicate 4 .idle,
    faultEdges := [], selEdges := Vector.replicate 4 [] }

/-- The cue table unit after device reset (R13, R21, R76). -/
def CueTable.reset : CueTable :=
  { slots := Vector.replicate 96 { gen := 0, cue := none }, pendingList := [],
    deferred := Vector.replicate 6 [], nextEntry := 0, sets := Vector.replicate 8 .free }

/-- A line record after device reset (R87). -/
def LineRecord.reset : LineRecord :=
  { level := .inactive, polarity := .activeHigh, safe := .inactive, group := none, pulseEnd := none,
    lastChange := none }

/-- A group record after device reset (R96). -/
def GroupRecord.reset : GroupRecord := { gap := 0, policy := .refuse, holdoff := none }

/-- The output unit after device reset (R87, R96, R106). -/
def OutputUnit.reset : OutputUnit :=
  { lines := Vector.replicate 16 .reset, groups := Vector.replicate 6 .reset, trip := .normal, notices := [] }

/-- The claim unit after device reset (R118). -/
def ClaimUnit.reset : ClaimUnit :=
  { records := Vector.replicate 16 { held := none, waiters := [] }, releases := Vector.replicate 4 none,
    late := Vector.replicate 4 [],
    detaching := Vector.replicate 4 none, lapsing := Vector.replicate 4 none,
    detachDone := Vector.replicate 4 [], lapseDone := Vector.replicate 4 false, halt := .idle }

/-- The switch positions after device reset (R140). -/
def Switches.reset : Switches :=
  { classSwitch := .urgent, urgentRoot := .pairA, urgentA := false, urgentB := false,
    normalRoot := .pairA, normalA := false, normalB := false }

/-- The list arbiter after device reset (R140). -/
def Arbiter.reset : Arbiter :=
  { switches := .reset, presented := Vector.replicate 4 false, purges := Vector.replicate 4 [] }

/-- The session unit after device reset (R147, R154). -/
def Session.reset : Session :=
  { phase := .setup, prescale := .by1, lease := Vector.replicate 4 32, quota := Vector.replicate 4 24,
    version := 0, confirmed := Vector.replicate 4 false, voted := Vector.replicate 4 false,
    haltCleanup := false, haltWaiter := none }

/-- A port unit after device reset (R192). -/
def PortUnit.reset : PortUnit :=
  { state := .detached, cleanup := false, leaseEnd := none, cmds := [], replies := [], setAside := false,
    owed := false, events := [], overflow := 0, lastAccepted := none, lastReply := none, drop := .none,
    snapshot := none, produced := [], posted := [], epoch := 0 }

/-- The part right after device reset has ended with FAULT# high (spec 00, Device Reset; log 6). -/
def State.reset : State :=
  { timeBase := .reset, inputs := .reset, cueTable := .reset, output := .reset, claims := .reset,
    arbiter := .reset, session := .reset, ports := Vector.replicate 4 .reset, pending := [] }

end Sys2Proof.Machine
end

