-- ==== Sys2Proof/Machine/Ops.lean ====
section
/-! DEFINITION. The operations every block shares: tables, time arithmetic (R4 to R6), the state's blocks, posting of
events (R188), taking of commands and answering of replies (R137, R183, R184). -/

namespace Sys2Proof.Machine

/-! ### Tables -/

/-- The entry of a table. -/
def look {α : Type} {n : Nat} (v : Vector α n) (i : Fin n) : α := v[i.val]

/-- A table with one entry replaced. -/
def put {α : Type} {n : Nat} (v : Vector α n) (i : Fin n) (x : α) : Vector α n := v.set i.val x i.isLt

/-- A table with one entry changed. -/
def change {α : Type} {n : Nat} (v : Vector α n) (i : Fin n) (f : α → α) : Vector α n := put v i (f (look v i))

/-- A table with every entry changed. -/
def changeAll {α : Type} {n : Nat} (v : Vector α n) (f : α → α) : Vector α n :=
  ⟨⟨v.toList.map f⟩, by simp⟩

/-- The indices of a table, ascending. -/
def indices (n : Nat) : List (Fin n) := List.finRange n

/-- Places `x` before the first item that stands after it. -/
def insertBefore {α : Type} (standsAfter : α → Bool) (x : α) : List α → List α
  | [] => [x]
  | y :: ys => if standsAfter y then x :: y :: ys else y :: insertBefore standsAfter x ys

/-! ### Time (R4 to R6) -/

/-- The distance from `a` to `b` (R4). -/
def distance (a b : Time) : Nat := (b - a).toNat

/-- `b` is ahead of `a` (R4). -/
def isAhead (a b : Time) : Bool := 0 < distance a b && distance a b ≤ Config.aheadWindow

/-- `b` is behind `a` (R4). -/
def isBehind (a b : Time) : Bool := Config.aheadWindow < distance a b

/-- The time `n` ticks after `t`, modulo 2^32 (R6). -/
def later (t : Time) (n : Nat) : Time := t + BitVec.ofNat 32 n

/-- The time moved by a signed shift, modulo 2^32 (R6, R82). -/
def shifted (t : Time) (shift : Triple) : Time := t + shift.signExtend 32

/-- Where `t` stands as judged from `now`, as a signed number of ticks: behind is negative, farther behind smaller
(R24). -/
def signedDistance (now t : Time) : Int := (t - now).toInt

/-! ### Prescales -/

/-- REFCLK periods in one tick (R2). -/
def Prescale.periods : Prescale → Nat
  | .by1 => 1
  | .by2 => 2
  | .by4 => 4
  | .by8 => 8

/-! ### The blocks of the state -/

def State.setTimeBase (s : State) (b : TimeBase) : State := { s with timeBase := b }
def State.setInputs (s : State) (b : Inputs) : State := { s with inputs := b }
def State.setCueTable (s : State) (b : CueTable) : State := { s with cueTable := b }
def State.setOutput (s : State) (b : OutputUnit) : State := { s with output := b }
def State.setClaims (s : State) (b : ClaimUnit) : State := { s with claims := b }
def State.setArbiter (s : State) (b : Arbiter) : State := { s with arbiter := b }
def State.setSession (s : State) (b : Session) : State := { s with session := b }
def State.setPorts (s : State) (b : Vector PortUnit 4) : State := { s with ports := b }

/-- Now: the value of TB at the event (R5). -/
def State.now (s : State) : Time := s.timeBase.tb

/-- The port unit of a port. -/
def State.port (s : State) (p : Port) : PortUnit := look s.ports p

/-- The state with one port unit changed. -/
def State.changePort (s : State) (p : Port) (f : PortUnit → PortUnit) : State := s.setPorts (change s.ports p f)

/-- The part takes events: device reset is not held, and no sensed change of RESET# waits to be taken (R192, R200). -/
def State.live (s : State) : Bool := !s.inputs.resetHeld && s.inputs.resetPin.sensed == .high

/-- The port is ATTACHED (R148). -/
def State.attached (s : State) (p : Port) : Bool := (s.port p).state == .attached

/-- The ATTACHED ports, ascending. -/
def State.attachedPorts (s : State) : List Port := (indices 4).filter s.attached

/-- The part is in the trip state TRIPPED (R106). -/
def Trip.isTripped : Trip → Bool
  | .normal => false
  | .tripped _ _ => true

/-- An event of the part: it is taken in a part that is live, and nothing happens otherwise (R192; log 1, 8). -/
def whenLive (s : State) (event : State → State) : Answer := .next (if s.live then event s else s)

/-! ### Posting of events (R188) -/

/-- Posts a record to a port: it is on its way to the port unit of an ATTACHED port, and to no other (R61, R188). -/
def post (p : Port) (e : EventRecord) (s : State) : State :=
  if s.attached p then s.changePort p (fun u => { u with posted := u.posted ++ [e] }) else s

/-- Posts a record to each of several ports. -/
def postEach (ps : List Port) (e : EventRecord) (s : State) : State := ps.foldl (fun s p => post p e s) s

/-- Posts a record to every ATTACHED port. -/
def postAll (e : EventRecord) (s : State) : State := postEach (indices 4) e s

/-! ### Taking commands and answering them (R137, R183, R184) -/

/-- The reply queue has a free entry: it holds fewer than four entries, a set-aside entry counted (R183). -/
def PortUnit.freeEntry (u : PortUnit) : Bool :=
  u.replies.length + (if u.setAside then 1 else 0) < Config.replyQueueBound

/-- The head command, when it may be taken: it has not been taken already, and the reply queue has a free entry
(R183). -/
def State.head (s : State) (p : Port) : Option Request :=
  let u := s.port p
  if u.setAside || !u.freeEntry then none else u.cmds.head?

/-- What the reply to a request of this port needs to find its way. -/
def State.ticket (s : State) (p : Port) (r : Request) : Ticket :=
  { port := p, seq := r.seq, epoch := (s.port p).epoch }

/-- Takes the head command of a port: its reply entry is set aside, and it waits on no leaf (R137, R144, R183). -/
def takeHead (p : Port) (s : State) : State :=
  (s.changePort p (fun u => { u with setAside := true })).setArbiter
    { s.arbiter with presented := put s.arbiter.presented p false }

/-- Produces the reply to a command: it is on its way to the port unit (R184). -/
def answer (t : Ticket) (status : Status) (body : List Byte) (s : State) : State :=
  s.changePort t.port (fun u =>
    { u with produced := u.produced ++ [(t, { status := status, seq := t.seq, body := body })] })

/-- The reply belongs to the port's present run of commands: no lapse has flushed its command (R185). -/
def State.current (s : State) (t : Ticket) : Bool := t.epoch == (s.port t.port).epoch

end Sys2Proof.Machine
end

