-- ==== Sys2Proof/Machine/Operands.lean ====
section
/-! DEFINITION. The formats of chapter 11: bytes of numbers, codes of names, request kinds and bodies, the CRC,
replies and event records (R174, R175, R193 to R199). -/

namespace Sys2Proof.Machine

/-! ### Numbers as bytes, most significant first (R193) -/

def halfBytes (x : Half) : List Byte := [x.extractLsb' 8 8, x.extractLsb' 0 8]
def tripleBytes (x : Triple) : List Byte := [x.extractLsb' 16 8, x.extractLsb' 8 8, x.extractLsb' 0 8]
def timeBytes (x : Time) : List Byte :=
  [x.extractLsb' 24 8, x.extractLsb' 16 8, x.extractLsb' 8 8, x.extractLsb' 0 8]

/-- The byte at an offset of a body. -/
def byteAt (b : List Byte) (i : Nat) : Byte := b.getD i 0
def halfAt (b : List Byte) (i : Nat) : Half := byteAt b i ++ byteAt b (i + 1)
def tripleAt (b : List Byte) (i : Nat) : Triple := byteAt b i ++ byteAt b (i + 1) ++ byteAt b (i + 2)
def timeAt (b : List Byte) (i : Nat) : Time := byteAt b i ++ byteAt b (i + 1) ++ byteAt b (i + 2) ++ byteAt b (i + 3)

/-- A count as one byte. -/
def countByte (n : Nat) : Byte := BitVec.ofNat 8 n

/-- A flag byte: 1 when the condition holds (R197). -/
def flagByte (b : Bool) : Byte := if b then 1 else 0

/-- Eight bits, the first the most significant (R172). -/
def byteOfBits (bits : List Bool) : Byte := BitVec.ofNat 8 (bits.foldl (fun n b => 2 * n + b.toNat) 0)

/-- The whole bytes of a frame; bits after the last whole byte are ignored (R172). -/
def bytesOfBits : List Bool → List Byte
  | b7 :: b6 :: b5 :: b4 :: b3 :: b2 :: b1 :: b0 :: rest =>
      byteOfBits [b7, b6, b5, b4, b3, b2, b1, b0] :: bytesOfBits rest
  | _ => []

/-- The bits of a byte as they are shifted, most significant first (R172). -/
def bitsOfByte (b : Byte) : List Bool :=
  [b.getLsbD 7, b.getLsbD 6, b.getLsbD 5, b.getLsbD 4, b.getLsbD 3, b.getLsbD 2, b.getLsbD 1, b.getLsbD 0]

/-! ### The CRC (R175) -/

/-- One bit through the CRC register. -/
def crcBit (reg : Half) (bit : Bool) : Half := if reg.msb != bit then (reg <<< 1) ^^^ 0x1021 else reg <<< 1

/-- The CRC-16 of a run of bytes. -/
def crc16 (bytes : List Byte) : Half := bytes.foldl (fun reg b => (bitsOfByte b).foldl crcBit reg) 0xFFFF

/-! ### Codes of names (R193) -/

def portCode (p : Port) : Byte := BitVec.ofNat 8 p.val
def portCode? (p : Option Port) : Byte := match p with
  | some q => portCode q
  | none => Config.absentCode
def lineCode (l : Line) : Byte := BitVec.ofNat 8 l.val
def lineCode? (l : Option Line) : Byte := match l with
  | some m => lineCode m
  | none => Config.absentCode
/-- 1 to 6 for G1 to G6. -/
def groupCode (g : Group) : Byte := BitVec.ofNat 8 (g.val + 1)
def groupCode? (g : Option Group) : Byte := match g with
  | some h => groupCode h
  | none => 0
def setCode (k : SetId) : Byte := BitVec.ofNat 8 k.val
def phaseCode : Phase → Byte
  | .setup => 0
  | .run => 1
def levelCode : Level → Byte
  | .inactive => 0
  | .active => 1
def actionCode : Action → Byte
  | .set => 0
  | .clear => 1
  | .toggle => 2
  | .pulse => 3
def causeCode : TripCause → Byte
  | .port p => portCode p
  | .input => 4
def prescaleCode (p : Prescale) : Byte := BitVec.ofNat 8 p.periods
def polarityCode : Polarity → Byte
  | .activeHigh => 0
  | .activeLow => 1
def policyCode : GroupPolicy → Byte
  | .refuse => 0
  | .defer => 1

/-- A handle on the wire: the slot first, the generation second (R15, R193). -/
def handleCode (i : SlotId) (gen : Byte) : Half := BitVec.ofNat 8 i.val ++ gen

/-- The index a byte names, when it is in range. -/
def indexOf (n : Nat) (b : Byte) : Option (Fin n) := if h : b.toNat < n then some ⟨b.toNat, h⟩ else none

def actionOf (b : Byte) : Option Action :=
  if b = 0 then some .set else if b = 1 then some .clear else if b = 2 then some .toggle
  else if b = 3 then some .pulse else none

/-- The group a byte names: G1 to G6 are 1 to 6. -/
def groupOf (b : Byte) : Option Group := if b = 0 then none else indexOf 6 (b - 1)

/-! ### Request kinds (R194) -/

/-- The command a kind byte selects. -/
def kindOf (b : Byte) : Option CommandKind :=
  match b.toNat with
  | 0x00 => some .null
  | 0x01 => some .attach
  | 0x02 => some .detach
  | 0x03 => some .readTime
  | 0x10 => some .writeConfig
  | 0x11 => some .readConfig
  | 0x12 => some .confirm
  | 0x13 => some .haltVote
  | 0x20 => some .claim
  | 0x21 => some .release
  | 0x22 => some .queryLine
  | 0x30 => some .addCue
  | 0x31 => some .cancelCue
  | 0x32 => some .queryCue
  | 0x33 => some .stage
  | 0x34 => some .unstage
  | 0x35 => some .openSet
  | 0x36 => some .commitSet
  | 0x37 => some .abandonSet
  | 0x40 => some .readEvents
  | 0x41 => some .ackEvents
  | 0x50 => some .trip
  | 0x51 => some .clearTrip
  | _ => none

/-- The bytes of body a command reads (R194). -/
def bodyLength : CommandKind → Nat
  | .null | .attach | .detach | .readTime | .haltVote | .openSet | .trip | .clearTrip => 0
  | .writeConfig => 4
  | .readConfig => 2
  | .confirm => 2
  | .claim => 2
  | .release | .queryLine => 1
  | .addCue => 14
  | .cancelCue | .queryCue | .unstage => 2
  | .stage => 15
  | .commitSet => 5
  | .abandonSet => 1
  | .readEvents | .ackEvents => 1

/-- The class of a list-class command (R136). -/
def listClass : CommandKind → Option ListClass
  | .cancelCue | .release | .detach => some .urgent
  | .addCue | .queryCue | .stage | .unstage | .openSet | .commitSet | .abandonSet => some .normal
  | .null | .attach | .readTime | .writeConfig | .readConfig | .confirm | .haltVote | .claim | .queryLine
  | .readEvents | .ackEvents | .trip | .clearTrip => none

/-- The commands a port that is not attached may use (R148); the fourth, NULL, is never queued (R179). -/
def usableUnattached : CommandKind → Bool
  | .attach | .readTime | .queryLine => true
  | .null | .detach | .writeConfig | .readConfig | .confirm | .haltVote | .claim | .release
  | .addCue | .cancelCue | .queryCue | .stage | .unstage | .openSet | .commitSet | .abandonSet
  | .readEvents | .ackEvents | .trip | .clearTrip => false

/-! ### The body of ADD_CUE (R195, R28) -/

/-- A checked ADD_CUE body. -/
structure CueRequest where
  line : Line
  action : Action
  width : Option Half
  immediate : Bool
  due : Time
  period : Option Triple
  remaining : Option Half
  notify : Bool
  missPolicy : MissPolicy
deriving DecidableEq, Repr

/-- The width is present exactly with PULSE, and is not 0 (R28). -/
def widthFits (a : Action) (w : Option Half) : Bool :=
  match w with
  | none => a != .pulse
  | some n => a == .pulse && n != 0

/-- A two-bit choice of which only 00 and 01 are defined (R195). -/
def choiceOf {α : Type} (hi lo : Bool) (zero one : α) : Option α :=
  if hi then none else some (if lo then one else zero)

/-- Reads the ADD_CUE body; none where a field is refused with BAD_FIELD (R28). -/
def parseAddCue (b : List Byte) : Option CueRequest :=
  let o := byteAt b 2
  let width := if o.getLsbD 6 then some (halfAt b 3) else none
  let period := if o.getLsbD 5 then some (tripleAt b 9) else none
  let remaining := if o.getLsbD 4 then some (halfAt b 12) else none
  match indexOf 16 (byteAt b 0), actionOf (byteAt b 1), choiceOf (o.getLsbD 3) (o.getLsbD 2) false true,
      choiceOf (o.getLsbD 1) (o.getLsbD 0) MissPolicy.skip .fireLate with
  | some line, some action, some notify, some miss =>
    if b.length < bodyLength .addCue || !widthFits action width || period == some 0 || remaining == some 0
        || (remaining.isSome && period.isNone) then none
    else some { line := line, action := action, width := width, immediate := o.getLsbD 7, due := timeAt b 5,
                period := period, remaining := remaining, notify := notify, missPolicy := miss }
  | _, _, _, _ => none

/-- The options byte of QUERY_CUE: as in R195 with bit 7 clear (R197). -/
def optionsByte (c : Cue) : Byte :=
  let bit (b : Bool) (v : Byte) : Byte := if b then v else 0
  bit c.width.isSome 0x40 ||| bit c.period.isSome 0x20 ||| bit c.remaining.isSome 0x10
    ||| bit c.notify 0x04 ||| bit (c.missPolicy == .fireLate) 0x01

/-! ### The body of STAGE (R196, R70) -/

/-- The fields of a STAGE body as they stand in it, each present or absent. -/
structure StageBody where
  action : Option Byte
  width : Option Half
  period : Option Triple
  remaining : Option Half
  shift : Option Triple
  set : Option Byte
deriving DecidableEq, Repr

def stageBody (b : List Byte) : StageBody :=
  let p := byteAt b 2
  { action := if p.getLsbD 4 then some (byteAt b 3) else none
    width := if p.getLsbD 3 then some (halfAt b 4) else none
    period := if p.getLsbD 2 then some (tripleAt b 6) else none
    remaining := if p.getLsbD 1 then some (halfAt b 9) else none
    shift := if p.getLsbD 0 then some (tripleAt b 11) else none
    set := if p.getLsbD 7 then some (byteAt b 14) else none }

/-- No field of the record is present (R70). -/
def StageBody.isEmpty (f : StageBody) : Bool :=
  f.action.isNone && f.width.isNone && f.period.isNone && f.remaining.isNone && f.shift.isNone

/-- The staged width fits the staged action, or without one the cue's own (R70). -/
def StageBody.widthFits (f : StageBody) (a : Option Action) (c : Cue) : Bool :=
  match a, f.width with
  | some a, w => Machine.widthFits a w
  | none, some w => c.action == .pulse && w != 0
  | none, none => true

/-- A non-zero remaining needs a period after application (R70). -/
def StageBody.remainingFits (f : StageBody) (c : Cue) : Bool :=
  match f.remaining with
  | none => true
  | some n => n == 0 || (match f.period with
      | some p => p != 0
      | none => c.period.isSome)

/-- The third check of STAGE: the record the fields make for this cue, and the set named; none is BAD_FIELD (R70). -/
def StageBody.check (f : StageBody) (c : Cue) : Option (StagedRecord × Option SetId) :=
  let action : Option (Option Action) := match f.action with
    | none => some none
    | some b => (actionOf b).map some
  let set : Option (Option SetId) := match f.set with
    | none => some none
    | some b => (indexOf 8 b).map some
  match action, set with
  | some a, some k =>
    if f.isEmpty || !f.widthFits a c || !f.remainingFits c then none
    else some ({ action := a, width := f.width, period := f.period, remaining := f.remaining, shift := f.shift }, k)
  | _, _ => none

/-! ### Configuration items (R154, R194) -/

/-- An item with its index. -/
inductive ConfigItem
  | prescale
  | polarity (l : Line)
  | safeLevel (l : Line)
  | group (l : Line)
  | gap (g : Group)
  | policy (g : Group)
  | lease (p : Port)
  | quota (p : Port)
  | members (g : Group)
deriving DecidableEq, Repr

/-- The item a pair of bytes names; none where the item is unknown or the index out of range (R155, R157). -/
def itemOf (item index : Byte) : Option ConfigItem :=
  match item.toNat with
  | 0 => if index = 0 then some .prescale else none
  | 1 => (indexOf 16 index).map .polarity
  | 2 => (indexOf 16 index).map .safeLevel
  | 3 => (indexOf 16 index).map .group
  | 4 => (groupOf index).map .gap
  | 5 => (groupOf index).map .policy
  | 6 => (indexOf 4 index).map .lease
  | 7 => (indexOf 4 index).map .quota
  | 8 => (groupOf index).map .members
  | _ => none

/-- A write whose value is in range (R154). -/
inductive ConfigWrite
  | prescale (v : Prescale)
  | polarity (l : Line) (v : Polarity)
  | safeLevel (l : Line) (v : Level)
  | group (l : Line) (v : Option Group)
  | gap (g : Group) (v : Half)
  | policy (g : Group) (v : GroupPolicy)
  | lease (p : Port) (v : Byte)
  | quota (p : Port) (v : Byte)
deriving DecidableEq, Repr

/-- The value of an item that the two bytes give; none where it is outside the codes (R194), and for members, which
cannot be written. -/
def writeOf (item : ConfigItem) (v : Half) : Option ConfigWrite :=
  match item with
  | .prescale => if v = 1 then some (.prescale .by1) else if v = 2 then some (.prescale .by2)
      else if v = 4 then some (.prescale .by4) else if v = 8 then some (.prescale .by8) else none
  | .polarity l => if v = 0 then some (.polarity l .activeHigh) else if v = 1 then some (.polarity l .activeLow)
      else none
  | .safeLevel l => if v = 0 then some (.safeLevel l .inactive) else if v = 1 then some (.safeLevel l .active)
      else none
  | .group l => if v = 0 then some (.group l none)
      else if v.toNat ≤ 6 then (groupOf (v.setWidth 8)).map (fun g => .group l (some g)) else none
  | .gap g => some (.gap g v)
  | .policy g => if v = 0 then some (.policy g .refuse) else if v = 1 then some (.policy g .defer) else none
  | .lease p => if v.toNat ≤ 255 then some (.lease p (v.setWidth 8)) else none
  | .quota p => if v.toNat ≤ Config.quotaLimit then some (.quota p (v.setWidth 8)) else none
  | .members _ => none

/-! ### Replies and the outbound stream (R197) -/

def statusCode : Status → Byte
  | .ok => 0x00
  | .queued => 0x01
  | .busy => 0x02
  | .notAttached => 0x03
  | .wrongPhase => 0x04
  | .notOwner => 0x05
  | .late => 0x06
  | .quota => 0x07
  | .noSlot => 0x08
  | .badField => 0x09
  | .badHandle => 0x0A
  | .badKind => 0x0B
  | .badConfig => 0x0C
  | .versionMismatch => 0x0D
  | .conflict => 0x0E
  | .wrongState => 0x0F
  | .stillFaulted => 0x10
  | .none => 0xFF

/-- The empty reply (R173). -/
def Reply.empty : Reply := { status := .none, seq := 0, body := [] }

/-- The bytes of a reply that its CRC covers (R175). -/
def Reply.covered (r : Reply) : List Byte := [statusCode r.status, r.seq, countByte r.body.length] ++ r.body

/-- The bytes of a reply. -/
def Reply.bytes (r : Reply) : List Byte := r.covered ++ halfBytes (crc16 r.covered)

/-! ### Event records (R199) -/

def eventCode : EventKind → Byte
  | .fired => 0x01
  | .missed => 0x02
  | .refused => 0x03
  | .done => 0x04
  | .setApplied => 0x05
  | .claimGranted => 0x06
  | .peerLapsed => 0x07
  | .tripped => 0x08
  | .tripCleared => 0x09
  | .phase => 0x0A

/-- The ten bytes of an event record. -/
def EventRecord.bytes (e : EventRecord) : List Byte :=
  [eventCode e.kind, e.aux] ++ halfBytes e.ref ++ halfBytes e.value ++ timeBytes e.time

end Sys2Proof.Machine
end

