-- ==== Sys2Proof/Machine/Flags.lean ====
section
/-! DEFINITION. What the part shows of its state: the status header (R187, R198), the outbound stream (R173), the
attention outputs (R191) and the line pins (R88). -/

namespace Sys2Proof.Machine

/-- The status header of a port as it stands (R187). -/
def State.header (s : State) (p : Port) : StatusHeader :=
  let u := s.port p
  { phase := s.session.phase, tripped := s.output.trip.isTripped, portState := u.state, cleanup := u.cleanup,
    replyCount := u.replies.length, commandFree := Config.commandQueueBound - u.cmds.length,
    eventCount := u.events.length, drop := u.drop, port := p }

def portStateCode : PortState → Byte
  | .detached => 0
  | .attached => 1
  | .lapsed => 2

def dropCode : DropReason → Byte
  | .none => 0
  | .crc => 1
  | .short => 2
  | .badLength => 3
  | .queueFull => 4
  | .replyFull => 5
  | .duplicate => 6

/-- The four bytes of the status header (R198). -/
def StatusHeader.bytes (h : StatusHeader) : List Byte :=
  [(phaseCode h.phase <<< 7) ||| (flagByte h.tripped <<< 6) ||| (portStateCode h.portState <<< 4)
      ||| (flagByte h.cleanup <<< 3) ||| countByte h.replyCount,
    (countByte h.commandFree <<< 5) ||| countByte h.eventCount,
    dropCode h.drop,
    portCode h.port]

/-- The outbound stream of a frame (R173): 9 bytes and the reply's body. -/
def Snapshot.stream (f : Snapshot) : List Byte := f.header.bytes ++ f.reply.bytes

/-- The byte at a place of the frame on SDOn: the stream, then filler (R173, R197). -/
def Snapshot.sdoByte (f : Snapshot) (k : Nat) : Byte := f.stream.getD k Config.filler

/-- The outbound snapshot of a frame that starts now (R173). -/
def State.snapshotNow (s : State) (p : Port) : Snapshot :=
  { header := s.header p, reply := (s.port p).replies.head?.getD .empty, held := !(s.port p).replies.isEmpty }

/-- SELn# has fallen at its latest sample and the frame start is still to come: the fall is not sensed yet, or it is
sensed and FRAME_START is not taken (R200). -/
def State.frameStartWaits (s : State) (p : Port) : Bool :=
  (look s.inputs.selPins p).sensed == .high || (look s.inputs.selEdges p).contains .low

/-- What SDOn shifts out, and none (high impedance) while SELn# is high at its latest sample and while RESET# is held
(R172, R192). From the fall of SELn# to the frame start it is the snapshot that the frame start would capture now.
DESIGN CHOICE (log 28). Where reset has ended while SELn# still stays low from before (the abandoned frame of R192), no
frame is open and none waits to start, and SDOn stays at high impedance until SELn# has risen and fallen; the manual does
not say what it does then. DESIGN CHOICE (log 32). -/
def State.sdoSnapshot (s : State) (p : Port) : Option Snapshot :=
  if s.inputs.resetHeld || (look s.inputs.selPins p).last == .high then none
  else if s.frameStartWaits p then some (s.snapshotNow p)
  else (s.port p).snapshot

/-- The bit on SDOn after `k` whole clocks of the frame (R172, R173). -/
def State.sdoBit (s : State) (p : Port) (k : Nat) : Option Bool :=
  (s.sdoSnapshot p).map (fun f => (f.sdoByte (k / 8)).getLsbD (7 - k % 8))

/-- ATTNn# is low while a reply or an event record is held (R191). -/
def State.attnPin (s : State) (p : Port) : PinLevel :=
  if (s.port p).replies.isEmpty && (s.port p).events.isEmpty then .high else .low

/-- The pin of a line (R88). -/
def pinLevel : Level → Polarity → PinLevel
  | .active, .activeHigh => .high
  | .inactive, .activeHigh => .low
  | .active, .activeLow => .low
  | .inactive, .activeLow => .high

/-- OUTn (R88). -/
def State.outPin (s : State) (l : Line) : PinLevel :=
  pinLevel (look s.output.lines l).level (look s.output.lines l).polarity

end Sys2Proof.Machine
end

