-- ==== Sys2Proof/Machine/Arbiter.lean ====
section
/-! DEFINITION. The list arbiter: leaves, the walk, the switches and the grant (R136 to R145), and PRESENT_REQUEST. -/

namespace Sys2Proof.Machine

/-- Which of the eight leaves hold a request. -/
structure Leaves where
  urgent : Vector Bool 4
  normal : Vector Bool 4
deriving DecidableEq, Repr

/-- A port's leaf of a class holds a request. -/
def Leaves.holds (v : Leaves) (c : ListClass) (p : Port) : Bool :=
  match c with
  | .urgent => look v.urgent p
  | .normal => look v.normal p

/-- The two ports of a pair, in the order of its switch's branches (R140). -/
def PairName.first : PairName → Port
  | .pairA => 0
  | .pairB => 2

def PairName.second : PairName → Port
  | .pairA => 1
  | .pairB => 3

def PairName.other : PairName → PairName
  | .pairA => .pairB
  | .pairB => .pairA

def ListClass.other : ListClass → ListClass
  | .urgent => .normal
  | .normal => .urgent

/-- The pair a port belongs to. -/
def pairOf (p : Port) : PairName := if p.val < 2 then .pairA else .pairB

/-- A request waits below a pair's switch. -/
def Leaves.pairHolds (v : Leaves) (c : ListClass) (q : PairName) : Bool := v.holds c q.first || v.holds c q.second

/-- A request waits below a root switch. -/
def Leaves.classHolds (v : Leaves) (c : ListClass) : Bool := v.pairHolds c .pairA || v.pairHolds c .pairB

def Switches.root (w : Switches) : ListClass → PairName
  | .urgent => w.urgentRoot
  | .normal => w.normalRoot

def Switches.pairSwitch (w : Switches) : ListClass → PairName → Bool
  | .urgent, .pairA => w.urgentA
  | .urgent, .pairB => w.urgentB
  | .normal, .pairA => w.normalA
  | .normal, .pairB => w.normalB

/-- The port a pair's switch points at. -/
def Switches.pointed (w : Switches) (c : ListClass) (q : PairName) : Port :=
  if w.pairSwitch c q then q.second else q.first

/-- The port of the pair the switch does not point at. -/
def Switches.unpointed (w : Switches) (c : ListClass) (q : PairName) : Port :=
  if w.pairSwitch c q then q.first else q.second

/-- The walk from the class switch down to one waiting leaf (R141); none where no request waits. -/
def Switches.walk (w : Switches) (v : Leaves) : Option (ListClass × Port) :=
  let c := if v.classHolds w.classSwitch then w.classSwitch else w.classSwitch.other
  let q := if v.pairHolds c (w.root c) then w.root c else (w.root c).other
  let p := if v.holds c (w.pointed c q) then w.pointed c q else w.unpointed c q
  if v.holds c p then some (c, p) else none

/-- The root of a class points at the other pair after a grant to a port; the pair's switch at the other port (R142). -/
def Switches.moved (w : Switches) (c : ListClass) (p : Port) : Switches :=
  let away := p == (pairOf p).first
  match c, pairOf p with
  | .urgent, .pairA => { w with classSwitch := .normal, urgentRoot := .pairB, urgentA := away }
  | .urgent, .pairB => { w with classSwitch := .normal, urgentRoot := .pairA, urgentB := away }
  | .normal, .pairA => { w with classSwitch := .urgent, normalRoot := .pairB, normalA := away }
  | .normal, .pairB => { w with classSwitch := .urgent, normalRoot := .pairA, normalB := away }

/-- The class of the command at the head of a port's queue, when that command is list-class. -/
def State.headClass (s : State) (p : Port) : Option ListClass :=
  match (s.port p).cmds.head? with
  | some r => (kindOf r.kind).bind listClass
  | none => none

/-- The port's leaf of a class holds a request: its presented command, or on the urgent leaf a purge request
(R136, R138). -/
def State.leafHolds (s : State) (c : ListClass) (p : Port) : Bool :=
  (look s.arbiter.presented p && s.headClass p == some c)
    || (c == .urgent && !(look s.arbiter.purges p).isEmpty)

/-- The leaves as they stand. -/
def State.leaves (s : State) : Leaves :=
  { urgent := #v[s.leafHolds .urgent 0, s.leafHolds .urgent 1, s.leafHolds .urgent 2, s.leafHolds .urgent 3],
    normal := #v[s.leafHolds .normal 0, s.leafHolds .normal 1, s.leafHolds .normal 2, s.leafHolds .normal 3] }

/-- Which leaf the next grant goes to (R141). -/
def State.nextGrant (s : State) : Option (ListClass × Port) := s.arbiter.switches.walk s.leaves

/-- The switches after a grant (R142). -/
def moveSwitches (c : ListClass) (p : Port) (s : State) : State :=
  s.setArbiter { s.arbiter with switches := s.arbiter.switches.moved c p }

/-- The purge request a leaf presents first (R138). -/
def State.firstPurge (s : State) (p : Port) : Option PurgeRequest := (look s.arbiter.purges p).head?

/-- A purge request joins a port's urgent leaf behind those already there (R138). -/
def requestPurge (p : Port) (k : PurgeRequest) (s : State) : State :=
  s.setArbiter { s.arbiter with purges := change s.arbiter.purges p (fun l => l ++ [k]) }

/-- The granted purge request leaves its leaf, and the switches move (R142, R144). -/
def grantPurge (p : Port) (s : State) : State :=
  moveSwitches .urgent p (s.setArbiter { s.arbiter with purges := change s.arbiter.purges p List.tail })

/-- The request of the given kind that the next grant takes from a port: the walk ends at the leaf of its class, the
command waits there, and no purge request stands before it (R138, R141). -/
def State.granted (s : State) (k : CommandKind) (p : Port) : Option Request :=
  match (s.port p).cmds.head?, listClass k with
  | some r, some c =>
    if kindOf r.kind == some k && look s.arbiter.presented p && s.nextGrant == some (c, p)
        && !(c == .urgent && (s.firstPurge p).isSome) then some r else none
  | _, _ => none

/-- Takes a granted list-class command: the switches move, the request leaves its leaf, a reply entry is set aside, and
the command has its effect (R137, R142 to R145). -/
def takeGranted (k : CommandKind) (p : Port) (s : State)
    (effect : Ticket → List Byte → State → State) : Answer :=
  whenLive s (fun s => match s.granted k p with
    | some r => effect (s.ticket p r) r.body
        (takeHead p (moveSwitches ((listClass k).getD .normal) p s))
    | none => s)

/-- A head command may be passed on by its port unit: its kind is known, and the port is attached or the command is one
a port that is not attached may use (R148, R183). -/
def State.passes (s : State) (p : Port) (k : CommandKind) : Bool := s.attached p || usableUnattached k

/-- Takes a command that waits for no grant, at the head of its port's queue, when the port check passes (R183). -/
def takeDirect (k : CommandKind) (p : Port) (s : State)
    (effect : Ticket → List Byte → State → State) : Answer :=
  whenLive s (fun s => match s.head p with
    | some r => if kindOf r.kind == some k && s.passes p k then effect (s.ticket p r) r.body (takeHead p s) else s
    | none => s)

/-- The head of the port's queue can be presented on a leaf: it is list-class, the port check passes, it does not wait
there already (R137), and no purge request waits on the port's leaf, beside which the port presents nothing (R138,
R165). -/
def State.presentable (s : State) (p : Port) : Bool :=
  match s.head p with
  | some r => (match kindOf r.kind with
      | some k => (listClass k).isSome && s.passes p k && !look s.arbiter.presented p
          && (look s.arbiter.purges p).isEmpty
      | none => false)
  | none => false

/-- PRESENT_REQUEST (R137): the head command waits on the leaf of its class. No switch moves. -/
def execPresentRequest (p : Port) (s : State) : Answer :=
  whenLive s (fun s => if s.presentable p then
    s.setArbiter { s.arbiter with presented := put s.arbiter.presented p true } else s)

end Sys2Proof.Machine
end

