-- ==== Sys2Proof/Machine/Output.lean ====
section
/-! DEFINITION. The output unit (chapter 5) with its trip controller (chapter 6): level changes, groups and holdoffs,
apply requests, safe-level drives, trip entry; FAULT_LOW, FAULT_HIGH, PULSE_END_EXPIRY, HOLDOFF_EXPIRY, TRIP and
CLEAR_TRIP. -/

namespace Sys2Proof.Machine

/-! ### Lines and groups -/

def OutputUnit.line (o : OutputUnit) (l : Line) : LineRecord := look o.lines l
def OutputUnit.setLine (o : OutputUnit) (l : Line) (r : LineRecord) : OutputUnit := { o with lines := put o.lines l r }
def OutputUnit.group (o : OutputUnit) (g : Group) : GroupRecord := look o.groups g
def OutputUnit.setGroup (o : OutputUnit) (g : Group) (r : GroupRecord) : OutputUnit :=
  { o with groups := put o.groups g r }
def OutputUnit.setHoldoff (o : OutputUnit) (g : Group) (h : Option Holdoff) : OutputUnit :=
  o.setGroup g { o.group g with holdoff := h }

/-- An opening notice for a group is sent to the cue table unit (R101). -/
def OutputUnit.sendNotice (o : OutputUnit) (g : Group) : OutputUnit := { o with notices := o.notices ++ [g] }

/-- The members of a group, ascending (R96). -/
def OutputUnit.members (o : OutputUnit) (g : Group) : List Line :=
  (indices 16).filter (fun l => (o.line l).group == some g)

/-- The holdoff of the group a line belongs to; none for an ungrouped line. -/
def OutputUnit.holdoffOf (o : OutputUnit) (l : Line) : Option Holdoff :=
  (o.line l).group.bind (fun g => (o.group g).holdoff)

/-- A member of a group has deactivated at `now` (R98): a gap above 0 sets the holdoff; with gap 0 the group opens and
its notice is sent. -/
def OutputUnit.memberDown (o : OutputUnit) (now : Time) (l : Line) (g : Group) : OutputUnit :=
  if (o.group g).gap = 0 then (if (o.group g).holdoff.isNone then o.sendNotice g else o)
  else o.setHoldoff g (some { line := some l, endsAt := later now (o.group g).gap.toNat })

/-- A deactivation at `now`, reported to the line's group (R89, R98). -/
def OutputUnit.deactivate (o : OutputUnit) (now : Time) (l : Line) : OutputUnit :=
  let o' := o.setLine l { o.line l with level := .inactive, pulseEnd := none, lastChange := some now }
  match (o.line l).group with
  | some g => o'.memberDown now l g
  | none => o'

/-- An activation at `now` with a pulse end or none (R89); the line that its group's holdoff names clears the holdoff
(R100). -/
def OutputUnit.activate (o : OutputUnit) (now : Time) (l : Line) (pulseEnd : Option Time) : OutputUnit :=
  let o' := o.setLine l { o.line l with level := .active, pulseEnd := pulseEnd, lastChange := some now }
  match (o.line l).group with
  | some g => (match (o.group g).holdoff with
      | some h => if h.line = some l then o'.setHoldoff g none else o'
      | none => o')
  | none => o'

/-- The group check of an activation (R97): every other member INACTIVE, and no holdoff but one that names the
line. -/
def OutputUnit.groupAllows (o : OutputUnit) (l : Line) : Bool :=
  match (o.line l).group with
  | none => true
  | some g =>
    (o.members g).all (fun m => m == l || (o.line m).level == .inactive)
      && (match (o.group g).holdoff with
          | none => true
          | some h => h.line == some l)

/-! ### Apply requests (R48, R92) -/

/-- The answer to an apply request. -/
inductive ApplyAnswer
  | applied
  | refused (g : Group)
  | deferred (g : Group)
deriving DecidableEq, Repr

/-- The end of a pulse: now plus the width for PULSE, and none for every other action (R92, R93). -/
def pulseEndOf (now : Time) (a : Action) (width : Option Half) : Option Time :=
  match a with
  | .pulse => width.map (fun w => later now w.toNat)
  | .set | .clear | .toggle => none

/-- The answer to an activation that the group check does not allow (R97). -/
def OutputUnit.turnAway (o : OutputUnit) (l : Line) : ApplyAnswer :=
  match (o.line l).group with
  | none => .applied
  | some g => (match (o.group g).policy with
      | .refuse => .refused g
      | .defer => .deferred g)

/-- An activation asked by an apply request: made if the group check allows it, and else refused or deferred with the
line unchanged (R92). -/
def OutputUnit.tryActivate (o : OutputUnit) (now : Time) (l : Line) (pulseEnd : Option Time) :
    OutputUnit × ApplyAnswer :=
  if o.groupAllows l then (o.activate now l pulseEnd, .applied) else (o, o.turnAway l)

/-- An apply request (R92). -/
def OutputUnit.apply (o : OutputUnit) (now : Time) (l : Line) (a : Action) (width : Option Half) :
    OutputUnit × ApplyAnswer :=
  let r := o.line l
  match r.level, a with
  | .inactive, .clear => (o, .applied)
  | .inactive, .set | .inactive, .toggle | .inactive, .pulse => o.tryActivate now l (pulseEndOf now a width)
  | .active, .set => (o.setLine l { r with pulseEnd := none }, .applied)
  | .active, .pulse => (o.setLine l { r with pulseEnd := pulseEndOf now a width }, .applied)
  | .active, .clear | .active, .toggle => (o.deactivate now l, .applied)

/-! ### Safe-level drives (R90) -/

/-- A safe-level drive of one line: the pulse end is cleared, and a line that stands elsewhere changes to its safe
level. -/
def OutputUnit.drive (o : OutputUnit) (now : Time) (l : Line) : OutputUnit :=
  let r := o.line l
  match r.level, r.safe with
  | .active, .inactive => o.deactivate now l
  | .inactive, .active => o.activate now l none
  | .active, .active | .inactive, .inactive => o.setLine l { r with pulseEnd := none }

/-- A safe-level drive of every line, in ascending order (R90). -/
def OutputUnit.driveAll (o : OutputUnit) (now : Time) : OutputUnit :=
  (indices 16).foldl (fun o l => o.drive now l) o

/-- The output unit drives one line now. -/
def driveLine (l : Line) (s : State) : State := s.setOutput (s.output.drive s.now l)

/-- The output unit drives every line now. -/
def driveEvery (s : State) : State := s.setOutput (s.output.driveAll s.now)

/-! ### Configuration of groups (R104) -/

/-- The ticks that remain of the gap after a member's last change, when the member is INACTIVE and changed less than
the gap ago (R104). -/
def LineRecord.gapLeft (r : LineRecord) (now : Time) (gap : Half) : Option Nat :=
  match r.level, r.lastChange with
  | .inactive, some t => if distance t now < gap.toNat then some (gap.toNat - distance t now) else none
  | _, _ => none

/-- The longest such remainder among the members. -/
def OutputUnit.longestGapLeft (o : OutputUnit) (now : Time) (g : Group) : Option Nat :=
  (o.members g).foldl (fun best m => match best, (o.line m).gapLeft now (o.group g).gap with
    | some b, some n => some (max b n)
    | some b, none => some b
    | none, left => left) none

/-- The holdoff of a group set afresh after a write of its membership or gap; a holdoff cleared by it opens the group
(R104). -/
def OutputUnit.recompute (o : OutputUnit) (now : Time) (g : Group) : OutputUnit :=
  match o.longestGapLeft now g with
  | some n => o.setHoldoff g (some { line := none, endsAt := later now n })
  | none => if (o.group g).holdoff.isSome then (o.setHoldoff g none).sendNotice g else o

/-- The same for the group a line belongs to, if any. -/
def OutputUnit.recompute? (o : OutputUnit) (now : Time) (g : Option Group) : OutputUnit :=
  match g with
  | some h => o.recompute now h
  | none => o

/-! ### The trip (R106 to R113) -/

/-- The event record of a trip entry (R110). -/
def trippedRecord (cause : TripCause) (now : Time) : EventRecord :=
  { kind := .tripped, aux := causeCode cause, ref := 0, value := 0, time := now }

/-- Entry to TRIPPED (R108): the record, the drive of every line, and TRIPPED to every ATTACHED port. -/
def tripEntry (cause : TripCause) (s : State) : State :=
  postAll (trippedRecord cause s.now)
    (driveEvery (s.setOutput { s.output with trip := .tripped cause s.now }))

/-- The oldest sensed change of FAULT# has been taken. -/
def takeFaultEdge (s : State) : State := s.setInputs { s.inputs with faultEdges := s.inputs.faultEdges.tail }

/-- FAULT_LOW (R107): a sensed fall of FAULT# enters TRIPPED when NORMAL and changes nothing when TRIPPED. -/
def execFaultLow (s : State) : Answer :=
  whenLive s (fun s => match s.inputs.faultEdges.head? with
    | some .low => (match s.output.trip with
        | .normal => tripEntry .input (takeFaultEdge s)
        | .tripped _ _ => takeFaultEdge s)
    | _ => s)

/-- FAULT_HIGH (R107): a sensed rise of FAULT# changes no trip state. -/
def execFaultHigh (s : State) : Answer :=
  whenLive s (fun s => match s.inputs.faultEdges.head? with
    | some .high => takeFaultEdge s
    | _ => s)

/-- PULSE_END_EXPIRY (R94): a pulse end that is at now deactivates its line. -/
def execPulseEndExpiry (l : Line) (s : State) : Answer :=
  whenLive s (fun s => if (s.output.line l).pulseEnd = some s.now
    then s.setOutput (s.output.deactivate s.now l) else s)

/-- HOLDOFF_EXPIRY (R99): a holdoff end that is at now clears the holdoff and opens the group. -/
def execHoldoffExpiry (g : Group) (s : State) : Answer :=
  whenLive s (fun s => match (s.output.group g).holdoff with
    | some h => if h.endsAt = s.now then s.setOutput ((s.output.setHoldoff g none).sendNotice g) else s
    | none => s)

/-- The body that reports a trip: cause and entry time (R111, R197). -/
def tripBody (cause : TripCause) (entry : Time) : List Byte := causeCode cause :: timeBytes entry

/-- TRIP (R111). -/
def execTrip (p : Port) (s : State) : Answer :=
  takeDirect .trip p s (fun t _ s => match s.output.trip with
    | .normal => answer t .ok (tripBody (.port p) s.now) (tripEntry (.port p) s)
    | .tripped cause entry => answer t .ok (tripBody cause entry) s)

/-- The event record of a cleared trip (R112). -/
def tripClearedRecord (p : Port) (now : Time) : EventRecord :=
  { kind := .tripCleared, aux := portCode p, ref := 0, value := 0, time := now }

/-- CLEAR_TRIP (R112). -/
def execClearTrip (p : Port) (s : State) : Answer :=
  takeDirect .clearTrip p s (fun t _ s =>
    if s.inputs.faultPin.sensed = .low then answer t .stillFaulted [] s
    else match s.output.trip with
      | .normal => answer t .ok (flagByte true :: Config.absentCode :: timeBytes 0) s
      | .tripped cause entry =>
        answer t .ok (flagByte false :: tripBody cause entry)
          (postAll (tripClearedRecord p s.now) (s.setOutput { s.output with trip := .normal })))

end Sys2Proof.Machine
end

