-- ==== Sys2Proof/Machine/CueTable.lean ====
section
/-! DEFINITION. The cue table (chapter 2): slots, handles, the pending list, the deferred lists, freeing and purges;
ADD_CUE, CANCEL_CUE and QUERY_CUE. -/

namespace Sys2Proof.Machine

/-! ### Slots and lists -/

def CueTable.slot (ct : CueTable) (i : SlotId) : Slot := look ct.slots i
def CueTable.cue (ct : CueTable) (i : SlotId) : Option Cue := (look ct.slots i).cue
def CueTable.gen (ct : CueTable) (i : SlotId) : Byte := (look ct.slots i).gen
def CueTable.setCue (ct : CueTable) (i : SlotId) (c : Cue) : CueTable :=
  { ct with slots := put ct.slots i { look ct.slots i with cue := some c } }
def CueTable.commitSet (ct : CueTable) (k : SetId) : CommitSet := look ct.sets k
def CueTable.putSet (ct : CueTable) (k : SetId) (c : CommitSet) : CueTable := { ct with sets := put ct.sets k c }

/-- The handle of a slot as it stands (R15). -/
def CueTable.handle (ct : CueTable) (i : SlotId) : Half := handleCode i (ct.gen i)

/-- The slots whose cue has a property, ascending. -/
def CueTable.slotsWith (ct : CueTable) (has : Cue → Bool) : List SlotId :=
  (indices 96).filter (fun i => match ct.cue i with
    | some c => has c
    | none => false)

/-- A port's occupied count (R19). -/
def CueTable.occupied (ct : CueTable) (p : Port) : Nat := (ct.slotsWith (fun c => c.owner == p)).length

/-- The lowest-numbered FREE slot (R16). -/
def CueTable.lowestFree (ct : CueTable) : Option SlotId := (indices 96).find? (fun i => (ct.cue i).isNone)

/-- A cue's due for ordering: its effective due when present, and its grid due otherwise (R20). -/
def Cue.due (c : Cue) : Time := c.effDue.getD c.gridDue

/-- The first cue stands before the second in the pending list: nearer from now, or equally near and entered earlier
(R20). -/
def Cue.standsBefore (now : Time) (a b : Cue) : Bool :=
  distance now a.due < distance now b.due
    || (distance now a.due == distance now b.due && a.entry < b.entry)

/-- The first cue stands before the second in a deferred list as judged from `now` (R24). -/
def Cue.deferredBefore (now : Time) (a b : Cue) : Bool :=
  signedDistance now a.gridDue < signedDistance now b.gridDue
    || (signedDistance now a.gridDue == signedDistance now b.gridDue && a.entry < b.entry)

/-- The cue in a slot stands after `c` in the given order; a FREE slot stands after every cue. -/
def CueTable.after (ct : CueTable) (before : Cue → Cue → Bool) (c : Cue) (j : SlotId) : Bool :=
  match ct.cue j with
  | some d => before c d
  | none => true

/-- Stores a cue as PENDING and puts its slot into the pending list at the place its due and entry order give it
(R20, R22). -/
def CueTable.place (ct : CueTable) (now : Time) (i : SlotId) (c : Cue) : CueTable :=
  let c' := { c with state := .pending }
  { ct.setCue i c' with
    pendingList := insertBefore (ct.after (Cue.standsBefore now) c') i ct.pendingList }

/-- The same with a fresh entry order (R21). -/
def CueTable.enter (ct : CueTable) (now : Time) (i : SlotId) (c : Cue) : CueTable :=
  let ct' := ct.place now i { c with entry := ct.nextEntry }
  { ct' with nextEntry := ct.nextEntry + 1 }

/-- The slot leaves the pending list; the others keep their order (R22). -/
def CueTable.unlist (ct : CueTable) (i : SlotId) : CueTable :=
  { ct with pendingList := ct.pendingList.filter (fun j => j != i) }

/-- A PENDING cue whose due has changed takes its new place, its entry order unchanged (R22). -/
def CueTable.replace (ct : CueTable) (now : Time) (i : SlotId) (c : Cue) : CueTable := (ct.unlist i).place now i c

/-- A cue enters the deferred list of a group (R23, R24): DEFERRED, without effective due, placed by its grid due. -/
def CueTable.defer (ct : CueTable) (now : Time) (i : SlotId) (c : Cue) (g : Group) : CueTable :=
  let c' := { c with state := .deferred, effDue := none }
  { ct.setCue i c' with
    deferred := change ct.deferred g (insertBefore (ct.after (Cue.deferredBefore now) c') i) }

/-! ### Commit sets -/

def CommitSet.owner? : CommitSet → Option Port
  | .free => none
  | .opened p _ => some p
  | .scheduled p _ _ => some p

def CommitSet.memberCount : CommitSet → Nat
  | .free => 0
  | .opened _ n => n
  | .scheduled _ n _ => n

/-- A set with its member count changed; it keeps its state (R17, R84). -/
def CommitSet.recount (f : Nat → Nat) : CommitSet → CommitSet
  | .free => .free
  | .opened p n => .opened p (f n)
  | .scheduled p n t => .scheduled p (f n) t

/-- A member leaves its set, if it has one (R17, R84). -/
def CueTable.leaveSet (ct : CueTable) (k : Option SetId) : CueTable :=
  match k with
  | some k => { ct with sets := change ct.sets k (CommitSet.recount (fun n => n - 1)) }
  | none => ct

/-! ### Freeing and purges (R17, R38 to R41) -/

/-- The slot leaves whatever list it is in. -/
def CueTable.unlistAll (ct : CueTable) (i : SlotId) : CueTable :=
  { ct with
    pendingList := ct.pendingList.filter (fun j => j != i)
    deferred := changeAll ct.deferred (fun l => l.filter (fun j => j != i)) }

/-- Freeing a slot (R17): the cue leaves its list and its set, its record is discarded, the generation advances. -/
def CueTable.freeSlot (ct : CueTable) (i : SlotId) : CueTable :=
  match ct.cue i with
  | none => ct
  | some c =>
    let ct' := (ct.unlistAll i).leaveSet c.set
    { ct' with slots := put ct'.slots i { gen := ct.gen i + 1, cue := none } }

/-- Frees every cue that has a property (R38). -/
def CueTable.purge (ct : CueTable) (has : Cue → Bool) : CueTable :=
  (ct.slotsWith has).foldl CueTable.freeSlot ct

/-- Frees every commit set that has a property. -/
def CueTable.freeSets (ct : CueTable) (has : CommitSet → Bool) : CueTable :=
  { ct with sets := changeAll ct.sets (fun c => if has c then .free else c) }

/-- The cues of a port on a line. -/
def CueTable.cuesOn (ct : CueTable) (p : Port) (l : Line) : List SlotId :=
  ct.slotsWith (fun c => c.owner == p && c.line == l)

/-- The line purge (R39): every cue of the port on the line. -/
def CueTable.linePurge (ct : CueTable) (p : Port) (l : Line) : CueTable :=
  ct.purge (fun c => c.owner == p && c.line == l)

/-- The port purge (R40): every cue and every commit set of the port. -/
def CueTable.portPurge (ct : CueTable) (p : Port) : CueTable :=
  (ct.purge (fun c => c.owner == p)).freeSets (fun c => c.owner? == some p)

/-- The halt purge (R41): every cue and every commit set. -/
def CueTable.haltPurge (ct : CueTable) : CueTable := (ct.purge (fun _ => true)).freeSets (fun _ => true)

/-! ### Checks the list-class commands share (R26, R34, R194) -/

/-- The first checks of a list-class command at the cue table unit: the phase, the requester, the length of the body.
The status of the first that fails (R26, R70, R194). -/
def listCheck (s : State) (p : Port) (k : CommandKind) (body : List Byte) : Option Status :=
  if s.session.phase = .setup then some .wrongPhase
  else if !s.attached p then some .notAttached
  else if body.length < bodyLength k then some .badField
  else none

/-- The live cue that a handle names (R15). -/
def CueTable.live (ct : CueTable) (slot gen : Byte) : Option (SlotId × Cue) :=
  match indexOf 96 slot with
  | some i => (match ct.cue i with
      | some c => if ct.gen i = gen then some (i, c) else none
      | none => none)
  | none => none

/-- Runs a command on the cue its body's first two bytes name: BAD_HANDLE when the handle is not live, NOT_OWNER when
the cue is another port's (R34). -/
def onOwnedCue (t : Ticket) (body : List Byte) (s : State) (effect : SlotId → Cue → State) : State :=
  match s.cueTable.live (byteAt body 0) (byteAt body 1) with
  | none => answer t .badHandle [] s
  | some (i, c) => if c.owner = t.port then effect i c else answer t .notOwner [] s

/-! ### ADD_CUE (R27 to R33) -/

/-- The holder of a line's claim (R118). -/
def ClaimUnit.holder (u : ClaimUnit) (l : Line) : Option Port := (look u.records l).held.map (·.holder)

/-- The cue that a checked request makes (R32). -/
def CueRequest.cue (q : CueRequest) (p : Port) (now : Time) : Cue :=
  { state := .pending, owner := p, line := q.line, action := q.action, width := q.width,
    gridDue := if q.immediate then now else q.due, effDue := none, period := q.period, remaining := q.remaining,
    notify := q.notify, missPolicy := q.missPolicy, missed := 0, staged := none, set := none, entry := 0 }

/-- The status with which the third to fifth check refuse a request, if one does (R29 to R31). -/
def refuseCue (s : State) (p : Port) (q : CueRequest) : Option Status :=
  if s.claims.holder q.line ≠ some p then some .notOwner
  else if !q.immediate && !isAhead s.now q.due then some .late
  else if (look s.session.quota p).toNat ≤ s.cueTable.occupied p then some .quota
  else none

/-- ADD_CUE once it is granted. -/
def addCue (t : Ticket) (body : List Byte) (s : State) : State :=
  match listCheck s t.port .addCue body with
  | some st => answer t st [] s
  | none => match parseAddCue body with
    | none => answer t .badField [] s
    | some q => match refuseCue s t.port q with
      | some st => answer t st [] s
      | none => match s.cueTable.lowestFree with
        | none => answer t .noSlot [] s
        | some i =>
          let c := q.cue t.port s.now
          answer t .ok (halfBytes (s.cueTable.handle i) ++ timeBytes c.gridDue)
            (s.setCueTable (s.cueTable.enter s.now i c))

/-- ADD_CUE (R32). -/
def execAddCue (p : Port) (s : State) : Answer := takeGranted .addCue p s addCue

/-! ### CANCEL_CUE (R35) -/

/-- CANCEL_CUE once it is granted. -/
def cancelCue (t : Ticket) (body : List Byte) (s : State) : State :=
  match listCheck s t.port .cancelCue body with
  | some st => answer t st [] s
  | none => onOwnedCue t body s (fun i _ => answer t .ok [] (s.setCueTable (s.cueTable.freeSlot i)))

/-- CANCEL_CUE (R35). -/
def execCancelCue (p : Port) (s : State) : Answer := takeGranted .cancelCue p s cancelCue

/-! ### QUERY_CUE (R37, R197) -/

/-- A bit of a presence byte. -/
def presenceBit (b : Bool) (v : Byte) : Byte := if b then v else 0

def slotStateCode : CueState → Byte
  | .pending => 1
  | .deferred => 2

/-- The twelve bytes of a staged record; every byte of an absent field is 0 (R197). -/
def stagedBytes (r : Option StagedRecord) : List Byte :=
  match r with
  | none => List.replicate 12 0
  | some r =>
    [presenceBit r.action.isSome 0x10 ||| presenceBit r.width.isSome 0x08 ||| presenceBit r.period.isSome 0x04
        ||| presenceBit r.remaining.isSome 0x02 ||| presenceBit r.shift.isSome 0x01,
      (r.action.map actionCode).getD 0]
      ++ halfBytes (r.width.getD 0) ++ tripleBytes (r.period.getD 0) ++ halfBytes (r.remaining.getD 0)
      ++ tripleBytes (r.shift.getD 0)

/-- The presence byte of a cue (R197). -/
def cuePresence (c : Cue) : Byte :=
  presenceBit c.staged.isSome 0x40 ||| presenceBit c.set.isSome 0x20 ||| presenceBit c.effDue.isSome 0x10
    ||| presenceBit c.width.isSome 0x04 ||| presenceBit c.period.isSome 0x02 ||| presenceBit c.remaining.isSome 0x01

/-- The body of a QUERY_CUE reply (R197). -/
def cueReport (handle : Half) (c : Cue) : List Byte :=
  halfBytes handle ++ [lineCode c.line, actionCode c.action, slotStateCode c.state, cuePresence c]
    ++ halfBytes (c.width.getD 0) ++ timeBytes c.gridDue ++ timeBytes (c.effDue.getD 0)
    ++ tripleBytes (c.period.getD 0) ++ halfBytes (c.remaining.getD 0) ++ [optionsByte c] ++ halfBytes c.missed
    ++ [(c.set.map setCode).getD 0] ++ stagedBytes c.staged

/-- QUERY_CUE once it is granted. -/
def queryCue (t : Ticket) (body : List Byte) (s : State) : State :=
  match listCheck s t.port .queryCue body with
  | some st => answer t st [] s
  | none => onOwnedCue t body s (fun i c => answer t .ok (cueReport (s.cueTable.handle i) c) s)

/-- QUERY_CUE (R37). -/
def execQueryCue (p : Port) (s : State) : Answer := takeGranted .queryCue p s queryCue

end Sys2Proof.Machine
end

