-- ==== Sys2Proof/Machine/Sets.lean ====
section
/-! DEFINITION. Staged records and commit sets (chapter 4): STAGE, UNSTAGE, OPEN_SET, COMMIT_SET and ABANDON_SET. -/

namespace Sys2Proof.Machine

/-! ### Members -/

/-- The slots whose cue belongs to a set, ascending (R76, R83). -/
def CueTable.membersOf (ct : CueTable) (k : SetId) : List SlotId := ct.slotsWith (fun c => c.set == some k)

/-- A cue without its staged record: the record is absent, and so is the set field (R68). -/
def Cue.unstaged (c : Cue) : Cue := { c with staged := none, set := none }

/-- The staged record of a slot's cue is discarded (R68). -/
def CueTable.discard (ct : CueTable) (i : SlotId) : CueTable :=
  match ct.cue i with
  | some c => ct.setCue i c.unstaged
  | none => ct

/-- A set is freed without applying anything (R79, R80). -/
def CueTable.freeSetWhole (ct : CueTable) (k : SetId) : CueTable :=
  ((ct.membersOf k).foldl CueTable.discard ct).putSet k .free

/-! ### STAGE (R70, R71) -/

/-- The status with which the fourth check of STAGE refuses the set named, if it does (R70). -/
def CueTable.refuseSet (ct : CueTable) (p : Port) (k : Option SetId) : Option Status :=
  match k with
  | none => none
  | some k => match ct.commitSet k with
    | .free => some .wrongState
    | .opened o _ => if o = p then none else some .notOwner
    | .scheduled o _ _ => if o = p then some .wrongState else some .notOwner

/-- The cue holds a record of another arrangement (R71). -/
def Cue.conflicts (c : Cue) (k : Option SetId) : Bool := c.staged.isSome && c.set != k

/-- A cue joins the set named, if it holds no record yet (R71). -/
def CueTable.joinSet (ct : CueTable) (c : Cue) (k : Option SetId) : CueTable :=
  match k with
  | some k => if c.staged.isSome then ct else { ct with sets := change ct.sets k (CommitSet.recount (fun n => n + 1)) }
  | none => ct

/-- The record is stored beside the cue; a record already there is replaced whole (R71). -/
def CueTable.stageRecord (ct : CueTable) (i : SlotId) (c : Cue) (r : StagedRecord) (k : Option SetId) : CueTable :=
  (ct.joinSet c k).setCue i { c with staged := some r, set := k }

/-- STAGE once it is granted. -/
def stageCue (t : Ticket) (body : List Byte) (s : State) : State :=
  match listCheck s t.port .stage body with
  | some st => answer t st [] s
  | none => onOwnedCue t body s (fun i c => match (stageBody body).check c with
    | none => answer t .badField [] s
    | some (r, k) => match s.cueTable.refuseSet t.port k with
      | some st => answer t st [] s
      | none =>
        if c.conflicts k then answer t .conflict [] s
        else answer t .ok [flagByte c.staged.isSome] (s.setCueTable (s.cueTable.stageRecord i c r k)))

/-- STAGE (R70). -/
def execStage (p : Port) (s : State) : Answer := takeGranted .stage p s stageCue

/-! ### UNSTAGE (R72) -/

/-- UNSTAGE once it is granted. -/
def unstageCue (t : Ticket) (body : List Byte) (s : State) : State :=
  match listCheck s t.port .unstage body with
  | some st => answer t st [] s
  | none => onOwnedCue t body s (fun i c =>
    if c.staged.isSome then
      answer t .ok [flagByte false] (s.setCueTable ((s.cueTable.leaveSet c.set).setCue i c.unstaged))
    else answer t .ok [flagByte true] s)

/-- UNSTAGE (R72). -/
def execUnstage (p : Port) (s : State) : Answer := takeGranted .unstage p s unstageCue

/-! ### OPEN_SET (R77) -/

/-- The lowest-numbered FREE set (R77). -/
def CueTable.lowestFreeSet (ct : CueTable) : Option SetId := (indices 8).find? (fun k => ct.commitSet k == .free)

/-- OPEN_SET once it is granted. -/
def openSet (t : Ticket) (body : List Byte) (s : State) : State :=
  match listCheck s t.port .openSet body with
  | some st => answer t st [] s
  | none => match s.cueTable.lowestFreeSet with
    | none => answer t .noSlot [] s
    | some k => answer t .ok [setCode k] (s.setCueTable (s.cueTable.putSet k (.opened t.port 0)))

/-- OPEN_SET (R77). -/
def execOpenSet (p : Port) (s : State) : Answer := takeGranted .openSet p s openSet

/-! ### COMMIT_SET (R78) -/

/-- COMMIT_SET once it is granted. -/
def commitSet (t : Ticket) (body : List Byte) (s : State) : State :=
  match listCheck s t.port .commitSet body with
  | some st => answer t st [] s
  | none => match indexOf 8 (byteAt body 0) with
    | none => answer t .badField [] s
    | some k => match s.cueTable.commitSet k with
      | .free => answer t .wrongState [] s
      | .scheduled o _ _ => answer t (if o = t.port then .wrongState else .notOwner) [] s
      | .opened o n =>
        if o ≠ t.port then answer t .notOwner [] s
        else if !isAhead s.now (timeAt body 1) then answer t .late [] s
        else answer t .ok (setCode k :: timeBytes (timeAt body 1) ++ [countByte n])
          (s.setCueTable (s.cueTable.putSet k (.scheduled o n (timeAt body 1))))

/-- COMMIT_SET (R78). -/
def execCommitSet (p : Port) (s : State) : Answer := takeGranted .commitSet p s commitSet

/-! ### ABANDON_SET (R79) -/

/-- ABANDON_SET once it is granted. -/
def abandonSet (t : Ticket) (body : List Byte) (s : State) : State :=
  match listCheck s t.port .abandonSet body with
  | some st => answer t st [] s
  | none => match indexOf 8 (byteAt body 0) with
    | none => answer t .badField [] s
    | some k => match (s.cueTable.commitSet k).owner? with
      | none => answer t .wrongState [] s
      | some o =>
        if o ≠ t.port then answer t .notOwner [] s
        else answer t .ok [countByte (s.cueTable.membersOf k).length] (s.setCueTable (s.cueTable.freeSetWhole k))

/-- ABANDON_SET (R79). -/
def execAbandonSet (p : Port) (s : State) : Answer := takeGranted .abandonSet p s abandonSet

end Sys2Proof.Machine
end

