-- ==== Sys2Proof/Machine/Firing.lean ====
section
/-! DEFINITION. The firing engine (chapter 3) and the commit-time expiry (R80 to R83): OCCURRENCE, OPENING_NOTICE and
COMMIT_TIME_EXPIRY. -/

namespace Sys2Proof.Machine

/-! ### Events of the schedule (R61) -/

/-- An event record about a cue. -/
def cueRecord (kind : EventKind) (c : Cue) (handle value : Half) (now : Time) : EventRecord :=
  { kind := kind, aux := lineCode c.line, ref := handle, value := value, time := now }

/-- Posts an event about a cue to its owner. -/
def postCue (kind : EventKind) (i : SlotId) (c : Cue) (value : Half) (s : State) : State :=
  post c.owner (cueRecord kind c (s.cueTable.handle i) value s.now) s

/-! ### The missed count (R56) -/

/-- A missed count risen by `n`, saturating. -/
def raiseMissed (missed : Half) (n : Nat) : Half := BitVec.ofNat 16 (min Config.missedCeiling (missed.toNat + n))

/-- MISSED is posted when the missed count rises from 0 (R56); `c` is the cue before the rise. -/
def postMissed (i : SlotId) (c : Cue) (s : State) : State := if c.missed = 0 then postCue .missed i c 1 s else s

/-! ### Applying a staged record (R69) -/

/-- The fields of a record replace the cue's; the record is then absent (R69, R74, R81). -/
def Cue.applyRecord (c : Cue) (r : StagedRecord) : Cue :=
  let action := r.action.getD c.action
  let width := match r.action with
    | some .pulse => r.width
    | some _ => none
    | none => if c.action = .pulse then r.width.orElse (fun _ => c.width) else c.width
  let period := match r.period with
    | some p => if p = 0 then none else some p
    | none => c.period
  let remaining := match r.remaining with
    | some n => if n = 0 then none else some n
    | none => c.remaining
  { c with action := action, width := width, period := period,
           remaining := if period.isNone then none else remaining, staged := none, set := none }

/-! ### Continuation (R53 to R60) -/

/-- Step one: a set-less record is promoted; its shift is held for the advance (R53, R74). -/
def Cue.promote (c : Cue) : Cue × Triple :=
  match c.staged, c.set with
  | some r, none => (c.applyRecord r, r.shift.getD 0)
  | _, _ => (c, 0)

/-- Step two: remaining, if present, is decreased by one (R53). -/
def Cue.decrement (c : Cue) : Cue := { c with remaining := c.remaining.map (fun n => n - 1) }

/-- Step three retires the cue when it has no period or remaining has reached 0 (R54). -/
def Cue.isOver (c : Cue) : Bool := c.period.isNone || c.remaining == some 0

/-- The grid due of the next occurrence (R55). -/
def Cue.advanced (c : Cue) (shift : Triple) : Cue :=
  { c with gridDue := shifted (later c.gridDue (c.period.getD 0).toNat) shift, effDue := none }

/-- Retirement: DONE if notify asks, and the slot is freed (R54). -/
def retire (i : SlotId) (c : Cue) (s : State) : State :=
  let s' := if c.notify then postCue .done i c 0 s else s
  s'.setCueTable (s'.cueTable.freeSlot i)

/-- How many grid dues not ahead of now there are, from the cue's grid due on (R58). -/
def Cue.duesPassed (c : Cue) (now : Time) : Nat :=
  match c.period with
  | none => 1
  | some p => distance c.gridDue now / p.toNat + 1

/-- The grid dues skipped, unless remaining runs out first, and whether the cue retires by it (R58). -/
def Cue.skip (c : Cue) (now : Time) : Cue × Bool :=
  let passed := c.duesPassed now
  let spent := c.period.isNone || (match c.remaining with
    | some n => n.toNat ≤ passed
    | none => false)
  let n := match c.remaining with
    | some m => min m.toNat passed
    | none => passed
  ({ c with missed := raiseMissed c.missed n
            remaining := c.remaining.map (fun m => m - BitVec.ofNat 16 n)
            gridDue := later c.gridDue (n * (c.period.getD 0).toNat) }, spent)

/-- The catch-up rule under SKIP (R58): the grid dues not ahead of now are missed; the cue retires or goes on to its
list. -/
def catchUpSkip (i : SlotId) (c : Cue) (goOn : Cue → State → State) (s : State) : State :=
  let s' := postMissed i c s
  let r := c.skip s.now
  if r.2 then retire i r.1 s' else goOn r.1 s'

/-- The catch-up rule under FIRE_LATE for a PENDING cue: due once at now (R59). -/
def Cue.broughtDue (c : Cue) (now : Time) : Cue :=
  { c with effDue := if isBehind now c.gridDue then some now else none }

/-- A cue enters the pending list with a fresh entry order (R21, R55). -/
def enterPending (i : SlotId) (c : Cue) (s : State) : State := s.setCueTable (s.cueTable.enter s.now i c)

/-- A PENDING cue takes its new place (R22). -/
def replacePending (i : SlotId) (c : Cue) (s : State) : State := s.setCueTable (s.cueTable.replace s.now i c)

/-- A cue is stored at its place (R24). -/
def storeCue (i : SlotId) (c : Cue) (s : State) : State := s.setCueTable (s.cueTable.setCue i c)

/-- Step four: the advance and, where the new grid due is not ahead of now, the catch-up rule; after a late occurrence
it takes SKIP whatever the miss policy (R55, R57). -/
def advance (i : SlotId) (c : Cue) (shift : Triple) (s : State) : State :=
  let late := c.effDue.isSome
  let c' := c.advanced shift
  if isAhead s.now c'.gridDue then enterPending i c' s
  else if late || c'.missPolicy == .skip then catchUpSkip i c' (enterPending i) s
  else enterPending i (c'.broughtDue s.now) s

/-- Continuation (R53): promotion, decrement, retirement, advance. -/
def continueCue (i : SlotId) (c : Cue) (s : State) : State :=
  let r := c.promote
  let c' := r.1.decrement
  if c'.isOver then retire i c' s else advance i c' r.2 s

/-! ### Occurrences (R43 to R51) -/

/-- A SUPPRESSED occurrence (R47). -/
def suppress (i : SlotId) (c : Cue) (s : State) : State :=
  continueCue i { c with missed := raiseMissed c.missed 1 } (postMissed i c s)

/-- What follows the output unit's answer to an apply request (R49 to R51). -/
def takeAnswer (i : SlotId) (c : Cue) (a : ApplyAnswer) (s : State) : State :=
  match a with
  | .applied =>
    continueCue i { c with missed := 0 } (if c.notify then postCue .fired i c c.missed s else s)
  | .refused g => continueCue i c (postCue .refused i c ((groupCode g).setWidth 16) s)
  | .deferred g => s.setCueTable (s.cueTable.defer s.now i c g)

/-- The occurrence of the cue in a slot, which has been taken off the pending list (R45). -/
def occur (i : SlotId) (c : Cue) (s : State) : State :=
  if !s.attached c.owner || s.session.phase == .setup then s.setCueTable (s.cueTable.freeSlot i)
  else if s.output.trip.isTripped then suppress i c s
  else
    let r := s.output.apply s.now c.line c.action c.width
    takeAnswer i c r.2 (s.setOutput r.1)

/-- The cue at the head of the pending list, when its due is at now (R43). -/
def State.dueCue (s : State) : Option (SlotId × Cue) :=
  match s.cueTable.pendingList with
  | [] => none
  | i :: _ => match s.cueTable.cue i with
    | some c => if c.due = s.now then some (i, c) else none
    | none => none

/-- OCCURRENCE (R43). -/
def execOccurrence (s : State) : Answer :=
  whenLive s (fun s => match s.dueCue with
    | some (i, c) => occur i c (s.setCueTable { s.cueTable with pendingList := s.cueTable.pendingList.tail })
    | none => s)

/-! ### Release of a deferred list (R62, R63) -/

/-- A released cue (R63): its effective due is now when its grid due is behind now, and absent otherwise. -/
def Cue.released (c : Cue) (now : Time) : Cue := c.broughtDue now

/-- One cue leaves a deferred list for the pending list. -/
def CueTable.releaseOne (now : Time) (ct : CueTable) (i : SlotId) : CueTable :=
  match ct.cue i with
  | some c => ct.enter now i (c.released now)
  | none => ct

/-- The deferred list of a group is released whole, in its order (R62). -/
def CueTable.releaseGroup (ct : CueTable) (now : Time) (g : Group) : CueTable :=
  (look ct.deferred g).foldl (CueTable.releaseOne now) { ct with deferred := put ct.deferred g [] }

/-- OPENING_NOTICE (R62): one notice for the group is taken. -/
def execOpeningNotice (g : Group) (s : State) : Answer :=
  whenLive s (fun s =>
    if g ∈ s.output.notices then
      (s.setOutput { s.output with notices := s.output.notices.erase g }).setCueTable
        (s.cueTable.releaseGroup s.now g)
    else s)

/-! ### Commit-time expiry (R80 to R83) -/

/-- A shift moves the grid due of a cue whose record has been applied (R82). -/
def shiftCue (i : SlotId) (c : Cue) (shift : Triple) (s : State) : State :=
  let c' := { c with gridDue := shifted c.gridDue shift }
  match c.state, c.effDue with
  | .pending, some _ => storeCue i c' s
  | .pending, none =>
    if isAhead s.now c'.gridDue then replacePending i c' s
    else (match c.missPolicy with
      | .skip => catchUpSkip i c' (replacePending i) (storeCue i c s)
      | .fireLate => replacePending i (c'.broughtDue s.now) s)
  | .deferred, _ =>
    if isAhead s.now c'.gridDue then storeCue i c' s
    else (match c.missPolicy with
      | .skip => catchUpSkip i c' (storeCue i) (storeCue i c s)
      | .fireLate => storeCue i c' s)

/-- One member's record is applied (R81); a shift of 0 changes nothing (R82). -/
def applyMember (s : State) (i : SlotId) : State :=
  match s.cueTable.cue i with
  | none => s
  | some c => match c.staged with
    | none => storeCue i c.unstaged s
    | some r =>
      let c' := c.applyRecord r
      let shift := r.shift.getD 0
      if shift = 0 then storeCue i c' s else shiftCue i c' shift s

/-- The event record of an applied set (R83). -/
def setAppliedRecord (k : SetId) (n : Nat) (now : Time) : EventRecord :=
  { kind := .setApplied, aux := setCode k, ref := 0, value := BitVec.ofNat 16 n, time := now }

/-- An applying expiry (R83): the members in ascending slot order, then the set is FREE and SET_APPLIED is posted. -/
def applySet (k : SetId) (owner : Port) (n : Nat) (s : State) : State :=
  let s' := (s.cueTable.membersOf k).foldl applyMember s
  post owner (setAppliedRecord k n s.now) (s'.setCueTable (s'.cueTable.putSet k .free))

/-- COMMIT_TIME_EXPIRY (R80). -/
def execCommitTimeExpiry (k : SetId) (s : State) : Answer :=
  whenLive s (fun s => match s.cueTable.commitSet k with
    | .scheduled owner n t =>
      if t ≠ s.now then s
      else if s.session.phase == .run && s.attached owner then applySet k owner n s
      else s.setCueTable (s.cueTable.freeSetWhole k)
    | .free | .opened _ _ => s)

end Sys2Proof.Machine
end

