-- ==== Sys2Proof/Machine/Claims.lean ====
section
/-! DEFINITION. The claim unit (chapter 7): CLAIM, QUERY_LINE, RELEASE at the cue table unit and at the claim unit,
safe-level drives and transfers of its hand-overs, port releases, the halt release. -/

namespace Sys2Proof.Machine

/-! ### Records -/

def ClaimUnit.record (u : ClaimUnit) (l : Line) : ClaimRecord := look u.records l
def ClaimUnit.setRecord (u : ClaimUnit) (l : Line) (r : ClaimRecord) : ClaimUnit :=
  { u with records := put u.records l r }
def ClaimUnit.setRelease (u : ClaimUnit) (p : Port) (j : Option ReleaseJob) : ClaimUnit :=
  { u with releases := put u.releases p j }

/-- The port's RELEASE, when it has come to a stage. -/
def ClaimUnit.releaseAt (u : ClaimUnit) (p : Port) (st : ReleaseStage) : Option ReleaseJob :=
  (look u.releases p).filter (fun j => j.stage == st)

/-- The oldest late RELEASE of the port that has come to a stage. -/
def ClaimUnit.lateAt (u : ClaimUnit) (p : Port) (st : ReleaseStage) : Option ReleaseJob :=
  (look u.late p).find? (fun j => j.stage == st)

/-- The port's RELEASE that an event at a stage takes: its present one, or else the oldest late one (log 16). -/
def ClaimUnit.served (u : ClaimUnit) (p : Port) (st : ReleaseStage) : Option ReleaseJob :=
  (u.releaseAt p st).or (u.lateAt p st)

/-- A RELEASE of the port, present or late, moves on to a new stage; with none it is over. -/
def ClaimUnit.moveRelease (u : ClaimUnit) (p : Port) (j : ReleaseJob) (next : Option ReleaseJob) : ClaimUnit :=
  if look u.releases p = some j then u.setRelease p next
  else match next with
    | some k => { u with late := change u.late p (fun js => js.replace j k) }
    | none => { u with late := change u.late p (fun js => js.erase j) }

/-- The port release of a port for a reason. -/
def ClaimUnit.departure (u : ClaimUnit) (p : Port) (why : Departure) : Option PortRelease :=
  match why with
  | .detach => look u.detaching p
  | .lapse => look u.lapsing p

def ClaimUnit.setDeparture (u : ClaimUnit) (p : Port) (why : Departure) (j : Option PortRelease) : ClaimUnit :=
  match why with
  | .detach => { u with detaching := put u.detaching p j }
  | .lapse => { u with lapsing := put u.lapsing p j }

/-- The place of a port in a waiter list, from 1; 0 where it does not wait (R122). -/
def placeOf (p : Port) (waiters : List Port) : Nat :=
  match waiters with
  | [] => 0
  | q :: rest => if q = p then 1 else (match placeOf p rest with
      | 0 => 0
      | n + 1 => n + 2)

/-! ### CLAIM (R120 to R122) -/

/-- CLAIM on a line, with its mode (true: WAIT), by the claim record as it stands (R121, R122). -/
def claimLine (t : Ticket) (l : Line) (wait : Bool) (s : State) : State :=
  let r := s.claims.record l
  match r.held with
  | none =>
    answer t .ok (lineCode l :: timeBytes s.now)
      (s.setClaims (s.claims.setRecord l { r with held := some { holder := t.port, claimedAt := s.now } }))
  | some h =>
    if h.holder = t.port then answer t .ok (lineCode l :: timeBytes h.claimedAt) s
    else if !wait then answer t .busy [portCode h.holder] s
    else if t.port ∈ r.waiters then
      answer t .queued [portCode h.holder, countByte (placeOf t.port r.waiters)] s
    else
      answer t .queued [portCode h.holder, countByte (r.waiters.length + 1)]
        (s.setClaims (s.claims.setRecord l { r with waiters := r.waiters ++ [t.port] }))

/-- CLAIM once it is taken: the phase, then the body, then the record (R120). -/
def claim (t : Ticket) (body : List Byte) (s : State) : State :=
  if s.session.phase = .setup then answer t .wrongPhase [] s
  else if body.length < bodyLength .claim then answer t .badField [] s
  else match indexOf 16 (byteAt body 0), choiceOf (byteAt body 1 != 0 && byteAt body 1 != 1)
      (byteAt body 1 == 1) false true with
    | some l, some wait => claimLine t l wait s
    | _, _ => answer t .badField [] s

/-- CLAIM (R120). -/
def execClaim (p : Port) (s : State) : Answer := takeDirect .claim p s claim

/-! ### QUERY_LINE (R134, R197) -/

/-- The three waiter bytes; unused ones are 0xFF (R197). -/
def waiterBytes (waiters : List Port) : List Byte :=
  [portCode? waiters[0]?, portCode? waiters[1]?, portCode? waiters[2]?]

/-- The body of a QUERY_LINE reply (R197). -/
def lineReport (c : ClaimRecord) (r : LineRecord) (h : Option Holdoff) : List Byte :=
  [presenceBit c.held.isSome 0x08 ||| presenceBit r.pulseEnd.isSome 0x04 ||| presenceBit r.lastChange.isSome 0x02
      ||| presenceBit h.isSome 0x01,
    portCode? (c.held.map (·.holder))]
    ++ timeBytes ((c.held.map (·.claimedAt)).getD 0) ++ [countByte c.waiters.length] ++ waiterBytes c.waiters
    ++ [levelCode r.level] ++ timeBytes (r.pulseEnd.getD 0) ++ timeBytes (r.lastChange.getD 0)
    ++ [groupCode? r.group, lineCode? (h.bind (·.line))] ++ timeBytes ((h.map (·.endsAt)).getD 0)

/-- QUERY_LINE once it is taken. -/
def queryLine (t : Ticket) (body : List Byte) (s : State) : State :=
  if body.length < bodyLength .queryLine then answer t .badField [] s
  else match indexOf 16 (byteAt body 0) with
    | none => answer t .badField [] s
    | some l => answer t .ok (lineReport (s.claims.record l) (s.output.line l) (s.output.holdoffOf l)) s

/-- QUERY_LINE (R134). -/
def execQueryLine (p : Port) (s : State) : Answer := takeDirect .queryLine p s queryLine

/-! ### RELEASE (R125 to R128) -/

/-- RELEASE at the cue table unit once it is granted: the holder's cues on the line are purged, and the release passes
to the claim unit; any other RELEASE passes without a purge (R125, R126). -/
def releaseLine (t : Ticket) (body : List Byte) (s : State) : State :=
  match listCheck s t.port .release body with
  | some st => answer t st [] s
  | none => match indexOf 16 (byteAt body 0) with
    | none => answer t .badField [] s
    | some l =>
      if s.claims.holder l = some t.port then
        (s.setCueTable (s.cueTable.linePurge t.port l)).setClaims
          (s.claims.setRelease t.port (some { ticket := t, line := l, stage := .drive }))
      else s.setClaims (s.claims.setRelease t.port (some { ticket := t, line := l, stage := .undecided }))

/-- RELEASE (R125). -/
def execRelease (p : Port) (s : State) : Answer := takeGranted .release p s releaseLine

/-- The body of a RELEASE reply (R197). -/
def releaseBody (l : Line) (holder : Option Port) (waited : Bool) : List Byte :=
  [lineCode l, portCode? holder, flagByte waited]

/-- A RELEASE passed without a purge is decided by the claim record as it stands, also a late one (R128). -/
def decideRelease (p : Port) (j : ReleaseJob) (s : State) : State :=
  let r := s.claims.record j.line
  if s.claims.holder j.line = some p then
    s.setClaims (s.claims.moveRelease p j (some { j with stage := .drive }))
  else if p ∈ r.waiters then
    answer j.ticket .ok (releaseBody j.line (s.claims.holder j.line) true)
      (s.setClaims ((s.claims.setRecord j.line { r with waiters := r.waiters.filter (fun q => q != p) }).moveRelease
        p j none))
  else answer j.ticket .notOwner [] (s.setClaims (s.claims.moveRelease p j none))

/-- RELEASE_AT_CLAIM_UNIT (R128). -/
def execReleaseAtClaimUnit (p : Port) (s : State) : Answer :=
  whenLive s (fun s => match s.claims.served p .undecided with
    | some j => decideRelease p j s
    | none => s)

/-! ### Transfers (R124, R126, R131) -/

/-- The event record of a grant by transfer (R124). -/
def claimGrantedRecord (l : Line) (now : Time) : EventRecord :=
  { kind := .claimGranted, aux := lineCode l, ref := 0, value := 0, time := now }

/-- The claim record after a transfer (R126, R131): in RUN the first waiter becomes the holder or the line is free, in
SETUP the line is free and its waiter list empty. -/
def ClaimRecord.transferred (r : ClaimRecord) (phase : Phase) (now : Time) : ClaimRecord :=
  match phase, r.waiters with
  | .run, q :: rest => { held := some { holder := q, claimedAt := now }, waiters := rest }
  | .run, [] => { held := none, waiters := [] }
  | .setup, _ => { held := none, waiters := [] }

/-- The port a transfer gives the claim to (R124). -/
def ClaimRecord.heir (r : ClaimRecord) (phase : Phase) : Option Port :=
  match phase with
  | .run => r.waiters.head?
  | .setup => none

/-- The transfer of a line given up by a port. A transfer that finds the line no longer held by that port leaves the
record as it is (R131, R132; log 17). -/
def transferLine (p : Port) (l : Line) (s : State) : State :=
  if s.claims.holder l = some p then
    let r := s.claims.record l
    let s' := s.setClaims (s.claims.setRecord l (r.transferred s.session.phase s.now))
    match r.heir s.session.phase with
    | some q => post q (claimGrantedRecord l s.now) s'
    | none => s'
  else s

/-! ### Port releases (R130, R131) -/

/-- A RELEASE of the port that is not over is late: the port release of its lapse has completed (log 16). -/
def ClaimUnit.makeLate (u : ClaimUnit) (p : Port) : ClaimUnit :=
  { u with releases := put u.releases p none
           late := change u.late p (fun js => js ++ (look u.releases p).toList) }

/-- The completion notice of a port release: to the session unit for a DETACH, to the port unit for a lapse (R131). -/
def ClaimUnit.complete (u : ClaimUnit) (p : Port) (why : Departure) (owes : Option Ticket) : ClaimUnit :=
  let u' := u.setDeparture p why none
  match why, owes with
  | .detach, some t => { u' with detachDone := change u'.detachDone p (fun l => l ++ [t]) }
  | .detach, none => u'
  | .lapse, _ => { u'.makeLate p with lapseDone := put u'.lapseDone p true }

/-- The port leaves every waiter list (R130). -/
def ClaimUnit.forgetWaiter (u : ClaimUnit) (p : Port) : ClaimUnit :=
  { u with records := changeAll u.records (fun r => { r with waiters := r.waiters.filter (fun q => q != p) }) }

/-- The lines a port holds, ascending (R130). -/
def ClaimUnit.linesOf (u : ClaimUnit) (p : Port) : List Line := (indices 16).filter (fun l => u.holder l == some p)

/-- A port release with the lines that remain; with none it completes (R130, R131). -/
def ClaimUnit.proceed (u : ClaimUnit) (p : Port) (why : Departure) (owes : Option Ticket) (lines : List Line) :
    ClaimUnit :=
  match lines with
  | [] => u.complete p why owes
  | _ :: _ => u.setDeparture p why (some { owes := owes, stage := .giving lines false })

/-- The start event may be taken: for a lapse, only when no port release of a DETACH of the port and no drive or
transfer of a release by the port as holder, present or late, is in progress (R130). R130 holds the start for those in
progress at the lapse and does not speak of a RELEASE that is undecided at the lapse and decided as holder before the
start event: that the start waits for its drive and transfer too is the model's choice (log 30, DESIGN CHOICE). -/
def ClaimUnit.mayStart (u : ClaimUnit) (p : Port) (why : Departure) : Bool :=
  match why with
  | .detach => true
  | .lapse => (look u.detaching p).isNone && (look u.releases p).all (fun j => j.stage == .undecided)
      && (look u.late p).all (fun j => j.stage == .undecided)

/-- PORT_RELEASE_START (R130). -/
def execPortReleaseStart (p : Port) (why : Departure) (s : State) : Answer :=
  whenLive s (fun s => match s.claims.departure p why with
    | some j => if j.stage = .notStarted && s.claims.mayStart p why
        then s.setClaims ((s.claims.forgetWaiter p).proceed p why j.owes (s.claims.linesOf p)) else s
    | none => s)

/-! ### Drives and transfers of hand-overs (R90, R126, R131, R132) -/

/-- SAFE_LEVEL_DRIVE (R90): the drive that a hand-over has asked for. -/
def execSafeLevelDrive (h : Handover) (s : State) : Answer :=
  whenLive s (fun s => match h with
    | .release p => (match s.claims.served p .drive with
        | some j => (driveLine j.line s).setClaims (s.claims.moveRelease p j (some { j with stage := .transfer }))
        | none => s)
    | .departure p why => (match s.claims.departure p why with
        | some { owes := owes, stage := .giving (l :: rest) false } =>
          (driveLine l s).setClaims
            (s.claims.setDeparture p why (some { owes := owes, stage := .giving (l :: rest) true }))
        | _ => s)
    | .halt => if s.claims.halt = .drive then (driveEvery s).setClaims { s.claims with halt := .release } else s)

/-- The transfer of a release may take the line from the port. Only a late RELEASE can find a cue there, admitted since
the port attached again; no purge has removed it, so the line stays with its owner (R18). DESIGN CHOICE (log 16). -/
def State.mayTransfer (s : State) (p : Port) (j : ReleaseJob) : Bool :=
  look s.claims.releases p == some j || (s.cueTable.cuesOn p j.line).isEmpty

/-- The transfer that ends a release by the holder, and the reply it owes (R126, R128). -/
def finishRelease (p : Port) (j : ReleaseJob) (s : State) : State :=
  let s' := if s.mayTransfer p j then transferLine p j.line s else s
  answer j.ticket .ok (releaseBody j.line (s'.claims.holder j.line) false)
    (s'.setClaims (s'.claims.moveRelease p j none))

/-- CLAIM_TRANSFER (R126, R131): the transfer of a hand-over whose drive has been taken. -/
def execClaimTransfer (h : Handover) (s : State) : Answer :=
  whenLive s (fun s => match h with
    | .release p => (match s.claims.served p .transfer with
        | some j => finishRelease p j s
        | none => s)
    | .departure p why => (match s.claims.departure p why with
        | some { owes := owes, stage := .giving (l :: rest) true } =>
          let s' := transferLine p l s
          s'.setClaims (s'.claims.proceed p why owes rest)
        | _ => s)
    | .halt => s)

/-- HALT_RELEASE (R132): every line is free and every waiter list empty; the completion notice is sent. -/
def execHaltRelease (s : State) : Answer :=
  whenLive s (fun s => if s.claims.halt = .release
    then s.setClaims { s.claims with
      records := changeAll s.claims.records (fun _ => { held := none, waiters := [] })
      halt := .notice }
    else s)

end Sys2Proof.Machine
end

