-- ==== Sys2Proof/Machine/Session.lean ====
section
/-! DEFINITION. The session unit (chapter 9) and the lapse: ATTACH, WRITE_CONFIG, READ_CONFIG, CONFIRM, HALT_VOTE, the
grants of DETACH and of the purges, the completions, LAPSE and LAPSE_CLEANUP_COMPLETION. -/

namespace Sys2Proof.Machine

/-! ### Counts and checks (R159, R162, R160, R165, R166) -/

/-- A port's confirmation and vote are absent (R149, R151, R168). -/
def Session.forget (x : Session) (p : Port) : Session :=
  { x with confirmed := put x.confirmed p false, voted := put x.voted p false }

/-- The number of ATTACHED ports. -/
def State.attachedCount (s : State) : Nat := s.attachedPorts.length

/-- The number of ATTACHED ports whose confirmation is recorded (R159). -/
def State.confirmedCount (s : State) : Nat := (s.attachedPorts.filter (look s.session.confirmed)).length

/-- The number of ATTACHED ports that have voted (R162). -/
def State.votedCount (s : State) : Nat := (s.attachedPorts.filter (look s.session.voted)).length

/-- The phase check succeeds (R160). -/
def State.agreed (s : State) : Bool :=
  s.session.phase == .setup && !s.session.haltCleanup && !s.attachedPorts.isEmpty
    && s.attachedPorts.all (look s.session.confirmed)

/-- The halt check decides a halt (R165). -/
def State.decidesHalt (s : State) : Bool :=
  s.session.phase == .run && !s.attachedPorts.isEmpty && s.attachedPorts.all (look s.session.voted)

/-- The event record of a phase change (R171). -/
def phaseRecord (phase : Phase) (version : Half) (now : Time) : EventRecord :=
  { kind := .phase, aux := phaseCode phase, ref := 0, value := version, time := now }

/-- The phase check (R160): on success the phase becomes RUN and PHASE is posted. -/
def phaseCheck (s : State) : State :=
  if s.agreed then
    postAll (phaseRecord .run s.session.version s.now) (s.setSession { s.session with phase := .run })
  else s

/-- The decision of a halt (R163): the phase becomes SETUP, every line is driven, the flag is set, the halt purge is
requested on the urgent leaf of a port, and what waits for the completion is kept (R165). -/
def decideHalt (leaf : Port) (waiter : HaltWaiter) (s : State) : State :=
  requestPurge leaf .halt
    (driveEvery (s.setSession
      { s.session with phase := .setup, haltCleanup := true, haltWaiter := some waiter }))

/-- The empty-RUN check (R166): with no port ATTACHED and no lapse cleanup pending in RUN, the phase becomes SETUP and
every line is driven. -/
def emptyRunCheck (s : State) : State :=
  if s.session.phase == .run && s.attachedPorts.isEmpty && (indices 4).all (fun p => !(s.port p).cleanup) then
    driveEvery (s.setSession { s.session with phase := .setup })
  else s

/-! ### The lease timer (R167) -/

/-- The lease end that a load at `now` gives: now plus the lease's units, or no end for lease 0. -/
def leaseEndOf (now : Time) (lease : Byte) : Option Time :=
  if lease = 0 then none else some (later now (lease.toNat * Config.leaseUnit))

/-- The lease timer of a port is loaded. -/
def loadLease (p : Port) (s : State) : State :=
  s.changePort p (fun u => { u with leaseEnd := leaseEndOf s.now (look s.session.lease p) })

/-! ### ATTACH (R149) -/

/-- The port becomes ATTACHED; a record still on its way from before the attachment is not posted to it (R171;
log 11). -/
def PortUnit.attach (u : PortUnit) : PortUnit :=
  { u with state := .attached, events := [], overflow := 0, posted := [] }

/-- The body of an ATTACH reply (R197). -/
def State.attachBody (s : State) : List Byte := phaseCode s.session.phase :: halfBytes s.session.version

/-- ATTACH once it is taken. -/
def attach (t : Ticket) (_body : List Byte) (s : State) : State :=
  match (s.port t.port).state, (s.port t.port).cleanup with
  | .lapsed, true => answer t .busy [] s
  | .attached, _ => answer t .ok s.attachBody s
  | .detached, _ | .lapsed, false =>
    answer t .ok s.attachBody
      (loadLease t.port ((s.changePort t.port PortUnit.attach).setSession (s.session.forget t.port)))

/-- ATTACH (R149). -/
def execAttach (p : Port) (s : State) : Answer := takeDirect .attach p s attach

/-! ### WRITE_CONFIG (R155, R156, R103, R104) -/

/-- The members of a group other than a line. -/
def OutputUnit.othersIn (o : OutputUnit) (g : Group) (l : Line) : List Line := (o.members g).filter (fun m => m != l)

/-- A value in range meets the constraints of R103. -/
def ConfigWrite.permitted (w : ConfigWrite) (o : OutputUnit) : Bool :=
  match w with
  | .safeLevel l .active => (o.line l).group.isNone
  | .group l (some g) => (o.line l).safe == .inactive && (o.othersIn g l).length < Config.groupBound
  | _ => true

/-- The output unit takes a configuration value into force (R88, R91, R104, R105). -/
def OutputUnit.configure (o : OutputUnit) (now : Time) (w : ConfigWrite) : OutputUnit :=
  match w with
  | .polarity l v => o.setLine l { o.line l with polarity := v }
  | .safeLevel l v => (o.setLine l { o.line l with safe := v }).drive now l
  | .group l v =>
    let old := (o.line l).group
    let o' := (o.setLine l { o.line l with group := v }).recompute? now old
    if old = v then o' else o'.recompute? now v
  | .gap g v => (o.setGroup g { o.group g with gap := v }).recompute now g
  | .policy g v => o.setGroup g { o.group g with policy := v }
  | .prescale _ | .lease _ _ | .quota _ _ => o

/-- The session unit stores a configuration value, advances the version and clears the confirmations (R156). -/
def Session.configure (x : Session) (w : ConfigWrite) : Session :=
  let y := { x with version := x.version + 1, confirmed := Vector.replicate 4 false }
  match w with
  | .prescale v => { y with prescale := v }
  | .lease p v => { y with lease := put y.lease p v }
  | .quota p v => { y with quota := put y.quota p v }
  | .polarity _ _ | .safeLevel _ _ | .group _ _ | .gap _ _ | .policy _ _ => y

/-- The time base records a written prescale as pending (R3). -/
def TimeBase.configure (b : TimeBase) (w : ConfigWrite) : TimeBase :=
  match w with
  | .prescale v => { b with pendingPrescale := some v }
  | _ => b

/-- The effect of a WRITE_CONFIG that passes its checks (R156). -/
def configure (w : ConfigWrite) (s : State) : State :=
  ((s.setSession (s.session.configure w)).setTimeBase (s.timeBase.configure w)).setOutput
    (s.output.configure s.now w)

/-- The body of a BAD_CONFIG reply (R197). -/
def badConfigBody (item index : Byte) (version : Half) : List Byte := [item, index] ++ halfBytes version

/-- WRITE_CONFIG once it is taken (R155). -/
def writeConfig (t : Ticket) (body : List Byte) (s : State) : State :=
  if s.session.phase = .run then answer t .wrongPhase [] s
  else if s.session.haltCleanup then answer t .busy [] s
  else if body.length < bodyLength .writeConfig then answer t .badField [] s
  else match itemOf (byteAt body 0) (byteAt body 1) with
    | none | some (.members _) => answer t .badField [] s
    | some item =>
      match (writeOf item (halfAt body 2)).filter (fun w => w.permitted s.output) with
      | none => answer t .badConfig (badConfigBody (byteAt body 0) (byteAt body 1) s.session.version) s
      | some w =>
        let s' := configure w s
        answer t .ok
          ([byteAt body 0, byteAt body 1] ++ halfBytes (halfAt body 2) ++ halfBytes s'.session.version) s'

/-- WRITE_CONFIG (R155, R156). -/
def execWriteConfig (p : Port) (s : State) : Answer := takeDirect .writeConfig p s writeConfig

/-! ### READ_CONFIG (R157) -/

/-- The configured value of a writable item as its two bytes give it (R194); 0 for members, which is reported as a
list. -/
def State.configValue (s : State) (item : ConfigItem) : Half :=
  match item with
  | .prescale => (prescaleCode s.session.prescale).setWidth 16
  | .polarity l => (polarityCode (s.output.line l).polarity).setWidth 16
  | .safeLevel l => (levelCode (s.output.line l).safe).setWidth 16
  | .group l => (groupCode? (s.output.line l).group).setWidth 16
  | .gap g => (s.output.group g).gap
  | .policy g => (policyCode (s.output.group g).policy).setWidth 16
  | .lease p => (look s.session.lease p).setWidth 16
  | .quota p => (look s.session.quota p).setWidth 16
  | .members _ => 0

/-- The four line bytes of a members report: the members, then 0xFF (R197). -/
def memberBytes (ls : List Line) : List Byte :=
  [lineCode? ls[0]?, lineCode? ls[1]?, lineCode? ls[2]?, lineCode? ls[3]?]

/-- The value bytes of a READ_CONFIG reply (R197). -/
def State.configBytes (s : State) (item : ConfigItem) : List Byte :=
  match item with
  | .members g => countByte (s.output.members g).length :: memberBytes (s.output.members g)
  | item => halfBytes (s.configValue item)

/-- READ_CONFIG once it is taken. -/
def readConfig (t : Ticket) (body : List Byte) (s : State) : State :=
  if body.length < bodyLength .readConfig then answer t .badField [] s
  else match itemOf (byteAt body 0) (byteAt body 1) with
    | none => answer t .badField [] s
    | some item =>
      answer t .ok ([byteAt body 0, byteAt body 1] ++ s.configBytes item ++ halfBytes s.session.version) s

/-- READ_CONFIG (R157). -/
def execReadConfig (p : Port) (s : State) : Answer := takeDirect .readConfig p s readConfig

/-! ### CONFIRM (R158, R159) -/

/-- The sum of the four quotas (R158). -/
def Session.quotaSum (x : Session) : Nat := ((indices 4).map (fun p => (look x.quota p).toNat)).sum

/-- CONFIRM once it is taken. -/
def confirm (t : Ticket) (body : List Byte) (s : State) : State :=
  if s.session.phase = .run then answer t .wrongPhase [] s
  else if s.session.haltCleanup then answer t .busy [] s
  else if body.length < bodyLength .confirm then answer t .badField [] s
  else if halfAt body 0 ≠ s.session.version then answer t .versionMismatch (halfBytes s.session.version) s
  else if Config.quotaLimit < s.session.quotaSum then
    answer t .badConfig (badConfigBody 0x07 Config.absentCode s.session.version) s
  else
    let s' := phaseCheck (s.setSession { s.session with confirmed := put s.session.confirmed t.port true })
    answer t .ok [countByte s'.confirmedCount, countByte s'.attachedCount] s'

/-- CONFIRM (R159). -/
def execConfirm (p : Port) (s : State) : Answer := takeDirect .confirm p s confirm

/-! ### HALT_VOTE (R162, R163) -/

/-- HALT_VOTE once it is taken: a vote that does not complete the votes is answered at once, and a decisive one at the
completion of the halt. -/
def haltVote (t : Ticket) (_body : List Byte) (s : State) : State :=
  if s.session.phase = .setup then answer t .wrongPhase [] s
  else
    let s' := s.setSession { s.session with voted := put s.session.voted t.port true }
    if s'.decidesHalt then decideHalt t.port (.vote t s'.attachedCount) s'
    else answer t .ok [countByte s'.votedCount, countByte s'.attachedCount] s'

/-- HALT_VOTE (R162). -/
def execHaltVote (p : Port) (s : State) : Answer := takeDirect .haltVote p s haltVote

/-! ### Grants of DETACH and of the purges (R38 to R41, R138, R151) -/

/-- The port purge at the cue table unit; the port's claims are handed to the claim unit for a port release (R40). -/
def purgePort (p : Port) (why : Departure) (owes : Option Ticket) (s : State) : State :=
  (s.setCueTable (s.cueTable.portPurge p)).setClaims
    (s.claims.setDeparture p why (some { owes := owes, stage := .notStarted }))

/-- DETACH (R151): granted in either phase. -/
def execDetach (p : Port) (s : State) : Answer :=
  takeGranted .detach p s (fun t _ s => purgePort t.port .detach (some t) s)

/-- The purge request of a kind that the next grant takes from a port's urgent leaf (R138, R141). -/
def State.purgeGranted (s : State) (p : Port) (k : PurgeRequest) : Bool :=
  s.nextGrant == some (.urgent, p) && s.firstPurge p == some k

/-- LAPSE_PURGE (R40, R169). -/
def execLapsePurge (p : Port) (s : State) : Answer :=
  whenLive s (fun s => if s.purgeGranted p .lapse then purgePort p .lapse none (grantPurge p s) else s)

/-- The halt purge at the cue table unit; the work passes to the claim unit (R41, R132). -/
def purgeForHalt (s : State) : State :=
  (s.setCueTable s.cueTable.haltPurge).setClaims { s.claims with halt := .drive }

/-- The port on whose leaf the next grant takes a halt purge. -/
def State.haltLeaf (s : State) : Option Port := (indices 4).find? (fun p => s.purgeGranted p .halt)

/-- HALT_PURGE (R41, R163). -/
def execHaltPurge (s : State) : Answer :=
  whenLive s (fun s => match s.haltLeaf with
    | some p => purgeForHalt (grantPurge p s)
    | none => s)

/-! ### Completion of a DETACH (R151, R152, R165, R166) -/

/-- The port becomes DETACHED: its timer is stopped and its event queue emptied. -/
def PortUnit.leave (u : PortUnit) : PortUnit :=
  { u with state := .detached, leaseEnd := none, events := [], overflow := 0 }

/-- The check that follows a departure by DETACH, and the reply, which waits for the halt when the departure completes
the votes. -/
def departureCheck (t : Ticket) (s : State) : State :=
  match s.session.phase with
  | .setup => answer t .ok [] (phaseCheck s)
  | .run =>
    if s.attachedPorts.isEmpty then answer t .ok [] (emptyRunCheck s)
    else if s.decidesHalt then decideHalt t.port (.detach t) s
    else answer t .ok [] s

/-- The session unit takes the completion notice of a DETACH: a lapsed port stays LAPSED, a port that has attached
again keeps all it has, and any other becomes DETACHED. -/
def completeDetach (t : Ticket) (s : State) : State :=
  let p := t.port
  if (s.port p).state = .lapsed then departureCheck t (s.setSession (s.session.forget p))
  else if s.current t then departureCheck t ((s.changePort p PortUnit.leave).setSession (s.session.forget p))
  else answer t .ok [] s

/-- DETACH_COMPLETION (R151). -/
def execDetachCompletion (p : Port) (s : State) : Answer :=
  whenLive s (fun s => match look s.claims.detachDone p with
    | t :: rest => completeDetach t (s.setClaims { s.claims with detachDone := put s.claims.detachDone p rest })
    | [] => s)

/-! ### Completion of a halt (R163) -/

/-- A port's lapse cleanup is over. -/
def clearCleanup (p : Port) (s : State) : State := s.changePort p (fun u => { u with cleanup := false })

/-- What waited for the completion of the halt goes on. -/
def resumeWaiter (w : Option HaltWaiter) (s : State) : State :=
  match w with
  | some (.vote t n) => answer t .ok [countByte n, countByte n] s
  | some (.detach t) => answer t .ok [] s
  | some (.lapse p) => clearCleanup p s
  | none => s

/-- The session unit's record when a halt completes. -/
def Session.afterHalt (x : Session) : Session :=
  { x with confirmed := Vector.replicate 4 false, voted := Vector.replicate 4 false, haltCleanup := false,
           haltWaiter := none }

/-- HALT_COMPLETION (R163). -/
def execHaltCompletion (s : State) : Answer :=
  whenLive s (fun s => if s.claims.halt = .notice then
    resumeWaiter s.session.haltWaiter
      (postAll (phaseRecord .setup s.session.version s.now)
        ((s.setClaims { s.claims with halt := .idle }).setSession s.session.afterHalt))
    else s)

/-! ### Lapse (R168, R185) -/

/-- The port unit at a lapse: LAPSED, without queues, last accepted request and last-reply copy; a command that had
been taken is marked as owed; the captured reply is no longer in the queue (R176). -/
def PortUnit.lapse (u : PortUnit) : PortUnit :=
  { u with
    state := .lapsed, cleanup := true, leaseEnd := none, cmds := [], replies := [], setAside := false
    owed := u.owed || u.setAside, events := [], overflow := 0, lastAccepted := none, lastReply := none
    snapshot := u.snapshot.map (fun f => { f with held := false }), epoch := u.epoch + 1 }

/-- The event record of a lapse (R171). -/
def peerLapsedRecord (p : Port) (now : Time) : EventRecord :=
  { kind := .peerLapsed, aux := portCode p, ref := 0, value := 0, time := now }

/-- The port's presented command leaves its leaf (R139). -/
def withdraw (p : Port) (s : State) : State :=
  s.setArbiter { s.arbiter with presented := put s.arbiter.presented p false }

/-- A port lapses (R168). -/
def lapsePort (p : Port) (s : State) : State :=
  requestPurge p .lapse
    (postAll (peerLapsedRecord p s.now)
      (withdraw p ((s.changePort p PortUnit.lapse).setSession (s.session.forget p))))

/-- The lease end of an ATTACHED port is at now (R168). A good frame taken earlier in the tick has moved the lease end, so
no lapse follows it (R170), where R186's table lets one follow and flush the frame's request. DESIGN CHOICE (log
29). -/
def State.leaseOver (s : State) (p : Port) : Bool := s.attached p && (s.port p).leaseEnd == some s.now

/-- LAPSE (R168). -/
def execLapse (p : Port) (s : State) : Answer :=
  whenLive s (fun s => if s.leaseOver p then lapsePort p s else s)

/-! ### Completion of a lapse cleanup (R169) -/

/-- The lapse cleanup of a port completes. -/
def completeCleanup (p : Port) (s : State) : State :=
  match s.session.phase with
  | .setup => phaseCheck (clearCleanup p s)
  | .run =>
    if s.attachedPorts.isEmpty then emptyRunCheck (clearCleanup p s)
    else if s.decidesHalt then decideHalt p (.lapse p) s
    else clearCleanup p s

/-- LAPSE_CLEANUP_COMPLETION (R169). -/
def execLapseCleanupCompletion (p : Port) (s : State) : Answer :=
  whenLive s (fun s => if look s.claims.lapseDone p then
    completeCleanup p (s.setClaims { s.claims with lapseDone := put s.claims.lapseDone p false })
    else s)

end Sys2Proof.Machine
end

