-- ==== Sys2Proof/Machine/PortUnit.lean ====
section
/-! DEFINITION. The port unit (chapter 10): frames, replies, event records, the answers of the port unit itself and its
local commands. -/

namespace Sys2Proof.Machine

/-! ### Frames (R172, R173, R176 to R182) -/

/-- The oldest sensed edge of a port's select input has been taken. -/
def takeSelEdge (p : Port) (s : State) : State :=
  s.setInputs { s.inputs with selEdges := change s.inputs.selEdges p List.tail }

/-- The oldest sensed edge of a port's select input. -/
def State.selEdge (s : State) (p : Port) : Option PinLevel := (look s.inputs.selEdges p).head?

/-- FRAME_START (R173). -/
def execFrameStart (p : Port) (s : State) : Answer :=
  whenLive s (fun s => match s.selEdge p with
    | some .low => (takeSelEdge p s).changePort p (fun u => { u with snapshot := some (s.snapshotNow p) })
    | _ => s)

/-- The first step of the frame end (R176): the captured head reply is removed when the whole stream was transferred,
and the frame is over. -/
def PortUnit.closeFrame (u : PortUnit) (f : Snapshot) (bytes : List Byte) : PortUnit :=
  let read := f.held && f.stream.length ≤ bytes.length
  { u with snapshot := none, replies := if read then u.replies.tail else u.replies }

/-- A request received whole, with its CRC (R174, R180). -/
structure Received where
  request : Request
  crc : Half
deriving DecidableEq, Repr

/-- The second step of the frame end (R177): the request, or the reason for which it is dropped. -/
def checkRequest (bytes : List Byte) : Except DropReason Received :=
  if bytes.length < 3 then .error .short
  else
    let len := (byteAt bytes 2).toNat
    if Config.maxRequestBody < len then .error .badLength
    else if bytes.length < 5 + len then .error .short
    else if halfAt bytes (3 + len) ≠ crc16 (bytes.take (3 + len)) then .error .crc
    else .ok { request := { kind := byteAt bytes 0, seq := byteAt bytes 1, body := (bytes.drop 3).take len }
               crc := halfAt bytes (3 + len) }

/-- The last drop reason of a port (R182). -/
def setDrop (p : Port) (d : DropReason) (s : State) : State := s.changePort p (fun u => { u with drop := d })

/-- The request repeats the last accepted request (R180). -/
def PortUnit.repeats (u : PortUnit) (r : Received) : Option LastAccepted :=
  u.lastAccepted.filter (fun a => a.seq == r.request.seq && a.crc == r.crc)

/-- A copy of the last reply joins the reply queue (R180). -/
def PortUnit.copyReply (u : PortUnit) : PortUnit :=
  { u with replies := u.replies ++ u.lastReply.toList, drop := .none }

/-- A presented request is withdrawn when no reply entry is free (R137, R139). -/
def withdrawIfFull (p : Port) (s : State) : State := if (s.port p).freeEntry then s else withdraw p s

/-- The fifth step for a duplicate (R180). -/
def duplicate (p : Port) (a : LastAccepted) (s : State) : State :=
  if !a.answered then setDrop p .duplicate s
  else if (s.port p).freeEntry then withdrawIfFull p (s.changePort p PortUnit.copyReply)
  else setDrop p .replyFull s

/-- The sixth step (R181): a new request joins the command queue. -/
def queueRequest (p : Port) (r : Received) (s : State) : State :=
  if (s.port p).cmds.length < Config.commandQueueBound then
    s.changePort p (fun u => { u with
      cmds := u.cmds ++ [r.request]
      lastAccepted := some { seq := r.request.seq, crc := r.crc, answered := false }
      drop := .none })
  else setDrop p .queueFull s

/-- The third step (R178): a good CRC from an ATTACHED port loads the lease timer. -/
def reloadLease (p : Port) (s : State) : State := if s.attached p then loadLease p s else s

/-- The third to sixth step for a request with a good CRC (R178 to R181). -/
def acceptRequest (p : Port) (r : Received) (s : State) : State :=
  let s' := reloadLease p s
  if kindOf r.request.kind = some .null then s'
  else match (s'.port p).repeats r with
    | some a => duplicate p a s'
    | none => queueRequest p r s'

/-- The inbound bytes of a frame (R177). -/
def takeBytes (p : Port) (bytes : List Byte) (s : State) : State :=
  match bytes with
  | [] => s
  | _ :: _ => match checkRequest bytes with
    | .error d => setDrop p d s
    | .ok r => acceptRequest p r s

/-- A frame ends: its bits were sampled on SDIn while it was open (R172, R176). Where two windows of SELn# are sensed as
one frame (R200) and the first ends in a partial byte, its last bits and the first ones of the second window make one byte;
the manual does not say whether they are ignored instead. DESIGN CHOICE (log 33). -/
def endFrame (p : Port) (f : Snapshot) (sdi : List Bool) (s : State) : State :=
  takeBytes p (bytesOfBits sdi) (s.changePort p (fun u => u.closeFrame f (bytesOfBits sdi)))

/-- FRAME_END (R176). No frame end is taken for a frame that a device reset abandoned (R192). -/
def execFrameEnd (p : Port) (sdi : List Bool) (s : State) : Answer :=
  whenLive s (fun s => match s.selEdge p with
    | some .high => (match (s.port p).snapshot with
        | some f => endFrame p f sdi (takeSelEdge p s)
        | none => takeSelEdge p s)
    | _ => s)

/-! ### Replies and event records arrive (R184, R185, R188) -/

/-- A reply arrives (R184). The command answered is the last accepted request exactly when no later command is queued
(log 14). -/
def PortUnit.takeReply (u : PortUnit) (r : Reply) : PortUnit :=
  { u with
    setAside := false
    replies := u.replies ++ [r]
    cmds := u.cmds.tail
    lastReply := some r
    lastAccepted := if u.cmds.length = 1 then u.lastAccepted.map (fun a => { a with answered := true })
      else u.lastAccepted }

/-- REPLY_ARRIVAL (R184): the oldest reply on its way to the port; one that is owed to a flushed command is discarded
(R185). R185 has one owed-reply mark and does not say when it clears where two replies are owed at once (the port lapses
again before the first has come): that the first one discarded clears it is the model's choice (log 31, DESIGN CHOICE);
the second is discarded all the same, by its ticket (log 12). -/
def execReplyArrival (p : Port) (s : State) : Answer :=
  whenLive s (fun s => match (s.port p).produced with
    | [] => s
    | (t, r) :: rest =>
      if !s.current t then s.changePort p (fun u => { u with produced := rest, owed := false })
      else if (s.port p).setAside then s.changePort p (fun u => { u.takeReply r with produced := rest })
      else s)

/-- The port unit takes a record posted to it (R188). -/
def PortUnit.takeRecord (u : PortUnit) (e : EventRecord) : PortUnit :=
  match u.state with
  | .attached =>
    if u.events.length < Config.eventQueueBound then { u with events := u.events ++ [e] }
    else { u with overflow := if u.overflow = 255 then 255 else u.overflow + 1 }
  | .detached | .lapsed => u

/-- EVENT_POSTED (R188): the oldest record on its way to the port. -/
def execEventPosted (p : Port) (s : State) : Answer :=
  whenLive s (fun s => match (s.port p).posted with
    | [] => s
    | e :: rest => s.changePort p (fun u => { u.takeRecord e with posted := rest }))

/-! ### Answers of the port unit (R183) -/

/-- BAD_KIND (R183): the head's kind names no command. -/
def execBadKind (p : Port) (s : State) : Answer :=
  whenLive s (fun s => match s.head p with
    | some r => if kindOf r.kind = none then answer (s.ticket p r) .badKind [] (takeHead p s) else s
    | none => s)

/-- A port that is DETACHED or LAPSED may not use the command (R148, R183). -/
def State.turnedAway (s : State) (p : Port) (b : Byte) : Bool :=
  match kindOf b with
  | some k => k != .null && !s.passes p k
  | none => false

/-- PORT_UNIT_NOT_ATTACHED (R183). -/
def execPortUnitNotAttached (p : Port) (s : State) : Answer :=
  whenLive s (fun s => match s.head p with
    | some r => if s.turnedAway p r.kind then answer (s.ticket p r) .notAttached [] (takeHead p s) else s
    | none => s)

/-! ### Local commands (R10, R189, R190) -/

/-- READ_TIME once it is taken. -/
def readTime (t : Ticket) (_body : List Byte) (s : State) : State :=
  answer t .ok (timeBytes s.now ++ [prescaleCode s.timeBase.prescale]) s

/-- READ_TIME (R10). -/
def execReadTime (p : Port) (s : State) : Answer := takeDirect .readTime p s readTime

/-- The records a READ_EVENTS with count n returns (R189). -/
def PortUnit.recordsFor (u : PortUnit) (n : Byte) : List EventRecord :=
  u.events.take (min n.toNat Config.eventsPerRead)

/-- READ_EVENTS once it is taken. -/
def readEvents (t : Ticket) (body : List Byte) (s : State) : State :=
  if body.length < bodyLength .readEvents then answer t .badField [] s
  else
    let u := s.port t.port
    let records := u.recordsFor (byteAt body 0)
    answer t .ok ([countByte records.length, countByte u.events.length, u.overflow]
      ++ records.flatMap EventRecord.bytes) s

/-- READ_EVENTS (R189). -/
def execReadEvents (p : Port) (s : State) : Answer := takeDirect .readEvents p s readEvents

/-- ACK_EVENTS once it is taken. -/
def ackEvents (t : Ticket) (body : List Byte) (s : State) : State :=
  if body.length < bodyLength .ackEvents then answer t .badField [] s
  else
    let u := s.port t.port
    let k := (byteAt body 0).toNat
    answer t .ok [countByte (min k u.events.length), u.overflow]
      (s.changePort t.port (fun u => { u with events := u.events.drop k, overflow := 0 }))

/-- ACK_EVENTS (R190). -/
def execAckEvents (p : Port) (s : State) : Answer := takeDirect .ackEvents p s ackEvents

end Sys2Proof.Machine
end

