-- ==== Sys2Proof/Machine/TimeBase.lean ====
section
/-! DEFINITION. Device reset, the sampled inputs and the time base (R1 to R3, R107, R192, R200): DEVICE_RESET, RESET_END,
REFCLK_PERIOD_END and TB_STEP. -/

namespace Sys2Proof.Machine

/-! ### Device reset (R192, R200) -/

/-- A sensed fall of RESET# that has not been taken (R200). -/
def State.resetFalls (s : State) : Bool := !s.inputs.resetHeld && s.inputs.resetPin.sensed == .low

/-- The cause of a device reset is there: power may come at any time (log 7), and RESET# acts at its sensed fall. -/
def State.resetCaused (s : State) (cause : ResetCause) : Bool :=
  match cause with
  | .powerOn => true
  | .resetPin => s.resetFalls

/-- The inputs when device reset begins: no edge waits. At power-on the reset itself counts as a sensed low of RESET#
(log 7). -/
def Inputs.enterReset (i : Inputs) (cause : ResetCause) : Inputs :=
  { i with
    resetHeld := true
    resetPin := match cause with
      | .powerOn => { last := .low, sensed := .low }
      | .resetPin => i.resetPin
    faultEdges := [], selEdges := Vector.replicate 4 [] }

/-- Every block at its reset state, device reset held; the queue of commands is the model's own and stays. -/
def State.enterReset (s : State) (cause : ResetCause) : State :=
  { State.reset with inputs := s.inputs.enterReset cause, pending := s.pending }

/-- DEVICE_RESET (R192, R200). -/
def execDeviceReset (cause : ResetCause) (s : State) : Answer :=
  .next (if s.resetCaused cause then s.enterReset cause else s)

/-- A sensed rise of RESET# that has not been taken (R200). -/
def State.resetRises (s : State) : Bool := s.inputs.resetHeld && s.inputs.resetPin.sensed == .high

/-- RESET_END (R107): the part begins tick 0, and enters TRIPPED with cause INPUT when FAULT# is low. -/
def execResetEnd (s : State) : Answer :=
  .next (if s.resetRises then
      let s' := s.setInputs { s.inputs with resetHeld := false }
      if s.inputs.faultPin.sensed = .low then tripEntry .input s' else s'
    else s)

/-! ### Sampling (R200) -/

/-- A sample: the sensed level changes when two successive samples agree on the new level. -/
def Sampler.sample (x : Sampler) (level : PinLevel) : Sampler :=
  { last := level, sensed := if x.last = level then level else x.sensed }

/-- The sensed change a sample makes, if it makes one. -/
def Sampler.edge (x : Sampler) (level : PinLevel) : List PinLevel :=
  if (x.sample level).sensed = x.sensed then [] else [level]

/-- One entry for each port. -/
def forPorts {α : Type} (f : Port → α) : Vector α 4 := #v[f 0, f 1, f 2, f 3]

/-- The inputs after a sample of all six; a sensed change of FAULT# or of a select input waits to be taken, and none is
recorded while device reset holds (R192). -/
def Inputs.sample (i : Inputs) (pins : InputSample) : Inputs :=
  let keep (es : List PinLevel) : List PinLevel := if i.resetHeld then [] else es
  { resetHeld := i.resetHeld
    resetPin := i.resetPin.sample pins.reset
    faultPin := i.faultPin.sample pins.fault
    selPins := forPorts (fun p => (look i.selPins p).sample (look pins.sel p))
    faultEdges := i.faultEdges ++ keep (i.faultPin.edge pins.fault)
    selEdges := forPorts (fun p => look i.selEdges p ++ keep ((look i.selPins p).edge (look pins.sel p))) }

/-! ### The tick (R1 to R3) -/

/-- A REFCLK period ends: the tick count advances; while device reset holds it is held at 0 (R1, R2). -/
def TimeBase.period (b : TimeBase) (resetHeld : Bool) : TimeBase :=
  if resetHeld then b else { b with tickCount := b.tickCount + 1 }

/-- The tick count has reached the prescale in force (R2). -/
def TimeBase.full (b : TimeBase) : Bool := b.prescale.periods ≤ b.tickCount

/-- A period can end: no sensed change of RESET# waits to be taken, and the step of TB that a full count asks for has
been taken (log 5, 8). -/
def State.periodMayEnd (s : State) : Bool :=
  !s.resetFalls && !s.resetRises && (s.inputs.resetHeld || !s.timeBase.full)

/-- REFCLK_PERIOD_END (R2, R200). The sample at the REFCLK edge that ends the last period of a tick belongs to the tick
that ends: TB_STEP comes after it. The manual does not say which of the two ticks holds it. DESIGN CHOICE (log 27). -/
def execRefclkPeriodEnd (pins : InputSample) (s : State) : Answer :=
  .next (if s.periodMayEnd then
      (s.setTimeBase (s.timeBase.period s.inputs.resetHeld)).setInputs (s.inputs.sample pins)
    else s)

/-- A PENDING cue is due at now (R43). -/
def State.cueDue (s : State) : Bool :=
  !(s.cueTable.slotsWith (fun c => c.state == .pending && c.due == s.now)).isEmpty

/-- A SCHEDULED set's commit time is at now (R80). -/
def State.commitDue (s : State) : Bool :=
  (indices 8).any (fun k => match s.cueTable.commitSet k with
    | .scheduled _ _ t => t == s.now
    | .free | .opened _ _ => false)

/-- A pulse end or a holdoff end is at now (R94, R99). -/
def State.outputDue (s : State) : Bool :=
  (indices 16).any (fun l => (s.output.line l).pulseEnd == some s.now)
    || (indices 6).any (fun g => match (s.output.group g).holdoff with
        | some h => h.endsAt == s.now
        | none => false)

/-- An event that belongs to the tick that sensed it waits: an opening notice (R62), a change of FAULT# or a select
edge (R107, R172, R200). An edge sensed at the very end of a tick is held to belong to that tick. DESIGN CHOICE (log
27). -/
def State.noticeWaits (s : State) : Bool :=
  !s.output.notices.isEmpty || !s.inputs.faultEdges.isEmpty
    || (indices 4).any (fun p => !(look s.inputs.selEdges p).isEmpty)

/-- The events that belong to the current tick have been taken (R7; log 4). -/
def State.tickQuiet (s : State) : Bool :=
  !s.cueDue && !s.commitDue && !s.outputDue && !(indices 4).any s.leaseOver && !s.noticeWaits

/-- TB steps: by one modulo 2^32, the tick count returns to 0, and a pending prescale is taken into force (R1, R3). -/
def TimeBase.step (b : TimeBase) : TimeBase :=
  { tb := b.tb + 1, tickCount := 0, prescale := b.pendingPrescale.getD b.prescale, pendingPrescale := none }

/-- TB_STEP (R2). -/
def execTbStep (s : State) : Answer :=
  whenLive s (fun s => if s.timeBase.full && s.tickQuiet then s.setTimeBase s.timeBase.step else s)

end Sys2Proof.Machine
end

