-- ==== Sys2Proof/Machine/Dispatch.lean ====
section
/-! DEFINITION. The effect of every command of spec/opcode_table.json, one arm for each row. -/

namespace Sys2Proof.Machine

def exec (i : Instr) (s : State) : Host.Outcome State Fault Refusal :=
  match i with
  | .deviceReset cause => Sys2Proof.Machine.execDeviceReset cause s
  | .resetEnd => Sys2Proof.Machine.execResetEnd s
  | .tbStep => Sys2Proof.Machine.execTbStep s
  | .faultLow => Sys2Proof.Machine.execFaultLow s
  | .faultHigh => Sys2Proof.Machine.execFaultHigh s
  | .frameStart p => Sys2Proof.Machine.execFrameStart p s
  | .frameEnd p sdi => Sys2Proof.Machine.execFrameEnd p sdi s
  | .presentRequest p => Sys2Proof.Machine.execPresentRequest p s
  | .replyArrival p => Sys2Proof.Machine.execReplyArrival p s
  | .eventPosted p => Sys2Proof.Machine.execEventPosted p s
  | .badKind p => Sys2Proof.Machine.execBadKind p s
  | .readTime p => Sys2Proof.Machine.execReadTime p s
  | .readEvents p => Sys2Proof.Machine.execReadEvents p s
  | .ackEvents p => Sys2Proof.Machine.execAckEvents p s
  | .attach p => Sys2Proof.Machine.execAttach p s
  | .writeConfig p => Sys2Proof.Machine.execWriteConfig p s
  | .readConfig p => Sys2Proof.Machine.execReadConfig p s
  | .confirm p => Sys2Proof.Machine.execConfirm p s
  | .haltVote p => Sys2Proof.Machine.execHaltVote p s
  | .claim p => Sys2Proof.Machine.execClaim p s
  | .queryLine p => Sys2Proof.Machine.execQueryLine p s
  | .trip p => Sys2Proof.Machine.execTrip p s
  | .clearTrip p => Sys2Proof.Machine.execClearTrip p s
  | .addCue p => Sys2Proof.Machine.execAddCue p s
  | .cancelCue p => Sys2Proof.Machine.execCancelCue p s
  | .queryCue p => Sys2Proof.Machine.execQueryCue p s
  | .stage p => Sys2Proof.Machine.execStage p s
  | .unstage p => Sys2Proof.Machine.execUnstage p s
  | .openSet p => Sys2Proof.Machine.execOpenSet p s
  | .commitSet p => Sys2Proof.Machine.execCommitSet p s
  | .abandonSet p => Sys2Proof.Machine.execAbandonSet p s
  | .release p => Sys2Proof.Machine.execRelease p s
  | .releaseAtClaimUnit p => Sys2Proof.Machine.execReleaseAtClaimUnit p s
  | .detach p => Sys2Proof.Machine.execDetach p s
  | .lapsePurge p => Sys2Proof.Machine.execLapsePurge p s
  | .haltPurge => Sys2Proof.Machine.execHaltPurge s
  | .safeLevelDrive h => Sys2Proof.Machine.execSafeLevelDrive h s
  | .claimTransfer h => Sys2Proof.Machine.execClaimTransfer h s
  | .portReleaseStart p why => Sys2Proof.Machine.execPortReleaseStart p why s
  | .haltRelease => Sys2Proof.Machine.execHaltRelease s
  | .detachCompletion p => Sys2Proof.Machine.execDetachCompletion p s
  | .haltCompletion => Sys2Proof.Machine.execHaltCompletion s
  | .lapse p => Sys2Proof.Machine.execLapse p s
  | .lapseCleanupCompletion p => Sys2Proof.Machine.execLapseCleanupCompletion p s
  | .occurrence => Sys2Proof.Machine.execOccurrence s
  | .commitTimeExpiry k => Sys2Proof.Machine.execCommitTimeExpiry k s
  | .openingNotice g => Sys2Proof.Machine.execOpeningNotice g s
  | .pulseEndExpiry l => Sys2Proof.Machine.execPulseEndExpiry l s
  | .holdoffExpiry g => Sys2Proof.Machine.execHoldoffExpiry g s
  | .refclkPeriodEnd pins => Sys2Proof.Machine.execRefclkPeriodEnd pins s
  | .portUnitNotAttached p => Sys2Proof.Machine.execPortUnitNotAttached p s

end Sys2Proof.Machine
end

