-- ==== Sys2Proof/Safety.lean ====
section
/-! DEFINITION. What the part's laws say of a state, as invariants for the statements, and the words the statements use
for what a command leaves alone. -/

namespace Sys2Proof.Machine

/-! ### Which blocks a command leaves alone -/

/-- The blocks of the state. -/
inductive Block
  | timeBase
  | inputs
  | cueTable
  | output
  | claims
  | arbiter
  | session
  | ports
deriving DecidableEq, Repr

/-- A block is the same in two states. -/
def Block.same (b : Block) (s t : State) : Prop :=
  match b with
  | .timeBase => t.timeBase = s.timeBase
  | .inputs => t.inputs = s.inputs
  | .cueTable => t.cueTable = s.cueTable
  | .output => t.output = s.output
  | .claims => t.claims = s.claims
  | .arbiter => t.arbiter = s.arbiter
  | .session => t.session = s.session
  | .ports => t.ports = s.ports

/-- Nothing but the named blocks differs. -/
def ChangesOnly (bs : List Block) (s t : State) : Prop := t.pending = s.pending ∧ ∀ b, b ∉ bs → b.same s t

/-! ### What may be taken -/

/-- The port's head command is `r`, of kind `k`, and its block may take it now (R148, R183). -/
def State.Takes (s : State) (p : Port) (k : CommandKind) (r : Request) : Prop :=
  s.live = true ∧ s.head p = some r ∧ kindOf r.kind = some k ∧ s.passes p k = true

/-- The port's head command is `r`, of the list-class kind `k`, and the next grant goes to it (R137, R141). -/
def State.Grants (s : State) (p : Port) (k : CommandKind) (r : Request) : Prop :=
  s.live = true ∧ s.granted k p = some r

/-- The arbiter when a port's command has been taken without a grant: the port waits on no leaf. -/
def Arbiter.without (a : Arbiter) (p : Port) : Arbiter := { a with presented := put a.presented p false }

/-- The arbiter after the grant of a port's command: the three switches on the walk have turned (R142) and the request
is off its leaf (R144). -/
def Arbiter.afterGrant (a : Arbiter) (c : ListClass) (p : Port) : Arbiter :=
  { a with switches := a.switches.moved c p, presented := put a.presented p false }

/-- A reply entry of the port unit is set aside (R137, R183). -/
def PortUnit.setEntryAside (u : PortUnit) : PortUnit := { u with setAside := true }

/-- A reply to a request has been produced and is on its way (R184). -/
def PortUnit.produce (u : PortUnit) (t : Ticket) (status : Status) (body : List Byte) : PortUnit :=
  { u with produced := u.produced ++ [(t, { status := status, seq := t.seq, body := body })] }

/-- A record is on its way to the port unit if the port is ATTACHED (R188). -/
def PortUnit.receive (u : PortUnit) (e : EventRecord) : PortUnit :=
  if u.state = .attached then { u with posted := u.posted ++ [e] } else u

/-- The port units after a command of `p` that posts nothing: an entry is set aside at `p` and its reply is produced. -/
def State.portsAnswering (s : State) (p : Port) (r : Request) (status : Status) (body : List Byte) :
    Vector PortUnit 4 :=
  put s.ports p ((s.port p).setEntryAside.produce (s.ticket p r) status body)

/-- Between two states only the ports, and of the arbiter only the presented mark of `p`, differ: the command of `p` was
taken directly and answered. -/
def AnsweredOnly (s t : State) (p : Port) (r : Request) (status : Status) (body : List Byte) : Prop :=
  ChangesOnly [.arbiter, .ports] s t ∧ t.arbiter = s.arbiter.without p
    ∧ t.ports = s.portsAnswering p r status body

/-- The same for a granted command of a class: the switches of its walk have moved. -/
def GrantedOnly (s t : State) (c : ListClass) (p : Port) (r : Request) (status : Status) (body : List Byte) : Prop :=
  ChangesOnly [.arbiter, .ports] s t ∧ t.arbiter = s.arbiter.afterGrant c p
    ∧ t.ports = s.portsAnswering p r status body

/-- The port units after a command of `p` that posts one record to every ATTACHED port and is answered. -/
def PortsAnswerAndReceive (s t : State) (p : Port) (r : Request) (status : Status) (body : List Byte)
    (e : EventRecord) : Prop :=
  ∀ q, t.port q = if q = p then ((s.port p).setEntryAside.receive e).produce (s.ticket p r) status body
    else (s.port q).receive e

/-- Every port unit receives one record and is else as before. -/
def PortsReceive (s t : State) (e : EventRecord) : Prop := ∀ q, t.port q = (s.port q).receive e

/-- One port unit receives records in turn and every port unit is else as before. -/
def PortReceives (s t : State) (p : Port) (es : List EventRecord) : Prop :=
  ∀ q, t.port q = if q = p then es.foldl PortUnit.receive (s.port q) else s.port q

/-! ### Level changes and drives (R89, R90, R98) -/

/-- A line record after a deactivation (R89). -/
def LineRecord.down (r : LineRecord) (now : Time) : LineRecord :=
  { r with level := .inactive, pulseEnd := none, lastChange := some now }

/-- A line record after an activation with a pulse end or none (R89, R92). -/
def LineRecord.up (r : LineRecord) (now : Time) (pulseEnd : Option Time) : LineRecord :=
  { r with level := .active, pulseEnd := pulseEnd, lastChange := some now }

/-- A line record after a safe-level drive: at its safe level, without pulse end, and changed at now if it stood
elsewhere (R90). -/
def LineRecord.driven (r : LineRecord) (now : Time) : LineRecord :=
  { r with level := r.safe, pulseEnd := none, lastChange := if r.level = r.safe then r.lastChange else some now }

/-- A group record guarded against a line that deactivated at now (R98). -/
def GroupRecord.guarded (r : GroupRecord) (l : Line) (now : Time) : GroupRecord :=
  { r with holdoff := some { line := some l, endsAt := later now r.gap.toNat } }

/-- A drive of every line opens the group at once: it has an ACTIVE member and its gap is 0 (R98). -/
def OutputUnit.OpensByDrive (o : OutputUnit) (g : Group) : Prop :=
  (o.group g).gap = 0 ∧ ∃ l, (o.line l).group = some g ∧ (o.line l).level = .active

/-- What a drive of every line makes of the output unit (R90, R98, R101): each line is driven; a group with an ACTIVE
member is guarded against it, or opens with a notice when its gap is 0; every other group stays, and no other notice is
sent. -/
structure Driven (o o' : OutputUnit) (now : Time) : Prop where
  lines : ∀ l, o'.line l = (o.line l).driven now
  still : ∀ g, (∀ l, (o.line l).group = some g → (o.line l).level = .inactive) → o'.group g = o.group g
  guarded : ∀ g l, (o.line l).group = some g → (o.line l).level = .active → (o.group g).gap ≠ 0 →
    o'.group g = (o.group g).guarded l now
  opened : ∀ g l, (o.line l).group = some g → (o.line l).level = .active → (o.group g).gap = 0 →
    o'.group g = o.group g ∧ g ∈ o'.notices
  notices : ∃ gs : List Group, o'.notices = o.notices ++ gs ∧ gs.Nodup ∧ ∀ g, g ∈ gs ↔ o.OpensByDrive g

/-- What a drive of one line makes of the output unit (R90, R98, R101): the line is driven; its group is guarded against
it if it was ACTIVE, or opens with a notice when its gap is 0; nothing else changes. -/
structure LineDriven (o o' : OutputUnit) (l : Line) (now : Time) : Prop where
  lines : ∀ m, o'.line m = if m = l then (o.line l).driven now else o.line m
  groups : ∀ g, o'.group g = if (o.line l).group = some g ∧ (o.line l).level = .active ∧ (o.group g).gap ≠ 0
    then (o.group g).guarded l now else o.group g
  trip : o'.trip = o.trip
  opened : ∀ g, (o.line l).group = some g → (o.line l).level = .active → (o.group g).gap = 0 →
    o'.notices = o.notices ++ [g]
  quiet : (o.line l).level = .inactive ∨ (o.line l).group = none
      ∨ (∃ g, (o.line l).group = some g ∧ (o.group g).gap ≠ 0) →
    o'.notices = o.notices

/-- A trip entry (R108): the record with its cause and entry time, and the drive of every line. -/
def TripEntered (o o' : OutputUnit) (cause : TripCause) (now : Time) : Prop :=
  o'.trip = .tripped cause now ∧ Driven o o' now

/-! ### Holdoffs set by a configuration write (R104) -/

/-- The configuration write changes the membership of the group, or its gap, or writes it as it was (R104). -/
def ConfigWrite.Regroups (w : ConfigWrite) (o : OutputUnit) (g : Group) : Prop :=
  (∃ l v, w = .group l v ∧ ((o.line l).group = some g ∨ v = some g)) ∨ ∃ v, w = .gap g v

/-- Two bytes are the code of an item and its index (R194). -/
def ConfigItem.Coded (item : ConfigItem) (a b : Byte) : Prop :=
  match item with
  | .prescale => a = 0 ∧ b = 0
  | .polarity l => a = 1 ∧ b.toNat = l.val
  | .safeLevel l => a = 2 ∧ b.toNat = l.val
  | .group l => a = 3 ∧ b.toNat = l.val
  | .gap g => a = 4 ∧ b.toNat = g.val + 1
  | .policy g => a = 5 ∧ b.toNat = g.val + 1
  | .lease p => a = 6 ∧ b.toNat = p.val
  | .quota p => a = 7 ∧ b.toNat = p.val
  | .members g => a = 8 ∧ b.toNat = g.val + 1

/-- A write is the one of an item with a value in its range (R154, R193, R194). -/
def ConfigWrite.Coded (w : ConfigWrite) (item : ConfigItem) (v : Half) : Prop :=
  match w with
  | .prescale x => item = .prescale ∧ (x = .by1 ∧ v = 1 ∨ x = .by2 ∧ v = 2 ∨ x = .by4 ∧ v = 4 ∨ x = .by8 ∧ v = 8)
  | .polarity l x => item = .polarity l ∧ (x = .activeHigh ∧ v = 0 ∨ x = .activeLow ∧ v = 1)
  | .safeLevel l x => item = .safeLevel l ∧ (x = .inactive ∧ v = 0 ∨ x = .active ∧ v = 1)
  | .group l none => item = .group l ∧ v = 0
  | .group l (some g) => item = .group l ∧ v.toNat = g.val + 1
  | .gap g x => item = .gap g ∧ v = x
  | .policy g x => item = .policy g ∧ (x = .refuse ∧ v = 0 ∨ x = .defer ∧ v = 1)
  | .lease p x => item = .lease p ∧ v.toNat = x.toNat
  | .quota p x => item = .quota p ∧ v.toNat = x.toNat ∧ v.toNat ≤ 96

/-- A value in range is refused by a constraint (R103): safe level ACTIVE for a grouped line; a group for a line whose safe
level is ACTIVE; a group that has four members beside the line. -/
def ConfigWrite.Constrained (w : ConfigWrite) (o : OutputUnit) : Prop :=
  (∃ l, w = .safeLevel l .active ∧ (o.line l).group ≠ none)
    ∨ ∃ l g, w = .group l (some g) ∧ ((o.line l).safe = .active
        ∨ ∃ ms : List Line, ms.Nodup ∧ ms.length = 4 ∧ ∀ m, m ∈ ms → m ≠ l ∧ (o.line m).group = some g)

/-- The line is an INACTIVE member of the group that changed at `t`, less than the group's gap ago (R104). -/
def OutputUnit.InGap (o : OutputUnit) (now : Time) (g : Group) (l : Line) (t : Time) : Prop :=
  (o.line l).group = some g ∧ (o.line l).level = .inactive ∧ (o.line l).lastChange = some t
    ∧ distance t now < (o.group g).gap.toNat

/-- The holdoff of a group is the one that R104 gives: none where no member is within the gap; else a holdoff of no line
that ends with the gap of the member that changed last. -/
def OutputUnit.HoldoffAfresh (o : OutputUnit) (now : Time) (g : Group) : Prop :=
  ((∀ l t, ¬ o.InGap now g l t) → (o.group g).holdoff = none)
    ∧ ∀ l t, o.InGap now g l t → (∀ m u, o.InGap now g m u → distance t now ≤ distance u now) →
        (o.group g).holdoff = some { line := none, endsAt := later t (o.group g).gap.toNat }

/-! ### Output lines (R91, R96 to R103, R114) -/

/-- No two lines of one exclusion group are ACTIVE (R97). -/
def OutputUnit.Interlocked (o : OutputUnit) : Prop :=
  ∀ (l m : Line) (g : Group), (o.line l).group = some g → (o.line m).group = some g →
    (o.line l).level = .active → (o.line m).level = .active → l = m

/-- A grouped line has safe level INACTIVE (R103). -/
def OutputUnit.GroupedSafe (o : OutputUnit) : Prop :=
  ∀ l : Line, (o.line l).group.isSome = true → (o.line l).safe = .inactive

/-- A holdoff stands only in a group with a gap and no ACTIVE member (R98, R99). -/
def OutputUnit.GapKept (o : OutputUnit) : Prop :=
  ∀ (g : Group) (h : Holdoff), (o.group g).holdoff = some h →
    (o.group g).gap ≠ 0 ∧ ∀ l : Line, (o.line l).group = some g → (o.line l).level = .inactive

/-- A pulse end stands only on an ACTIVE line (R89). -/
def OutputUnit.PulsesActive (o : OutputUnit) : Prop :=
  ∀ l : Line, (o.line l).pulseEnd.isSome = true → (o.line l).level = .active

/-- Every line stands at its safe level with no pulse end (R90). -/
def OutputUnit.AtSafe (o : OutputUnit) : Prop :=
  ∀ l : Line, (o.line l).level = (o.line l).safe ∧ (o.line l).pulseEnd = none

/-- Every group has at most four members (R96). -/
def OutputUnit.GroupsBounded (o : OutputUnit) : Prop := ∀ g : Group, (o.members g).length ≤ Config.groupBound

/-- The law of the lines: exclusion, holdoffs, group size, and safe levels in SETUP and while TRIPPED (R91, R96, R97,
R99, R103, R114). -/
def State.OutputLaw (s : State) : Prop :=
  s.output.Interlocked ∧ s.output.GroupedSafe ∧ s.output.GapKept ∧ s.output.PulsesActive ∧ s.output.GroupsBounded
    ∧ (s.session.phase = .setup ∨ s.output.trip.isTripped = true → s.output.AtSafe)

/-! ### Held times (R7) -/

/-- The longest lease in ticks (R167). -/
def longestLease : Nat := 255 * Config.leaseUnit

/-- A time lies at now or at most `n` ticks ahead of it. -/
def State.within (s : State) (t : Time) (n : Nat) : Prop := distance s.now t ≤ n

/-- No held time has been stepped over: each lies at now or ahead of it (R7, R20). -/
structure State.Timely (s : State) : Prop where
  cues : ∀ i c, s.cueTable.cue i = some c → c.state = .pending → s.within c.due Config.aheadWindow
  sets : ∀ k owner n t, s.cueTable.commitSet k = .scheduled owner n t → s.within t Config.aheadWindow
  pulses : ∀ l t, (s.output.line l).pulseEnd = some t → s.within t 65535
  holdoffs : ∀ g h, (s.output.group g).holdoff = some h → s.within h.endsAt 65535
  leases : ∀ p t, (s.port p).leaseEnd = some t → s.attached p = true ∧ s.within t longestLease
  periods : ∀ i c, s.cueTable.cue i = some c → c.period ≠ some 0
  ticks : s.timeBase.tickCount ≤ s.timeBase.prescale.periods

/-! ### The cue table (R13, R20, R23, R67, R76) -/

/-- The lists hold the cues: the pending list every PENDING cue once and no other, and each DEFERRED cue stands once, on
one deferred list (R13, R20, R23). -/
structure CueTable.Listed (ct : CueTable) : Prop where
  pendingOnce : ct.pendingList.Nodup
  pendingExact : ∀ i, i ∈ ct.pendingList ↔ ∃ c, ct.cue i = some c ∧ c.state = .pending
  deferredOnce : ∀ g, (look ct.deferred g).Nodup
  deferredOnly : ∀ g i, i ∈ look ct.deferred g → ∃ c, ct.cue i = some c ∧ c.state = .deferred
  deferredOne : ∀ i c, ct.cue i = some c → c.state = .deferred →
    ∃ g, i ∈ look ct.deferred g ∧ ∀ h, i ∈ look ct.deferred h → h = g

/-- The pending list stands in the order of R20, by distance from now and then by entry order; entry orders are distinct
and older than the next fresh one (R21). -/
structure CueTable.Ordered (ct : CueTable) (now : Time) : Prop where
  sorted : ct.pendingList.Pairwise (fun i j => ∀ c d, ct.cue i = some c → ct.cue j = some d →
    distance now c.due < distance now d.due ∨ (distance now c.due = distance now d.due ∧ c.entry < d.entry))
  older : ∀ i c, ct.cue i = some c → c.entry < ct.nextEntry
  distinct : ∀ i j c d, ct.cue i = some c → ct.cue j = some d → c.entry = d.entry → i = j

/-- The member counts are right, and a member holds a staged record and belongs to the set's owner (R76). -/
structure CueTable.SetsCounted (ct : CueTable) : Prop where
  counted : ∀ k, (ct.commitSet k).memberCount = (ct.membersOf k).length
  owned : ∀ i c k, ct.cue i = some c → c.set = some k →
    c.staged.isSome = true ∧ (ct.commitSet k).owner? = some c.owner

/-- A staged record fits the cue that holds it (R70): at least one field is present; a staged PULSE brings its width
and no other action does; a width alone belongs to a PULSE cue; no width is 0; a remaining count needs a period after
application. -/
def StagedRecord.Fits (r : StagedRecord) (c : Cue) : Prop :=
  (r.action.isSome || r.width.isSome || r.period.isSome || r.remaining.isSome || r.shift.isSome) = true
    ∧ (∀ a, r.action = some a → (a = .pulse ↔ r.width.isSome = true))
    ∧ (r.action = none → r.width.isSome = true → c.action = .pulse)
    ∧ r.width ≠ some 0
    ∧ (∀ n, r.remaining = some n → n ≠ 0 → (∃ p, r.period = some p ∧ p ≠ 0) ∨ (r.period = none ∧ c.period.isSome = true))

/-- The fields of a cue belong together (R14, R28, R69): a width exactly with PULSE, a remaining count only with a
period, and neither width, period nor remaining is 0; its staged record fits it. -/
structure Cue.Consistent (c : Cue) : Prop where
  width : c.width.isSome = true ↔ c.action = .pulse
  widthNonzero : c.width ≠ some 0
  period : c.period ≠ some 0
  remaining : c.remaining.isSome = true → c.period.isSome = true
  remainingNonzero : c.remaining ≠ some 0
  staged : ∀ r, c.staged = some r → r.Fits c

/-- Every cue in the table is consistent. -/
def CueTable.Consistent (ct : CueTable) : Prop := ∀ i c, ct.cue i = some c → c.Consistent

/-- A slot has been freed (R17): the cue is gone and its generation advanced, it is in no list and its set has lost a
member; every other slot, list place and set is as before. -/
structure SlotFreed (ct ct' : CueTable) (i : SlotId) (c : Cue) : Prop where
  cues : ∀ j, ct'.cue j = if j = i then none else ct.cue j
  gens : ∀ j, ct'.gen j = if j = i then ct.gen i + 1 else ct.gen j
  pending : ct'.pendingList = ct.pendingList.filter (fun j => j != i)
  deferred : ∀ g, look ct'.deferred g = (look ct.deferred g).filter (fun j => j != i)
  sets : ∀ k, ct'.commitSet k =
    if c.set = some k then (ct.commitSet k).recount (fun n => n - 1) else ct.commitSet k
  entry : ct'.nextEntry = ct.nextEntry

/-- A purge (R17, R38): every cue that `gone` names has left table and lists and its generation has advanced; every other
slot, list place and the next entry order are as before. -/
structure Purged (ct ct' : CueTable) (gone : Cue → Bool) : Prop where
  cues : ∀ i, ct'.cue i = (ct.cue i).filter (fun c => !gone c)
  gens : ∀ i, ct'.gen i = if (ct.cue i).any gone then ct.gen i + 1 else ct.gen i
  pending : ct'.pendingList = ct.pendingList.filter (fun i => !(ct.cue i).any gone)
  deferred : ∀ g, look ct'.deferred g = (look ct.deferred g).filter (fun i => !(ct.cue i).any gone)
  entry : ct'.nextEntry = ct.nextEntry

/-- A PENDING cue goes on with new fields: its slot holds them with a fresh entry order, it stands in the pending list
once more, and all else is as before (R21, R55). -/
structure GoesOn (ct ct' : CueTable) (i : SlotId) (rest : List SlotId) (c : Cue) : Prop where
  cues : ∀ j, ct'.cue j = if j = i then some { c with state := .pending, entry := ct.nextEntry } else ct.cue j
  gens : ∀ j, ct'.gen j = ct.gen j
  pending : ct'.pendingList.Perm (i :: rest)
  deferred : ct'.deferred = ct.deferred
  sets : ct'.sets = ct.sets
  entry : ct'.nextEntry = ct.nextEntry + 1

/-- The first cue stands before the second in a deferred list, as judged from `now` (R24): the one further behind, then
the one at now, then the nearer ahead; of equal grid dues the one entered earlier. -/
def Cue.WaitsBefore (now : Time) (c d : Cue) : Prop :=
  (c.gridDue - now).toInt < (d.gridDue - now).toInt ∨ (c.gridDue = d.gridDue ∧ c.entry < d.entry)

/-- The deferred list of a group stands in the order of R24 as judged from `now`. -/
def CueTable.WaitsInOrder (ct : CueTable) (now : Time) (g : Group) : Prop :=
  (look ct.deferred g).Pairwise (fun i j => ∀ c d, ct.cue i = some c → ct.cue j = some d → c.WaitsBefore now d)

/-- The fields of a STAGE do not make a record for the cue (the table of R70). -/
def StageBody.Unfit (f : StageBody) (c : Cue) : Prop :=
  (f.action = none ∧ f.width = none ∧ f.period = none ∧ f.remaining = none ∧ f.shift = none)
    ∨ (∃ b, f.action = some b ∧ 4 ≤ b.toNat)
    ∨ (f.action = some 3 ∧ f.width = none) ∨ (∃ b, f.action = some b ∧ b ≠ 3 ∧ f.width.isSome = true)
    ∨ f.width = some 0
    ∨ (f.width.isSome = true ∧ f.action = none ∧ c.action ≠ .pulse)
    ∨ (∃ n, f.remaining = some n ∧ n ≠ 0 ∧ (f.period = some 0 ∨ (f.period = none ∧ c.period = none)))
    ∨ ∃ b, f.set = some b ∧ 8 ≤ b.toNat

/-- A byte is the code of an action (R193). -/
def Action.Coded (a : Action) (b : Byte) : Prop :=
  a = .set ∧ b = 0 ∨ a = .clear ∧ b = 1 ∨ a = .toggle ∧ b = 2 ∨ a = .pulse ∧ b = 3

/-- The body of an ADD_CUE is refused (the table of R28, the codes of R195). -/
def AddCueUnfit (b : List Byte) : Prop :=
  let marked (i : Nat) : Prop := (byteAt b 2).getLsbD i = true
  b.length < 14 ∨ 16 ≤ (byteAt b 0).toNat ∨ 4 ≤ (byteAt b 1).toNat
    ∨ (byteAt b 1 = 3 ∧ ¬ marked 6) ∨ (byteAt b 1 ≠ 3 ∧ marked 6) ∨ (marked 6 ∧ halfAt b 3 = 0)
    ∨ (marked 5 ∧ tripleAt b 9 = 0)
    ∨ (marked 4 ∧ halfAt b 12 = 0) ∨ (marked 4 ∧ ¬ marked 5)
    ∨ marked 3 ∨ marked 1

/-- The fields of a checked ADD_CUE are those of the body's bytes (R195). -/
structure CueRequest.ReadFrom (q : CueRequest) (b : List Byte) : Prop where
  line : byteAt b 0 = BitVec.ofNat 8 q.line.val
  action : q.action.Coded (byteAt b 1)
  width : q.width = if (byteAt b 2).getLsbD 6 then some (halfAt b 3) else none
  immediate : q.immediate = (byteAt b 2).getLsbD 7
  due : q.due = timeAt b 5
  period : q.period = if (byteAt b 2).getLsbD 5 then some (tripleAt b 9) else none
  remaining : q.remaining = if (byteAt b 2).getLsbD 4 then some (halfAt b 12) else none
  notify : q.notify = (byteAt b 2).getLsbD 2
  missPolicy : q.missPolicy = if (byteAt b 2).getLsbD 0 then .fireLate else .skip

/-- The fields of a STAGE are those of the body's bytes, each present where the presence byte marks it (R196). -/
structure StageBody.ReadFrom (f : StageBody) (b : List Byte) : Prop where
  action : f.action = if (byteAt b 2).getLsbD 4 then some (byteAt b 3) else none
  width : f.width = if (byteAt b 2).getLsbD 3 then some (halfAt b 4) else none
  period : f.period = if (byteAt b 2).getLsbD 2 then some (tripleAt b 6) else none
  remaining : f.remaining = if (byteAt b 2).getLsbD 1 then some (halfAt b 9) else none
  shift : f.shift = if (byteAt b 2).getLsbD 0 then some (tripleAt b 11) else none
  set : f.set = if (byteAt b 2).getLsbD 7 then some (byteAt b 14) else none

/-- The record and the set that a STAGE makes of its fields: each field as it is, the codes as what they name (R68, R193,
R196). -/
structure StageBody.Makes (f : StageBody) (r : StagedRecord) (k : Option SetId) : Prop where
  action : (f.action = none ∧ r.action = none) ∨ ∃ a b, r.action = some a ∧ f.action = some b ∧ a.Coded b
  width : r.width = f.width
  period : r.period = f.period
  remaining : r.remaining = f.remaining
  shift : r.shift = f.shift
  set : f.set = k.map (fun j => BitVec.ofNat 8 j.val)

/-- The multi-byte numbers of a body, most significant byte first (R193). -/
def MostSignificantFirst (b : List Byte) (i : Nat) : Prop :=
  (halfAt b i).toNat = 256 * (byteAt b i).toNat + (byteAt b (i + 1)).toNat
    ∧ (tripleAt b i).toNat = 256 * (halfAt b i).toNat + (byteAt b (i + 2)).toNat
    ∧ (timeAt b i).toNat = 256 * (tripleAt b i).toNat + (byteAt b (i + 3)).toNat

/-- A staged record has been applied to a cue (R69, R81): each field present replaces the cue's; period 0 and remaining
0 mean absent; without period there is no remaining; a staged action other than PULSE takes the width away; the record
and the set field are gone. -/
def AppliedTo (r : StagedRecord) (c c' : Cue) : Prop :=
  c' = { c with
    action := r.action.getD c.action
    width := match r.action with
      | some .pulse => r.width
      | some _ => none
      | none => if c.action = .pulse then (if r.width.isSome then r.width else c.width) else c.width
    period := c'.period, remaining := c'.remaining, staged := none, set := none }
  ∧ c'.period = (match r.period with
    | none => c.period
    | some p => if p = 0 then none else some p)
  ∧ c'.remaining = (if c'.period = none then none else match r.remaining with
    | none => c.remaining
    | some n => if n = 0 then none else some n)

/-- How continuation ends for the cue `c` of a slot taken off the head of the pending list, where `c'` holds what the
outcome and a promotion have made of it and `shift` is the shift promoted (R53 to R59); `es` are the records posted. It
retires without a period or with its last occurrence; a next grid due ahead of now is waited for; one that is not is
brought due once under FIRE_LATE after an occurrence on time, and is skipped otherwise (what skipping does is
`Cue.skip`, R58). -/
def Continued (ct ct' : CueTable) (now : Time) (i : SlotId) (rest : List SlotId) (c c' : Cue) (shift : Triple)
    (es : List EventRecord) : Prop :=
  let told (k : EventKind) (v : Half) : EventRecord :=
    { kind := k, aux := lineCode c.line, ref := ct.handle i, value := v, time := now }
  let done := if c.notify then [told .done 0] else []
  let missed := if c'.missed = 0 then [told .missed 1] else []
  let retires (posted : List EventRecord) := SlotFreed ct ct' i c ∧ es = posted ++ done
  let goesOn (d : Cue) (posted : List EventRecord) := GoesOn ct ct' i rest d ∧ es = posted
  match c'.period with
  | none => retires []
  | some period =>
    let next : Cue := { c' with remaining := c'.remaining.map (fun n => n - 1), effDue := none,
                                gridDue := shifted (later c'.gridDue period.toNat) shift }
    if c'.remaining = some 1 then retires []
    else if isAhead now next.gridDue = true then goesOn next []
    else if c'.effDue = none ∧ c'.missPolicy = .fireLate then
      goesOn { next with effDue := if isBehind now next.gridDue then some now else none } []
    else if (next.skip now).2 = true then retires missed
    else goesOn (next.skip now).1 missed

/-- A shift moves the grid due of a member to a place where the catch-up rule under SKIP applies (R82). -/
def Cue.SkipsBy (c : Cue) (shift : Triple) (now : Time) : Prop :=
  shift ≠ 0 ∧ (c.state = .deferred ∨ c.effDue = none) ∧ isAhead now (shifted c.gridDue shift) = false
    ∧ c.missPolicy = .skip

/-- What an applying expiry leaves of a member, where `c` has the record's fields already and `shift` is the record's
shift (R82); none where the catch-up rule retires it. -/
def ShiftLeaves (c : Cue) (shift : Triple) (now : Time) (left : Option Cue) : Prop :=
  let moved : Cue := { c with gridDue := shifted c.gridDue shift }
  (c.SkipsBy shift now → left = if (moved.skip now).2 then none else some (moved.skip now).1)
    ∧ (¬ c.SkipsBy shift now →
        left = some (if shift ≠ 0 ∧ c.state = .pending ∧ c.effDue = none ∧ isAhead now moved.gridDue = false
          then { moved with effDue := if isBehind now moved.gridDue then some now else none } else moved))

/-- The records that the catch-up rule posts for a member at an applying expiry (R58, R82, R83). -/
def ShiftPosts (c : Cue) (shift : Triple) (now : Time) (handle : Half) (es : List EventRecord) : Prop :=
  let told (k : EventKind) (v : Half) : EventRecord :=
    { kind := k, aux := lineCode c.line, ref := handle, value := v, time := now }
  let moved : Cue := { c with gridDue := shifted c.gridDue shift }
  (c.SkipsBy shift now → es = (if c.missed = 0 then [told .missed 1] else [])
      ++ (if (moved.skip now).2 = true ∧ c.notify = true then [told .done 0] else []))
    ∧ (¬ c.SkipsBy shift now → es = [])

/-! ### Claims (R119) -/

/-- The law of claims: a waiter list holds each port once, at most three, never the holder, and nobody waits for a free
line. -/
def ClaimRecord.Lawful (r : ClaimRecord) : Prop :=
  r.waiters.Nodup ∧ r.waiters.length ≤ 3 ∧ (∀ h, r.held = some h → h.holder ∉ r.waiters)
    ∧ (r.held = none → r.waiters = [])

/-- The claim record of a line after its transfer from a port (R126, R131): in RUN the first waiter holds it since now, and
else it is free; a line the port does not hold keeps its record (log 17). -/
def State.recordAfter (s : State) (p : Port) (l : Line) : ClaimRecord :=
  if s.claims.holder l = some p then
    match s.session.phase, (s.claims.record l).waiters with
    | .run, next :: rest => { held := some { holder := next, claimedAt := s.now }, waiters := rest }
    | _, _ => { held := none, waiters := [] }
  else s.claims.record l

/-- The port units after a transfer of a line from a port (R124): the port that becomes the holder receives CLAIM_GRANTED
if it is ATTACHED, and every other is as before. -/
def State.portAfter (s : State) (p : Port) (l : Line) (q : Port) : PortUnit :=
  if s.claims.holder l = some p ∧ s.session.phase = .run ∧ (s.claims.record l).waiters.head? = some q
  then (s.port q).receive { kind := .claimGranted, aux := lineCode l, ref := 0, value := 0, time := s.now }
  else s.port q

/-- The RELEASE `j` of the port is the one that an event at its stage takes: the port's present one, or else the oldest
late one (log 16). `moved` is the claim unit once it has moved on, or with none is over. -/
def ClaimUnit.Serves (u : ClaimUnit) (p : Port) (j : ReleaseJob) (moved : Option ReleaseJob → ClaimUnit) : Prop :=
  (look u.releases p = some j ∧ ∀ next, moved next = { u with releases := put u.releases p next })
    ∨ ((∀ k, look u.releases p = some k → k.stage ≠ j.stage)
      ∧ ∃ before after, look u.late p = before ++ j :: after ∧ (∀ k, k ∈ before → k.stage ≠ j.stage)
        ∧ ∀ next, moved next = { u with late := put u.late p (before ++ next.toList ++ after) })

/-- The claim unit with the completion notice of a port release sent (R131): to the session unit for a DETACH, with the
reply it owes, and to the port unit for a lapse. A RELEASE of a lapsed port that is not over is late from then on (log
16). -/
def ClaimUnit.notified (u : ClaimUnit) (p : Port) (why : Departure) (owes : Option Ticket) : ClaimUnit :=
  match why with
  | .detach => { u with detaching := put u.detaching p none
                        detachDone := put u.detachDone p (look u.detachDone p ++ owes.toList) }
  | .lapse => { u with lapsing := put u.lapsing p none, lapseDone := put u.lapseDone p true
                       releases := put u.releases p none
                       late := put u.late p (look u.late p ++ (look u.releases p).toList) }

/-- Every line obeys the law of claims. -/
def State.ClaimLaw (s : State) : Prop := ∀ l : Line, (s.claims.record l).Lawful

/-! ### Queues (R137, R181, R183, R188) -/

/-- The queues of every port stay within their bounds; a port whose command waits on a leaf has a free reply entry and
none set aside; a port that is not ATTACHED holds no event record. -/
structure State.QueuesBounded (s : State) : Prop where
  commands : ∀ p, (s.port p).cmds.length ≤ Config.commandQueueBound
  replies : ∀ p, (s.port p).replies.length + (if (s.port p).setAside then 1 else 0) ≤ Config.replyQueueBound
  events : ∀ p, (s.port p).events.length ≤ Config.eventQueueBound
  presented : ∀ p, look s.arbiter.presented p = true → (s.port p).setAside = false ∧ (s.port p).freeEntry = true
  unattached : ∀ p, s.attached p = false → (s.port p).events = []

/-! ### The session (R147, R163) -/

/-- The halt-cleanup flag stands only in SETUP and exactly while something waits for the halt; only an ATTACHED port has
a confirmation or a vote. -/
structure State.SessionLaw (s : State) : Prop where
  flag : s.session.haltCleanup = true → s.session.phase = .setup
  waits : s.session.haltCleanup = s.session.haltWaiter.isSome
  confirmed : ∀ p, look s.session.confirmed p = true → s.attached p = true
  voted : ∀ p, look s.session.voted p = true → s.attached p = true

/-! ### Work in progress (R18, R23, R38 to R41, R128, R130, R137, R138, R169, R185)

A cue's owner holds the claim on the cue's line (R18) because every claim that leaves its holder does so after a purge.
The law below says this together with what each purge, hand-over, lapse cleanup and owed reply has behind it and still
before it. -/

/-- Replies that a port's present run of commands has still to receive: on their way, or owed by a RELEASE, a DETACH or
a halt in progress (R128, R151, R163, R185). -/
def State.owedTickets (s : State) (p : Port) : List Ticket :=
  ((s.port p).produced.map (·.1)
    ++ ((look s.claims.releases p).map (·.ticket)).toList
    ++ ((look s.claims.detaching p).bind (·.owes)).toList
    ++ look s.claims.detachDone p
    ++ (match s.session.haltWaiter with
        | some (.vote t _) | some (.detach t) => if t.port = p then [t] else []
        | _ => [])).filter (fun t => t.epoch == (s.port p).epoch)

/-- A purge at the cue table unit, its port release and its completion follow one another (R138, R141, R169). -/
structure State.PurgesInTurn (s : State) : Prop where
  haltAsked : ∀ p, .halt ∈ look s.arbiter.purges p → s.session.phase = .setup ∧ s.session.haltCleanup = true
    ∧ (look s.arbiter.purges p).count .halt = 1 ∧ ∀ q, .halt ∈ look s.arbiter.purges q → q = p
  halting : s.claims.halt ≠ .idle → s.session.phase = .setup ∧ s.session.haltCleanup = true
    ∧ (∀ i, s.cueTable.cue i = none) ∧ ∀ p, .halt ∉ look s.arbiter.purges p
  lapseAsked : ∀ p, .lapse ∈ look s.arbiter.purges p → (s.port p).cleanup = true
    ∧ (look s.arbiter.purges p).count .lapse = 1 ∧ look s.claims.lapsing p = none
    ∧ look s.claims.lapseDone p = false ∧ s.session.haltWaiter ≠ some (.lapse p)
  lapsing : ∀ p, look s.claims.lapsing p ≠ none → (s.port p).cleanup = true ∧ look s.claims.lapseDone p = false
    ∧ s.session.haltWaiter ≠ some (.lapse p)
  lapseDone : ∀ p, look s.claims.lapseDone p = true → (s.port p).cleanup = true
    ∧ s.session.haltWaiter ≠ some (.lapse p)
  lapseWaits : ∀ p, s.session.haltWaiter = some (.lapse p) → (s.port p).cleanup = true
  cleaning : ∀ p, (s.port p).cleanup = true → (s.port p).state = .lapsed
  lapseStarted : ∀ p j, look s.claims.lapsing p = some j → j.stage ≠ .notStarted → look s.claims.detaching p = none
  lapsePast : ∀ p, (look s.claims.lapseDone p = true ∨ s.session.haltWaiter = some (.lapse p)) →
    look s.claims.detaching p = none ∧ look s.claims.releases p = none

/-- A command in progress keeps its port from another (R137, R144), no command stands beside a purge request of its port
(R138, R165), and at most one reply is owed to a port's present run of commands. -/
structure State.CommandsInTurn (s : State) : Prop where
  presented : ∀ p, look s.arbiter.presented p = true →
    s.attached p = true ∧ (s.port p).setAside = false ∧ look s.arbiter.purges p = []
  owed : ∀ p, (s.owedTickets p).length ≤ if (s.port p).setAside then 1 else 0
  produced : ∀ p x, x ∈ (s.port p).produced → x.1.port = p ∧ x.1.epoch ≤ (s.port p).epoch
  waiter : ∀ t, ((∃ n, s.session.haltWaiter = some (.vote t n)) ∨ s.session.haltWaiter = some (.detach t)) →
    t.epoch ≤ (s.port t.port).epoch
  detachDone : ∀ p t, t ∈ look s.claims.detachDone p → t.port = p ∧ t.epoch ≤ (s.port p).epoch
  detaching : ∀ p d, look s.claims.detaching p = some d →
    (∀ t, d.owes = some t → t.port = p ∧ t.epoch ≤ (s.port p).epoch)
    ∧ (((s.port p).state = .attached ∧ ∃ t, d.owes = some t ∧ t.epoch = (s.port p).epoch)
        ∨ (s.port p).cleanup = true)
  releases : ∀ p j, look s.claims.releases p = some j → j.ticket.port = p
    ∧ (((s.port p).state = .attached ∧ j.ticket.epoch = (s.port p).epoch)
        ∨ ((s.port p).cleanup = true ∧ j.ticket.epoch < (s.port p).epoch))
  late : ∀ p j, j ∈ look s.claims.late p → j.ticket.port = p ∧ j.ticket.epoch < (s.port p).epoch

/-- The law of the cues: each cue's owner holds the claim on its line (R18) and is ATTACHED or waits for its lapse purge
(R45); a DEFERRED cue stands on the list of its line's group (R23); outside a halt no cue is in the table in SETUP; a
port whose DETACH or RELEASE has been purged has no cue left, or none on the line. -/
structure State.CueLaw (s : State) : Prop where
  owners : ∀ i c, s.cueTable.cue i = some c → s.claims.holder c.line = some c.owner
  present : ∀ i c, s.cueTable.cue i = some c → s.attached c.owner = true ∨ .lapse ∈ look s.arbiter.purges c.owner
  groups : ∀ g i c, i ∈ look s.cueTable.deferred g → s.cueTable.cue i = some c → (s.output.line c.line).group = some g
  setup : s.session.phase = .setup → s.session.haltCleanup = false → ∀ i, s.cueTable.cue i = none
  detaching : ∀ p i c, look s.claims.detaching p ≠ none → s.cueTable.cue i = some c → c.owner ≠ p
  detachDone : ∀ p t i c, t ∈ look s.claims.detachDone p → t.epoch = (s.port p).epoch → s.cueTable.cue i = some c →
    c.owner ≠ p
  releases : ∀ p j i c, look s.claims.releases p = some j → s.cueTable.cue i = some c → c.line = j.line → c.owner ≠ p

/-- The law of the cues with the order of the work that keeps it. -/
def State.WorkLaw (s : State) : Prop := s.CueLaw ∧ s.PurgesInTurn ∧ s.CommandsInTurn

/-! ### The arbiter (R141, R142, R146) -/

/-- The command that takes the grant of a port's request of a list-class kind (R136). -/
def grantedCommand (k : CommandKind) (p : Port) : Option Instr :=
  match k with
  | .cancelCue => some (.cancelCue p)
  | .release => some (.release p)
  | .detach => some (.detach p)
  | .addCue => some (.addCue p)
  | .queryCue => some (.queryCue p)
  | .stage => some (.stage p)
  | .unstage => some (.unstage p)
  | .openSet => some (.openSet p)
  | .commitSet => some (.commitSet p)
  | .abandonSet => some (.abandonSet p)
  | .null | .attach | .readTime | .writeConfig | .readConfig | .confirm | .haltVote | .claim | .queryLine
  | .readEvents | .ackEvents | .trip | .clearTrip => none

/-- A granted command of a list-class kind is answered with a status alone, and nothing else changes. -/
def State.Refused (s : State) (k : CommandKind) (p : Port) (r : Request) (st : Status) : Prop :=
  ∃ (c : Instr) (cl : ListClass) (t : State), grantedCommand k p = some c ∧ listClass k = some cl ∧ exec c s = .next t
    ∧ GrantedOnly s t cl p r st []

/-- The first checks of a granted command (R26, R194): WRONG_PHASE in SETUP, then NOT_ATTACHED for a port that is not
ATTACHED, then BAD_FIELD for a body shorter than the command's. -/
def State.ChecksFirst (s : State) (k : CommandKind) (p : Port) (r : Request) (length : Nat) : Prop :=
  s.Grants p k r →
    (s.session.phase = .setup → s.Refused k p r .wrongPhase)
    ∧ (s.session.phase = .run → s.attached p = false → s.Refused k p r .notAttached)
    ∧ (s.session.phase = .run → s.attached p = true → r.body.length < length → s.Refused k p r .badField)

/-- The leaves granted one after another while the switches turn, for the leaves as they stand before each grant. -/
def grantsOf (w : Switches) : List Leaves → List (ListClass × Port)
  | [] => []
  | v :: rest => match w.walk v with
    | some (c, p) => (c, p) :: grantsOf (w.moved c p) rest
    | none => grantsOf w rest

end Sys2Proof.Machine
end

