-- ==== Sys2Proof/Certificates/Slice0/Obligations.lean ====
section
/-! DEFINITION. The statements for the provers. -/

open Sys2Proof Sys2Proof.Machine

/-! ### The machine, reset and time -/

/-- A step is exec of the command at the front of the queue, on the state with the queue's rest; an empty queue idles
(the model's own queue: log 2). -/
def Obligations.StepTakesFrontCommand : Prop :=
  (∀ (c : Instr) (rest : List Instr) (s : State), step (s.withPending (c :: rest)) = exec c (s.withPending rest))
    ∧ ∀ s : State, s.pending = [] → step s = .next s

/-- No command stops the part, and none touches the queue of commands (that a command whose condition does not hold
answers next is the model's choice, log 1). -/
def Obligations.EveryCommandAnswersNext : Prop :=
  ∀ (c : Instr) (s : State), ∃ t, exec c s = .next t ∧ t.pending = s.pending

/-- DEVICE_RESET completes: every block but the inputs is at its reset value whatever it held before, reset is held and no
edge of FAULT# or of a select input waits (what the samplers hold is the model's choice, log 7). -/
def Obligations.DeviceResetReturnsEveryBlock : Prop :=
  ∀ (cause : ResetCause) (s : State),
    (cause = .resetPin → s.inputs.resetHeld = false ∧ s.inputs.resetPin.sensed = .low) →
    ∃ t, exec (.deviceReset cause) s = .next t ∧ t.pending = s.pending
      ∧ (∀ b : Block, b ≠ .inputs → b.same State.reset t)
      ∧ t.inputs.resetHeld = true ∧ t.inputs.faultEdges = [] ∧ (∀ p, look t.inputs.selEdges p = [])
      ∧ t.inputs.faultPin = s.inputs.faultPin ∧ t.inputs.selPins = s.inputs.selPins

/-- The values after device reset (R1, R2, R13, R76, R87, R96, R106, R118, R140, R147, R154, R192). -/
def Obligations.ResetValues : Prop :=
  let s := State.reset
  s.timeBase = { tb := 0, prescale := .by1, tickCount := 0, pendingPrescale := none }
    ∧ (∀ i, s.cueTable.cue i = none ∧ s.cueTable.gen i = 0) ∧ s.cueTable.pendingList = []
    ∧ (∀ g, look s.cueTable.deferred g = []) ∧ (∀ k, s.cueTable.commitSet k = .free)
    ∧ (∀ l, s.output.line l =
        { level := .inactive, polarity := .activeHigh, safe := .inactive, group := none, pulseEnd := none,
          lastChange := none })
    ∧ (∀ g, s.output.group g = { gap := 0, policy := .refuse, holdoff := none })
    ∧ s.output.trip = .normal
    ∧ (∀ l, s.claims.record l = { held := none, waiters := [] })
    ∧ s.arbiter.switches =
        { classSwitch := .urgent, urgentRoot := .pairA, urgentA := false, urgentB := false,
          normalRoot := .pairA, normalA := false, normalB := false }
    ∧ s.nextGrant = none
    ∧ s.session.phase = .setup ∧ s.session.prescale = .by1 ∧ s.session.version = 0
    ∧ s.session.haltCleanup = false
    ∧ (∀ p, look s.session.lease p = 32 ∧ look s.session.quota p = 24 ∧ look s.session.confirmed p = false
        ∧ look s.session.voted p = false)
    ∧ (∀ p, (s.port p).state = .detached ∧ (s.port p).cleanup = false ∧ (s.port p).leaseEnd = none
        ∧ (s.port p).cmds = [] ∧ (s.port p).replies = [] ∧ (s.port p).events = []
        ∧ (s.port p).setAside = false ∧ (s.port p).owed = false ∧ (s.port p).overflow = 0
        ∧ (s.port p).lastAccepted = none ∧ (s.port p).lastReply = none ∧ (s.port p).drop = .none
        ∧ s.attnPin p = .high)

/-- RESET_END completes: the part goes live; with FAULT# high nothing else changes, with FAULT# low the part enters
TRIPPED with cause INPUT (R107). -/
def Obligations.ResetEndReleasesThePart : Prop :=
  ∀ s : State, s.inputs.resetHeld = true → s.inputs.resetPin.sensed = .high → s.OutputLaw →
    ∃ t, exec .resetEnd s = .next t ∧ ChangesOnly [.inputs, .output, .ports] s t
      ∧ t.inputs = { s.inputs with resetHeld := false }
      ∧ (s.inputs.faultPin.sensed = .high → t.output = s.output ∧ t.ports = s.ports)
      ∧ (s.inputs.faultPin.sensed = .low → TripEntered s.output t.output .input s.now
          ∧ PortsReceive s t { kind := .tripped, aux := 4, ref := 0, value := 0, time := s.now })

/-- REFCLK_PERIOD_END completes: the tick count advances unless reset holds, every input is sampled, and its sensed level
becomes the new level when two samples agree (R2, R200; that the samples run while reset holds is the model's choice,
log 7). -/
def Obligations.PeriodEndCountsAndSamples : Prop :=
  ∀ (pins : InputSample) (s : State),
    (s.live = true ∧ s.timeBase.tickCount < s.timeBase.prescale.periods)
        ∨ (s.inputs.resetHeld = true ∧ s.inputs.resetPin.sensed = .low) →
    ∃ t, exec (.refclkPeriodEnd pins) s = .next t ∧ ChangesOnly [.timeBase, .inputs] s t
      ∧ t.timeBase = (if s.inputs.resetHeld then s.timeBase
          else { s.timeBase with tickCount := s.timeBase.tickCount + 1 })
      ∧ t.inputs.resetHeld = s.inputs.resetHeld
      ∧ t.inputs.resetPin = { last := pins.reset, sensed :=
          if s.inputs.resetPin.last = pins.reset then pins.reset else s.inputs.resetPin.sensed }
      ∧ t.inputs.faultPin = { last := pins.fault, sensed :=
          if s.inputs.faultPin.last = pins.fault then pins.fault else s.inputs.faultPin.sensed }
      ∧ (∀ p, look t.inputs.selPins p = { last := look pins.sel p, sensed :=
          if (look s.inputs.selPins p).last = look pins.sel p then look pins.sel p
          else (look s.inputs.selPins p).sensed })
      ∧ t.inputs.faultEdges = s.inputs.faultEdges
          ++ (if s.inputs.resetHeld = false ∧ t.inputs.faultPin.sensed ≠ s.inputs.faultPin.sensed
              then [t.inputs.faultPin.sensed] else [])
      ∧ (∀ p, look t.inputs.selEdges p = look s.inputs.selEdges p
          ++ (if s.inputs.resetHeld = false
                ∧ (look t.inputs.selPins p).sensed ≠ (look s.inputs.selPins p).sensed
              then [(look t.inputs.selPins p).sensed] else []))

/-- TB_STEP completes when the tick count has reached the prescale in force and the tick's events have been taken (log 4):
TB steps by one modulo 2^32, the count returns to 0 and a pending prescale comes into force. -/
def Obligations.TbStepAdvancesTime : Prop :=
  ∀ s : State, s.live = true → s.timeBase.prescale.periods ≤ s.timeBase.tickCount → s.tickQuiet = true →
    ∃ t, exec .tbStep s = .next t ∧ ChangesOnly [.timeBase] s t
      ∧ t.now.toNat = (s.now.toNat + 1) % 4294967296 ∧ t.timeBase.tickCount = 0
      ∧ t.timeBase.pendingPrescale = none
      ∧ (∀ v, s.timeBase.pendingPrescale = some v → t.timeBase.prescale = v)
      ∧ (s.timeBase.pendingPrescale = none → t.timeBase.prescale = s.timeBase.prescale)

/-- The judgement of two times (R4). -/
def Obligations.TimesJudgedByDistance : Prop :=
  ∀ a b : Time,
    distance a b = (b.toNat + 4294967296 - a.toNat) % 4294967296
    ∧ (isAhead a b = true ↔ 1 ≤ distance a b ∧ distance a b ≤ 2147483647)
    ∧ (isBehind a b = true ↔ 2147483648 ≤ distance a b)
    ∧ (distance a b = 0 ↔ b = a)
    ∧ ((distance a b = 0 ∧ isAhead a b = false ∧ isBehind a b = false)
        ∨ (distance a b ≠ 0 ∧ isAhead a b = true ∧ isBehind a b = false)
        ∨ (distance a b ≠ 0 ∧ isAhead a b = false ∧ isBehind a b = true))
    ∧ (distance a b = 0 → distance b a = 0)
    ∧ (isAhead a b = true → isBehind b a = true ∧ distance b a = 4294967296 - distance a b)
    ∧ (2147483649 ≤ distance a b → isAhead b a = true ∧ distance b a = 4294967296 - distance a b)
    ∧ (distance a b = 2147483648 → isBehind b a = true ∧ distance b a = 2147483648)

/-- Held times are reached and never passed: every step keeps them at or ahead of now (R7). -/
def Obligations.HeldTimesNeverPassed : Prop :=
  ∀ s t : State, s.Timely → step s = .next t → t.Timely

/-! ### The trip -/

/-- FAULT_LOW and FAULT_HIGH complete (R107, R108): a sensed fall enters TRIPPED when NORMAL and changes nothing when
TRIPPED; a sensed rise changes no trip state. -/
def Obligations.FaultEdgesAtTheTrip : Prop :=
  ∀ (s : State) (rest : List PinLevel), s.live = true →
    (s.inputs.faultEdges = .low :: rest → s.output.trip = .normal → s.OutputLaw →
      ∃ t, exec .faultLow s = .next t ∧ ChangesOnly [.inputs, .output, .ports] s t
        ∧ t.inputs = { s.inputs with faultEdges := rest } ∧ TripEntered s.output t.output .input s.now
        ∧ PortsReceive s t { kind := .tripped, aux := 4, ref := 0, value := 0, time := s.now })
    ∧ (s.inputs.faultEdges = .low :: rest → s.output.trip ≠ .normal →
      exec .faultLow s = .next { s with inputs := { s.inputs with faultEdges := rest } })
    ∧ (s.inputs.faultEdges = .high :: rest →
      exec .faultHigh s = .next { s with inputs := { s.inputs with faultEdges := rest } })

/-- TRIP completes (R111). -/
def Obligations.TripCommand : Prop :=
  ∀ (p : Port) (r : Request) (s : State), s.Takes p .trip r →
    (s.output.trip = .normal → s.OutputLaw →
      ∃ t, exec (.trip p) s = .next t ∧ ChangesOnly [.output, .arbiter, .ports] s t
        ∧ TripEntered s.output t.output (.port p) s.now ∧ t.arbiter = s.arbiter.without p
        ∧ PortsAnswerAndReceive s t p r .ok (portCode p :: timeBytes s.now)
            { kind := .tripped, aux := portCode p, ref := 0, value := 0, time := s.now })
    ∧ (∀ cause entry, s.output.trip = .tripped cause entry →
      ∃ t, exec (.trip p) s = .next t ∧ AnsweredOnly s t p r .ok (causeCode cause :: timeBytes entry))

/-- CLEAR_TRIP completes (R112): STILL_FAULTED on a low FAULT#, else the trip is cleared and reported. -/
def Obligations.ClearTripCommand : Prop :=
  ∀ (p : Port) (r : Request) (s : State), s.Takes p .clearTrip r →
    (s.inputs.faultPin.sensed = .low →
      ∃ t, exec (.clearTrip p) s = .next t ∧ AnsweredOnly s t p r .stillFaulted [])
    ∧ (s.inputs.faultPin.sensed = .high → s.output.trip = .normal →
      ∃ t, exec (.clearTrip p) s = .next t ∧ AnsweredOnly s t p r .ok (1 :: 0xFF :: timeBytes 0))
    ∧ (∀ cause entry, s.inputs.faultPin.sensed = .high → s.output.trip = .tripped cause entry →
      ∃ t, exec (.clearTrip p) s = .next t ∧ ChangesOnly [.output, .arbiter, .ports] s t
        ∧ t.output = { s.output with trip := .normal } ∧ t.arbiter = s.arbiter.without p
        ∧ PortsAnswerAndReceive s t p r .ok (0 :: causeCode cause :: timeBytes entry)
            { kind := .tripCleared, aux := portCode p, ref := 0, value := 0, time := s.now })

/-! ### The output unit -/

/-- Every step keeps the law of the lines: exclusion, holdoffs, safe levels in SETUP and while TRIPPED (R91, R97, R99,
R103, R114). -/
def Obligations.OutputLawKept : Prop :=
  ∀ s t : State, s.OutputLaw → step s = .next t → t.OutputLaw

/-- PULSE_END_EXPIRY and HOLDOFF_EXPIRY complete (R94, R98, R99, R101). -/
def Obligations.OutputExpiries : Prop :=
  ∀ s : State, s.live = true →
    (∀ l, (s.output.line l).pulseEnd = some s.now →
      ∃ t, exec (.pulseEndExpiry l) s = .next t ∧ ChangesOnly [.output] s t
        ∧ (∀ m, t.output.line m = if m = l then (s.output.line l).down s.now else s.output.line m)
        ∧ (∀ g, t.output.group g = if (s.output.line l).group = some g ∧ (s.output.group g).gap ≠ 0
            then (s.output.group g).guarded l s.now else s.output.group g)
        ∧ t.output.trip = s.output.trip
        ∧ (∀ g, (s.output.line l).group = some g → (s.output.group g).gap = 0 → (s.output.group g).holdoff = none →
            t.output.notices = s.output.notices ++ [g])
        ∧ (((s.output.line l).group = none
              ∨ ∃ g, (s.output.line l).group = some g ∧ (s.output.group g).gap ≠ 0) →
            t.output.notices = s.output.notices))
    ∧ (∀ g h, (s.output.group g).holdoff = some h → h.endsAt = s.now →
      ∃ t, exec (.holdoffExpiry g) s = .next t ∧ ChangesOnly [.output] s t
        ∧ t.output.lines = s.output.lines
        ∧ (∀ j, t.output.group j =
            if j = g then { s.output.group g with holdoff := none } else s.output.group j)
        ∧ t.output.trip = s.output.trip ∧ t.output.notices = s.output.notices ++ [g])

/-- SAFE_LEVEL_DRIVE completes for each hand-over that has asked for it (R90, R98, R101, R126, R128, R131, R132): lines, groups
and opening notices. That a RELEASE whose port release has completed meanwhile keeps its drive is log 16, and so is the
order in which a port's RELEASEs are served. -/
def Obligations.SafeLevelDrives : Prop :=
  ∀ s : State, s.live = true → s.OutputLaw →
    (∀ p j moved, s.claims.Serves p j moved → j.stage = .drive →
      ∃ t, exec (.safeLevelDrive (.release p)) s = .next t ∧ ChangesOnly [.output, .claims] s t
        ∧ LineDriven s.output t.output j.line s.now ∧ t.claims = moved (some { j with stage := .transfer }))
    ∧ (∀ p why owes l rest, s.claims.departure p why = some { owes := owes, stage := .giving (l :: rest) false } →
      ∃ t, exec (.safeLevelDrive (.departure p why)) s = .next t ∧ ChangesOnly [.output, .claims] s t
        ∧ LineDriven s.output t.output l s.now
        ∧ t.claims = s.claims.setDeparture p why (some { owes := owes, stage := .giving (l :: rest) true }))
    ∧ (s.claims.halt = .drive →
      ∃ t, exec (.safeLevelDrive .halt) s = .next t ∧ ChangesOnly [.output, .claims] s t
        ∧ Driven s.output t.output s.now ∧ t.output.trip = s.output.trip
        ∧ t.claims = { s.claims with halt := .release })

/-- The output pins (R88, R191): OUTn shows level and polarity, ATTNn# is low while a reply or a record is held. -/
def Obligations.PinsFollowState : Prop :=
  ∀ s : State,
    (∀ l, s.outPin l = .high ↔
      ((s.output.line l).level = .active ∧ (s.output.line l).polarity = .activeHigh)
        ∨ ((s.output.line l).level = .inactive ∧ (s.output.line l).polarity = .activeLow))
    ∧ ∀ p, s.attnPin p = .low ↔ (s.port p).replies ≠ [] ∨ (s.port p).events ≠ []

/-- The apply request (R92, R97): what each action does to an INACTIVE and to an ACTIVE line, the answer, and the opening
notice sent, which only a deactivation in a group with gap 0 and no holdoff sends (R98, R100, R101). -/
def Obligations.ApplyRequestTable : Prop :=
  ∀ (o o' : OutputUnit) (now : Time) (l : Line) (a : Action) (width : Option Half) (x : ApplyAnswer),
    o.apply now l a width = (o', x) →
    let pulse := if a = .pulse then width.map (fun w => later now w.toNat) else none
    let allowed := ∀ g, (o.line l).group = some g →
      (∀ m, m ≠ l → (o.line m).group = some g → (o.line m).level = .inactive)
        ∧ ∀ h, (o.group g).holdoff = some h → h.line = some l
    (∀ m, m ≠ l → o'.line m = o.line m)
    ∧ o'.trip = o.trip
    ∧ ((o.line l).level = .active → (a = .set ∨ a = .pulse) →
        x = .applied ∧ o'.line l = { o.line l with pulseEnd := pulse } ∧ (∀ g, o'.group g = o.group g)
          ∧ o'.notices = o.notices)
    ∧ ((o.line l).level = .active → (a = .clear ∨ a = .toggle) →
        x = .applied ∧ o'.line l = (o.line l).down now
          ∧ (∀ g, o'.group g = if (o.line l).group = some g ∧ (o.group g).gap ≠ 0 then (o.group g).guarded l now
              else o.group g)
          ∧ (∀ g, (o.line l).group = some g → (o.group g).gap = 0 → (o.group g).holdoff = none →
              o'.notices = o.notices ++ [g])
          ∧ ((∀ g, (o.line l).group = some g → (o.group g).gap ≠ 0 ∨ (o.group g).holdoff ≠ none) →
              o'.notices = o.notices))
    ∧ ((o.line l).level = .inactive → a = .clear → x = .applied ∧ o' = o)
    ∧ ((o.line l).level = .inactive → a ≠ .clear → allowed →
        x = .applied ∧ o'.line l = (o.line l).up now pulse
          ∧ (∀ g, o'.group g = if (o.line l).group = some g then { o.group g with holdoff := none } else o.group g)
          ∧ o'.notices = o.notices)
    ∧ ((o.line l).level = .inactive → a ≠ .clear → ¬ allowed →
        o' = o ∧ ∃ g, (o.line l).group = some g
          ∧ x = (if (o.group g).policy = .refuse then ApplyAnswer.refused g else .deferred g))

/-! ### Occurrences -/

/-- OCCURRENCE without a request to the output unit completes. DISCARDED, with the owner not ATTACHED or in SETUP: the slot
is freed and nothing is posted (R45, R46). SUPPRESSED while TRIPPED, for a periodic cue that goes on: no line changes,
the missed count rises by one and stays at 65,535, and MISSED is posted on its rise from 0 (R45, R47, R53 to R56). -/
def Obligations.OccurrenceWithoutLine : Prop :=
  ∀ (s : State) (i : SlotId) (rest : List SlotId) (c : Cue), s.live = true →
    s.cueTable.pendingList = i :: rest → s.cueTable.Listed → s.cueTable.cue i = some c → c.due = s.now →
    (s.attached c.owner = false ∨ s.session.phase = .setup →
      ∃ t, exec .occurrence s = .next t ∧ ChangesOnly [.cueTable] s t ∧ SlotFreed s.cueTable t.cueTable i c)
    ∧ (∀ period : Triple, s.attached c.owner = true → s.session.phase = .run → s.output.trip.isTripped = true →
      (c.staged = none ∨ c.set.isSome = true) → c.period = some period → c.remaining ≠ some 1 →
      isAhead s.now (later c.gridDue period.toNat) = true →
      ∃ t, exec .occurrence s = .next t ∧ ChangesOnly [.cueTable, .ports] s t
        ∧ GoesOn s.cueTable t.cueTable i rest { c with
            missed := BitVec.ofNat 16 (min 65535 (c.missed.toNat + 1))
            remaining := c.remaining.map (fun n => n - 1)
            gridDue := later c.gridDue period.toNat
            effDue := none }
        ∧ PortReceives s t c.owner (if c.missed = 0 then
            [{ kind := .missed, aux := lineCode c.line, ref := s.cueTable.handle i, value := 1, time := s.now }]
            else []))

/-- OCCURRENCE with the outcome APPLIED completes for a one-shot cue without a staged record: the line changes as the
apply request answers, FIRED and DONE follow notify, and the slot is freed (R48, R49, R54). -/
def Obligations.OccurrenceAppliedOnce : Prop :=
  ∀ (s : State) (i : SlotId) (rest : List SlotId) (c : Cue) (o : OutputUnit), s.live = true →
    s.cueTable.pendingList = i :: rest → s.cueTable.cue i = some c → c.due = s.now →
    s.attached c.owner = true → s.session.phase = .run → s.output.trip.isTripped = false →
    c.staged = none → c.period = none →
    s.output.apply s.now c.line c.action c.width = (o, .applied) →
    ∃ t, exec .occurrence s = .next t ∧ ChangesOnly [.cueTable, .output, .ports] s t ∧ t.output = o
      ∧ SlotFreed s.cueTable t.cueTable i c
      ∧ PortReceives s t c.owner (if c.notify then
          [{ kind := .fired, aux := lineCode c.line, ref := s.cueTable.handle i, value := c.missed, time := s.now },
           { kind := .done, aux := lineCode c.line, ref := s.cueTable.handle i, value := 0, time := s.now }] else [])

/-- OCCURRENCE with the outcome APPLIED completes for a periodic cue that goes on; a set-less staged record is promoted
and governs decrement and advance (R49, R53, R55, R74). Whatever the continuation meets, OCCURRENCE completes after each
outcome that continues: SUPPRESSED, APPLIED and REFUSED (R47, R49, R50), with retirement by remaining (R54) and the
catch-up rule (R57 to R59). -/
def Obligations.OccurrenceAppliedPeriodic : Prop :=
  (∀ (s : State) (i : SlotId) (rest : List SlotId) (c c' : Cue) (o : OutputUnit) (period shift : Triple),
    s.live = true → s.cueTable.pendingList = i :: rest → s.cueTable.Listed → s.cueTable.cue i = some c →
    c.due = s.now → s.attached c.owner = true → s.session.phase = .run → s.output.trip.isTripped = false →
    s.output.apply s.now c.line c.action c.width = (o, .applied) →
    ((c.staged = none ∨ c.set.isSome = true) ∧ c' = c ∧ shift = 0
      ∨ ∃ r, c.staged = some r ∧ c.set = none ∧ AppliedTo r c c' ∧ shift = r.shift.getD 0) →
    c'.period = some period → c'.remaining ≠ some 1 →
    isAhead s.now (shifted (later c.gridDue period.toNat) shift) = true →
    ∃ t, exec .occurrence s = .next t ∧ ChangesOnly [.cueTable, .output, .ports] s t ∧ t.output = o
      ∧ GoesOn s.cueTable t.cueTable i rest
          { c' with missed := 0, remaining := c'.remaining.map (fun n => n - 1),
                    gridDue := shifted (later c.gridDue period.toNat) shift, effDue := none }
      ∧ PortReceives s t c.owner (if c.notify then
          [{ kind := .fired, aux := lineCode c.line, ref := s.cueTable.handle i, value := c.missed,
             time := s.now }] else []))
  ∧ ∀ (s : State) (i : SlotId) (rest : List SlotId) (c c₁ c' : Cue) (o : OutputUnit) (shift : Triple)
      (es : List EventRecord),
    s.live = true → s.cueTable.pendingList = i :: rest → s.cueTable.Listed → s.cueTable.cue i = some c →
    c.due = s.now → s.attached c.owner = true → s.session.phase = .run →
    let told (k : EventKind) (v : Half) : EventRecord :=
      { kind := k, aux := lineCode c.line, ref := s.cueTable.handle i, value := v, time := s.now }
    (s.output.trip.isTripped = true ∧ o = s.output
        ∧ c₁ = { c with missed := BitVec.ofNat 16 (min 65535 (c.missed.toNat + 1)) }
        ∧ es = (if c.missed = 0 then [told .missed 1] else [])
      ∨ s.output.trip.isTripped = false ∧ s.output.apply s.now c.line c.action c.width = (o, .applied)
        ∧ c₁ = { c with missed := 0 } ∧ es = (if c.notify then [told .fired c.missed] else [])
      ∨ ∃ g, s.output.trip.isTripped = false ∧ s.output.apply s.now c.line c.action c.width = (o, .refused g)
        ∧ c₁ = c ∧ es = [told .refused ((groupCode g).setWidth 16)]) →
    ((c.staged = none ∨ c.set.isSome = true) ∧ c' = c₁ ∧ shift = 0
      ∨ ∃ r, c.staged = some r ∧ c.set = none ∧ AppliedTo r c₁ c' ∧ shift = r.shift.getD 0) →
    ∃ t more, exec .occurrence s = .next t ∧ ChangesOnly [.cueTable, .output, .ports] s t ∧ t.output = o
      ∧ Continued s.cueTable t.cueTable s.now i rest c c' shift more
      ∧ PortReceives s t c.owner (es ++ more)

/-- OCCURRENCE turned away by the group check completes (R50, R51): REFUSED is posted and the cue goes on, or the cue
moves to its group's deferred list and nothing is counted or posted. The cues of that list keep their order, and in a
list that stands in the order of R24 the new cue takes its place by it (in one that does not, its place is log 18). -/
def Obligations.OccurrenceTurnedAway : Prop :=
  ∀ (s : State) (i : SlotId) (rest : List SlotId) (c : Cue) (g : Group), s.live = true →
    s.cueTable.pendingList = i :: rest → s.cueTable.Listed → s.cueTable.cue i = some c → c.due = s.now →
    s.attached c.owner = true → s.session.phase = .run → s.output.trip.isTripped = false →
    (∀ period : Triple, s.output.apply s.now c.line c.action c.width = (s.output, .refused g) → c.staged = none →
      c.period = some period → c.remaining ≠ some 1 → isAhead s.now (later c.gridDue period.toNat) = true →
      ∃ t, exec .occurrence s = .next t ∧ ChangesOnly [.cueTable, .ports] s t
        ∧ GoesOn s.cueTable t.cueTable i rest
            { c with remaining := c.remaining.map (fun n => n - 1), gridDue := later c.gridDue period.toNat,
                     effDue := none }
        ∧ PortReceives s t c.owner
            [{ kind := .refused, aux := lineCode c.line, ref := s.cueTable.handle i,
               value := (groupCode g).setWidth 16, time := s.now }])
    ∧ (s.output.apply s.now c.line c.action c.width = (s.output, .deferred g) →
      ∃ t, exec .occurrence s = .next t ∧ ChangesOnly [.cueTable] s t
        ∧ (∀ j, t.cueTable.cue j =
            if j = i then some { c with state := .deferred, effDue := none } else s.cueTable.cue j)
        ∧ t.cueTable.pendingList = rest
        ∧ (∀ h, h ≠ g → look t.cueTable.deferred h = look s.cueTable.deferred h)
        ∧ (∃ before after, look s.cueTable.deferred g = before ++ after
          ∧ look t.cueTable.deferred g = before ++ i :: after
          ∧ (s.cueTable.WaitsInOrder s.now g →
              (∀ j d, j ∈ before → s.cueTable.cue j = some d → ¬ c.WaitsBefore s.now d)
              ∧ (∀ j d, j ∈ after → s.cueTable.cue j = some d → c.WaitsBefore s.now d)))
        ∧ (∀ j, t.cueTable.gen j = s.cueTable.gen j) ∧ t.cueTable.sets = s.cueTable.sets)

/-- Skipping counts exactly the grid dues not ahead of now (R58). -/
def Obligations.SkipCountsPassedDues : Prop :=
  ∀ (c : Cue) (now : Time) (period : Triple), c.period = some period → period ≠ 0 → isAhead now c.gridDue = false →
    let n := distance c.gridDue now / period.toNat + 1
    (∀ m, m < n → isAhead now (later c.gridDue (m * period.toNat)) = false)
    ∧ isAhead now (later c.gridDue (n * period.toNat)) = true
    ∧ (∀ k : Half, c.remaining = some k → k.toNat ≤ n → (c.skip now).2 = true
        ∧ (c.skip now).1.missed = BitVec.ofNat 16 (min 65535 (c.missed.toNat + k.toNat)))
    ∧ ((∀ k : Half, c.remaining = some k → n < k.toNat) →
        c.skip now = ({ c with missed := BitVec.ofNat 16 (min 65535 (c.missed.toNat + n)),
                               remaining := c.remaining.map (fun k => k - BitVec.ofNat 16 n),
                               gridDue := later c.gridDue (n * period.toNat) }, false))

/-- OPENING_NOTICE completes: the group's deferred list is released whole into the pending list, in its order (R62,
R63). -/
def Obligations.OpeningNoticeReleases : Prop :=
  ∀ (s : State) (g : Group), s.live = true → g ∈ s.output.notices → s.cueTable.Listed →
    ∃ t, exec (.openingNotice g) s = .next t ∧ ChangesOnly [.output, .cueTable] s t
      ∧ t.output = { s.output with notices := s.output.notices.erase g }
      ∧ (∀ h, look t.cueTable.deferred h = if h = g then [] else look s.cueTable.deferred h)
      ∧ t.cueTable.pendingList.Perm (look s.cueTable.deferred g ++ s.cueTable.pendingList)
      ∧ (∀ i, i ∉ look s.cueTable.deferred g → t.cueTable.cue i = s.cueTable.cue i)
      ∧ (∀ k i c, (look s.cueTable.deferred g)[k]? = some i → s.cueTable.cue i = some c →
          t.cueTable.cue i = some { c with
            state := .pending, entry := s.cueTable.nextEntry + k
            effDue := if isBehind s.now c.gridDue then some s.now else none })
      ∧ (∀ i, t.cueTable.gen i = s.cueTable.gen i) ∧ t.cueTable.sets = s.cueTable.sets

/-- COMMIT_TIME_EXPIRY completes (R80, R81, R83): outside RUN or with the owner not ATTACHED the set is freed unapplied;
otherwise, for members without a shift, every member's record is applied and SET_APPLIED is posted; and for members with
or without one, each member is left as its shift leaves it, which retires it where the catch-up rule does (R82). -/
def Obligations.CommitTimeExpiryCompletes : Prop :=
  ∀ (s : State) (k : SetId) (owner : Port) (n : Nat), s.live = true →
    s.cueTable.commitSet k = .scheduled owner n s.now →
    (¬ (s.session.phase = .run ∧ s.attached owner = true) →
      ∃ t, exec (.commitTimeExpiry k) s = .next t ∧ ChangesOnly [.cueTable] s t
        ∧ (∀ i, t.cueTable.cue i =
            (s.cueTable.cue i).map (fun c => if c.set = some k then { c with staged := none, set := none } else c))
        ∧ (∀ j, t.cueTable.commitSet j = if j = k then .free else s.cueTable.commitSet j)
        ∧ t.cueTable.pendingList = s.cueTable.pendingList ∧ t.cueTable.deferred = s.cueTable.deferred
        ∧ (∀ i, t.cueTable.gen i = s.cueTable.gen i))
    ∧ (s.session.phase = .run → s.attached owner = true →
      (∀ i c, s.cueTable.cue i = some c → c.set = some k → ∃ r, c.staged = some r ∧ (r.shift = none ∨ r.shift = some 0)) →
      ∃ t, exec (.commitTimeExpiry k) s = .next t ∧ ChangesOnly [.cueTable, .ports] s t
        ∧ (∀ i, s.cueTable.cue i = none → t.cueTable.cue i = none)
        ∧ (∀ i c, s.cueTable.cue i = some c → c.set ≠ some k → t.cueTable.cue i = some c)
        ∧ (∀ i c r, s.cueTable.cue i = some c → c.set = some k → c.staged = some r →
            ∃ c', t.cueTable.cue i = some c' ∧ AppliedTo r c c')
        ∧ (∀ j, t.cueTable.commitSet j = if j = k then .free else s.cueTable.commitSet j)
        ∧ t.cueTable.pendingList = s.cueTable.pendingList ∧ t.cueTable.deferred = s.cueTable.deferred
        ∧ (∀ i, t.cueTable.gen i = s.cueTable.gen i)
        ∧ PortReceives s t owner
            [{ kind := .setApplied, aux := setCode k, ref := 0, value := BitVec.ofNat 16 n, time := s.now }])
    ∧ (∀ (applied : SlotId → Cue) (shift : SlotId → Triple) (posts : SlotId → List EventRecord),
      s.session.phase = .run → s.attached owner = true → s.cueTable.Listed → s.cueTable.SetsCounted →
      (∀ i, i ∈ s.cueTable.membersOf k → ∃ c r, s.cueTable.cue i = some c ∧ c.staged = some r
        ∧ AppliedTo r c (applied i) ∧ shift i = r.shift.getD 0
        ∧ ShiftPosts (applied i) (shift i) s.now (s.cueTable.handle i) (posts i)) →
      ∃ t, exec (.commitTimeExpiry k) s = .next t ∧ ChangesOnly [.cueTable, .ports] s t
        ∧ (∀ i, i ∉ s.cueTable.membersOf k → t.cueTable.cue i = s.cueTable.cue i)
        ∧ (∀ i, i ∈ s.cueTable.membersOf k → ShiftLeaves (applied i) (shift i) s.now (t.cueTable.cue i))
        ∧ (∀ i, t.cueTable.gen i = if i ∈ s.cueTable.membersOf k ∧ t.cueTable.cue i = none
            then s.cueTable.gen i + 1 else s.cueTable.gen i)
        ∧ (∀ j, t.cueTable.commitSet j = if j = k then .free else s.cueTable.commitSet j)
        ∧ t.cueTable.pendingList.Perm (s.cueTable.pendingList.filter (fun i => (t.cueTable.cue i).isSome))
        ∧ (∀ g, look t.cueTable.deferred g =
            (look s.cueTable.deferred g).filter (fun i => (t.cueTable.cue i).isSome))
        ∧ t.cueTable.nextEntry = s.cueTable.nextEntry
        ∧ PortReceives s t owner ((s.cueTable.membersOf k).flatMap posts
            ++ [{ kind := .setApplied, aux := setCode k, ref := 0, value := BitVec.ofNat 16 n, time := s.now }]))

/-! ### The cue table -/

/-- ADD_CUE completes when its six checks pass: the lowest FREE slot holds the new cue, which enters the pending list with
a fresh entry order; the reply carries handle and grid due (R32). The fields of the new cue are those of the body's bytes,
most significant byte first (R193, R195). -/
def Obligations.AddCueAdmits : Prop :=
  (∀ (b : List Byte) (q : CueRequest), parseAddCue b = some q → q.ReadFrom b)
  ∧ (∀ (b : List Byte) (i : Nat), MostSignificantFirst b i)
  ∧ ∀ (p : Port) (r : Request) (q : CueRequest) (i : SlotId) (s : State), s.Grants p .addCue r →
    s.session.phase = .run → s.attached p = true → parseAddCue r.body = some q →
    s.claims.holder q.line = some p → (q.immediate = true ∨ isAhead s.now q.due = true) →
    s.cueTable.occupied p < (look s.session.quota p).toNat →
    s.cueTable.cue i = none → (∀ j, j < i → (s.cueTable.cue j).isSome = true) →
    let due := if q.immediate then s.now else q.due
    ∃ t, exec (.addCue p) s = .next t ∧ ChangesOnly [.cueTable, .arbiter, .ports] s t
      ∧ t.arbiter = s.arbiter.afterGrant .normal p
      ∧ t.ports = s.portsAnswering p r .ok (BitVec.ofNat 8 i.val :: s.cueTable.gen i :: timeBytes due)
      ∧ (∀ j, t.cueTable.cue j = if j = i then some
          { state := .pending, owner := p, line := q.line, action := q.action, width := q.width, gridDue := due,
            effDue := none, period := q.period, remaining := q.remaining, notify := q.notify,
            missPolicy := q.missPolicy, missed := 0, staged := none, set := none, entry := s.cueTable.nextEntry }
          else s.cueTable.cue j)
      ∧ t.cueTable.pendingList.Perm (i :: s.cueTable.pendingList)
      ∧ t.cueTable.nextEntry = s.cueTable.nextEntry + 1
      ∧ (∀ j, t.cueTable.gen j = s.cueTable.gen j) ∧ t.cueTable.deferred = s.cueTable.deferred
      ∧ t.cueTable.sets = s.cueTable.sets
      ∧ (∀ o, t.cueTable.occupied o = s.cueTable.occupied o + (if o = p then 1 else 0))

/-- ADD_CUE refused: the first check that fails decides the answer, and only the answer (R27 to R31). The second check
fails exactly where a row of the table of R28 or a code of R195 is violated, and otherwise reads the fields of R195. -/
def Obligations.AddCueRefusals : Prop :=
  (∀ b : List Byte, (parseAddCue b = none ↔ AddCueUnfit b) ∧ ∀ q, parseAddCue b = some q → q.ReadFrom b)
  ∧ ∀ (p : Port) (r : Request) (st : Status) (s : State), s.Grants p .addCue r →
    (s.session.phase = .setup ∧ st = .wrongPhase
      ∨ s.session.phase = .run ∧ s.attached p = false ∧ st = .notAttached
      ∨ s.session.phase = .run ∧ s.attached p = true ∧ AddCueUnfit r.body ∧ st = .badField
      ∨ ∃ q, s.session.phase = .run ∧ s.attached p = true ∧ parseAddCue r.body = some q
          ∧ (s.claims.holder q.line ≠ some p ∧ st = .notOwner
            ∨ s.claims.holder q.line = some p ∧ q.immediate = false ∧ isAhead s.now q.due = false ∧ st = .late
            ∨ s.claims.holder q.line = some p ∧ (q.immediate = true ∨ isAhead s.now q.due = true)
                ∧ (look s.session.quota p).toNat ≤ s.cueTable.occupied p ∧ st = .quota
            ∨ s.claims.holder q.line = some p ∧ (q.immediate = true ∨ isAhead s.now q.due = true)
                ∧ s.cueTable.occupied p < (look s.session.quota p).toNat
                ∧ (∀ i, (s.cueTable.cue i).isSome = true) ∧ st = .noSlot)) →
    ∃ t, exec (.addCue p) s = .next t ∧ GrantedOnly s t .normal p r st []

/-- CANCEL_CUE and QUERY_CUE complete (R34, R35, R37, R197): the owner's cue is freed without an event, or reported byte by
byte (the set byte of a cue with no set is 0: log 25); a handle that is not live is BAD_HANDLE and another port's cue
NOT_OWNER; before that come WRONG_PHASE, NOT_ATTACHED and BAD_FIELD (R26, R194). -/
def Obligations.CancelAndQueryCue : Prop :=
  (∀ (p : Port) (r : Request) (s : State), s.ChecksFirst .cancelCue p r 2 ∧ s.ChecksFirst .queryCue p r 2)
  ∧ ∀ (p : Port) (r : Request) (s : State), s.session.phase = .run → s.attached p = true → 2 ≤ r.body.length →
    (∀ i c, s.cueTable.live (byteAt r.body 0) (byteAt r.body 1) = some (i, c) → c.owner = p →
      (s.Grants p .cancelCue r →
        ∃ t, exec (.cancelCue p) s = .next t ∧ ChangesOnly [.cueTable, .arbiter, .ports] s t
          ∧ t.arbiter = s.arbiter.afterGrant .urgent p ∧ t.ports = s.portsAnswering p r .ok []
          ∧ SlotFreed s.cueTable t.cueTable i c)
      ∧ (s.Grants p .queryCue r →
        ∃ t body, exec (.queryCue p) s = .next t ∧ GrantedOnly s t .normal p r .ok body ∧ body.length = 37
          ∧ byteAt body 0 = byteAt r.body 0 ∧ byteAt body 1 = byteAt r.body 1
          ∧ byteAt body 2 = lineCode c.line ∧ byteAt body 3 = actionCode c.action
          ∧ byteAt body 4 = (if c.state = .pending then 1 else 2) ∧ halfAt body 6 = c.width.getD 0
          ∧ timeAt body 8 = c.gridDue ∧ timeAt body 12 = c.effDue.getD 0 ∧ tripleAt body 16 = c.period.getD 0
          ∧ halfAt body 19 = c.remaining.getD 0 ∧ halfAt body 22 = c.missed
          ∧ byteAt body 5 = (if c.staged.isSome then 0x40 else 0) + (if c.set.isSome then 0x20 else 0)
              + (if c.effDue.isSome then 0x10 else 0) + (if c.width.isSome then 4 else 0)
              + (if c.period.isSome then 2 else 0) + (if c.remaining.isSome then 1 else 0)
          ∧ byteAt body 21 = (if c.width.isSome then 0x40 else 0) + (if c.period.isSome then 0x20 else 0)
              + (if c.remaining.isSome then 0x10 else 0) + (if c.notify then 4 else 0)
              + (if c.missPolicy = .fireLate then 1 else 0)
          ∧ byteAt body 24 = (match c.set with
              | some k => setCode k
              | none => 0)
          ∧ (c.staged = none → ∀ n, 25 ≤ n → byteAt body n = 0)
          ∧ (∀ d, c.staged = some d →
              byteAt body 25 = (if d.action.isSome then 0x10 else 0) + (if d.width.isSome then 8 else 0)
                  + (if d.period.isSome then 4 else 0) + (if d.remaining.isSome then 2 else 0)
                  + (if d.shift.isSome then 1 else 0)
              ∧ byteAt body 26 = (match d.action with
                  | some a => actionCode a
                  | none => 0)
              ∧ halfAt body 27 = d.width.getD 0 ∧ tripleAt body 29 = d.period.getD 0
              ∧ halfAt body 32 = d.remaining.getD 0 ∧ tripleAt body 34 = d.shift.getD 0)))
    ∧ (∀ i c, s.cueTable.live (byteAt r.body 0) (byteAt r.body 1) = some (i, c) → c.owner ≠ p →
      (s.Grants p .cancelCue r → ∃ t, exec (.cancelCue p) s = .next t ∧ GrantedOnly s t .urgent p r .notOwner [])
      ∧ (s.Grants p .queryCue r → ∃ t, exec (.queryCue p) s = .next t ∧ GrantedOnly s t .normal p r .notOwner []))
    ∧ (s.cueTable.live (byteAt r.body 0) (byteAt r.body 1) = none →
      (s.Grants p .cancelCue r → ∃ t, exec (.cancelCue p) s = .next t ∧ GrantedOnly s t .urgent p r .badHandle [])
      ∧ (s.Grants p .queryCue r → ∃ t, exec (.queryCue p) s = .next t ∧ GrantedOnly s t .normal p r .badHandle []))

/-- STAGE and UNSTAGE complete (R70 to R72): the record is stored beside the cue, whole, and the cue joins the set named
when it held none; UNSTAGE discards the record and the cue leaves its set. Refused, the first check that fails decides the
answer, and only the answer. The fields are read from the body's bytes (R196), and what they make is the record. -/
def Obligations.StageAndUnstage : Prop :=
  (∀ (p : Port) (r : Request) (s : State), s.ChecksFirst .stage p r 15 ∧ s.ChecksFirst .unstage p r 2)
  ∧ (∀ (p : Port) (r : Request) (k : CommandKind) (s : State), (k = .stage ∧ 15 ≤ r.body.length
        ∨ k = .unstage ∧ 2 ≤ r.body.length) → s.Grants p k r → s.session.phase = .run → s.attached p = true →
    (s.cueTable.live (byteAt r.body 0) (byteAt r.body 1) = none → s.Refused k p r .badHandle)
    ∧ (∀ i c, s.cueTable.live (byteAt r.body 0) (byteAt r.body 1) = some (i, c) → c.owner ≠ p →
      s.Refused k p r .notOwner))
  ∧ (∀ b : List Byte, (stageBody b).ReadFrom b)
  ∧ (∀ (f : StageBody) (c : Cue), f.check c = none ↔ f.Unfit c)
  ∧ (∀ (f : StageBody) (c : Cue) (record : StagedRecord) (k : Option SetId), f.check c = some (record, k) →
      f.Makes record k)
  ∧ (∀ (p : Port) (r : Request) (i : SlotId) (c : Cue) (s : State), s.Grants p .stage r → s.session.phase = .run →
    s.attached p = true → 15 ≤ r.body.length →
    s.cueTable.live (byteAt r.body 0) (byteAt r.body 1) = some (i, c) → c.owner = p →
    ((stageBody r.body).check c = none → s.Refused .stage p r .badField)
    ∧ ∀ record k, (stageBody r.body).check c = some (record, k) →
      (∀ j, k = some j →
        (s.cueTable.commitSet j = .free → s.Refused .stage p r .wrongState)
        ∧ (∀ o, (s.cueTable.commitSet j).owner? = some o → o ≠ p → s.Refused .stage p r .notOwner)
        ∧ (∀ n at', s.cueTable.commitSet j = .scheduled p n at' → s.Refused .stage p r .wrongState))
      ∧ ((∀ j, k = some j → ∃ n, s.cueTable.commitSet j = .opened p n) → c.staged.isSome = true → c.set ≠ k →
          s.Refused .stage p r .conflict))
  ∧ ∀ (p : Port) (r : Request) (i : SlotId) (c : Cue) (s : State), s.session.phase = .run → s.attached p = true →
    s.cueTable.live (byteAt r.body 0) (byteAt r.body 1) = some (i, c) → c.owner = p →
    (∀ record k, s.Grants p .stage r → 15 ≤ r.body.length → (stageBody r.body).check c = some (record, k) →
      (∀ j, k = some j → ∃ n, s.cueTable.commitSet j = .opened p n) → (c.staged = none ∨ c.set = k) →
      ∃ t, exec (.stage p) s = .next t ∧ ChangesOnly [.cueTable, .arbiter, .ports] s t
        ∧ t.arbiter = s.arbiter.afterGrant .normal p
        ∧ t.ports = s.portsAnswering p r .ok [if c.staged.isSome then 1 else 0]
        ∧ (∀ j, t.cueTable.cue j =
            if j = i then some { c with staged := some record, set := k } else s.cueTable.cue j)
        ∧ (∀ j, t.cueTable.commitSet j = if k = some j ∧ c.staged = none
            then (s.cueTable.commitSet j).recount (fun n => n + 1) else s.cueTable.commitSet j)
        ∧ (∀ j, t.cueTable.gen j = s.cueTable.gen j) ∧ t.cueTable.pendingList = s.cueTable.pendingList
        ∧ t.cueTable.deferred = s.cueTable.deferred)
    ∧ (s.Grants p .unstage r → 2 ≤ r.body.length → c.staged.isSome = true →
      ∃ t, exec (.unstage p) s = .next t ∧ ChangesOnly [.cueTable, .arbiter, .ports] s t
        ∧ t.arbiter = s.arbiter.afterGrant .normal p ∧ t.ports = s.portsAnswering p r .ok [0]
        ∧ (∀ j, t.cueTable.cue j =
            if j = i then some { c with staged := none, set := none } else s.cueTable.cue j)
        ∧ (∀ j, t.cueTable.commitSet j = if c.set = some j
            then (s.cueTable.commitSet j).recount (fun n => n - 1) else s.cueTable.commitSet j)
        ∧ (∀ j, t.cueTable.gen j = s.cueTable.gen j) ∧ t.cueTable.pendingList = s.cueTable.pendingList
        ∧ t.cueTable.deferred = s.cueTable.deferred)
    ∧ (s.Grants p .unstage r → 2 ≤ r.body.length → c.staged = none →
      ∃ t, exec (.unstage p) s = .next t ∧ GrantedOnly s t .normal p r .ok [1])

/-- OPEN_SET, COMMIT_SET and ABANDON_SET complete (R77 to R79). Refused, the first check that fails decides the answer, and
only the answer. -/
def Obligations.SetCommands : Prop :=
  (∀ (p : Port) (r : Request) (s : State),
    s.ChecksFirst .openSet p r 0 ∧ s.ChecksFirst .commitSet p r 5 ∧ s.ChecksFirst .abandonSet p r 1)
  ∧ (∀ (p : Port) (r : Request) (c : CommandKind) (s : State), (c = .commitSet ∧ 5 ≤ r.body.length
        ∨ c = .abandonSet ∧ 1 ≤ r.body.length) → s.Grants p c r → s.session.phase = .run → s.attached p = true →
    (8 ≤ (byteAt r.body 0).toNat → s.Refused c p r .badField)
    ∧ ∀ k : SetId, byteAt r.body 0 = setCode k →
      (s.cueTable.commitSet k = .free → s.Refused c p r .wrongState)
      ∧ (∀ o, (s.cueTable.commitSet k).owner? = some o → o ≠ p → s.Refused c p r .notOwner)
      ∧ (∀ n at', c = .commitSet → s.cueTable.commitSet k = .scheduled p n at' → s.Refused c p r .wrongState))
  ∧ ∀ (p : Port) (r : Request) (k : SetId) (s : State), s.session.phase = .run → s.attached p = true →
    (s.Grants p .openSet r → s.cueTable.commitSet k = .free → (∀ j, j < k → s.cueTable.commitSet j ≠ .free) →
      ∃ t, exec (.openSet p) s = .next t ∧ ChangesOnly [.cueTable, .arbiter, .ports] s t
        ∧ t.arbiter = s.arbiter.afterGrant .normal p ∧ t.ports = s.portsAnswering p r .ok [setCode k]
        ∧ t.cueTable = { s.cueTable with sets := put s.cueTable.sets k (.opened p 0) })
    ∧ (s.Grants p .openSet r → (∀ j, s.cueTable.commitSet j ≠ .free) →
      ∃ t, exec (.openSet p) s = .next t ∧ GrantedOnly s t .normal p r .noSlot [])
    ∧ (∀ n, s.Grants p .commitSet r → 5 ≤ r.body.length → byteAt r.body 0 = setCode k →
      s.cueTable.commitSet k = .opened p n →
      (isAhead s.now (timeAt r.body 1) = true →
        ∃ t, exec (.commitSet p) s = .next t ∧ ChangesOnly [.cueTable, .arbiter, .ports] s t
          ∧ t.arbiter = s.arbiter.afterGrant .normal p
          ∧ t.ports = s.portsAnswering p r .ok
              (setCode k :: timeBytes (timeAt r.body 1) ++ [BitVec.ofNat 8 n])
          ∧ t.cueTable =
              { s.cueTable with sets := put s.cueTable.sets k (.scheduled p n (timeAt r.body 1)) })
      ∧ (isAhead s.now (timeAt r.body 1) = false →
        ∃ t, exec (.commitSet p) s = .next t ∧ GrantedOnly s t .normal p r .late []))
    ∧ (s.Grants p .abandonSet r → 1 ≤ r.body.length → byteAt r.body 0 = setCode k →
      (s.cueTable.commitSet k).owner? = some p →
      ∃ t, exec (.abandonSet p) s = .next t ∧ ChangesOnly [.cueTable, .arbiter, .ports] s t
        ∧ t.arbiter = s.arbiter.afterGrant .normal p
        ∧ t.ports = s.portsAnswering p r .ok [BitVec.ofNat 8 (s.cueTable.membersOf k).length]
        ∧ (∀ i, t.cueTable.cue i =
            (s.cueTable.cue i).map (fun c => if c.set = some k then { c with staged := none, set := none } else c))
        ∧ (∀ j, t.cueTable.commitSet j = if j = k then .free else s.cueTable.commitSet j)
        ∧ t.cueTable.pendingList = s.cueTable.pendingList ∧ t.cueTable.deferred = s.cueTable.deferred
        ∧ (∀ i, t.cueTable.gen i = s.cueTable.gen i))

/-- Every step keeps the lists exact: the pending list holds every PENDING cue once and no other, each DEFERRED cue stands
on one deferred list (R13, R20, R23, R67); and every step keeps the pending list of exact lists in order, by distance from
now and then by entry order (R20, R21, R22). -/
def Obligations.CueListsKept : Prop :=
  (∀ s t : State, s.cueTable.Listed → step s = .next t → t.cueTable.Listed)
    ∧ ∀ s t : State, s.cueTable.Listed → s.cueTable.Ordered s.now → step s = .next t → t.cueTable.Ordered t.now

/-- Every step keeps the member counts right and every member its set owner's (R76, R84). -/
def Obligations.SetMembersKept : Prop :=
  ∀ s t : State, s.cueTable.SetsCounted → step s = .next t → t.cueTable.SetsCounted

/-- Every step leaves each cue with a consistent set of fields (R69, R70). -/
def Obligations.CueFieldsKept : Prop :=
  ∀ s t : State, s.cueTable.Consistent → step s = .next t → t.cueTable.Consistent

/-- RELEASE at the cue table unit completes (R39, R125, R126): by the holder its cues on the line are purged, each set losing
the members that go, and the release asks for the drive; from any other port nothing is purged and the release waits to
be decided. Refused, the first check that fails decides the answer, and only the answer. -/
def Obligations.ReleaseAtCueTable : Prop :=
  (∀ (p : Port) (r : Request) (s : State), s.ChecksFirst .release p r 1
    ∧ (s.Grants p .release r → s.session.phase = .run → s.attached p = true → 16 ≤ (byteAt r.body 0).toNat →
        s.Refused .release p r .badField))
  ∧ ∀ (p : Port) (r : Request) (l : Line) (s : State), s.Grants p .release r → s.session.phase = .run →
    s.attached p = true → 1 ≤ r.body.length → byteAt r.body 0 = lineCode l →
    ∃ t, exec (.release p) s = .next t ∧ ChangesOnly [.cueTable, .claims, .arbiter, .ports] s t
      ∧ t.arbiter = s.arbiter.afterGrant .urgent p ∧ t.ports = put s.ports p (s.port p).setEntryAside
      ∧ (s.claims.holder l = some p →
          t.claims =
            { s.claims with
              releases := put s.claims.releases p (some { ticket := s.ticket p r, line := l, stage := .drive }) }
          ∧ Purged s.cueTable t.cueTable (fun c => c.owner == p && c.line == l)
          ∧ ∀ k, t.cueTable.commitSet k = (s.cueTable.commitSet k).recount (fun n => n -
              (s.cueTable.slotsWith (fun c => c.owner == p && c.line == l && c.set == some k)).length))
      ∧ (s.claims.holder l ≠ some p →
          t.claims =
            { s.claims with
              releases := put s.claims.releases p (some { ticket := s.ticket p r, line := l, stage := .undecided }) }
          ∧ t.cueTable = s.cueTable)

/-- DETACH, LAPSE_PURGE and HALT_PURGE complete at the cue table unit (R40, R41, R151): every cue and set of the port, or
of all, is freed, the generations advance, the lists lose the cues, and the work is handed on. -/
def Obligations.PurgesComplete : Prop :=
  ∀ (s : State) (p : Port), s.live = true →
    (∀ r, s.Grants p .detach r →
      ∃ t, exec (.detach p) s = .next t ∧ ChangesOnly [.cueTable, .claims, .arbiter, .ports] s t
        ∧ t.arbiter = s.arbiter.afterGrant .urgent p ∧ t.ports = put s.ports p (s.port p).setEntryAside
        ∧ t.claims =
            { s.claims with
              detaching := put s.claims.detaching p (some { owes := some (s.ticket p r), stage := .notStarted }) }
        ∧ Purged s.cueTable t.cueTable (fun c => c.owner == p)
        ∧ (∀ k, (t.cueTable.commitSet k).owner? ≠ some p)
        ∧ (∀ k, (s.cueTable.commitSet k).owner? ≠ some p →
            (t.cueTable.commitSet k).owner? = (s.cueTable.commitSet k).owner?)
        ∧ (s.cueTable.SetsCounted → ∀ k, t.cueTable.commitSet k =
            if (s.cueTable.commitSet k).owner? = some p then .free else s.cueTable.commitSet k))
    ∧ (s.nextGrant = some (.urgent, p) → s.firstPurge p = some .lapse →
      ∃ t, exec (.lapsePurge p) s = .next t ∧ ChangesOnly [.cueTable, .claims, .arbiter] s t
        ∧ t.arbiter =
            { s.arbiter with
              switches := s.arbiter.switches.moved .urgent p
              purges := put s.arbiter.purges p (look s.arbiter.purges p).tail }
        ∧ t.claims =
            { s.claims with lapsing := put s.claims.lapsing p (some { owes := none, stage := .notStarted }) }
        ∧ Purged s.cueTable t.cueTable (fun c => c.owner == p)
        ∧ (∀ k, (t.cueTable.commitSet k).owner? ≠ some p)
        ∧ (s.cueTable.SetsCounted → ∀ k, t.cueTable.commitSet k =
            if (s.cueTable.commitSet k).owner? = some p then .free else s.cueTable.commitSet k))
    ∧ (s.nextGrant = some (.urgent, p) → s.firstPurge p = some .halt →
      ∃ t, exec .haltPurge s = .next t ∧ ChangesOnly [.cueTable, .claims, .arbiter] s t
        ∧ t.arbiter =
            { s.arbiter with
              switches := s.arbiter.switches.moved .urgent p
              purges := put s.arbiter.purges p (look s.arbiter.purges p).tail }
        ∧ t.claims = { s.claims with halt := .drive }
        ∧ (∀ i, t.cueTable.cue i = none) ∧ (∀ k, t.cueTable.commitSet k = .free)
        ∧ Purged s.cueTable t.cueTable (fun _ => true)
        ∧ (s.cueTable.Listed → t.cueTable.pendingList = [] ∧ ∀ g, look t.cueTable.deferred g = []))

/-! ### The arbiter -/

/-- PRESENT_REQUEST completes: the head command waits on its leaf, and no switch moves (R137). Beside a purge request the
port presents nothing (R138, R165). -/
def Obligations.PresentRequestWaits : Prop :=
  ∀ (p : Port) (r : Request) (k : CommandKind) (c : ListClass) (s : State), s.live = true → s.head p = some r →
    kindOf r.kind = some k → listClass k = some c → s.attached p = true → look s.arbiter.presented p = false →
    (look s.arbiter.purges p = [] →
      ∃ t, exec (.presentRequest p) s = .next t ∧ ChangesOnly [.arbiter] s t
        ∧ t.arbiter = { s.arbiter with presented := put s.arbiter.presented p true }
        ∧ t.leafHolds c p = true)
    ∧ (look s.arbiter.purges p ≠ [] → exec (.presentRequest p) s = .next s)

/-- The waiting bound: a request that waits through eight grants is among them (R146). -/
def Obligations.WaitingBound : Prop :=
  ∀ (c : ListClass) (p : Port) (w : Switches) (vs : List Leaves), vs.length = 8 →
    (∀ v, v ∈ vs → v.holds c p = true) → (c, p) ∈ grantsOf w vs

/-- A switch moves only at a grant that walks through it, and then points at the branch not used; every granted command
moves the switches of its walk (R142). -/
def Obligations.SwitchesMoveAtGrants : Prop :=
  (∀ (c : Instr) (s t : State), (∀ cause, c ≠ .deviceReset cause) → exec c s = .next t →
    t.arbiter.switches = s.arbiter.switches
      ∨ ∃ cl p, s.nextGrant = some (cl, p) ∧ t.arbiter.switches = s.arbiter.switches.moved cl p
          ∧ ((∃ k, listClass k = some cl ∧ grantedCommand k p = some c ∧ (s.granted k p).isSome = true)
            ∨ (cl = .urgent ∧ (c = .lapsePurge p ∧ s.firstPurge p = some .lapse
              ∨ c = .haltPurge ∧ s.firstPurge p = some .halt))))
  ∧ (∀ (k : CommandKind) (cl : ListClass) (c : Instr) (p : Port) (r : Request) (s : State),
      listClass k = some cl → grantedCommand k p = some c → s.Grants p k r →
      ∃ t, exec c s = .next t ∧ t.arbiter = s.arbiter.afterGrant cl p)
  ∧ (∀ (p : Port) (s : State), s.live = true → s.nextGrant = some (.urgent, p) →
      (s.firstPurge p = some .lapse →
        ∃ t, exec (.lapsePurge p) s = .next t ∧ t.arbiter.switches = s.arbiter.switches.moved .urgent p)
      ∧ (s.firstPurge p = some .halt →
        ∃ t, exec .haltPurge s = .next t ∧ t.arbiter.switches = s.arbiter.switches.moved .urgent p))
  ∧ ∀ (w : Switches) (c : ListClass) (p : Port),
      (w.moved c p).classSwitch = c.other
      ∧ (w.moved c p).root c = (pairOf p).other
      ∧ (w.moved c p).pointed c (pairOf p) ≠ p
      ∧ (w.moved c p).root c.other = w.root c.other
      ∧ (w.moved c p).pairSwitch c (pairOf p).other = w.pairSwitch c (pairOf p).other
      ∧ (∀ q, (w.moved c p).pairSwitch c.other q = w.pairSwitch c.other q)

/-! ### Claims -/

/-- CLAIM completes (R120 to R122). -/
def Obligations.ClaimAnswers : Prop :=
  ∀ (p : Port) (r : Request) (l : Line) (s : State), s.Takes p .claim r →
    (s.session.phase = .setup → ∃ t, exec (.claim p) s = .next t ∧ AnsweredOnly s t p r .wrongPhase [])
    ∧ (s.session.phase = .run → (r.body.length < 2 ∨ 16 ≤ (byteAt r.body 0).toNat ∨ 2 ≤ (byteAt r.body 1).toNat) →
      ∃ t, exec (.claim p) s = .next t ∧ AnsweredOnly s t p r .badField [])
    ∧ (s.session.phase = .run → 2 ≤ r.body.length → byteAt r.body 0 = lineCode l →
        (byteAt r.body 1 = 0 ∨ byteAt r.body 1 = 1) →
      ((s.claims.record l).held = none →
        ∃ t, exec (.claim p) s = .next t ∧ ChangesOnly [.claims, .arbiter, .ports] s t
          ∧ t.arbiter = s.arbiter.without p
          ∧ t.ports = s.portsAnswering p r .ok (lineCode l :: timeBytes s.now)
          ∧ t.claims =
              { s.claims with
                records := put s.claims.records l
                  { held := some { holder := p, claimedAt := s.now }, waiters := (s.claims.record l).waiters } })
      ∧ (∀ at', (s.claims.record l).held = some { holder := p, claimedAt := at' } →
        ∃ t, exec (.claim p) s = .next t ∧ AnsweredOnly s t p r .ok (lineCode l :: timeBytes at'))
      ∧ (∀ h, (s.claims.record l).held = some h → h.holder ≠ p →
        (byteAt r.body 1 = 0 →
          ∃ t, exec (.claim p) s = .next t ∧ AnsweredOnly s t p r .busy [portCode h.holder])
        ∧ (∀ before after, byteAt r.body 1 = 1 → (s.claims.record l).waiters = before ++ p :: after → p ∉ before →
          ∃ t, exec (.claim p) s = .next t
            ∧ AnsweredOnly s t p r .queued [portCode h.holder, BitVec.ofNat 8 (before.length + 1)])
        ∧ (byteAt r.body 1 = 1 → p ∉ (s.claims.record l).waiters →
          ∃ t, exec (.claim p) s = .next t ∧ ChangesOnly [.claims, .arbiter, .ports] s t
            ∧ t.arbiter = s.arbiter.without p
            ∧ t.ports = s.portsAnswering p r .queued
                [portCode h.holder, BitVec.ofNat 8 ((s.claims.record l).waiters.length + 1)]
            ∧ t.claims =
                { s.claims with
                  records := put s.claims.records l
                    { held := some h, waiters := (s.claims.record l).waiters ++ [p] } })))

/-- QUERY_LINE completes in every port state and reports the line byte by byte (R134, R197; the holdoff line byte with no
holdoff is 0xFF: log 19); without a line from 0 to 15 it is BAD_FIELD. -/
def Obligations.QueryLineReports : Prop :=
  (∀ (p : Port) (r : Request) (s : State), s.Takes p .queryLine r → (r.body = [] ∨ 16 ≤ (byteAt r.body 0).toNat) →
    ∃ t, exec (.queryLine p) s = .next t ∧ AnsweredOnly s t p r .badField [])
  ∧ ∀ (p : Port) (r : Request) (l : Line) (s : State), s.Takes p .queryLine r → 1 ≤ r.body.length →
    byteAt r.body 0 = lineCode l →
    ∃ t body, exec (.queryLine p) s = .next t ∧ AnsweredOnly s t p r .ok body ∧ body.length = 25
      ∧ (byteAt body 0 = (if (s.claims.record l).held.isSome then 8 else 0)
          + (if (s.output.line l).pulseEnd.isSome then 4 else 0)
          + (if (s.output.line l).lastChange.isSome then 2 else 0)
          + (if (s.output.holdoffOf l).isSome then 1 else 0))
      ∧ byteAt body 1 = (match (s.claims.record l).held with
          | some h => portCode h.holder
          | none => 0xFF)
      ∧ timeAt body 2 = (match (s.claims.record l).held with
          | some h => h.claimedAt
          | none => 0)
      ∧ byteAt body 10 = levelCode (s.output.line l).level ∧ timeAt body 11 = (s.output.line l).pulseEnd.getD 0
      ∧ timeAt body 15 = (s.output.line l).lastChange.getD 0 ∧ byteAt body 19 = groupCode? (s.output.line l).group
      ∧ byteAt body 6 = BitVec.ofNat 8 (s.claims.record l).waiters.length
      ∧ (∀ n, n < 3 → byteAt body (7 + n) = (match (s.claims.record l).waiters[n]? with
          | some q => portCode q
          | none => 0xFF))
      ∧ byteAt body 20 = (match s.output.holdoffOf l with
          | some { line := some m, endsAt := _ } => lineCode m
          | _ => 0xFF)
      ∧ timeAt body 21 = (match s.output.holdoffOf l with
          | some h => h.endsAt
          | none => 0)

/-- RELEASE_AT_CLAIM_UNIT completes: the claim record as it stands decides (R128), before and after the start of a port
release of the lapsed port (R139) and also once that port release has completed (log 16). -/
def Obligations.ReleaseDecided : Prop :=
  ∀ (p : Port) (j : ReleaseJob) (moved : Option ReleaseJob → ClaimUnit) (s : State), s.live = true →
    s.claims.Serves p j moved → j.stage = .undecided →
    (s.claims.holder j.line = some p →
      ∃ t, exec (.releaseAtClaimUnit p) s = .next t ∧ ChangesOnly [.claims] s t
        ∧ t.claims = moved (some { j with stage := .drive }))
    ∧ (s.claims.holder j.line ≠ some p → p ∈ (s.claims.record j.line).waiters →
      ∃ t, exec (.releaseAtClaimUnit p) s = .next t ∧ ChangesOnly [.claims, .ports] s t
        ∧ t.claims = { moved none with
            records := put s.claims.records j.line { s.claims.record j.line with
              waiters := (s.claims.record j.line).waiters.filter (fun q => q != p) } }
        ∧ t.ports = put s.ports j.ticket.port ((s.port j.ticket.port).produce j.ticket .ok
            [lineCode j.line, portCode? (s.claims.holder j.line), 1]))
    ∧ (s.claims.holder j.line ≠ some p → p ∉ (s.claims.record j.line).waiters →
      ∃ t, exec (.releaseAtClaimUnit p) s = .next t ∧ ChangesOnly [.claims, .ports] s t
        ∧ t.claims = moved none
        ∧ t.ports = put s.ports j.ticket.port ((s.port j.ticket.port).produce j.ticket .notOwner []))

/-- CLAIM_TRANSFER completes for a release and for a line of a port release (R124, R126, R131): in RUN the first waiter
becomes the holder and is told, in SETUP the line is free; the release is answered, and after the last line of a port
release its completion notice is sent. A line that the giving port no longer holds keeps its record, and the reply to the
release carries the holder as it stands (log 17). A release that ends after the port release of its lapsed port transfers a
line that the port holds again, but none where a cue of the port stands (R18, log 16). -/
def Obligations.ClaimTransfers : Prop :=
  ∀ (p : Port) (s : State), s.live = true →
    (∀ j moved, s.claims.Serves p j moved → j.stage = .transfer →
      let bare := ∀ i c, s.cueTable.cue i = some c → c.line = j.line → c.owner ≠ p
      (∀ next rest, s.session.phase = .run → s.claims.holder j.line = some p →
        (look s.claims.releases p = some j ∨ bare) → (s.claims.record j.line).waiters = next :: rest →
      ∃ t, exec (.claimTransfer (.release p)) s = .next t ∧ ChangesOnly [.claims, .ports] s t
        ∧ t.claims = { moved none with
            records := put s.claims.records j.line
              { held := some { holder := next, claimedAt := s.now }, waiters := rest } }
        ∧ ∀ q, t.port q = if q = j.ticket.port
            then (s.portAfter p j.line q).produce j.ticket .ok [lineCode j.line, portCode next, 0]
            else s.portAfter p j.line q)
      ∧ (s.claims.holder j.line = some p → (look s.claims.releases p = some j ∨ bare) →
        (s.session.phase = .setup ∨ (s.claims.record j.line).waiters = []) →
      ∃ t, exec (.claimTransfer (.release p)) s = .next t ∧ ChangesOnly [.claims, .ports] s t
        ∧ t.claims = { moved none with
            records := put s.claims.records j.line { held := none, waiters := [] } }
        ∧ t.ports = put s.ports j.ticket.port ((s.port j.ticket.port).produce j.ticket .ok
            [lineCode j.line, 0xFF, 0]))
      ∧ (s.claims.holder j.line ≠ some p ∨ (look s.claims.releases p ≠ some j ∧ ¬ bare) →
      ∃ t, exec (.claimTransfer (.release p)) s = .next t ∧ ChangesOnly [.claims, .ports] s t
        ∧ t.claims = moved none
        ∧ t.ports = put s.ports j.ticket.port ((s.port j.ticket.port).produce j.ticket .ok
            [lineCode j.line, portCode? (s.claims.holder j.line), 0])))
    ∧ (∀ why owes l rest, s.claims.departure p why = some { owes := owes, stage := .giving (l :: rest) true } →
      let given : ClaimUnit := { s.claims with records := put s.claims.records l (s.recordAfter p l) }
      ∃ t, exec (.claimTransfer (.departure p why)) s = .next t ∧ ChangesOnly [.claims, .ports] s t
        ∧ (∀ m more, rest = m :: more →
            t.claims = given.setDeparture p why (some { owes := owes, stage := .giving (m :: more) false }))
        ∧ (rest = [] → t.claims = given.notified p why owes)
        ∧ ∀ q, t.port q = s.portAfter p l q)

/-- PORT_RELEASE_START and HALT_RELEASE complete (R130, R132). The start for a lapse waits for every drive and transfer of a
release by the port as holder: that it waits also for a release decided as holder only after the lapse is log 30. A port
release that completes at its start leaves a RELEASE of the lapsed port that is not over to end late (log 16). -/
def Obligations.ReleasesStart : Prop :=
  ∀ s : State, s.live = true →
    (∀ p why owes, s.claims.departure p why = some { owes := owes, stage := .notStarted } →
      (why = .lapse → look s.claims.detaching p = none
        ∧ (∀ j, look s.claims.releases p = some j → j.stage = .undecided)
        ∧ ∀ j, j ∈ look s.claims.late p → j.stage = .undecided) →
      ∃ (t : State) (told : ClaimUnit), exec (.portReleaseStart p why) s = .next t ∧ ChangesOnly [.claims] s t
        ∧ told = { s.claims with records := told.records }
        ∧ (∀ l, told.record l = { s.claims.record l with
            waiters := (s.claims.record l).waiters.filter (fun q => q != p) })
        ∧ (∀ l rest, (indices 16).filter (fun m => s.claims.holder m == some p) = l :: rest →
            t.claims = told.setDeparture p why (some { owes := owes, stage := .giving (l :: rest) false }))
        ∧ ((∀ m, s.claims.holder m ≠ some p) → t.claims = told.notified p why owes))
    ∧ (s.claims.halt = .release →
      ∃ t, exec .haltRelease s = .next t ∧ ChangesOnly [.claims] s t
        ∧ t.claims = { s.claims with records := t.claims.records, halt := .notice }
        ∧ (∀ l, t.claims.record l = { held := none, waiters := [] }) ∧ t.claims.halt = .notice)

/-- Every step keeps the law of claims (R119). -/
def Obligations.ClaimLawKept : Prop :=
  ∀ s t : State, s.ClaimLaw → step s = .next t → t.ClaimLaw

/-! ### The session -/

/-- ATTACH completes (R149, R167). Records still on their way from before the attachment are dropped (log 11). -/
def Obligations.AttachCompletes : Prop :=
  ∀ (p : Port) (r : Request) (s : State), s.Takes p .attach r →
    ((s.port p).state = .lapsed → (s.port p).cleanup = true →
      ∃ t, exec (.attach p) s = .next t ∧ AnsweredOnly s t p r .busy [])
    ∧ ((s.port p).state = .attached →
      ∃ t, exec (.attach p) s = .next t
        ∧ AnsweredOnly s t p r .ok (phaseCode s.session.phase :: halfBytes s.session.version))
    ∧ ((s.port p).state = .detached ∨ ((s.port p).state = .lapsed ∧ (s.port p).cleanup = false) →
      ∃ t, exec (.attach p) s = .next t ∧ ChangesOnly [.session, .arbiter, .ports] s t
        ∧ t.arbiter = s.arbiter.without p
        ∧ t.session =
            { s.session with
              confirmed := put s.session.confirmed p false, voted := put s.session.voted p false }
        ∧ t.ports = put s.ports p (({ s.port p with
            state := .attached, events := [], overflow := 0, posted := [], setAside := true
            leaseEnd := if look s.session.lease p = 0 then none
              else some (later s.now ((look s.session.lease p).toNat * 65536)) } : PortUnit).produce (s.ticket p r) .ok
            (phaseCode s.session.phase :: halfBytes s.session.version)))

/-- The codes of the items with their index ranges (R194), the ranges of their values (R154, R194) and the constraints on a
value in range (R103). WRITE_CONFIG completes (R155, R156): the item reads back as written and every other item as before,
the version advances and every confirmation is gone; a refused write changes nothing. A write of membership or gap sets the
holdoff of the groups concerned afresh, every other holdoff stays, and a holdoff that it clears opens its group (R104). -/
def Obligations.WriteConfigCompletes : Prop :=
  (∀ (a b : Byte) (item : ConfigItem), itemOf a b = some item ↔ item.Coded a b)
  ∧ (∀ (item : ConfigItem) (v : Half) (w : ConfigWrite), writeOf item v = some w ↔ w.Coded item v)
  ∧ (∀ (w : ConfigWrite) (o : OutputUnit), w.permitted o = false ↔ w.Constrained o)
  ∧ ∀ (p : Port) (r : Request) (s : State), s.Takes p .writeConfig r →
    (s.session.phase = .run → ∃ t, exec (.writeConfig p) s = .next t ∧ AnsweredOnly s t p r .wrongPhase [])
    ∧ (s.session.phase = .setup → s.session.haltCleanup = true →
      ∃ t, exec (.writeConfig p) s = .next t ∧ AnsweredOnly s t p r .busy [])
    ∧ (s.session.phase = .setup → s.session.haltCleanup = false →
        (r.body.length < 4 ∨ itemOf (byteAt r.body 0) (byteAt r.body 1) = none
          ∨ ∃ g, itemOf (byteAt r.body 0) (byteAt r.body 1) = some (.members g)) →
      ∃ t, exec (.writeConfig p) s = .next t ∧ AnsweredOnly s t p r .badField [])
    ∧ (∀ item, s.session.phase = .setup → s.session.haltCleanup = false → 4 ≤ r.body.length →
        itemOf (byteAt r.body 0) (byteAt r.body 1) = some item → (∀ g, item ≠ .members g) →
        (writeOf item (halfAt r.body 2) = none
          ∨ ∃ w, writeOf item (halfAt r.body 2) = some w ∧ w.permitted s.output = false) →
      ∃ t, exec (.writeConfig p) s = .next t ∧ AnsweredOnly s t p r .badConfig
        ([byteAt r.body 0, byteAt r.body 1] ++ halfBytes s.session.version))
    ∧ (∀ item w, s.session.phase = .setup → s.session.haltCleanup = false → 4 ≤ r.body.length →
        itemOf (byteAt r.body 0) (byteAt r.body 1) = some item → writeOf item (halfAt r.body 2) = some w →
        w.permitted s.output = true →
      ∃ t, exec (.writeConfig p) s = .next t
        ∧ ChangesOnly [.timeBase, .output, .session, .arbiter, .ports] s t
        ∧ t.session.version = s.session.version + 1 ∧ (∀ q, look t.session.confirmed q = false)
        ∧ t.session.phase = .setup ∧ t.session.voted = s.session.voted ∧ t.session.haltCleanup = false
        ∧ t.session.haltWaiter = s.session.haltWaiter
        ∧ t.configValue item = halfAt r.body 2
        ∧ (∀ other, other ≠ item → t.configValue other = s.configValue other)
        ∧ t.timeBase = { s.timeBase with pendingPrescale := match w with
            | .prescale v => some v
            | _ => s.timeBase.pendingPrescale }
        ∧ t.output.trip = s.output.trip
        ∧ (∀ l v, w = .safeLevel l v → t.output.line l = ({ s.output.line l with safe := v } : LineRecord).driven s.now)
        ∧ (∀ l, (∀ v, w ≠ .safeLevel l v) → (t.output.line l).level = (s.output.line l).level
            ∧ (t.output.line l).pulseEnd = (s.output.line l).pulseEnd
            ∧ (t.output.line l).lastChange = (s.output.line l).lastChange)
        ∧ (s.OutputLaw →
            (∀ g, w.Regroups s.output g → t.output.HoldoffAfresh s.now g)
            ∧ (∀ g, ¬ w.Regroups s.output g → (t.output.group g).holdoff = (s.output.group g).holdoff)
            ∧ ∃ gs, t.output.notices = s.output.notices ++ gs ∧ gs.Nodup
              ∧ ∀ g, g ∈ gs ↔ w.Regroups s.output g ∧ (s.output.group g).holdoff.isSome = true
                  ∧ (t.output.group g).holdoff = none)
        ∧ t.arbiter = s.arbiter.without p
        ∧ t.ports = s.portsAnswering p r .ok
            ([byteAt r.body 0, byteAt r.body 1] ++ halfBytes (halfAt r.body 2)
              ++ halfBytes (s.session.version + 1)))

/-- READ_CONFIG completes and changes nothing (R157); the items and their index ranges are those of R194. -/
def Obligations.ReadConfigCompletes : Prop :=
  (∀ (a b : Byte) (item : ConfigItem), itemOf a b = some item ↔ item.Coded a b)
  ∧ ∀ (p : Port) (r : Request) (s : State), s.Takes p .readConfig r →
    (r.body.length < 2 ∨ itemOf (byteAt r.body 0) (byteAt r.body 1) = none →
      ∃ t, exec (.readConfig p) s = .next t ∧ AnsweredOnly s t p r .badField [])
    ∧ (∀ item, 2 ≤ r.body.length → itemOf (byteAt r.body 0) (byteAt r.body 1) = some item → (∀ g, item ≠ .members g) →
      ∃ t, exec (.readConfig p) s = .next t ∧ AnsweredOnly s t p r .ok
        ([byteAt r.body 0, byteAt r.body 1] ++ halfBytes (s.configValue item) ++ halfBytes s.session.version))
    ∧ (∀ g, 2 ≤ r.body.length → itemOf (byteAt r.body 0) (byteAt r.body 1) = some (.members g) →
      s.output.GroupsBounded →
      ∃ t, exec (.readConfig p) s = .next t ∧ AnsweredOnly s t p r .ok
        ([byteAt r.body 0, byteAt r.body 1, BitVec.ofNat 8 (s.output.members g).length]
          ++ ((s.output.members g).map lineCode ++ List.replicate (4 - (s.output.members g).length) 0xFF)
          ++ halfBytes s.session.version))

/-- CONFIRM completes (R158 to R160): the checks in order, then the confirmation and the phase check. -/
def Obligations.ConfirmCompletes : Prop :=
  ∀ (p : Port) (r : Request) (s : State), s.Takes p .confirm r →
    (s.session.phase = .run → ∃ t, exec (.confirm p) s = .next t ∧ AnsweredOnly s t p r .wrongPhase [])
    ∧ (s.session.phase = .setup → s.session.haltCleanup = true →
      ∃ t, exec (.confirm p) s = .next t ∧ AnsweredOnly s t p r .busy [])
    ∧ (s.session.phase = .setup → s.session.haltCleanup = false → r.body.length < 2 →
      ∃ t, exec (.confirm p) s = .next t ∧ AnsweredOnly s t p r .badField [])
    ∧ (s.session.phase = .setup → s.session.haltCleanup = false → 2 ≤ r.body.length →
        halfAt r.body 0 ≠ s.session.version →
      ∃ t, exec (.confirm p) s = .next t ∧ AnsweredOnly s t p r .versionMismatch (halfBytes s.session.version))
    ∧ (s.session.phase = .setup → s.session.haltCleanup = false → 2 ≤ r.body.length →
        halfAt r.body 0 = s.session.version →
      let sum := (look s.session.quota 0).toNat + (look s.session.quota 1).toNat + (look s.session.quota 2).toNat
        + (look s.session.quota 3).toNat
      let confirmed := fun q => q = p ∨ look s.session.confirmed q = true
      (96 < sum → ∃ t, exec (.confirm p) s = .next t
          ∧ AnsweredOnly s t p r .badConfig ([7, 0xFF] ++ halfBytes s.session.version))
      ∧ (sum ≤ 96 → (∃ q, s.attached q = true ∧ ¬ confirmed q) →
          ∃ t body, exec (.confirm p) s = .next t ∧ ChangesOnly [.session, .arbiter, .ports] s t
            ∧ t.arbiter = s.arbiter.without p
            ∧ t.session = { s.session with confirmed := put s.session.confirmed p true }
            ∧ t.ports = s.portsAnswering p r .ok body
            ∧ body = [BitVec.ofNat 8 t.confirmedCount, BitVec.ofNat 8 s.attachedCount])
      ∧ (sum ≤ 96 → (∀ q, s.attached q = true → confirmed q) →
          ∃ t, exec (.confirm p) s = .next t ∧ ChangesOnly [.session, .arbiter, .ports] s t
            ∧ t.arbiter = s.arbiter.without p
            ∧ t.session = { s.session with confirmed := put s.session.confirmed p true, phase := .run }
            ∧ PortsAnswerAndReceive s t p r .ok
                [BitVec.ofNat 8 s.attachedCount, BitVec.ofNat 8 s.attachedCount]
                { kind := .phase, aux := 1, ref := 0, value := s.session.version, time := s.now }))

/-- HALT_VOTE completes (R162, R163): a vote that is not decisive is answered at once with the counts; a decisive one makes
the phase SETUP, drives every line, sets the flag and asks for the halt purge on the voter's urgent leaf. -/
def Obligations.HaltVoteCompletes : Prop :=
  ∀ (p : Port) (r : Request) (s : State), s.Takes p .haltVote r →
    (s.session.phase = .setup → ∃ t, exec (.haltVote p) s = .next t ∧ AnsweredOnly s t p r .wrongPhase [])
    ∧ (s.session.phase = .run → (∃ q, q ≠ p ∧ s.attached q = true ∧ look s.session.voted q = false) →
      ∃ t, exec (.haltVote p) s = .next t ∧ ChangesOnly [.session, .arbiter, .ports] s t
        ∧ t.arbiter = s.arbiter.without p
        ∧ t.session = { s.session with voted := put s.session.voted p true }
        ∧ t.ports = s.portsAnswering p r .ok [BitVec.ofNat 8 t.votedCount, BitVec.ofNat 8 s.attachedCount])
    ∧ (s.session.phase = .run → s.OutputLaw →
        (∀ q, q ≠ p → s.attached q = true → look s.session.voted q = true) →
      ∃ t, exec (.haltVote p) s = .next t ∧ ChangesOnly [.output, .session, .arbiter, .ports] s t
        ∧ t.session = { s.session with
            phase := .setup, voted := put s.session.voted p true, haltCleanup := true
            haltWaiter := some (.vote (s.ticket p r) s.attachedCount) }
        ∧ Driven s.output t.output s.now ∧ t.output.trip = s.output.trip
        ∧ t.arbiter = { (s.arbiter.without p) with
            purges := put s.arbiter.purges p (look s.arbiter.purges p ++ [.halt]) }
        ∧ t.ports = put s.ports p (s.port p).setEntryAside)

/-- What moves only at its own commands: TB at TB_STEP and DEVICE_RESET (R1); a standing trip at CLEAR_TRIP, DEVICE_RESET and
RESET_END (R116); in RUN the configuration and its version at DEVICE_RESET alone (R153). -/
def Obligations.OnlyTheirCommandsMove : Prop :=
  ∀ (c : Instr) (s t : State), (∀ cause, c ≠ .deviceReset cause) → exec c s = .next t →
    (c ≠ .tbStep → t.now = s.now)
    ∧ (∀ cause entry, s.output.trip = .tripped cause entry → (∀ p, c ≠ .clearTrip p) → c ≠ .resetEnd →
        t.output.trip = .tripped cause entry)
    ∧ (s.session.phase = .run → t.session.version = s.session.version
        ∧ (∀ item, t.configValue item = s.configValue item) ∧ ∀ g, t.output.members g = s.output.members g)

/-- DETACH_COMPLETION completes (R151, R152, R165, R166): the port becomes DETACHED and the check that follows is made; a
port that has attached again keeps everything, which the model knows by its count of lapses (log 12). That the halt purge
decided by a LAPSED port's completion waits behind a lapse purge already on the port's leaf is log 15 (DEDUCED): R138 speaks
of the other order only. -/
def Obligations.DetachCompletes : Prop :=
  ∀ (p : Port) (ticket : Ticket) (rest : List Ticket) (s : State), s.live = true →
    look s.claims.detachDone p = ticket :: rest → ticket.port = p → s.OutputLaw →
    let gone : PortUnit := { s.port p with state := .detached, leaseEnd := none, events := [], overflow := 0 }
    let others := ∀ q, q ≠ p → s.attached q = false
    let session : Session :=
      { s.session with confirmed := put s.session.confirmed p false, voted := put s.session.voted p false }
    let claims : ClaimUnit := { s.claims with detachDone := put s.claims.detachDone p rest }
    (ticket.epoch = (s.port p).epoch → (s.port p).state = .attached →
      (s.session.phase = .run → ¬ others → (∃ q, q ≠ p ∧ s.attached q = true ∧ look s.session.voted q = false) →
        ∃ t, exec (.detachCompletion p) s = .next t ∧ ChangesOnly [.claims, .session, .ports] s t
          ∧ t.claims = claims ∧ t.session = session ∧ t.ports = put s.ports p (gone.produce ticket .ok []))
      ∧ (s.session.phase = .run → ¬ others → (∀ q, q ≠ p → s.attached q = true → look s.session.voted q = true) →
        ∃ t, exec (.detachCompletion p) s = .next t ∧ ChangesOnly [.claims, .session, .output, .arbiter, .ports] s t
          ∧ t.claims = claims
          ∧ t.session = { session with phase := .setup, haltCleanup := true, haltWaiter := some (.detach ticket) }
          ∧ Driven s.output t.output s.now ∧ t.output.trip = s.output.trip ∧ t.ports = put s.ports p gone
          ∧ t.arbiter = { s.arbiter with purges := put s.arbiter.purges p (look s.arbiter.purges p ++ [.halt]) })
      ∧ (s.session.phase = .run → others → (∀ q, (s.port q).cleanup = false) →
        ∃ t, exec (.detachCompletion p) s = .next t ∧ ChangesOnly [.claims, .session, .output, .ports] s t
          ∧ t.claims = claims ∧ t.session = { session with phase := .setup }
          ∧ Driven s.output t.output s.now ∧ t.output.trip = s.output.trip
          ∧ t.ports = put s.ports p (gone.produce ticket .ok []))
      ∧ (s.session.phase = .run → others → (∃ q, (s.port q).cleanup = true) →
        ∃ t, exec (.detachCompletion p) s = .next t ∧ ChangesOnly [.claims, .session, .ports] s t
          ∧ t.claims = claims ∧ t.session = session ∧ t.ports = put s.ports p (gone.produce ticket .ok []))
      ∧ (s.session.phase = .setup → (others ∨ s.session.haltCleanup = true
            ∨ ∃ q, q ≠ p ∧ s.attached q = true ∧ look s.session.confirmed q = false) →
        ∃ t, exec (.detachCompletion p) s = .next t ∧ ChangesOnly [.claims, .session, .ports] s t
          ∧ t.claims = claims ∧ t.session = session ∧ t.ports = put s.ports p (gone.produce ticket .ok []))
      ∧ (s.session.phase = .setup → ¬ others → s.session.haltCleanup = false →
          (∀ q, q ≠ p → s.attached q = true → look s.session.confirmed q = true) →
        ∃ t, exec (.detachCompletion p) s = .next t ∧ ChangesOnly [.claims, .session, .ports] s t
          ∧ t.claims = claims ∧ t.session = { session with phase := .run }
          ∧ (∀ q, t.port q = if q = p then gone.produce ticket .ok [] else (s.port q).receive
              { kind := .phase, aux := 1, ref := 0, value := s.session.version, time := s.now })))
    ∧ ((s.port p).state = .lapsed →
      let produced := put s.ports p ((s.port p).produce ticket .ok [])
      let fails := s.session.phase = .run
          ∧ ((∃ q, s.attached q = true ∧ look s.session.voted q = false)
            ∨ ((∀ q, s.attached q = false) ∧ ∃ q, (s.port q).cleanup = true))
        ∨ s.session.phase = .setup
          ∧ (s.session.haltCleanup = true ∨ (∀ q, s.attached q = false)
            ∨ ∃ q, s.attached q = true ∧ look s.session.confirmed q = false)
      (fails → ∃ t, exec (.detachCompletion p) s = .next t ∧ ChangesOnly [.claims, .session, .ports] s t
          ∧ t.claims = claims ∧ t.session = session ∧ t.ports = produced)
      ∧ (s.session.phase = .run → (∃ q, s.attached q = true) →
          (∀ q, s.attached q = true → look s.session.voted q = true) →
        ∃ t, exec (.detachCompletion p) s = .next t ∧ ChangesOnly [.claims, .session, .output, .arbiter] s t
          ∧ t.claims = claims
          ∧ t.session = { session with phase := .setup, haltCleanup := true, haltWaiter := some (.detach ticket) }
          ∧ Driven s.output t.output s.now ∧ t.output.trip = s.output.trip
          ∧ t.arbiter = { s.arbiter with purges := put s.arbiter.purges p (look s.arbiter.purges p ++ [.halt]) })
      ∧ (s.session.phase = .run → (∀ q, s.attached q = false) → (∀ q, (s.port q).cleanup = false) →
        ∃ t, exec (.detachCompletion p) s = .next t ∧ ChangesOnly [.claims, .session, .output, .ports] s t
          ∧ t.claims = claims ∧ t.session = { session with phase := .setup }
          ∧ Driven s.output t.output s.now ∧ t.output.trip = s.output.trip ∧ t.ports = produced)
      ∧ (s.session.phase = .setup → s.session.haltCleanup = false → (∃ q, s.attached q = true) →
          (∀ q, s.attached q = true → look s.session.confirmed q = true) →
        ∃ t, exec (.detachCompletion p) s = .next t ∧ ChangesOnly [.claims, .session, .ports] s t
          ∧ t.claims = claims ∧ t.session = { session with phase := .run }
          ∧ (∀ q, t.port q = if q = p then (s.port p).produce ticket .ok [] else (s.port q).receive
              { kind := .phase, aux := 1, ref := 0, value := s.session.version, time := s.now })))
    ∧ (ticket.epoch ≠ (s.port p).epoch → (s.port p).state = .attached →
        ∃ t, exec (.detachCompletion p) s = .next t ∧ ChangesOnly [.claims, .ports] s t
          ∧ t.claims = claims ∧ t.ports = put s.ports p ((s.port p).produce ticket .ok []))

/-- HALT_COMPLETION completes (R163, R165): votes, confirmations and flag are gone, PHASE carrying SETUP is posted, and
what waited for the halt goes on. -/
def Obligations.HaltCompletes : Prop :=
  ∀ s : State, s.live = true → s.claims.halt = .notice →
    ∃ t, exec .haltCompletion s = .next t ∧ ChangesOnly [.claims, .session, .ports] s t
      ∧ t.claims = { s.claims with halt := .idle }
      ∧ (∀ q, look t.session.confirmed q = false ∧ look t.session.voted q = false)
      ∧ t.session.haltCleanup = false ∧ t.session.haltWaiter = none ∧ t.session.phase = s.session.phase
      ∧ t.session.version = s.session.version ∧ t.session.prescale = s.session.prescale
      ∧ t.session.lease = s.session.lease ∧ t.session.quota = s.session.quota
      ∧ (let told := fun q => (s.port q).receive
          { kind := .phase, aux := 0, ref := 0, value := s.session.version, time := s.now }
        ∀ q, t.port q = match s.session.haltWaiter with
          | some (.vote ticket n) => if q = ticket.port
              then (told q).produce ticket .ok [BitVec.ofNat 8 n, BitVec.ofNat 8 n] else told q
          | some (.detach ticket) => if q = ticket.port then (told q).produce ticket .ok [] else told q
          | some (.lapse w) => if q = w then { told q with cleanup := false } else told q
          | none => told q)

/-- LAPSE and LAPSE_CLEANUP_COMPLETION complete (R168, R169, R185). That the count of lapses advances is log 12, and that
replies and records on their way stay on their way is log 11. -/
def Obligations.LapseAndCleanup : Prop :=
  ∀ (p : Port) (s : State), s.live = true →
    (s.attached p = true → (s.port p).leaseEnd = some s.now →
      ∃ t, exec (.lapse p) s = .next t ∧ ChangesOnly [.session, .arbiter, .ports] s t
        ∧ t.session =
            { s.session with
              confirmed := put s.session.confirmed p false, voted := put s.session.voted p false }
        ∧ t.arbiter = { (s.arbiter.without p) with
            purges := put s.arbiter.purges p (look s.arbiter.purges p ++ [.lapse]) }
        ∧ (t.port p).state = .lapsed ∧ (t.port p).cleanup = true ∧ (t.port p).leaseEnd = none
        ∧ (t.port p).cmds = [] ∧ (t.port p).replies = [] ∧ (t.port p).events = [] ∧ (t.port p).setAside = false
        ∧ (t.port p).overflow = 0 ∧ (t.port p).lastAccepted = none ∧ (t.port p).lastReply = none
        ∧ (t.port p).drop = (s.port p).drop ∧ (t.port p).owed = ((s.port p).owed || (s.port p).setAside)
        ∧ (t.port p).produced = (s.port p).produced ∧ (t.port p).posted = (s.port p).posted
        ∧ (t.port p).epoch = (s.port p).epoch + 1
        ∧ (t.port p).snapshot = (s.port p).snapshot.map (fun f => { f with held := false })
        ∧ (∀ q, q ≠ p → t.port q = (s.port q).receive
            { kind := .peerLapsed, aux := portCode p, ref := 0, value := 0, time := s.now }))
    ∧ (look s.claims.lapseDone p = true →
      let cleared := put s.ports p { s.port p with cleanup := false }
      let claims : ClaimUnit := { s.claims with lapseDone := put s.claims.lapseDone p false }
      (s.session.phase = .setup → (s.session.haltCleanup = true ∨ (∀ q, s.attached q = false)
            ∨ ∃ q, s.attached q = true ∧ look s.session.confirmed q = false) →
        ∃ t, exec (.lapseCleanupCompletion p) s = .next t ∧ ChangesOnly [.claims, .ports] s t ∧ t.claims = claims
          ∧ t.ports = cleared)
      ∧ (s.session.phase = .setup → s.session.haltCleanup = false → s.attached p = false →
          (∃ q, s.attached q = true) → (∀ q, s.attached q = true → look s.session.confirmed q = true) →
        ∃ t, exec (.lapseCleanupCompletion p) s = .next t ∧ ChangesOnly [.claims, .session, .ports] s t
          ∧ t.claims = claims ∧ t.session = { s.session with phase := .run }
          ∧ (∀ q, t.port q = if q = p then { s.port p with cleanup := false } else (s.port q).receive
              { kind := .phase, aux := 1, ref := 0, value := s.session.version, time := s.now }))
      ∧ (s.session.phase = .run → (∀ q, s.attached q = false) → (∃ q, q ≠ p ∧ (s.port q).cleanup = true) →
        ∃ t, exec (.lapseCleanupCompletion p) s = .next t ∧ ChangesOnly [.claims, .ports] s t ∧ t.claims = claims
          ∧ t.ports = cleared)
      ∧ (s.session.phase = .run → (∃ q, s.attached q = true ∧ look s.session.voted q = false) →
        ∃ t, exec (.lapseCleanupCompletion p) s = .next t ∧ ChangesOnly [.claims, .ports] s t ∧ t.claims = claims
          ∧ t.ports = cleared)
      ∧ (s.session.phase = .run → s.OutputLaw → (∃ q, s.attached q = true) →
          (∀ q, s.attached q = true → look s.session.voted q = true) →
        ∃ t, exec (.lapseCleanupCompletion p) s = .next t
          ∧ ChangesOnly [.claims, .session, .output, .arbiter] s t ∧ t.claims = claims
          ∧ t.session = { s.session with phase := .setup, haltCleanup := true, haltWaiter := some (.lapse p) }
          ∧ Driven s.output t.output s.now ∧ t.output.trip = s.output.trip
          ∧ t.arbiter = { s.arbiter with purges := put s.arbiter.purges p (look s.arbiter.purges p ++ [.halt]) })
      ∧ (s.session.phase = .run → s.OutputLaw → (∀ q, s.attached q = false) →
          (∀ q, q ≠ p → (s.port q).cleanup = false) →
        ∃ t, exec (.lapseCleanupCompletion p) s = .next t ∧ ChangesOnly [.claims, .session, .output, .ports] s t
          ∧ t.claims = claims ∧ t.session = { s.session with phase := .setup } ∧ t.ports = cleared
          ∧ Driven s.output t.output s.now ∧ t.output.trip = s.output.trip))

/-! ### The port units -/

/-- FRAME_START completes: the snapshot is the header as it stands and the head reply, or the empty reply (R173, R176), its
stream is laid out as R197 and R198 say, and SDOn shifts it out most significant bit first, with filler after it, while
SELn# is low (R172, R200). SDOn is at high impedance while SELn# is high and while RESET# is held. That SELn# is judged by
its level at the latest sample is the model's choice (log 28), and so is that its bits are told by the count of whole clocks
of the open frame, of which none is a command (log 9). -/
def Obligations.FrameStartCaptures : Prop :=
  (∀ (p : Port) (s : State), s.inputs.resetHeld = true ∨ (look s.inputs.selPins p).last = .high →
    ∀ n, s.sdoBit p n = none)
  ∧ ∀ (p : Port) (rest : List PinLevel) (s : State), s.live = true → look s.inputs.selEdges p = .low :: rest →
    ∃ (t : State) (f : Snapshot), exec (.frameStart p) s = .next t ∧ ChangesOnly [.inputs, .ports] s t
      ∧ t.inputs = { s.inputs with selEdges := put s.inputs.selEdges p rest }
      ∧ t.ports = put s.ports p { s.port p with snapshot := some f }
      ∧ f.header.phase = s.session.phase ∧ f.header.tripped = s.output.trip.isTripped
      ∧ f.header.portState = (s.port p).state ∧ f.header.cleanup = (s.port p).cleanup
      ∧ f.header.replyCount = (s.port p).replies.length
      ∧ f.header.commandFree = 4 - (s.port p).cmds.length
      ∧ f.header.eventCount = (s.port p).events.length ∧ f.header.drop = (s.port p).drop ∧ f.header.port = p
      ∧ (∀ x more, (s.port p).replies = x :: more → f.reply = x)
      ∧ ((s.port p).replies = [] → f.reply = { status := .none, seq := 0, body := [] })
      ∧ (f.held = true ↔ (s.port p).replies ≠ [])
      ∧ f.stream.length = 9 + f.reply.body.length
      ∧ ((s.port p).replies.length ≤ 4 → (byteAt f.stream 0).toNat =
          (match s.session.phase with
            | .setup => 0
            | .run => 128)
          + (if s.output.trip.isTripped then 64 else 0)
          + (match (s.port p).state with
            | .detached => 0
            | .attached => 16
            | .lapsed => 32)
          + (if (s.port p).cleanup then 8 else 0) + (s.port p).replies.length)
      ∧ ((s.port p).cmds.length ≤ 4 → (s.port p).events.length ≤ 16 →
          (byteAt f.stream 1).toNat = 32 * (4 - (s.port p).cmds.length) + (s.port p).events.length)
      ∧ byteAt f.stream 2 = (match (s.port p).drop with
          | .none => 0
          | .crc => 1
          | .short => 2
          | .badLength => 3
          | .queueFull => 4
          | .replyFull => 5
          | .duplicate => 6)
      ∧ byteAt f.stream 3 = portCode p
      ∧ (let covered := statusCode f.reply.status :: f.reply.seq :: BitVec.ofNat 8 f.reply.body.length :: f.reply.body
        f.stream.drop 4 = covered ++ halfBytes (crc16 covered))
      ∧ ((look s.inputs.selPins p).last = .low → (look s.inputs.selPins p).sensed = .low → .low ∉ rest →
        ∀ n, t.sdoBit p n = some (((f.stream[n / 8]?).getD 0xFF).getLsbD (7 - n % 8)))

/-- The check of a request (R177): the first check that fails gives the reason, and a dropped request leaves the reason and
no other trace. -/
def Obligations.RequestCheckOrder : Prop :=
  ∀ bytes : List Byte,
    (∀ (p : Port) (s : State), bytes = [] → takeBytes p bytes s = s)
    ∧ (∀ (p : Port) (s : State) (d : DropReason), bytes ≠ [] → checkRequest bytes = .error d →
        takeBytes p bytes s = s.changePort p (fun u => { u with drop := d }))
    ∧ (bytes.length < 3 → checkRequest bytes = .error .short)
    ∧ (3 ≤ bytes.length → 24 < (byteAt bytes 2).toNat → checkRequest bytes = .error .badLength)
    ∧ (3 ≤ bytes.length → (byteAt bytes 2).toNat ≤ 24 → bytes.length < 5 + (byteAt bytes 2).toNat →
        checkRequest bytes = .error .short)
    ∧ ((byteAt bytes 2).toNat ≤ 24 → 5 + (byteAt bytes 2).toNat ≤ bytes.length →
        (halfAt bytes (3 + (byteAt bytes 2).toNat) ≠ crc16 (bytes.take (3 + (byteAt bytes 2).toNat)) →
          checkRequest bytes = .error .crc)
        ∧ (halfAt bytes (3 + (byteAt bytes 2).toNat) = crc16 (bytes.take (3 + (byteAt bytes 2).toNat)) →
          checkRequest bytes = .ok
            { request := { kind := byteAt bytes 0, seq := byteAt bytes 1,
                           body := (bytes.drop 3).take (byteAt bytes 2).toNat }
              crc := halfAt bytes (3 + (byteAt bytes 2).toNat) }))

/-- FRAME_END completes (R176 to R182). The bits of the frame come with the command (log 9). -/
def Obligations.FrameEndSteps : Prop :=
  ∀ (p : Port) (sdi : List Bool) (rest : List PinLevel) (f : Snapshot) (s : State), s.live = true →
    look s.inputs.selEdges p = .high :: rest → (s.port p).snapshot = some f →
    let bytes := bytesOfBits sdi
    let closed := { s.port p with
      snapshot := none
      replies := if f.held = true ∧ 9 + f.reply.body.length ≤ bytes.length then (s.port p).replies.tail
        else (s.port p).replies }
    let loaded := { closed with leaseEnd := if s.attached p then
      (if look s.session.lease p = 0 then none else some (later s.now ((look s.session.lease p).toNat * 65536)))
      else closed.leaseEnd }
    let copied := { loaded with replies := loaded.replies ++ (s.port p).lastReply.toList, drop := .none }
    ∃ (t : State) (u : PortUnit), exec (.frameEnd p sdi) s = .next t ∧ ChangesOnly [.inputs, .arbiter, .ports] s t
      ∧ t.inputs = { s.inputs with selEdges := put s.inputs.selEdges p rest }
      ∧ t.ports = put s.ports p u
      ∧ (bytes = [] → u = closed)
      ∧ (∀ d, bytes ≠ [] → checkRequest bytes = .error d → u = { closed with drop := d })
      ∧ (∀ x, bytes ≠ [] → checkRequest bytes = .ok x →
        (kindOf x.request.kind = some .null → u = loaded)
        ∧ (kindOf x.request.kind ≠ some .null →
          (∀ a, (s.port p).lastAccepted = some a → a.seq = x.request.seq → a.crc = x.crc →
            (a.answered = false → u = { loaded with drop := .duplicate })
            ∧ (a.answered = true → loaded.freeEntry = true → u = copied)
            ∧ (a.answered = true → loaded.freeEntry = false → u = { loaded with drop := .replyFull }))
          ∧ ((∀ a, (s.port p).lastAccepted = some a → ¬ (a.seq = x.request.seq ∧ a.crc = x.crc)) →
            ((s.port p).cmds.length < 4 → u = { loaded with
              cmds := (s.port p).cmds ++ [x.request]
              lastAccepted := some { seq := x.request.seq, crc := x.crc, answered := false }, drop := .none })
            ∧ (4 ≤ (s.port p).cmds.length → u = { loaded with drop := .queueFull }))))
      ∧ (t.arbiter = s.arbiter ∨ (t.arbiter = s.arbiter.without p ∧ u.freeEntry = false))

/-- REPLY_ARRIVAL and EVENT_POSTED complete (R184, R185, R188). That a reply to a flushed command is known by the count of
lapses is log 12, that the first of two owed replies clears the one owed-reply mark is log 31, and that the answered flag is
set exactly when one command is queued is log 14. -/
def Obligations.RepliesAndRecordsArrive : Prop :=
  ∀ (p : Port) (s : State), s.live = true →
    (∀ ticket x rest, (s.port p).produced = (ticket, x) :: rest → ticket.port = p →
      (ticket.epoch = (s.port p).epoch → (s.port p).setAside = true →
        ∃ t, exec (.replyArrival p) s = .next t ∧ ChangesOnly [.ports] s t
          ∧ t.ports = put s.ports p { s.port p with
              produced := rest, setAside := false, replies := (s.port p).replies ++ [x]
              cmds := (s.port p).cmds.tail, lastReply := some x
              lastAccepted := if (s.port p).cmds.length = 1
                then (s.port p).lastAccepted.map (fun a => { a with answered := true })
                else (s.port p).lastAccepted })
      ∧ (ticket.epoch ≠ (s.port p).epoch →
        ∃ t, exec (.replyArrival p) s = .next t ∧ ChangesOnly [.ports] s t
          ∧ t.ports = put s.ports p { s.port p with produced := rest, owed := false }))
    ∧ (∀ e rest, (s.port p).posted = e :: rest →
      ∃ (t : State) (u : PortUnit), exec (.eventPosted p) s = .next t ∧ ChangesOnly [.ports] s t
        ∧ t.ports = put s.ports p { s.port p with posted := rest, events := u.events, overflow := u.overflow }
        ∧ ((s.port p).state = .attached → (s.port p).events.length < 16 →
            u.events = (s.port p).events ++ [e] ∧ u.overflow = (s.port p).overflow)
        ∧ ((s.port p).state = .attached → 16 ≤ (s.port p).events.length →
            u.events = (s.port p).events ∧ u.overflow.toNat = min 255 ((s.port p).overflow.toNat + 1))
        ∧ ((s.port p).state ≠ .attached →
            u.events = (s.port p).events ∧ u.overflow = (s.port p).overflow))

/-- The port unit's own answers and local commands complete (R10, R183, R189, R190). That they set a reply entry aside is
log 13. -/
def Obligations.PortUnitCommands : Prop :=
  ∀ (p : Port) (r : Request) (s : State),
    (s.live = true → s.head p = some r → kindOf r.kind = none →
      ∃ t, exec (.badKind p) s = .next t ∧ AnsweredOnly s t p r .badKind [])
    ∧ (∀ k, s.live = true → s.head p = some r → kindOf r.kind = some k → s.attached p = false →
        k ≠ .null → k ≠ .attach → k ≠ .readTime → k ≠ .queryLine →
      ∃ t, exec (.portUnitNotAttached p) s = .next t ∧ AnsweredOnly s t p r .notAttached [])
    ∧ (s.Takes p .readTime r →
      ∃ t, exec (.readTime p) s = .next t ∧ AnsweredOnly s t p r .ok
        (timeBytes s.now ++ [BitVec.ofNat 8 s.timeBase.prescale.periods]))
    ∧ (s.Takes p .readEvents r → 1 ≤ r.body.length →
      let records := (s.port p).events.take (min (byteAt r.body 0).toNat 4)
      ∃ t, exec (.readEvents p) s = .next t ∧ AnsweredOnly s t p r .ok
        ([BitVec.ofNat 8 records.length, BitVec.ofNat 8 (s.port p).events.length, (s.port p).overflow]
          ++ records.flatMap EventRecord.bytes))
    ∧ (s.Takes p .ackEvents r → 1 ≤ r.body.length →
      let k := (byteAt r.body 0).toNat
      ∃ t, exec (.ackEvents p) s = .next t ∧ ChangesOnly [.arbiter, .ports] s t
        ∧ t.arbiter = s.arbiter.without p
        ∧ t.ports = put s.ports p (({ s.port p with
            setAside := true, events := (s.port p).events.drop k, overflow := 0 } : PortUnit).produce
            (s.ticket p r) .ok
            [BitVec.ofNat 8 (min k (s.port p).events.length), (s.port p).overflow]))
    ∧ (r.body = [] →
      (s.Takes p .readEvents r → ∃ t, exec (.readEvents p) s = .next t ∧ AnsweredOnly s t p r .badField [])
      ∧ (s.Takes p .ackEvents r → ∃ t, exec (.ackEvents p) s = .next t ∧ AnsweredOnly s t p r .badField []))

/-- Every step keeps the queues within their bounds (R137, R181, R183, R188), and every step keeps the law of the session
(R147, R148, R163). -/
def Obligations.QueueAndSessionLawsKept : Prop :=
  (∀ s t : State, s.QueuesBounded → step s = .next t → t.QueuesBounded)
    ∧ ∀ s t : State, s.SessionLaw → step s = .next t → t.SessionLaw

/-- The state after reset obeys every law (that its inputs stand high is the model's choice, log 6). -/
def Obligations.LawsHoldAtReset : Prop :=
  State.reset.OutputLaw ∧ State.reset.Timely ∧ State.reset.cueTable.Listed
    ∧ State.reset.cueTable.SetsCounted ∧ State.reset.cueTable.Consistent ∧ State.reset.ClaimLaw
    ∧ State.reset.QueuesBounded ∧ State.reset.SessionLaw ∧ State.reset.cueTable.Ordered State.reset.now
    ∧ State.reset.WorkLaw

/-- The owner of each cue holds the claim on its line (R18), and a DEFERRED cue stands on the list of its own line's group
(R23): every step of a state with exact lists keeps the law that says so, together with the order of purges, hand-overs,
lapse cleanups and owed replies that keeps it (R38 to R41, R45, R128, R130, R137, R138, R169, R185). The law names the
model's own fields for work in progress (logs 11, 12, 16). -/
def Obligations.OwnersHoldTheirLines : Prop :=
  ∀ s t : State, s.cueTable.Listed → s.WorkLaw → step s = .next t → t.WorkLaw
end

