-- ==== Sys2Proof/Laws/State.lean ====
section
/-! SUPPORT. What reading a table or a field of the state gives after one entry or one block was replaced. -/

namespace Sys2Proof.Machine

/-! ### Tables -/

@[simp] theorem look_put_self {α : Type} {n : Nat} (v : Vector α n) (i : Fin n) (x : α) : look (put v i x) i = x := by
  simp [look, put]

theorem look_put_ne {α : Type} {n : Nat} (v : Vector α n) {i j : Fin n} (x : α) (h : j ≠ i) :
    look (put v i x) j = look v j := by
  have h' : i.val ≠ j.val := fun e => h (Fin.ext e.symm)
  simp [look, put, h']

/-- A table with an entry replaced by itself. -/
theorem put_look {α : Type} {n : Nat} (v : Vector α n) (i : Fin n) : put v i (look v i) = v := by
  simp [put, look]

/-- A replaced entry reads as the new one, any other as before. -/
theorem look_put {α : Type} {n : Nat} (v : Vector α n) (i j : Fin n) (x : α) :
    look (put v i x) j = if j = i then x else look v j := by
  by_cases h : j = i
  · subst h; simp
  · simp [h, look_put_ne v x h]

@[simp] theorem look_change_self {α : Type} {n : Nat} (v : Vector α n) (i : Fin n) (f : α → α) :
    look (change v i f) i = f (look v i) := look_put_self v i _

theorem look_change {α : Type} {n : Nat} (v : Vector α n) (i j : Fin n) (f : α → α) :
    look (change v i f) j = if j = i then f (look v i) else look v j := look_put v i j _

@[simp] theorem look_changeAll {α : Type} {n : Nat} (v : Vector α n) (f : α → α) (i : Fin n) :
    look (changeAll v f) i = f (look v i) := by
  simp [look, changeAll, Vector.getElem_mk]

@[simp] theorem look_replicate {α : Type} {n : Nat} (x : α) (i : Fin n) : look (Vector.replicate n x) i = x := by
  simp [look]

/-- Tables with equal entries are equal. -/
theorem table_ext {α : Type} {n : Nat} {v w : Vector α n} (h : ∀ i, look v i = look w i) : v = w :=
  Vector.ext (fun i hi => h ⟨i, hi⟩)

@[simp] theorem put_look_self {α : Type} {n : Nat} (v : Vector α n) (i : Fin n) : put v i (look v i) = v :=
  table_ext (fun j => by rw [look_put]; split <;> simp_all)

@[simp] theorem put_put {α : Type} {n : Nat} (v : Vector α n) (i : Fin n) (x y : α) :
    put (put v i x) i y = put v i y :=
  table_ext (fun j => by simp only [look_put]; split <;> rfl)

@[simp] theorem mem_indices {n : Nat} (i : Fin n) : i ∈ indices n := List.mem_finRange i

theorem nodup_indices (n : Nat) : (indices n).Nodup := List.nodup_finRange n

@[simp] theorem look_forPorts {α : Type} (f : Port → α) (p : Port) : look (forPorts f) p = f p := by
  fin_cases p <;> rfl

/-! ### Blocks of the state -/

section Blocks

variable (s : State)

@[simp] theorem setTimeBase_timeBase (b : TimeBase) : (s.setTimeBase b).timeBase = b := rfl
@[simp] theorem setTimeBase_inputs (b : TimeBase) : (s.setTimeBase b).inputs = s.inputs := rfl
@[simp] theorem setTimeBase_cueTable (b : TimeBase) : (s.setTimeBase b).cueTable = s.cueTable := rfl
@[simp] theorem setTimeBase_output (b : TimeBase) : (s.setTimeBase b).output = s.output := rfl
@[simp] theorem setTimeBase_claims (b : TimeBase) : (s.setTimeBase b).claims = s.claims := rfl
@[simp] theorem setTimeBase_arbiter (b : TimeBase) : (s.setTimeBase b).arbiter = s.arbiter := rfl
@[simp] theorem setTimeBase_session (b : TimeBase) : (s.setTimeBase b).session = s.session := rfl
@[simp] theorem setTimeBase_ports (b : TimeBase) : (s.setTimeBase b).ports = s.ports := rfl
@[simp] theorem setTimeBase_pending (b : TimeBase) : (s.setTimeBase b).pending = s.pending := rfl
@[simp] theorem setInputs_timeBase (b : Inputs) : (s.setInputs b).timeBase = s.timeBase := rfl
@[simp] theorem setInputs_inputs (b : Inputs) : (s.setInputs b).inputs = b := rfl
@[simp] theorem setInputs_cueTable (b : Inputs) : (s.setInputs b).cueTable = s.cueTable := rfl
@[simp] theorem setInputs_output (b : Inputs) : (s.setInputs b).output = s.output := rfl
@[simp] theorem setInputs_claims (b : Inputs) : (s.setInputs b).claims = s.claims := rfl
@[simp] theorem setInputs_arbiter (b : Inputs) : (s.setInputs b).arbiter = s.arbiter := rfl
@[simp] theorem setInputs_session (b : Inputs) : (s.setInputs b).session = s.session := rfl
@[simp] theorem setInputs_ports (b : Inputs) : (s.setInputs b).ports = s.ports := rfl
@[simp] theorem setInputs_pending (b : Inputs) : (s.setInputs b).pending = s.pending := rfl
@[simp] theorem setCueTable_timeBase (b : CueTable) : (s.setCueTable b).timeBase = s.timeBase := rfl
@[simp] theorem setCueTable_inputs (b : CueTable) : (s.setCueTable b).inputs = s.inputs := rfl
@[simp] theorem setCueTable_cueTable (b : CueTable) : (s.setCueTable b).cueTable = b := rfl
@[simp] theorem setCueTable_output (b : CueTable) : (s.setCueTable b).output = s.output := rfl
@[simp] theorem setCueTable_claims (b : CueTable) : (s.setCueTable b).claims = s.claims := rfl
@[simp] theorem setCueTable_arbiter (b : CueTable) : (s.setCueTable b).arbiter = s.arbiter := rfl
@[simp] theorem setCueTable_session (b : CueTable) : (s.setCueTable b).session = s.session := rfl
@[simp] theorem setCueTable_ports (b : CueTable) : (s.setCueTable b).ports = s.ports := rfl
@[simp] theorem setCueTable_pending (b : CueTable) : (s.setCueTable b).pending = s.pending := rfl
@[simp] theorem setOutput_timeBase (b : OutputUnit) : (s.setOutput b).timeBase = s.timeBase := rfl
@[simp] theorem setOutput_inputs (b : OutputUnit) : (s.setOutput b).inputs = s.inputs := rfl
@[simp] theorem setOutput_cueTable (b : OutputUnit) : (s.setOutput b).cueTable = s.cueTable := rfl
@[simp] theorem setOutput_output (b : OutputUnit) : (s.setOutput b).output = b := rfl
@[simp] theorem setOutput_claims (b : OutputUnit) : (s.setOutput b).claims = s.claims := rfl
@[simp] theorem setOutput_arbiter (b : OutputUnit) : (s.setOutput b).arbiter = s.arbiter := rfl
@[simp] theorem setOutput_session (b : OutputUnit) : (s.setOutput b).session = s.session := rfl
@[simp] theorem setOutput_ports (b : OutputUnit) : (s.setOutput b).ports = s.ports := rfl
@[simp] theorem setOutput_pending (b : OutputUnit) : (s.setOutput b).pending = s.pending := rfl
@[simp] theorem setClaims_timeBase (b : ClaimUnit) : (s.setClaims b).timeBase = s.timeBase := rfl
@[simp] theorem setClaims_inputs (b : ClaimUnit) : (s.setClaims b).inputs = s.inputs := rfl
@[simp] theorem setClaims_cueTable (b : ClaimUnit) : (s.setClaims b).cueTable = s.cueTable := rfl
@[simp] theorem setClaims_output (b : ClaimUnit) : (s.setClaims b).output = s.output := rfl
@[simp] theorem setClaims_claims (b : ClaimUnit) : (s.setClaims b).claims = b := rfl
@[simp] theorem setClaims_arbiter (b : ClaimUnit) : (s.setClaims b).arbiter = s.arbiter := rfl
@[simp] theorem setClaims_session (b : ClaimUnit) : (s.setClaims b).session = s.session := rfl
@[simp] theorem setClaims_ports (b : ClaimUnit) : (s.setClaims b).ports = s.ports := rfl
@[simp] theorem setClaims_pending (b : ClaimUnit) : (s.setClaims b).pending = s.pending := rfl
@[simp] theorem setArbiter_timeBase (b : Arbiter) : (s.setArbiter b).timeBase = s.timeBase := rfl
@[simp] theorem setArbiter_inputs (b : Arbiter) : (s.setArbiter b).inputs = s.inputs := rfl
@[simp] theorem setArbiter_cueTable (b : Arbiter) : (s.setArbiter b).cueTable = s.cueTable := rfl
@[simp] theorem setArbiter_output (b : Arbiter) : (s.setArbiter b).output = s.output := rfl
@[simp] theorem setArbiter_claims (b : Arbiter) : (s.setArbiter b).claims = s.claims := rfl
@[simp] theorem setArbiter_arbiter (b : Arbiter) : (s.setArbiter b).arbiter = b := rfl
@[simp] theorem setArbiter_session (b : Arbiter) : (s.setArbiter b).session = s.session := rfl
@[simp] theorem setArbiter_ports (b : Arbiter) : (s.setArbiter b).ports = s.ports := rfl
@[simp] theorem setArbiter_pending (b : Arbiter) : (s.setArbiter b).pending = s.pending := rfl
@[simp] theorem setSession_timeBase (b : Session) : (s.setSession b).timeBase = s.timeBase := rfl
@[simp] theorem setSession_inputs (b : Session) : (s.setSession b).inputs = s.inputs := rfl
@[simp] theorem setSession_cueTable (b : Session) : (s.setSession b).cueTable = s.cueTable := rfl
@[simp] theorem setSession_output (b : Session) : (s.setSession b).output = s.output := rfl
@[simp] theorem setSession_claims (b : Session) : (s.setSession b).claims = s.claims := rfl
@[simp] theorem setSession_arbiter (b : Session) : (s.setSession b).arbiter = s.arbiter := rfl
@[simp] theorem setSession_session (b : Session) : (s.setSession b).session = b := rfl
@[simp] theorem setSession_ports (b : Session) : (s.setSession b).ports = s.ports := rfl
@[simp] theorem setSession_pending (b : Session) : (s.setSession b).pending = s.pending := rfl
@[simp] theorem setPorts_timeBase (b : Vector PortUnit 4) : (s.setPorts b).timeBase = s.timeBase := rfl
@[simp] theorem setPorts_inputs (b : Vector PortUnit 4) : (s.setPorts b).inputs = s.inputs := rfl
@[simp] theorem setPorts_cueTable (b : Vector PortUnit 4) : (s.setPorts b).cueTable = s.cueTable := rfl
@[simp] theorem setPorts_output (b : Vector PortUnit 4) : (s.setPorts b).output = s.output := rfl
@[simp] theorem setPorts_claims (b : Vector PortUnit 4) : (s.setPorts b).claims = s.claims := rfl
@[simp] theorem setPorts_arbiter (b : Vector PortUnit 4) : (s.setPorts b).arbiter = s.arbiter := rfl
@[simp] theorem setPorts_session (b : Vector PortUnit 4) : (s.setPorts b).session = s.session := rfl
@[simp] theorem setPorts_ports (b : Vector PortUnit 4) : (s.setPorts b).ports = b := rfl
@[simp] theorem setPorts_pending (b : Vector PortUnit 4) : (s.setPorts b).pending = s.pending := rfl
@[simp] theorem withPending_timeBase (b : List Instr) : (s.withPending b).timeBase = s.timeBase := rfl
@[simp] theorem withPending_inputs (b : List Instr) : (s.withPending b).inputs = s.inputs := rfl
@[simp] theorem withPending_cueTable (b : List Instr) : (s.withPending b).cueTable = s.cueTable := rfl
@[simp] theorem withPending_output (b : List Instr) : (s.withPending b).output = s.output := rfl
@[simp] theorem withPending_claims (b : List Instr) : (s.withPending b).claims = s.claims := rfl
@[simp] theorem withPending_arbiter (b : List Instr) : (s.withPending b).arbiter = s.arbiter := rfl
@[simp] theorem withPending_session (b : List Instr) : (s.withPending b).session = s.session := rfl
@[simp] theorem withPending_ports (b : List Instr) : (s.withPending b).ports = s.ports := rfl
@[simp] theorem withPending_pending (b : List Instr) : (s.withPending b).pending = b := rfl

@[simp] theorem setTimeBase_port (b : TimeBase) (p : Port) : (s.setTimeBase b).port p = s.port p := rfl
@[simp] theorem setTimeBase_attached (b : TimeBase) (p : Port) : (s.setTimeBase b).attached p = s.attached p := rfl
@[simp] theorem setTimeBase_live (b : TimeBase) : (s.setTimeBase b).live = s.live := rfl
@[simp] theorem setInputs_now (b : Inputs) : (s.setInputs b).now = s.now := rfl
@[simp] theorem setInputs_port (b : Inputs) (p : Port) : (s.setInputs b).port p = s.port p := rfl
@[simp] theorem setInputs_attached (b : Inputs) (p : Port) : (s.setInputs b).attached p = s.attached p := rfl
@[simp] theorem setCueTable_now (b : CueTable) : (s.setCueTable b).now = s.now := rfl
@[simp] theorem setCueTable_port (b : CueTable) (p : Port) : (s.setCueTable b).port p = s.port p := rfl
@[simp] theorem setCueTable_attached (b : CueTable) (p : Port) : (s.setCueTable b).attached p = s.attached p := rfl
@[simp] theorem setCueTable_live (b : CueTable) : (s.setCueTable b).live = s.live := rfl
@[simp] theorem setOutput_now (b : OutputUnit) : (s.setOutput b).now = s.now := rfl
@[simp] theorem setOutput_port (b : OutputUnit) (p : Port) : (s.setOutput b).port p = s.port p := rfl
@[simp] theorem setOutput_attached (b : OutputUnit) (p : Port) : (s.setOutput b).attached p = s.attached p := rfl
@[simp] theorem setOutput_live (b : OutputUnit) : (s.setOutput b).live = s.live := rfl
@[simp] theorem setClaims_now (b : ClaimUnit) : (s.setClaims b).now = s.now := rfl
@[simp] theorem setClaims_port (b : ClaimUnit) (p : Port) : (s.setClaims b).port p = s.port p := rfl
@[simp] theorem setClaims_attached (b : ClaimUnit) (p : Port) : (s.setClaims b).attached p = s.attached p := rfl
@[simp] theorem setClaims_live (b : ClaimUnit) : (s.setClaims b).live = s.live := rfl
@[simp] theorem setArbiter_now (b : Arbiter) : (s.setArbiter b).now = s.now := rfl
@[simp] theorem setArbiter_port (b : Arbiter) (p : Port) : (s.setArbiter b).port p = s.port p := rfl
@[simp] theorem setArbiter_attached (b : Arbiter) (p : Port) : (s.setArbiter b).attached p = s.attached p := rfl
@[simp] theorem setArbiter_live (b : Arbiter) : (s.setArbiter b).live = s.live := rfl
@[simp] theorem setSession_now (b : Session) : (s.setSession b).now = s.now := rfl
@[simp] theorem setSession_port (b : Session) (p : Port) : (s.setSession b).port p = s.port p := rfl
@[simp] theorem setSession_attached (b : Session) (p : Port) : (s.setSession b).attached p = s.attached p := rfl
@[simp] theorem setSession_live (b : Session) : (s.setSession b).live = s.live := rfl
@[simp] theorem setPorts_now (b : Vector PortUnit 4) : (s.setPorts b).now = s.now := rfl
@[simp] theorem setPorts_live (b : Vector PortUnit 4) : (s.setPorts b).live = s.live := rfl
@[simp] theorem withPending_now (b : List Instr) : (s.withPending b).now = s.now := rfl
@[simp] theorem withPending_port (b : List Instr) (p : Port) : (s.withPending b).port p = s.port p := rfl
@[simp] theorem withPending_attached (b : List Instr) (p : Port) : (s.withPending b).attached p = s.attached p := rfl
@[simp] theorem withPending_live (b : List Instr) : (s.withPending b).live = s.live := rfl

@[simp] theorem setPorts_port (v : Vector PortUnit 4) (p : Port) : (s.setPorts v).port p = look v p := rfl

@[simp] theorem setTimeBase_now (b : TimeBase) : (s.setTimeBase b).now = b.tb := rfl

end Blocks

/-! ### One port unit changed -/

section OnePort

variable (p q : Port) (f : PortUnit → PortUnit) (s : State)

@[simp] theorem changePort_timeBase : (s.changePort p f).timeBase = s.timeBase := rfl
@[simp] theorem changePort_inputs : (s.changePort p f).inputs = s.inputs := rfl
@[simp] theorem changePort_cueTable : (s.changePort p f).cueTable = s.cueTable := rfl
@[simp] theorem changePort_output : (s.changePort p f).output = s.output := rfl
@[simp] theorem changePort_claims : (s.changePort p f).claims = s.claims := rfl
@[simp] theorem changePort_arbiter : (s.changePort p f).arbiter = s.arbiter := rfl
@[simp] theorem changePort_session : (s.changePort p f).session = s.session := rfl
@[simp] theorem changePort_pending : (s.changePort p f).pending = s.pending := rfl
@[simp] theorem changePort_now : (s.changePort p f).now = s.now := rfl
@[simp] theorem changePort_live : (s.changePort p f).live = s.live := rfl
@[simp] theorem changePort_ports : (s.changePort p f).ports = put s.ports p (f (s.port p)) := rfl

/-- The changed port unit reads as changed, any other as before. -/
theorem changePort_port : (s.changePort p f).port q = if q = p then f (s.port p) else s.port q := look_put _ _ _ _

@[simp] theorem changePort_port_self : (s.changePort p f).port p = f (s.port p) := look_put_self _ _ _

theorem changePort_port_ne (h : q ≠ p) : (s.changePort p f).port q = s.port q := look_put_ne _ _ h

end OnePort

/-- States that agree on every block are equal. -/
theorem state_ext {s t : State} (b : ∀ b : Block, b.same s t) (h : t.pending = s.pending) : t = s := by
  have h1 := b .timeBase
  have h2 := b .inputs
  have h3 := b .cueTable
  have h4 := b .output
  have h5 := b .claims
  have h6 := b .arbiter
  have h7 := b .session
  have h8 := b .ports
  cases s; cases t
  simp_all [Block.same]

end Sys2Proof.Machine
end

