-- ==== Sys2Proof/Laws/Ops.lean ====
section
/-! SUPPORT. What the shared operations can do: placing in a list, posting of records, taking of a head command,
answering, and the guard of every event. -/

namespace Sys2Proof.Machine

/-! ### Placing in a list -/

theorem perm_insertBefore {α : Type} (r : α → Bool) (x : α) (l : List α) : (insertBefore r x l).Perm (x :: l) := by
  induction l with
  | nil => exact List.Perm.refl _
  | cons y ys ih =>
    simp only [insertBefore]
    split
    · exact List.Perm.refl _
    · exact (List.Perm.cons y ih).trans (List.Perm.swap x y ys)

/-- The new item stands behind items it need not stand before, and before the first one that stands after it. -/
theorem insertBefore_splits {α : Type} (r : α → Bool) (x : α) (l : List α) :
    ∃ before after, l = before ++ after ∧ insertBefore r x l = before ++ x :: after
      ∧ (∀ y, y ∈ before → r y = false) ∧ ∀ y, after.head? = some y → r y = true := by
  induction l with
  | nil => exact ⟨[], [], by simp [insertBefore]⟩
  | cons z rest ih =>
    cases h : r z with
    | true => exact ⟨[], z :: rest, by simp [insertBefore, h]⟩
    | false =>
      obtain ⟨before, after, e, f, hb, ha⟩ := ih
      refine ⟨z :: before, after, by simp [e], by simp [insertBefore, h, f], fun y hy => ?_, ha⟩
      rcases List.mem_cons.1 hy with rfl | hy
      · exact h
      · exact hb y hy

@[simp] theorem mem_insertBefore {α : Type} (r : α → Bool) (x y : α) (l : List α) :
    y ∈ insertBefore r x l ↔ y = x ∨ y ∈ l := by
  rw [(perm_insertBefore r x l).mem_iff, List.mem_cons]

theorem nodup_insertBefore {α : Type} (r : α → Bool) (x : α) (l : List α) :
    (insertBefore r x l).Nodup ↔ x ∉ l ∧ l.Nodup := by
  rw [(perm_insertBefore r x l).nodup_iff, List.nodup_cons]

/-! ### The guard of every event -/

theorem whenLive_of_live {s : State} (h : s.live = true) (event : State → State) :
    whenLive s event = .next (event s) := by
  simp [whenLive, h]

theorem whenLive_of_held {s : State} (h : s.live = false) (event : State → State) : whenLive s event = .next s := by
  simp [whenLive, h]

/-- An event answers a next state: its effect in a live part, and the same state otherwise. -/
theorem whenLive_next (s : State) (event : State → State) :
    ∃ t, whenLive s event = .next t ∧ ((s.live = true ∧ t = event s) ∨ (s.live = false ∧ t = s)) := by
  cases h : s.live
  · exact ⟨s, whenLive_of_held h event, .inr ⟨rfl, rfl⟩⟩
  · exact ⟨event s, whenLive_of_live h event, .inl ⟨rfl, rfl⟩⟩

/-! ### Posting -/

section Posting

variable (p : Port) (ps : List Port) (e : EventRecord) (s : State)

@[simp] theorem post_timeBase : (post p e s).timeBase = s.timeBase := by unfold post; split <;> rfl
@[simp] theorem post_inputs : (post p e s).inputs = s.inputs := by unfold post; split <;> rfl
@[simp] theorem post_cueTable : (post p e s).cueTable = s.cueTable := by unfold post; split <;> rfl
@[simp] theorem post_output : (post p e s).output = s.output := by unfold post; split <;> rfl
@[simp] theorem post_claims : (post p e s).claims = s.claims := by unfold post; split <;> rfl
@[simp] theorem post_arbiter : (post p e s).arbiter = s.arbiter := by unfold post; split <;> rfl
@[simp] theorem post_session : (post p e s).session = s.session := by unfold post; split <;> rfl
@[simp] theorem post_pending : (post p e s).pending = s.pending := by unfold post; split <;> rfl

/-- A posted record is on its way to an ATTACHED port, and nothing else changes. -/
theorem post_port (q : Port) : (post p e s).port q = if q = p then (s.port q).receive e else s.port q := by
  unfold post PortUnit.receive
  by_cases hq : q = p
  · subst hq
    by_cases ha : (s.port q).state = .attached <;> simp [State.attached, ha]
  · split <;> simp [hq, changePort_port]

@[simp] theorem receive_state (u : PortUnit) : (u.receive e).state = u.state := by
  unfold PortUnit.receive; split <;> rfl

@[simp] theorem postEach_timeBase : (postEach ps e s).timeBase = s.timeBase := by
  induction ps generalizing s with
  | nil => rfl
  | cons q qs ih => exact (ih _).trans (post_timeBase q e s)

@[simp] theorem postEach_inputs : (postEach ps e s).inputs = s.inputs := by
  induction ps generalizing s with
  | nil => rfl
  | cons q qs ih => exact (ih _).trans (post_inputs q e s)

@[simp] theorem postEach_cueTable : (postEach ps e s).cueTable = s.cueTable := by
  induction ps generalizing s with
  | nil => rfl
  | cons q qs ih => exact (ih _).trans (post_cueTable q e s)

@[simp] theorem postEach_output : (postEach ps e s).output = s.output := by
  induction ps generalizing s with
  | nil => rfl
  | cons q qs ih => exact (ih _).trans (post_output q e s)

@[simp] theorem postEach_claims : (postEach ps e s).claims = s.claims := by
  induction ps generalizing s with
  | nil => rfl
  | cons q qs ih => exact (ih _).trans (post_claims q e s)

@[simp] theorem postEach_arbiter : (postEach ps e s).arbiter = s.arbiter := by
  induction ps generalizing s with
  | nil => rfl
  | cons q qs ih => exact (ih _).trans (post_arbiter q e s)

@[simp] theorem postEach_session : (postEach ps e s).session = s.session := by
  induction ps generalizing s with
  | nil => rfl
  | cons q qs ih => exact (ih _).trans (post_session q e s)

@[simp] theorem postEach_pending : (postEach ps e s).pending = s.pending := by
  induction ps generalizing s with
  | nil => rfl
  | cons q qs ih => exact (ih _).trans (post_pending q e s)

/-- A record posted to several ports once each. -/
theorem postEach_port (hps : ps.Nodup) (q : Port) :
    (postEach ps e s).port q = if q ∈ ps then (s.port q).receive e else s.port q := by
  induction ps generalizing s with
  | nil => rfl
  | cons r rs ih =>
    have hr := List.nodup_cons.1 hps
    have h : (postEach (r :: rs) e s) = postEach rs e (post r e s) := rfl
    rw [h, ih _ hr.2, post_port]
    by_cases hq : q = r
    · subst hq; simp [hr.1]
    · simp [hq]


@[simp] theorem postAll_timeBase : (postAll e s).timeBase = s.timeBase := postEach_timeBase _ e s
@[simp] theorem postAll_inputs : (postAll e s).inputs = s.inputs := postEach_inputs _ e s
@[simp] theorem postAll_cueTable : (postAll e s).cueTable = s.cueTable := postEach_cueTable _ e s
@[simp] theorem postAll_output : (postAll e s).output = s.output := postEach_output _ e s
@[simp] theorem postAll_claims : (postAll e s).claims = s.claims := postEach_claims _ e s
@[simp] theorem postAll_arbiter : (postAll e s).arbiter = s.arbiter := postEach_arbiter _ e s
@[simp] theorem postAll_session : (postAll e s).session = s.session := postEach_session _ e s
@[simp] theorem postAll_pending : (postAll e s).pending = s.pending := postEach_pending _ e s

/-- A record posted to every port reaches every ATTACHED one. -/
@[simp] theorem postAll_port (q : Port) : (postAll e s).port q = (s.port q).receive e := by
  simp [postAll, postEach_port (indices 4) e s (nodup_indices 4) q]

@[simp] theorem post_now : (post p e s).now = s.now := congrArg TimeBase.tb (post_timeBase p e s)

@[simp] theorem postAll_now : (postAll e s).now = s.now := congrArg TimeBase.tb (postAll_timeBase e s)

@[simp] theorem post_attached (q : Port) : (post p e s).attached q = s.attached q := by
  simp only [State.attached, post_port]
  split <;> simp

@[simp] theorem postAll_attached (q : Port) : (postAll e s).attached q = s.attached q := by
  simp [State.attached]

end Posting

/-! ### Taking and answering -/

section Answering

variable (p : Port) (s : State)

@[simp] theorem takeHead_timeBase : (takeHead p s).timeBase = s.timeBase := rfl
@[simp] theorem takeHead_inputs : (takeHead p s).inputs = s.inputs := rfl
@[simp] theorem takeHead_cueTable : (takeHead p s).cueTable = s.cueTable := rfl
@[simp] theorem takeHead_output : (takeHead p s).output = s.output := rfl
@[simp] theorem takeHead_claims : (takeHead p s).claims = s.claims := rfl
@[simp] theorem takeHead_session : (takeHead p s).session = s.session := rfl
@[simp] theorem takeHead_pending : (takeHead p s).pending = s.pending := rfl
@[simp] theorem takeHead_now : (takeHead p s).now = s.now := rfl
@[simp] theorem takeHead_live : (takeHead p s).live = s.live := rfl

/-- The command taken waits on no leaf. -/
@[simp] theorem takeHead_arbiter : (takeHead p s).arbiter = s.arbiter.without p := rfl

/-- A reply entry is set aside at the port, and no other port changes. -/
theorem takeHead_port (q : Port) :
    (takeHead p s).port q = if q = p then (s.port p).setEntryAside else s.port q := by
  show (s.changePort p PortUnit.setEntryAside).port q = _
  rw [changePort_port]

@[simp] theorem takeHead_port_self : (takeHead p s).port p = (s.port p).setEntryAside := by
  simp [takeHead_port]

@[simp] theorem takeHead_ports : (takeHead p s).ports = put s.ports p (s.port p).setEntryAside := rfl

@[simp] theorem takeHead_attached (q : Port) : (takeHead p s).attached q = s.attached q := by
  simp only [State.attached, takeHead_port]
  split
  · next h => subst h; rfl
  · rfl

variable (t : Ticket) (st : Status) (b : List Byte)

@[simp] theorem answer_timeBase : (answer t st b s).timeBase = s.timeBase := rfl
@[simp] theorem answer_inputs : (answer t st b s).inputs = s.inputs := rfl
@[simp] theorem answer_cueTable : (answer t st b s).cueTable = s.cueTable := rfl
@[simp] theorem answer_output : (answer t st b s).output = s.output := rfl
@[simp] theorem answer_claims : (answer t st b s).claims = s.claims := rfl
@[simp] theorem answer_arbiter : (answer t st b s).arbiter = s.arbiter := rfl
@[simp] theorem answer_session : (answer t st b s).session = s.session := rfl
@[simp] theorem answer_pending : (answer t st b s).pending = s.pending := rfl
@[simp] theorem answer_now : (answer t st b s).now = s.now := rfl
@[simp] theorem answer_live : (answer t st b s).live = s.live := rfl

/-- A reply is on its way to the port it answers, and no other port changes. -/
theorem answer_port (q : Port) :
    (answer t st b s).port q = if q = t.port then (s.port q).produce t st b else s.port q := by
  show (s.changePort t.port (fun u => u.produce t st b)).port q = _
  rw [changePort_port]
  split
  · next h => rw [h]
  · rfl

@[simp] theorem answer_ports :
    (answer t st b s).ports = put s.ports t.port ((s.port t.port).produce t st b) := rfl

@[simp] theorem answer_attached (q : Port) : (answer t st b s).attached q = s.attached q := by
  simp only [State.attached, answer_port]
  split <;> rfl

@[simp] theorem ticket_port (r : Request) : (s.ticket p r).port = p := rfl

end Answering

/-! ### Commands taken without a grant -/

/-- A direct command that its block may take has its effect on the state with the head taken. -/
theorem takeDirect_of_takes {s : State} {p : Port} {k : CommandKind} {r : Request} (h : s.Takes p k r)
    (effect : Ticket → List Byte → State → State) :
    takeDirect k p s effect = .next (effect (s.ticket p r) r.body (takeHead p s)) := by
  obtain ⟨hl, hh, hk, hp⟩ := h
  simp [takeDirect, whenLive_of_live hl, hh, hk, hp]

/-- A direct command answers a next state: its effect, or the same state where it may not be taken. -/
theorem takeDirect_next (s : State) (p : Port) (k : CommandKind) (effect : Ticket → List Byte → State → State) :
    ∃ t, takeDirect k p s effect = .next t ∧
      ((∃ r, s.Takes p k r ∧ t = effect (s.ticket p r) r.body (takeHead p s)) ∨ t = s) := by
  unfold takeDirect
  cases hl : s.live with
  | false => exact ⟨s, whenLive_of_held hl _, .inr rfl⟩
  | true =>
    rw [whenLive_of_live hl]
    cases hh : s.head p with
    | none => exact ⟨s, rfl, .inr rfl⟩
    | some r =>
      by_cases hc : kindOf r.kind == some k && s.passes p k
      · simp only [hc, if_true]
        simp only [Bool.and_eq_true, beq_iff_eq] at hc
        exact ⟨_, rfl, .inl ⟨r, ⟨hl, hh, hc.1, hc.2⟩, rfl⟩⟩
      · simp only [hc]
        exact ⟨s, rfl, .inr rfl⟩

/-! ### Commands taken at a grant -/

/-- The state in which a granted command of a class has its effect. -/
def afterGrant (c : ListClass) (p : Port) (s : State) : State := takeHead p (moveSwitches c p s)

section Granting

variable (c : ListClass) (p : Port) (s : State)

@[simp] theorem afterGrant_timeBase : (afterGrant c p s).timeBase = s.timeBase := rfl
@[simp] theorem afterGrant_inputs : (afterGrant c p s).inputs = s.inputs := rfl
@[simp] theorem afterGrant_cueTable : (afterGrant c p s).cueTable = s.cueTable := rfl
@[simp] theorem afterGrant_output : (afterGrant c p s).output = s.output := rfl
@[simp] theorem afterGrant_claims : (afterGrant c p s).claims = s.claims := rfl
@[simp] theorem afterGrant_session : (afterGrant c p s).session = s.session := rfl
@[simp] theorem afterGrant_pending : (afterGrant c p s).pending = s.pending := rfl
@[simp] theorem afterGrant_now : (afterGrant c p s).now = s.now := rfl
@[simp] theorem afterGrant_arbiter : (afterGrant c p s).arbiter = s.arbiter.afterGrant c p := rfl
@[simp] theorem afterGrant_ports : (afterGrant c p s).ports = put s.ports p (s.port p).setEntryAside := rfl

theorem afterGrant_port (q : Port) :
    (afterGrant c p s).port q = if q = p then (s.port p).setEntryAside else s.port q := takeHead_port p _ q

@[simp] theorem afterGrant_port_self : (afterGrant c p s).port p = (s.port p).setEntryAside := takeHead_port_self p _

@[simp] theorem afterGrant_attached (q : Port) : (afterGrant c p s).attached q = s.attached q := takeHead_attached p _ q

end Granting

/-- A granted command of a class has its effect on the state after the grant. -/
theorem takeGranted_of_grants {s : State} {p : Port} {k : CommandKind} {r : Request} {c : ListClass}
    (h : s.Grants p k r) (hc : listClass k = some c) (effect : Ticket → List Byte → State → State) :
    takeGranted k p s effect = .next (effect (s.ticket p r) r.body (afterGrant c p s)) := by
  obtain ⟨hl, hg⟩ := h
  simp [takeGranted, whenLive_of_live hl, hg, hc, afterGrant]

/-- A list-class command answers a next state: its effect, or the same state where it is not granted. -/
theorem takeGranted_next (s : State) (p : Port) (k : CommandKind) (c : ListClass) (hc : listClass k = some c)
    (effect : Ticket → List Byte → State → State) :
    ∃ t, takeGranted k p s effect = .next t ∧
      ((∃ r, s.Grants p k r ∧ t = effect (s.ticket p r) r.body (afterGrant c p s)) ∨ t = s) := by
  unfold takeGranted
  cases hl : s.live with
  | false => exact ⟨s, whenLive_of_held hl _, .inr rfl⟩
  | true =>
    rw [whenLive_of_live hl]
    cases hg : s.granted k p with
    | none => exact ⟨s, rfl, .inr rfl⟩
    | some r => exact ⟨_, rfl, .inl ⟨r, ⟨hl, hg⟩, by simp [hc, afterGrant]⟩⟩

end Sys2Proof.Machine
end

