-- ==== Sys2Proof/Laws/Arbiter.lean ====
section
/-! SUPPORT. What the arbiter's walk, its turning switches and its leaves do. -/

namespace Sys2Proof.Machine

/-- Some leaf holds a request exactly when one of the two trees does. -/
theorem classHolds_iff (v : Leaves) (c : ListClass) : v.classHolds c = true ↔ ∃ p, v.holds c p = true := by
  constructor
  · intro h
    simp only [Leaves.classHolds, Leaves.pairHolds, Bool.or_eq_true] at h
    rcases h with (h | h) | (h | h) <;> exact ⟨_, h⟩
  · rintro ⟨p, h⟩
    simp only [Leaves.classHolds, Leaves.pairHolds, PairName.first, PairName.second, Bool.or_eq_true]
    fin_cases p
    · exact .inl (.inl h)
    · exact .inl (.inr h)
    · exact .inr (.inl h)
    · exact .inr (.inr h)

/-- The walk ends at a leaf that holds a request (R141). -/
theorem walk_holds {w : Switches} {v : Leaves} {c : ListClass} {p : Port} (h : w.walk v = some (c, p)) :
    v.holds c p = true := by
  unfold Switches.walk at h
  simp only at h
  generalize (if v.classHolds w.classSwitch then w.classSwitch else w.classSwitch.other) = c' at h
  generalize (if v.pairHolds c' (w.root c') then w.root c' else (w.root c').other) = q at h
  generalize (if v.holds c' (w.pointed c' q) then w.pointed c' q else w.unpointed c' q) = p' at h
  split at h
  · next hh =>
    simp only [Option.some.injEq, Prod.mk.injEq] at h
    rw [← h.1, ← h.2]; exact hh
  · cases h

section Leaf

variable (p q : Port) (k : PurgeRequest) (s : State)

@[simp] theorem requestPurge_timeBase : (requestPurge p k s).timeBase = s.timeBase := rfl
@[simp] theorem requestPurge_inputs : (requestPurge p k s).inputs = s.inputs := rfl
@[simp] theorem requestPurge_cueTable : (requestPurge p k s).cueTable = s.cueTable := rfl
@[simp] theorem requestPurge_output : (requestPurge p k s).output = s.output := rfl
@[simp] theorem requestPurge_claims : (requestPurge p k s).claims = s.claims := rfl
@[simp] theorem requestPurge_session : (requestPurge p k s).session = s.session := rfl
@[simp] theorem requestPurge_ports : (requestPurge p k s).ports = s.ports := rfl
@[simp] theorem requestPurge_pending : (requestPurge p k s).pending = s.pending := rfl

/-- A purge request joins its port's urgent leaf behind those there. -/
theorem requestPurge_purges :
    look (requestPurge p k s).arbiter.purges q =
      if q = p then look s.arbiter.purges p ++ [k] else look s.arbiter.purges q := look_change _ _ _ _

@[simp] theorem grantPurge_timeBase : (grantPurge p s).timeBase = s.timeBase := rfl
@[simp] theorem grantPurge_inputs : (grantPurge p s).inputs = s.inputs := rfl
@[simp] theorem grantPurge_cueTable : (grantPurge p s).cueTable = s.cueTable := rfl
@[simp] theorem grantPurge_output : (grantPurge p s).output = s.output := rfl
@[simp] theorem grantPurge_claims : (grantPurge p s).claims = s.claims := rfl
@[simp] theorem grantPurge_session : (grantPurge p s).session = s.session := rfl
@[simp] theorem grantPurge_ports : (grantPurge p s).ports = s.ports := rfl
@[simp] theorem grantPurge_pending : (grantPurge p s).pending = s.pending := rfl

@[simp] theorem grantPurge_switches :
    (grantPurge p s).arbiter.switches = s.arbiter.switches.moved .urgent p := rfl

@[simp] theorem grantPurge_purges :
    look (grantPurge p s).arbiter.purges q =
      if q = p then (look s.arbiter.purges p).tail else look s.arbiter.purges q := look_change _ _ _ _

end Leaf

end Sys2Proof.Machine
end

