-- ==== Sys2Proof/Laws/CueTable.lean ====
section
/-! SUPPORT. What the cue table's operations do to slots, lists and sets: storing, entering, deferring, freeing,
purging. -/

namespace Sys2Proof.Machine

namespace CueTable

variable (ct : CueTable) (now : Time)

/-! ### Slots replaced -/

theorem setCue_cue (i j : SlotId) (c : Cue) : (ct.setCue i c).cue j = if j = i then some c else ct.cue j := by
  unfold CueTable.cue setCue
  rw [look_put]
  split <;> rfl

@[simp] theorem setCue_cue_self (i : SlotId) (c : Cue) : (ct.setCue i c).cue i = some c := by simp [setCue_cue]

@[simp] theorem setCue_gen (i j : SlotId) (c : Cue) : (ct.setCue i c).gen j = ct.gen j := by
  unfold CueTable.gen setCue
  rw [look_put]
  split
  · next h => rw [h]
  · rfl

@[simp] theorem setCue_pendingList (i : SlotId) (c : Cue) : (ct.setCue i c).pendingList = ct.pendingList := rfl
@[simp] theorem setCue_deferred (i : SlotId) (c : Cue) : (ct.setCue i c).deferred = ct.deferred := rfl
@[simp] theorem setCue_nextEntry (i : SlotId) (c : Cue) : (ct.setCue i c).nextEntry = ct.nextEntry := rfl
@[simp] theorem setCue_sets (i : SlotId) (c : Cue) : (ct.setCue i c).sets = ct.sets := rfl

theorem putSet_commitSet (k j : SetId) (c : CommitSet) :
    (ct.putSet k c).commitSet j = if j = k then c else ct.commitSet j := look_put _ _ _ _

@[simp] theorem putSet_cue (k : SetId) (c : CommitSet) (i : SlotId) : (ct.putSet k c).cue i = ct.cue i := rfl
@[simp] theorem putSet_gen (k : SetId) (c : CommitSet) (i : SlotId) : (ct.putSet k c).gen i = ct.gen i := rfl
@[simp] theorem putSet_pendingList (k : SetId) (c : CommitSet) : (ct.putSet k c).pendingList = ct.pendingList := rfl
@[simp] theorem putSet_deferred (k : SetId) (c : CommitSet) : (ct.putSet k c).deferred = ct.deferred := rfl
@[simp] theorem putSet_slots (k : SetId) (c : CommitSet) : (ct.putSet k c).slots = ct.slots := rfl

/-! ### Choices by property -/

/-- A slot is among those with a property exactly when its cue has it. -/
theorem mem_slotsWith (has : Cue → Bool) (i : SlotId) :
    i ∈ ct.slotsWith has ↔ ∃ c, ct.cue i = some c ∧ has c = true := by
  unfold slotsWith
  cases h : ct.cue i <;> simp [h]

theorem nodup_slotsWith (has : Cue → Bool) : (ct.slotsWith has).Nodup := (nodup_indices 96).filter _

/-- The lowest FREE slot is FREE, and every slot below it is not (R16). -/
theorem lowestFree_spec {i : SlotId} (h : ct.lowestFree = some i) : ct.cue i = none := by
  have := List.find?_some h
  simpa using this

/-! ### Entering and leaving lists (R20 to R24) -/

@[simp] theorem place_cue (i j : SlotId) (c : Cue) :
    (ct.place now i c).cue j = if j = i then some { c with state := .pending } else ct.cue j := setCue_cue _ _ _ _

@[simp] theorem place_gen (i j : SlotId) (c : Cue) : (ct.place now i c).gen j = ct.gen j := setCue_gen ct i j _

@[simp] theorem place_deferred (i : SlotId) (c : Cue) : (ct.place now i c).deferred = ct.deferred := rfl
@[simp] theorem place_sets (i : SlotId) (c : Cue) : (ct.place now i c).sets = ct.sets := rfl

/-- The placed slot joins the pending list, and the list holds what it held. -/
theorem perm_place (i : SlotId) (c : Cue) : (ct.place now i c).pendingList.Perm (i :: ct.pendingList) :=
  perm_insertBefore _ _ _

@[simp] theorem enter_cue (i j : SlotId) (c : Cue) :
    (ct.enter now i c).cue j =
      if j = i then some { c with state := .pending, entry := ct.nextEntry } else ct.cue j :=
  place_cue ct now i j _

@[simp] theorem enter_gen (i j : SlotId) (c : Cue) : (ct.enter now i c).gen j = ct.gen j := place_gen ct now i j _

@[simp] theorem enter_deferred (i : SlotId) (c : Cue) : (ct.enter now i c).deferred = ct.deferred := rfl
@[simp] theorem enter_sets (i : SlotId) (c : Cue) : (ct.enter now i c).sets = ct.sets := rfl
@[simp] theorem enter_nextEntry (i : SlotId) (c : Cue) : (ct.enter now i c).nextEntry = ct.nextEntry + 1 := rfl

/-- The entering slot joins the pending list, and the list holds what it held. -/
theorem perm_enter (i : SlotId) (c : Cue) : (ct.enter now i c).pendingList.Perm (i :: ct.pendingList) :=
  perm_place _ _ _ _

@[simp] theorem unlist_cue (i j : SlotId) : (ct.unlist i).cue j = ct.cue j := rfl
@[simp] theorem unlist_gen (i j : SlotId) : (ct.unlist i).gen j = ct.gen j := rfl

@[simp] theorem replace_cue (i j : SlotId) (c : Cue) :
    (ct.replace now i c).cue j = if j = i then some { c with state := .pending } else ct.cue j :=
  place_cue (ct.unlist i) now i j c

@[simp] theorem replace_sets (i : SlotId) (c : Cue) : (ct.replace now i c).sets = ct.sets := rfl

@[simp] theorem defer_cue (i j : SlotId) (c : Cue) (g : Group) :
    (ct.defer now i c g).cue j =
      if j = i then some { c with state := .deferred, effDue := none } else ct.cue j := setCue_cue _ _ _ _

@[simp] theorem defer_gen (i j : SlotId) (c : Cue) (g : Group) : (ct.defer now i c g).gen j = ct.gen j :=
  setCue_gen _ _ _ _

@[simp] theorem defer_pendingList (i : SlotId) (c : Cue) (g : Group) :
    (ct.defer now i c g).pendingList = ct.pendingList := rfl

@[simp] theorem defer_sets (i : SlotId) (c : Cue) (g : Group) : (ct.defer now i c g).sets = ct.sets := rfl

/-- The deferred slot joins its group's list, and no other list changes. -/
theorem perm_defer (i : SlotId) (c : Cue) (g h : Group) :
    (look (ct.defer now i c g).deferred h).Perm (if h = g then i :: look ct.deferred g else look ct.deferred h) := by
  have e : look (ct.defer now i c g).deferred h =
      if h = g then insertBefore (ct.after (Cue.deferredBefore now) { c with state := .deferred, effDue := none }) i
        (look ct.deferred g) else look ct.deferred h := look_change _ _ _ _
  rw [e]
  split
  · exact perm_insertBefore _ _ _
  · exact List.Perm.refl _

/-- The comparison of `Cue.deferredBefore` is R24's. -/
theorem deferredBefore_iff (c d : Cue) : Cue.deferredBefore now c d = true ↔ c.WaitsBefore now d := by
  simp only [Cue.deferredBefore, Cue.WaitsBefore, signedDistance, Bool.or_eq_true, Bool.and_eq_true, beq_iff_eq]
  refine or_congr (by simp) (and_congr ⟨fun h => ?_, fun h => by rw [h]⟩ (by simp))
  simpa using BitVec.eq_of_toInt_eq h

/-- The deferred slot's place in its group's list: the others keep their order, and in a list that stands in the order of
R24 it stands by that order. -/
theorem defer_place (i : SlotId) (c : Cue) (g : Group) (hl : ∀ j, j ∈ look ct.deferred g → ∃ d, ct.cue j = some d) :
    ∃ before after, look ct.deferred g = before ++ after
      ∧ look (ct.defer now i c g).deferred g = before ++ i :: after
      ∧ (ct.WaitsInOrder now g →
          (∀ j d, j ∈ before → ct.cue j = some d → ¬ c.WaitsBefore now d)
          ∧ ∀ j d, j ∈ after → ct.cue j = some d → c.WaitsBefore now d) := by
  have stands (j : SlotId) (d : Cue) (h : ct.cue j = some d) :
      ct.after (Cue.deferredBefore now) { c with state := .deferred, effDue := none } j = true ↔ c.WaitsBefore now d := by
    simp only [CueTable.after, h, deferredBefore_iff]; exact Iff.rfl
  obtain ⟨before, after, e, f, hb, ha⟩ := insertBefore_splits
    (ct.after (Cue.deferredBefore now) { c with state := .deferred, effDue := none }) i (look ct.deferred g)
  refine ⟨before, after, e, by simp [CueTable.defer, f], fun ho => ⟨fun j d hj hd w => ?_, fun j d hj hd => ?_⟩⟩
  · exact absurd ((stands j d hd).2 w) (by simp [hb j hj])
  · cases after with
    | nil => cases hj
    | cons y rest =>
      obtain ⟨first, hy⟩ := hl y (by simp [e])
      have near := (stands y first hy).1 (ha y rfl)
      rcases List.mem_cons.1 hj with rfl | hj
      · rw [hd] at hy; cases hy; exact near
      · unfold CueTable.WaitsInOrder at ho
        rw [e] at ho
        have far := (List.pairwise_cons.1 (List.pairwise_append.1 ho).2.1).1 j hj first d hy hd
        unfold Cue.WaitsBefore at *
        rcases near with near | ⟨near, entry⟩ <;> rcases far with far | ⟨far, entry'⟩
        · exact .inl (by omega)
        · exact .inl (far ▸ near)
        · exact .inl (near ▸ far)
        · exact .inr ⟨near.trans far, by omega⟩

/-! ### Freeing (R17) -/

@[simp] theorem leaveSet_cue (k : Option SetId) (i : SlotId) : (ct.leaveSet k).cue i = ct.cue i := by
  cases k <;> rfl

@[simp] theorem leaveSet_gen (k : Option SetId) (i : SlotId) : (ct.leaveSet k).gen i = ct.gen i := by
  cases k <;> rfl

@[simp] theorem leaveSet_slots (k : Option SetId) : (ct.leaveSet k).slots = ct.slots := by cases k <;> rfl
@[simp] theorem leaveSet_pendingList (k : Option SetId) : (ct.leaveSet k).pendingList = ct.pendingList := by
  cases k <;> rfl
@[simp] theorem leaveSet_deferred (k : Option SetId) : (ct.leaveSet k).deferred = ct.deferred := by cases k <;> rfl

/-- A member leaves its set: the count falls by one there, and no other set changes. -/
theorem leaveSet_commitSet (k : Option SetId) (j : SetId) :
    (ct.leaveSet k).commitSet j =
      if k = some j then (ct.commitSet j).recount (fun n => n - 1) else ct.commitSet j := by
  cases k with
  | none => rfl
  | some k =>
    show look (change ct.sets k _) j = _
    rw [look_change]
    by_cases h : j = k
    · subst h; simp [CueTable.commitSet]
    · have h' : k ≠ j := fun e => h e.symm
      simp [h, h', CueTable.commitSet]

/-- A freed slot is FREE, and every other slot keeps its cue. -/
theorem freeSlot_cue (i j : SlotId) : (ct.freeSlot i).cue j = if j = i then none else ct.cue j := by
  unfold freeSlot
  cases h : ct.cue i with
  | none => by_cases e : j = i <;> simp [e, h]
  | some c =>
    unfold CueTable.cue at h ⊢
    simp only [look_put]
    by_cases e : j = i <;> simp [e, unlistAll]

/-- Its generation advances by one, when it held a cue; no other generation changes. -/
theorem freeSlot_gen (i j : SlotId) :
    (ct.freeSlot i).gen j = if j = i ∧ (ct.cue i).isSome = true then ct.gen i + 1 else ct.gen j := by
  unfold freeSlot
  cases h : ct.cue i with
  | none => simp
  | some c =>
    unfold CueTable.gen
    simp only [look_put]
    by_cases e : j = i <;> simp [e, unlistAll]

/-- The slot is in no list afterwards; the others keep their order. -/
theorem freeSlot_pendingList (i : SlotId) (c : Cue) (h : ct.cue i = some c) :
    (ct.freeSlot i).pendingList = ct.pendingList.filter (fun j => j != i) := by
  simp [freeSlot, h, unlistAll]

theorem freeSlot_deferred (i : SlotId) (c : Cue) (h : ct.cue i = some c) (g : Group) :
    look (ct.freeSlot i).deferred g = (look ct.deferred g).filter (fun j => j != i) := by
  simp [freeSlot, h, unlistAll]

/-- A freed cue leaves its set. -/
theorem freeSlot_commitSet (i : SlotId) (c : Cue) (h : ct.cue i = some c) (k : SetId) :
    (ct.freeSlot i).commitSet k =
      if c.set = some k then (ct.commitSet k).recount (fun n => n - 1) else ct.commitSet k := by
  have e : (ct.freeSlot i).commitSet k = ((ct.unlistAll i).leaveSet c.set).commitSet k := by simp [freeSlot, h,
    CueTable.commitSet]
  rw [e, leaveSet_commitSet]
  rfl

theorem freeSlot_of_free (i : SlotId) (h : ct.cue i = none) : ct.freeSlot i = ct := by simp [freeSlot, h]

/-- Frees of several slots. -/
theorem frees_cue (is : List SlotId) (j : SlotId) :
    (is.foldl CueTable.freeSlot ct).cue j = if j ∈ is then none else ct.cue j := by
  induction is generalizing ct with
  | nil => simp
  | cons i rest ih =>
    rw [List.foldl_cons, ih, freeSlot_cue]
    by_cases h : j = i <;> simp [h]

theorem frees_gen (is : List SlotId) (hd : is.Nodup) (j : SlotId) :
    (is.foldl CueTable.freeSlot ct).gen j =
      if j ∈ is ∧ (ct.cue j).isSome = true then ct.gen j + 1 else ct.gen j := by
  induction is generalizing ct with
  | nil => simp
  | cons i rest ih =>
    have hn := List.nodup_cons.1 hd
    rw [List.foldl_cons, ih _ hn.2, freeSlot_cue, freeSlot_gen]
    by_cases h : j = i
    · subst h; simp [hn.1]
    · simp [h]

theorem recount_recount (c : CommitSet) (f g : Nat → Nat) : (c.recount f).recount g = c.recount (fun n => g (f n)) := by
  cases c <;> rfl

/-- A set loses as many members as of its cues are freed (R17, R84). -/
theorem frees_commitSet (is : List SlotId) (hd : is.Nodup) (k : SetId) :
    (is.foldl CueTable.freeSlot ct).commitSet k =
      (ct.commitSet k).recount (fun n => n - (is.filter (fun i => (ct.cue i).any (fun c => c.set == some k))).length) := by
  induction is generalizing ct with
  | nil => cases h : ct.commitSet k <;> simp [CommitSet.recount, h]
  | cons i rest ih =>
    have hn := List.nodup_cons.1 hd
    have same : rest.filter (fun j => ((ct.freeSlot i).cue j).any (fun c => c.set == some k))
        = rest.filter (fun j => (ct.cue j).any (fun c => c.set == some k)) := by
      apply List.filter_congr
      intro j hj
      have : j ≠ i := fun e => hn.1 (e ▸ hj)
      rw [freeSlot_cue, if_neg this]
    rw [List.foldl_cons, ih _ hn.2, same]
    cases h : ct.cue i with
    | none => rw [freeSlot_of_free ct i h]; simp [h]
    | some c =>
      rw [freeSlot_commitSet ct i c h k]
      by_cases hk : c.set = some k
      · simp only [hk, if_true, recount_recount, List.filter_cons, h, Option.any_some, beq_self_eq_true,
          List.length_cons]
        congr 1; funext n; omega
      · simp [hk, h]

/-! ### Purges (R38 to R41) -/

/-- A purge frees exactly the cues with the property. -/
theorem purge_cue (has : Cue → Bool) (j : SlotId) :
    (ct.purge has).cue j = (ct.cue j).filter (fun c => !has c) := by
  unfold purge
  rw [frees_cue]
  cases h : ct.cue j with
  | none => simp
  | some c =>
    simp only [mem_slotsWith, h]
    cases hc : has c <;> simp [hc, Option.filter]

/-- The generations of the freed slots advance by one. -/
theorem purge_gen (has : Cue → Bool) (j : SlotId) :
    (ct.purge has).gen j = if (ct.cue j).any has then ct.gen j + 1 else ct.gen j := by
  unfold purge
  rw [frees_gen _ _ (nodup_slotsWith _ _)]
  cases h : ct.cue j with
  | none => simp
  | some c => simp [mem_slotsWith, h]

/-- Each set loses the members that a purge frees (R39, R84). -/
theorem purge_commitSet (has : Cue → Bool) (k : SetId) :
    (ct.purge has).commitSet k =
      (ct.commitSet k).recount (fun n => n - (ct.slotsWith (fun c => has c && c.set == some k)).length) := by
  have both : (ct.slotsWith has).filter (fun i => (ct.cue i).any (fun c => c.set == some k))
      = ct.slotsWith (fun c => has c && c.set == some k) := by
    unfold slotsWith
    rw [List.filter_filter]
    apply List.filter_congr
    intro i _
    cases ct.cue i <;> simp [Bool.and_comm]
  unfold purge
  rw [frees_commitSet _ _ (nodup_slotsWith _ _), both]

@[simp] theorem freeSets_cue (has : CommitSet → Bool) (i : SlotId) : (ct.freeSets has).cue i = ct.cue i := rfl
@[simp] theorem freeSets_gen (has : CommitSet → Bool) (i : SlotId) : (ct.freeSets has).gen i = ct.gen i := rfl

theorem freeSets_commitSet (has : CommitSet → Bool) (k : SetId) :
    (ct.freeSets has).commitSet k = if has (ct.commitSet k) then .free else ct.commitSet k := by
  show look (changeAll ct.sets _) k = _
  rw [look_changeAll]
  rfl

/-! ### Discarding a set (R79, R80) -/

theorem discard_cue (i j : SlotId) :
    (ct.discard i).cue j = if j = i then (ct.cue i).map Cue.unstaged else ct.cue j := by
  unfold discard
  cases h : ct.cue i with
  | none => by_cases e : j = i <;> simp [e, h]
  | some c => simp [setCue_cue]

theorem discards_cue (is : List SlotId) (hd : is.Nodup) (j : SlotId) :
    (is.foldl CueTable.discard ct).cue j = if j ∈ is then (ct.cue j).map Cue.unstaged else ct.cue j := by
  induction is generalizing ct with
  | nil => simp
  | cons i rest ih =>
    have hn := List.nodup_cons.1 hd
    rw [List.foldl_cons, ih _ hn.2, discard_cue]
    by_cases h : j = i
    · subst h; simp [hn.1]
    · simp [h]

/-- Discarding records touches neither generations nor lists nor sets. -/
theorem discards_keep (is : List SlotId) :
    let ct' := is.foldl CueTable.discard ct
    (∀ i, ct'.gen i = ct.gen i) ∧ ct'.pendingList = ct.pendingList ∧ ct'.deferred = ct.deferred
      ∧ ct'.sets = ct.sets ∧ ct'.nextEntry = ct.nextEntry := by
  induction is generalizing ct with
  | nil => simp
  | cons i rest ih =>
    have h : (∀ j, (ct.discard i).gen j = ct.gen j) ∧ (ct.discard i).pendingList = ct.pendingList
        ∧ (ct.discard i).deferred = ct.deferred ∧ (ct.discard i).sets = ct.sets
        ∧ (ct.discard i).nextEntry = ct.nextEntry := by
      unfold discard
      cases ct.cue i <;> simp
    simp only [List.foldl_cons]
    obtain ⟨a, b, c, d, e⟩ := ih (ct.discard i)
    exact ⟨fun j => (a j).trans (h.1 j), b.trans h.2.1, c.trans h.2.2.1, d.trans h.2.2.2.1, e.trans h.2.2.2.2⟩

@[simp] theorem freeSetWhole_gen (k : SetId) (i : SlotId) : (ct.freeSetWhole k).gen i = ct.gen i :=
  (discards_keep ct (ct.membersOf k)).1 i

@[simp] theorem freeSetWhole_pendingList (k : SetId) : (ct.freeSetWhole k).pendingList = ct.pendingList :=
  (discards_keep ct (ct.membersOf k)).2.1

@[simp] theorem freeSetWhole_deferred (k : SetId) : (ct.freeSetWhole k).deferred = ct.deferred :=
  (discards_keep ct (ct.membersOf k)).2.2.1

/-- The set is FREE afterwards, and no other set changes. -/
theorem freeSetWhole_commitSet (k j : SetId) :
    (ct.freeSetWhole k).commitSet j = if j = k then .free else ct.commitSet j := by
  unfold freeSetWhole
  rw [putSet_commitSet]
  split
  · rfl
  · simp only [commitSet, (discards_keep ct (ct.membersOf k)).2.2.2.1]

/-- A set freed whole: its members lose their staged record and set field, and keep all else. -/
theorem freeSetWhole_cue (k : SetId) (j : SlotId) :
    (ct.freeSetWhole k).cue j = (ct.cue j).map (fun c => if c.set = some k then c.unstaged else c) := by
  unfold freeSetWhole
  rw [putSet_cue, discards_cue ct (ct.membersOf k) (nodup_slotsWith ct _)]
  cases h : ct.cue j with
  | none => simp
  | some c =>
    by_cases hk : c.set = some k <;> simp [membersOf, mem_slotsWith, h, hk]

end CueTable

end Sys2Proof.Machine
end

