-- ==== Sys2Proof/Laws/Output.lean ====
section
/-! SUPPORT. What the output unit's operations do to lines, groups, trip and notices: level changes, drives, apply
requests, trip entry. -/

namespace Sys2Proof.Machine

namespace OutputUnit

variable (o : OutputUnit) (now : Time)

/-! ### Records replaced -/

theorem setLine_line (l m : Line) (r : LineRecord) : (o.setLine l r).line m = if m = l then r else o.line m :=
  look_put _ _ _ _

@[simp] theorem setLine_group (l : Line) (r : LineRecord) (g : Group) : (o.setLine l r).group g = o.group g := rfl
@[simp] theorem setLine_trip (l : Line) (r : LineRecord) : (o.setLine l r).trip = o.trip := rfl
@[simp] theorem setLine_notices (l : Line) (r : LineRecord) : (o.setLine l r).notices = o.notices := rfl

theorem setGroup_group (g h : Group) (r : GroupRecord) : (o.setGroup g r).group h = if h = g then r else o.group h :=
  look_put _ _ _ _

@[simp] theorem setGroup_line (g : Group) (r : GroupRecord) (l : Line) : (o.setGroup g r).line l = o.line l := rfl
@[simp] theorem setGroup_trip (g : Group) (r : GroupRecord) : (o.setGroup g r).trip = o.trip := rfl
@[simp] theorem setGroup_notices (g : Group) (r : GroupRecord) : (o.setGroup g r).notices = o.notices := rfl

theorem setHoldoff_group (g h : Group) (x : Option Holdoff) :
    (o.setHoldoff g x).group h = if h = g then { o.group g with holdoff := x } else o.group h := setGroup_group _ _ _ _

@[simp] theorem setHoldoff_line (g : Group) (x : Option Holdoff) (l : Line) :
    (o.setHoldoff g x).line l = o.line l := rfl
@[simp] theorem setHoldoff_trip (g : Group) (x : Option Holdoff) : (o.setHoldoff g x).trip = o.trip := rfl
@[simp] theorem setHoldoff_notices (g : Group) (x : Option Holdoff) : (o.setHoldoff g x).notices = o.notices := rfl

@[simp] theorem sendNotice_line (g : Group) (l : Line) : (o.sendNotice g).line l = o.line l := rfl
@[simp] theorem sendNotice_group (g h : Group) : (o.sendNotice g).group h = o.group h := rfl
@[simp] theorem sendNotice_trip (g : Group) : (o.sendNotice g).trip = o.trip := rfl
@[simp] theorem sendNotice_notices (g : Group) : (o.sendNotice g).notices = o.notices ++ [g] := rfl

/-! ### A member reports its deactivation (R98) -/

@[simp] theorem memberDown_line (l m : Line) (g : Group) : (o.memberDown now l g).line m = o.line m := by
  unfold memberDown; split
  · split <;> rfl
  · rfl

@[simp] theorem memberDown_trip (l : Line) (g : Group) : (o.memberDown now l g).trip = o.trip := by
  unfold memberDown; split
  · split <;> rfl
  · rfl

/-- The group of a member that deactivates: with a gap the holdoff names the line and ends a gap later; with gap 0, and
for every other group, the record stays. -/
theorem memberDown_group (l : Line) (g h : Group) :
    (o.memberDown now l g).group h = if h = g ∧ (o.group g).gap ≠ 0
      then { o.group g with holdoff := some { line := some l, endsAt := later now (o.group g).gap.toNat } }
      else o.group h := by
  unfold memberDown
  by_cases hz : (o.group g).gap = 0
  · simp only [hz, if_true]
    split <;> simp
  · simp only [hz, if_false, setHoldoff_group]
    by_cases hg : h = g
    · rw [if_pos hg, if_pos ⟨hg, hz⟩]
    · rw [if_neg hg, if_neg (fun x => hg x.1)]

/-- With gap 0 and no holdoff the group opens and its notice is sent. -/
theorem memberDown_opens (l : Line) (g : Group) (hz : (o.group g).gap = 0) (hn : (o.group g).holdoff = none) :
    o.memberDown now l g = o.sendNotice g := by
  simp [memberDown, hz, hn]

/-! ### Level changes (R89) -/

theorem deactivate_line (l m : Line) :
    (o.deactivate now l).line m = if m = l then (o.line l).down now else o.line m := by
  unfold deactivate
  split <;> simp [setLine_line, LineRecord.down]

@[simp] theorem deactivate_trip (l : Line) : (o.deactivate now l).trip = o.trip := by
  unfold deactivate; split <;> simp

/-- The groups after a deactivation: the line's group is guarded when it has a gap; every other group stays. -/
theorem deactivate_group (l : Line) (h : Group) :
    (o.deactivate now l).group h = if (o.line l).group = some h ∧ (o.group h).gap ≠ 0
      then (o.group h).guarded l now else o.group h := by
  unfold deactivate
  cases hg : (o.line l).group with
  | none => simp
  | some g =>
    simp only [memberDown_group, setLine_group, Option.some.injEq]
    by_cases e : g = h
    · subst e; simp [GroupRecord.guarded]
    · have e' : h ≠ g := fun x => e x.symm
      simp [e, e']

theorem activate_line (l m : Line) (pe : Option Time) :
    (o.activate now l pe).line m = if m = l then (o.line l).up now pe else o.line m := by
  unfold activate
  cases (o.line l).group with
  | none => simp [setLine_line, LineRecord.up]
  | some g =>
    cases hh : (o.group g).holdoff with
    | none => simp [setLine_line, LineRecord.up, hh]
    | some x =>
      simp only [hh]
      split <;> simp [setLine_line, LineRecord.up]

@[simp] theorem activate_trip (l : Line) (pe : Option Time) : (o.activate now l pe).trip = o.trip := by
  unfold activate
  cases (o.line l).group with
  | none => rfl
  | some g =>
    cases hh : (o.group g).holdoff with
    | none => simp [hh]
    | some x => simp only [hh]; split <;> rfl

/-- The groups after an activation: the holdoff of the line's group is cleared when it names the line; all else
stays. -/
theorem activate_group (l : Line) (pe : Option Time) (h : Group) :
    (o.activate now l pe).group h =
      if (o.line l).group = some h ∧ (o.group h).holdoff.any (fun x => x.line == some l) = true
      then { o.group h with holdoff := none } else o.group h := by
  unfold activate
  cases hg : (o.line l).group with
  | none => simp
  | some g =>
    cases hh : (o.group g).holdoff with
    | none =>
      by_cases e : g = h
      · subst e; simp [hh]
      · simp [e, hh]
    | some x =>
      simp only [hh]
      by_cases e : g = h
      · subst e
        by_cases hx : x.line = some l
        · simp [hx, hh, setHoldoff_group]
        · simp [hx, hh]
      · have e' : h ≠ g := fun y => e y.symm
        by_cases hx : x.line = some l
        · simp [hx, e, setHoldoff_group, e']
        · simp [hx, e]

@[simp] theorem activate_notices (l : Line) (pe : Option Time) : (o.activate now l pe).notices = o.notices := by
  unfold activate
  cases (o.line l).group with
  | none => rfl
  | some g =>
    cases hh : (o.group g).holdoff with
    | none => simp [hh]
    | some x => simp only [hh]; split <;> rfl

/-! ### Drives (R90) -/

/-- A drive of one line changes that line's record to the driven one. -/
theorem drive_line (l m : Line) :
    (o.drive now l).line m = if m = l then (o.line l).driven now else o.line m := by
  unfold drive
  cases hl : (o.line l).level <;> cases hs : (o.line l).safe <;>
    simp [hl, hs, setLine_line, activate_line, deactivate_line, LineRecord.driven, LineRecord.up, LineRecord.down]

@[simp] theorem drive_trip (l : Line) : (o.drive now l).trip = o.trip := by
  unfold drive
  cases hl : (o.line l).level <;> cases hs : (o.line l).safe <;> simp [hl, hs]

/-- The groups after a drive of a line whose safe level is INACTIVE if it is grouped. -/
theorem drive_group (l : Line) (hs : (o.line l).group.isSome = true → (o.line l).safe = .inactive) (h : Group) :
    (o.drive now l).group h =
      if (o.line l).group = some h ∧ (o.line l).level = .active ∧ (o.group h).gap ≠ 0
      then (o.group h).guarded l now else o.group h := by
  unfold drive
  cases hl : (o.line l).level <;> cases hf : (o.line l).safe <;> simp only [hl, hf]
  · simp
  · have : (o.line l).group = none := by
      cases hg : (o.line l).group with
      | none => rfl
      | some g => simp [hg, hf] at hs
    simp [activate_group, this]
  · simp [deactivate_group]
  · have : (o.line l).group = none := by
      cases hg : (o.line l).group with
      | none => rfl
      | some g => simp [hg, hf] at hs
    simp [this]

theorem driven_driven (r : LineRecord) : (r.driven now).driven now = r.driven now := by
  simp [LineRecord.driven]

/-- The lines after drives of several lines. -/
theorem drives_line (ls : List Line) (m : Line) :
    (ls.foldl (fun o l => o.drive now l) o).line m = if m ∈ ls then (o.line m).driven now else o.line m := by
  induction ls generalizing o with
  | nil => simp
  | cons l rest ih =>
    rw [List.foldl_cons, ih, drive_line]
    by_cases h : m = l
    · subst h; simp [driven_driven]
    · simp [h]

/-- A drive of every line drives each. -/
theorem driveAll_line (m : Line) : (o.driveAll now).line m = (o.line m).driven now := by
  simp [driveAll, drives_line]

@[simp] theorem driveAll_trip : (o.driveAll now).trip = o.trip := by
  have : ∀ (ls : List Line) (o : OutputUnit), (ls.foldl (fun o l => o.drive now l) o).trip = o.trip := by
    intro ls
    induction ls with
    | nil => intro o; rfl
    | cons l rest ih => intro o; rw [List.foldl_cons, ih, drive_trip]
  exact this _ _

/-- After a drive of every line each line is at its safe level with no pulse end. -/
theorem driveAll_atSafe : (o.driveAll now).AtSafe := fun l => by
  rw [driveAll_line]; exact ⟨rfl, rfl⟩

/-! ### The drive of every line, whole -/

theorem memberDown_keeps_notices (l : Line) (g h : Group) (hh : h ∈ o.notices) :
    h ∈ (o.memberDown now l g).notices := by
  unfold memberDown
  split
  · split <;> simp [hh]
  · simpa using hh

theorem deactivate_keeps_notices (l : Line) (h : Group) (hh : h ∈ o.notices) : h ∈ (o.deactivate now l).notices := by
  unfold deactivate
  cases (o.line l).group with
  | none => exact hh
  | some g => exact memberDown_keeps_notices _ now l g h hh

theorem drive_notices (l : Line) (h : Group) (hh : h ∈ o.notices) : h ∈ (o.drive now l).notices := by
  unfold drive
  cases hl : (o.line l).level <;> cases hs : (o.line l).safe <;>
    simp [hl, hs, hh, deactivate_keeps_notices]

/-- A drive of an ACTIVE line of a group with gap 0 and no holdoff sends the notice. -/
theorem drive_opens (l : Line) (g : Group) (hg : (o.line l).group = some g) (hl : (o.line l).level = .active)
    (hs : (o.line l).safe = .inactive) (hz : (o.group g).gap = 0) (hn : (o.group g).holdoff = none) :
    g ∈ (o.drive now l).notices := by
  simp [drive, hl, hs, deactivate, hg, memberDown, hz, hn]

/-- What the drives of several lines have done to the unit: each line of the list is driven, and a group is guarded
against its ACTIVE member in the list or opens, where at most one member is ACTIVE. -/
theorem drives_groups (hi : o.Interlocked) (hs : o.GroupedSafe) (hk : o.GapKept) (ls : List Line) (g : Group) :
    let o' := ls.foldl (fun o l => o.drive now l) o
    ((∀ l, l ∈ ls → (o.line l).group = some g → (o.line l).level = .inactive) → o'.group g = o.group g)
      ∧ (∀ l, l ∈ ls → (o.line l).group = some g → (o.line l).level = .active →
          ((o.group g).gap ≠ 0 → o'.group g = (o.group g).guarded l now)
          ∧ ((o.group g).gap = 0 → o'.group g = o.group g ∧ g ∈ o'.notices)) := by
  induction ls using List.reverseRecOn with
  | nil => simp
  | append_singleton ls m ih =>
    simp only [List.foldl_append, List.foldl_cons, List.foldl_nil] at ih ⊢
    set o₁ := ls.foldl (fun o l => o.drive now l) o with e₁
    have hline : o₁.line m = if m ∈ ls then (o.line m).driven now else o.line m := drives_line _ _ _ _
    have hgrp : (o₁.line m).group = (o.line m).group := by rw [hline]; split <;> rfl
    have hsafe : (o₁.line m).group.isSome = true → (o₁.line m).safe = .inactive := by
      intro h; rw [hgrp] at h; rw [hline]; split <;> exact hs m h
    have hd := drive_group o₁ now m hsafe g
    have quiet (h : ¬ ((o.line m).group = some g ∧ (o.line m).level = .active)) :
        (o₁.drive now m).group g = o₁.group g := by
      rw [hd, if_neg]
      rintro ⟨a, b, _⟩
      rw [hgrp] at a
      refine h ⟨a, ?_⟩
      rw [hline] at b
      split at b
      · have := hs m (by simp [a]); simp [LineRecord.driven, this] at b
      · exact b
    constructor
    · intro h
      rw [quiet (fun x => by have := h m (by simp) x.1; simp [this] at x)]
      exact ih.1 (fun l hl => h l (by simp [hl]))
    · intro l hl ha hb
      by_cases hin : l ∈ ls
      · have hq : (o₁.drive now m).group g = o₁.group g := by
          by_cases hm : (o.line m).group = some g ∧ (o.line m).level = .active
          · have : m = l := hi m l g hm.1 ha hm.2 hb
            subst this
            rw [hd, if_neg]
            rintro ⟨_, b, _⟩
            have := hs m (by simp [ha])
            simp [hline, hin, LineRecord.driven, this] at b
          · exact quiet hm
        have := ih.2 l hin ha hb
        refine ⟨fun hz => hq.trans (this.1 hz), fun hz => ⟨hq.trans (this.2 hz).1, drive_notices _ _ _ _ (this.2 hz).2⟩⟩
      · have hml : l = m := by simpa [hin] using hl
        subst hml
        have hsame : o₁.group g = o.group g := by
          refine ih.1 (fun k hk' a => ?_)
          cases hkl : (o.line k).level with
          | inactive => rfl
          | active =>
            have hkeq := hi k l g a ha hkl hb
            subst hkeq
            exact absurd hk' hin
        have hl₁ : o₁.line l = o.line l := by simp [hline, hin]
        refine ⟨fun hz => ?_, fun hz => ⟨?_, ?_⟩⟩
        · rw [hd, hl₁, hsame, if_pos ⟨ha, hb, hz⟩]
        · rw [hd, hsame, if_neg (fun x => x.2.2 hz)]
        · have hn : (o.group g).holdoff = none := by
            cases hh : (o.group g).holdoff with
            | none => rfl
            | some x => exact absurd hz (hk g x hh).1
          exact drive_opens _ _ _ _ (by rw [hl₁]; exact ha) (by rw [hl₁]; exact hb)
            (by rw [hl₁]; exact hs l (by simp [ha])) (by rw [hsame]; exact hz) (by rw [hsame]; exact hn)

/-- The notices after a drive: that of the line's group is added when the line was ACTIVE and the group has gap 0 and no
holdoff; no other is. -/
theorem drive_notices_eq (l : Line) (hs : (o.line l).group.isSome = true → (o.line l).safe = .inactive) :
    (∀ g, (o.line l).group = some g → (o.line l).level = .active → (o.group g).gap = 0 → (o.group g).holdoff = none →
        (o.drive now l).notices = o.notices ++ [g])
      ∧ ((o.line l).level = .inactive ∨ (o.line l).group = none
          ∨ (∃ g, (o.line l).group = some g ∧ (o.group g).gap ≠ 0) → (o.drive now l).notices = o.notices) := by
  constructor
  · intro g hg hl hz hn
    simp [drive, hl, hs (by simp [hg]), deactivate, hg, memberDown, hz, hn]
  · intro h
    cases hl : (o.line l).level with
    | inactive => cases hf : (o.line l).safe <;> simp [drive, hl, hf]
    | active =>
      cases hf : (o.line l).safe with
      | active => simp [drive, hl, hf]
      | inactive =>
        cases hg : (o.line l).group with
        | none => simp [drive, hl, hf, deactivate, hg]
        | some g =>
          have hz : (o.group g).gap ≠ 0 := by
            rcases h with h | h | ⟨j, hj, hz⟩
            · simp [h] at hl
            · simp [h] at hg
            · exact Option.some.inj (hj.symm.trans hg) ▸ hz
          simp only [drive, hl, hf, deactivate, hg, memberDown, setLine_group, if_neg hz]
          rfl

/-- The notices after the drives of several lines: one for each group with gap 0 that had its ACTIVE member in the
list. -/
theorem drives_notices (hi : o.Interlocked) (hs : o.GroupedSafe) (hk : o.GapKept) (ls : List Line) (hls : ls.Nodup) :
    ∃ gs : List Group, (ls.foldl (fun o l => o.drive now l) o).notices = o.notices ++ gs ∧ gs.Nodup
      ∧ ∀ g, g ∈ gs ↔ (o.group g).gap = 0 ∧ ∃ l ∈ ls, (o.line l).group = some g ∧ (o.line l).level = .active := by
  induction ls using List.reverseRecOn with
  | nil => exact ⟨[], by simp⟩
  | append_singleton ls m ih =>
    rw [List.nodup_append] at hls
    have hm : m ∉ ls := fun h => hls.2.2 m h m (by simp) rfl
    obtain ⟨gs, hgs, hnd, hmem⟩ := ih hls.1
    simp only [List.foldl_append, List.foldl_cons, List.foldl_nil]
    have hl₁ : (ls.foldl (fun o l => o.drive now l) o).line m = o.line m := by simp [drives_line, hm]
    have hd := drive_notices_eq (ls.foldl (fun o l => o.drive now l) o) now m (by rw [hl₁]; exact hs m)
    by_cases hop : ∃ g, (o.line m).group = some g ∧ (o.line m).level = .active ∧ (o.group g).gap = 0
    · obtain ⟨g, hg, hl, hz⟩ := hop
      have hsame := (drives_groups o now hi hs hk ls g).1 (fun k hkin a => by
        cases hkl : (o.line k).level with
        | inactive => rfl
        | active => exact absurd (hi k m g a hg hkl hl ▸ hkin) hm)
      have hn : (o.group g).holdoff = none := by
        cases hh : (o.group g).holdoff with
        | none => rfl
        | some x => exact absurd hz (hk g x hh).1
      have hnew : g ∉ gs := fun h => by
        obtain ⟨_, k, hkin, a, b⟩ := (hmem g).1 h
        exact hm (hi k m g a hg b hl ▸ hkin)
      refine ⟨gs ++ [g], ?_, ?_, fun h => ?_⟩
      · rw [hd.1 g (by rw [hl₁]; exact hg) (by rw [hl₁]; exact hl) (by rw [hsame]; exact hz) (by rw [hsame]; exact hn),
          hgs, List.append_assoc]
      · exact List.nodup_append.2 ⟨hnd, by simp, fun a ha b hb e => hnew (by rw [← List.mem_singleton.1 hb, ← e]; exact ha)⟩
      · rw [List.mem_append, hmem]
        constructor
        · rintro (⟨hz', k, hkin, x⟩ | hx)
          · exact ⟨hz', k, by simp [hkin], x⟩
          · rw [List.mem_singleton.1 hx]; exact ⟨hz, m, by simp, hg, hl⟩
        · rintro ⟨hz', k, hkin, a, b⟩
          rcases List.mem_append.1 hkin with hk' | hk'
          · exact .inl ⟨hz', k, hk', a, b⟩
          · rw [List.mem_singleton.1 hk'] at a
            exact .inr (by simpa using (Option.some.inj (a.symm.trans hg)))
    · refine ⟨gs, ?_, hnd, fun h => ?_⟩
      · rw [hd.2, hgs]
        rw [hl₁]
        cases hlev : (o.line m).level with
        | inactive => exact .inl rfl
        | active =>
          cases hg : (o.line m).group with
          | none => exact .inr (.inl rfl)
          | some g =>
            have hz : (o.group g).gap ≠ 0 := fun hz => hop ⟨g, hg, hlev, hz⟩
            refine .inr (.inr ⟨g, rfl, ?_⟩)
            rwa [(drives_groups o now hi hs hk ls g).1 (fun k hkin a => by
              cases hkl : (o.line k).level with
              | inactive => rfl
              | active => exact absurd (hi k m g a hg hkl hlev ▸ hkin) hm)]
      · rw [hmem]
        constructor
        · rintro ⟨hz, k, hkin, x⟩; exact ⟨hz, k, by simp [hkin], x⟩
        · rintro ⟨hz, k, hkin, a, b⟩
          rcases List.mem_append.1 hkin with hk' | hk'
          · exact ⟨hz, k, hk', a, b⟩
          · rw [List.mem_singleton.1 hk'] at a b
            exact absurd ⟨h, a, b, hz⟩ hop

/-- A drive of one line of a unit that obeys the law does what `LineDriven` says. -/
theorem drive_lineDriven (hs : o.GroupedSafe) (hk : o.GapKept) (l : Line) : LineDriven o (o.drive now l) l now where
  lines m := drive_line o now l m
  groups g := drive_group o now l (hs l) g
  trip := drive_trip o now l
  opened g hg hl hz := (drive_notices_eq o now l (hs l)).1 g hg hl hz (by
    cases hh : (o.group g).holdoff with
    | none => rfl
    | some x => exact absurd hz (hk g x hh).1)
  quiet := (drive_notices_eq o now l (hs l)).2

/-- A drive of every line of a unit that obeys the law does what `Driven` says. -/
theorem driveAll_driven (hi : o.Interlocked) (hs : o.GroupedSafe) (hk : o.GapKept) : Driven o (o.driveAll now) now where
  lines l := driveAll_line o now l
  still g h := (drives_groups o now hi hs hk (indices 16) g).1 (fun l _ => h l)
  guarded g l a b hz := ((drives_groups o now hi hs hk (indices 16) g).2 l (mem_indices l) a b).1 hz
  opened g l a b hz := ((drives_groups o now hi hs hk (indices 16) g).2 l (mem_indices l) a b).2 hz
  notices := by
    obtain ⟨gs, hgs, hnd, hmem⟩ := drives_notices o now hi hs hk (indices 16) (by decide)
    exact ⟨gs, hgs, hnd, fun g => by
      rw [hmem]
      exact and_congr_right fun _ => ⟨fun ⟨l, _, x⟩ => ⟨l, x⟩, fun ⟨l, x⟩ => ⟨l, mem_indices l, x⟩⟩⟩

end OutputUnit

end Sys2Proof.Machine
end

