-- ==== Sys2Proof/Laws/Session.lean ====
section
/-! SUPPORT. What the phase check, the decision of a halt, the empty-RUN check, a trip entry and a transfer of a claim do
to each block. -/

namespace Sys2Proof.Machine

/-! ### Attached ports -/

@[simp] theorem mem_attachedPorts (s : State) (p : Port) : p ∈ s.attachedPorts ↔ s.attached p = true := by
  simp [State.attachedPorts]

/-- States whose ports are ATTACHED alike have the same list of ATTACHED ports. -/
theorem attachedPorts_congr {s t : State} (h : ∀ p, t.attached p = s.attached p) : t.attachedPorts = s.attachedPorts := by
  simp [State.attachedPorts, show t.attached = s.attached from funext h]

@[simp] theorem setSession_attachedPorts (s : State) (b : Session) : (s.setSession b).attachedPorts = s.attachedPorts :=
  rfl

@[simp] theorem takeHead_attachedPorts (p : Port) (s : State) : (takeHead p s).attachedPorts = s.attachedPorts :=
  attachedPorts_congr (by simp)

@[simp] theorem answer_attachedPorts (t : Ticket) (st : Status) (b : List Byte) (s : State) :
    (answer t st b s).attachedPorts = s.attachedPorts := attachedPorts_congr (by simp)

@[simp] theorem postAll_attachedPorts (e : EventRecord) (s : State) :
    (postAll e s).attachedPorts = s.attachedPorts := attachedPorts_congr (by simp)

/-- The phase check succeeds exactly in SETUP outside a halt, with some port ATTACHED and every ATTACHED port
confirmed. -/
theorem agreed_iff (s : State) :
    s.agreed = true ↔ s.session.phase = .setup ∧ s.session.haltCleanup = false ∧ (∃ p, s.attached p = true)
      ∧ ∀ p, s.attached p = true → look s.session.confirmed p = true := by
  have : s.attachedPorts.isEmpty = false ↔ ∃ p, s.attached p = true := by
    rw [List.isEmpty_eq_false_iff_exists_mem]; simp
  simp [State.agreed, this, and_assoc]

/-- A halt is decided exactly in RUN, with some port ATTACHED and the vote of every ATTACHED port. -/
theorem decidesHalt_iff (s : State) :
    s.decidesHalt = true ↔ s.session.phase = .run ∧ (∃ p, s.attached p = true)
      ∧ ∀ p, s.attached p = true → look s.session.voted p = true := by
  have : s.attachedPorts.isEmpty = false ↔ ∃ p, s.attached p = true := by
    rw [List.isEmpty_eq_false_iff_exists_mem]; simp
  simp [State.decidesHalt, this, and_assoc]

/-! ### Drives as events of the state -/

section Drives

variable (s : State) (l : Line)

@[simp] theorem driveEvery_output : (driveEvery s).output = s.output.driveAll s.now := by simp [driveEvery]
@[simp] theorem driveEvery_timeBase : (driveEvery s).timeBase = s.timeBase := by simp [driveEvery]
@[simp] theorem driveEvery_inputs : (driveEvery s).inputs = s.inputs := by simp [driveEvery]
@[simp] theorem driveEvery_cueTable : (driveEvery s).cueTable = s.cueTable := by simp [driveEvery]
@[simp] theorem driveEvery_pending : (driveEvery s).pending = s.pending := by simp [driveEvery]
@[simp] theorem driveEvery_now : (driveEvery s).now = s.now := by simp [driveEvery]
@[simp] theorem driveEvery_port (p : Port) : (driveEvery s).port p = s.port p := by simp [driveEvery]
@[simp] theorem driveEvery_session : (driveEvery s).session = s.session := by simp [driveEvery]
@[simp] theorem driveEvery_ports : (driveEvery s).ports = s.ports := by simp [driveEvery]
@[simp] theorem driveEvery_claims : (driveEvery s).claims = s.claims := by simp [driveEvery]
@[simp] theorem driveEvery_arbiter : (driveEvery s).arbiter = s.arbiter := by simp [driveEvery]
@[simp] theorem driveLine_output : (driveLine l s).output = s.output.drive s.now l := by simp [driveLine]
@[simp] theorem driveLine_timeBase : (driveLine l s).timeBase = s.timeBase := by simp [driveLine]
@[simp] theorem driveLine_inputs : (driveLine l s).inputs = s.inputs := by simp [driveLine]
@[simp] theorem driveLine_cueTable : (driveLine l s).cueTable = s.cueTable := by simp [driveLine]
@[simp] theorem driveLine_arbiter : (driveLine l s).arbiter = s.arbiter := by simp [driveLine]
@[simp] theorem driveLine_session : (driveLine l s).session = s.session := by simp [driveLine]
@[simp] theorem driveLine_ports : (driveLine l s).ports = s.ports := by simp [driveLine]
@[simp] theorem driveLine_pending : (driveLine l s).pending = s.pending := by simp [driveLine]
@[simp] theorem driveLine_claims : (driveLine l s).claims = s.claims := by simp [driveLine]

end Drives

/-! ### Trip entry (R108) -/

section Trip

variable (cause : TripCause) (s : State)

@[simp] theorem tripEntry_timeBase : (tripEntry cause s).timeBase = s.timeBase := by simp [tripEntry, driveEvery]
@[simp] theorem tripEntry_inputs : (tripEntry cause s).inputs = s.inputs := by simp [tripEntry, driveEvery]
@[simp] theorem tripEntry_cueTable : (tripEntry cause s).cueTable = s.cueTable := by simp [tripEntry, driveEvery]
@[simp] theorem tripEntry_claims : (tripEntry cause s).claims = s.claims := by simp [tripEntry, driveEvery]
@[simp] theorem tripEntry_arbiter : (tripEntry cause s).arbiter = s.arbiter := by simp [tripEntry, driveEvery]
@[simp] theorem tripEntry_session : (tripEntry cause s).session = s.session := by simp [tripEntry, driveEvery]
@[simp] theorem tripEntry_pending : (tripEntry cause s).pending = s.pending := by simp [tripEntry, driveEvery]

/-- The trip record and the drive of every line. -/
theorem tripEntry_output :
    (tripEntry cause s).output = ({ s.output with trip := .tripped cause s.now } : OutputUnit).driveAll s.now := by
  simp [tripEntry, driveEvery]

/-- TRIPPED is posted to every ATTACHED port. -/
@[simp] theorem tripEntry_port (q : Port) :
    (tripEntry cause s).port q = (s.port q).receive (trippedRecord cause s.now) := by
  simp [tripEntry, driveEvery]

end Trip

/-! ### The phase check, the decision of a halt and the empty-RUN check (R160, R163, R166) -/

/-- A phase check that succeeds: RUN, and PHASE to every ATTACHED port. -/
theorem phaseCheck_of_agreed {s : State} (h : s.agreed = true) :
    phaseCheck s = postAll (phaseRecord .run s.session.version s.now)
      (s.setSession { s.session with phase := .run }) := by simp [phaseCheck, h]

/-- A phase check that fails changes nothing. -/
theorem phaseCheck_of_not {s : State} (h : s.agreed = false) : phaseCheck s = s := by simp [phaseCheck, h]

/-- Whatever the phase check finds, it leaves every block but the session and the ports alone. -/
theorem phaseCheck_changes (s : State) : ChangesOnly [.session, .ports] s (phaseCheck s) := by
  unfold phaseCheck
  split
  · refine ⟨by simp, fun b hb => ?_⟩
    cases b <;> simp_all [Block.same]
  · refine ⟨rfl, fun b hb => ?_⟩
    cases b <;> simp_all [Block.same]

section Halt

variable (p : Port) (w : HaltWaiter) (s : State)

@[simp] theorem decideHalt_timeBase : (decideHalt p w s).timeBase = s.timeBase := by simp [decideHalt]
@[simp] theorem decideHalt_inputs : (decideHalt p w s).inputs = s.inputs := by simp [decideHalt]
@[simp] theorem decideHalt_cueTable : (decideHalt p w s).cueTable = s.cueTable := by simp [decideHalt]
@[simp] theorem decideHalt_claims : (decideHalt p w s).claims = s.claims := by simp [decideHalt]
@[simp] theorem decideHalt_ports : (decideHalt p w s).ports = s.ports := by simp [decideHalt]
@[simp] theorem decideHalt_pending : (decideHalt p w s).pending = s.pending := by simp [decideHalt]
@[simp] theorem decideHalt_output : (decideHalt p w s).output = s.output.driveAll s.now := by simp [decideHalt]
@[simp] theorem decideHalt_session : (decideHalt p w s).session =
    { s.session with phase := .setup, haltCleanup := true, haltWaiter := some w } := by
  simp [decideHalt]

end Halt

/-- An empty-RUN check that fails changes nothing; one that succeeds makes the phase SETUP and drives every line. -/
theorem emptyRunCheck_cases (s : State) :
    emptyRunCheck s = s ∨ emptyRunCheck s = driveEvery (s.setSession { s.session with phase := .setup }) := by
  unfold emptyRunCheck
  split
  · exact .inr rfl
  · exact .inl rfl

/-! ### Transfers (R124, R126, R131) -/

section Transfer

variable (p : Port) (l : Line) (s : State)

/-- A transfer by a port that no longer holds the line leaves everything. -/
theorem transferLine_of_not_holder (h : s.claims.holder l ≠ some p) : transferLine p l s = s := by
  simp [transferLine, h]

/-- A transfer by the holder: the line's record passes on, and CLAIM_GRANTED goes to the heir. -/
theorem transferLine_of_holder (h : s.claims.holder l = some p) :
    transferLine p l s =
      (match (s.claims.record l).heir s.session.phase with
        | some q => post q (claimGrantedRecord l s.now)
        | none => id)
      (s.setClaims (s.claims.setRecord l ((s.claims.record l).transferred s.session.phase s.now))) := by
  unfold transferLine
  simp only [h, if_true]
  cases (s.claims.record l).heir s.session.phase <;> rfl

@[simp] theorem transferLine_cueTable : (transferLine p l s).cueTable = s.cueTable := by
  unfold transferLine
  split
  · simp only; split <;> simp
  · rfl

@[simp] theorem transferLine_output : (transferLine p l s).output = s.output := by
  unfold transferLine
  split
  · simp only; split <;> simp
  · rfl

@[simp] theorem transferLine_session : (transferLine p l s).session = s.session := by
  unfold transferLine
  split
  · simp only; split <;> simp
  · rfl

end Transfer

end Sys2Proof.Machine
end

