-- ==== Sys2Proof/Laws/Frame.lean ====
section
/-! SUPPORT. Which blocks an operation leaves alone and which records it posts, composed step by step. -/

namespace Sys2Proof.Machine

/-- Nothing differs from itself. -/
theorem changesOnly_refl (bs : List Block) (s : State) : ChangesOnly bs s s :=
  ⟨rfl, fun b _ => by cases b <;> rfl⟩

/-- What two operations in turn leave alone. -/
theorem changesOnly_trans {bs : List Block} {s t u : State} (h : ChangesOnly bs s t) (k : ChangesOnly bs t u) :
    ChangesOnly bs s u :=
  ⟨k.1.trans h.1, fun b hb => by
    have h1 := h.2 b hb; have h2 := k.2 b hb
    cases b <;> exact h2.trans h1⟩

/-- Posting nothing. -/
theorem portReceives_nil (s : State) (p : Port) : PortReceives s s p [] := fun q => by simp

/-- Records posted by two operations in turn. -/
theorem portReceives_trans {s t u : State} {p : Port} {es fs : List EventRecord} (h : PortReceives s t p es)
    (k : PortReceives t u p fs) : PortReceives s u p (es ++ fs) := fun q => by
  rw [k q, List.foldl_append]
  by_cases e : q = p
  · subst e; simp [h q]
  · simp [e, h q]

/-- Posting one record to a port (R188). -/
theorem portReceives_post (p : Port) (e : EventRecord) (s : State) : PortReceives s (post p e s) p [e] := fun q => by
  rw [post_port]; by_cases h : q = p <;> simp [h]

/-- The ports alone decide what was posted. -/
theorem portReceives_of_ports {s t u : State} {p : Port} {es : List EventRecord} (h : PortReceives s t p es)
    (e : u.ports = t.ports) : PortReceives s u p es := fun q => by
  rw [← h q]; simp only [State.port, e]

/-- A new cue table. -/
theorem changesOnly_setCueTable (s : State) (ct : CueTable) : ChangesOnly [.cueTable, .ports] s (s.setCueTable ct) :=
  ⟨rfl, fun b hb => by cases b <;> simp_all [Block.same]⟩

/-- A record posted. -/
theorem changesOnly_post (s : State) (p : Port) (e : EventRecord) : ChangesOnly [.cueTable, .ports] s (post p e s) :=
  ⟨by simp, fun b hb => by cases b <;> simp_all [Block.same]⟩

/-- What an operation on a cue does beside the table: only table and ports differ, and one port is posted records. -/
structure Told (s t : State) (p : Port) (es : List EventRecord) : Prop where
  only : ChangesOnly [.cueTable, .ports] s t
  told : PortReceives s t p es

/-- Two operations in turn. -/
theorem Told.trans {s t u : State} {p : Port} {es fs : List EventRecord} (h : Told s t p es) (k : Told t u p fs) :
    Told s u p (es ++ fs) := ⟨changesOnly_trans h.only k.only, portReceives_trans h.told k.told⟩

end Sys2Proof.Machine
end

