-- ==== Sys2Proof/Laws/Claims.lean ====
section
/-! SUPPORT. Which RELEASE of a port an event takes, and what a transfer of a line can do. -/

namespace Sys2Proof.Machine

/-! ### Releases at a stage -/

section Releases

variable {u : ClaimUnit} {p : Port} {st : ReleaseStage} {j : ReleaseJob} {before after : List ReleaseJob}

/-- The port's RELEASE has come to the stage. -/
theorem releaseAt_some (h : look u.releases p = some j) (hj : j.stage = st) : u.releaseAt p st = some j := by
  simp [ClaimUnit.releaseAt, h, hj]

/-- The port has no RELEASE at the stage. -/
theorem releaseAt_none (h : ∀ k, look u.releases p = some k → k.stage ≠ st) : u.releaseAt p st = none := by
  unfold ClaimUnit.releaseAt
  cases e : look u.releases p with
  | none => rfl
  | some k => simp [h k e]

/-- The oldest late RELEASE at a stage stands behind those at another. -/
theorem lateAt_some (h : look u.late p = before ++ j :: after) (hb : ∀ k, k ∈ before → k.stage ≠ st)
    (hj : j.stage = st) : u.lateAt p st = some j := by
  have none : before.find? (fun k => k.stage == st) = none := by simpa using hb
  simp [ClaimUnit.lateAt, h, List.find?_append, none, hj]

/-- A RELEASE of the port that is a late one is not the present one. -/
theorem late_not_present (n : ∀ k, look u.releases p = some k → k.stage ≠ st) (hj : j.stage = st) :
    look u.releases p ≠ some j := fun e => n j e hj

/-- The port's present RELEASE is served first. -/
theorem served_present (h : look u.releases p = some j) (hj : j.stage = st) : u.served p st = some j := by
  simp [ClaimUnit.served, releaseAt_some h hj]

/-- With no present RELEASE at the stage the oldest late one is served. -/
theorem served_late (n : ∀ k, look u.releases p = some k → k.stage ≠ st) (h : look u.late p = before ++ j :: after)
    (hb : ∀ k, k ∈ before → k.stage ≠ st) (hj : j.stage = st) : u.served p st = some j := by
  simp [ClaimUnit.served, releaseAt_none n, lateAt_some h hb hj]

/-- The present RELEASE moves on, or is over. -/
theorem moveRelease_present (h : look u.releases p = some j) (next : Option ReleaseJob) :
    u.moveRelease p j next = { u with releases := put u.releases p next } := by
  simp [ClaimUnit.moveRelease, h, ClaimUnit.setRelease]

/-- A late RELEASE moves on in its place, or is over and leaves the others. -/
theorem moveRelease_late (n : ∀ k, look u.releases p = some k → k.stage ≠ st)
    (h : look u.late p = before ++ j :: after) (hb : ∀ k, k ∈ before → k.stage ≠ st) (hj : j.stage = st)
    (next : Option ReleaseJob) :
    u.moveRelease p j next = { u with late := put u.late p (before ++ next.toList ++ after) } := by
  have out : j ∉ before := fun m => hb j m hj
  cases next with
  | none => simp [ClaimUnit.moveRelease, late_not_present n hj, change, h, List.erase_append_right _ out]
  | some k => simp [ClaimUnit.moveRelease, late_not_present n hj, change, h, List.replace_append_right out]

/-- The RELEASE that an event at its stage takes. -/
theorem served_of_serves {moved : Option ReleaseJob → ClaimUnit} (h : u.Serves p j moved) :
    u.served p j.stage = some j := by
  rcases h with ⟨h, _⟩ | ⟨n, before, after, h, hb, _⟩
  · exact served_present h rfl
  · exact served_late n h hb rfl

/-- The claim unit once that RELEASE has moved on, or is over. -/
theorem moveRelease_of_serves {moved : Option ReleaseJob → ClaimUnit} (h : u.Serves p j moved)
    (next : Option ReleaseJob) : u.moveRelease p j next = moved next := by
  rcases h with ⟨h, m⟩ | ⟨n, before, after, h, hb, m⟩
  · rw [m, moveRelease_present h]
  · rw [m, moveRelease_late n h hb rfl]

/-- A RELEASE that moves on touches no claim record. -/
theorem moveRelease_records (p : Port) (j : ReleaseJob) (next : Option ReleaseJob) (rs : Vector ClaimRecord 16) :
    ({ u with records := rs } : ClaimUnit).moveRelease p j next = { u.moveRelease p j next with records := rs } := by
  unfold ClaimUnit.moveRelease ClaimUnit.setRelease
  split
  · rfl
  · cases next <;> rfl

/-- A port release that completes sends its notice, and a RELEASE of a lapsed port that is not over is late from then on
(R131; log 16). -/
theorem complete_notified (why : Departure) (owes : Option Ticket) :
    u.complete p why owes = u.notified p why owes := by
  cases why with
  | lapse => rfl
  | detach =>
    cases owes with
    | none => simp [ClaimUnit.complete, ClaimUnit.notified, ClaimUnit.setDeparture]
    | some t => rfl

end Releases

/-! ### Transfers -/

/-- A release may take its line exactly when it is the present one or no cue of the port stands on the line. -/
theorem mayTransfer_iff (s : State) (p : Port) (j : ReleaseJob) : s.mayTransfer p j = true ↔
    look s.claims.releases p = some j ∨ ∀ i c, s.cueTable.cue i = some c → c.line = j.line → c.owner ≠ p := by
  have bare : (s.cueTable.cuesOn p j.line).isEmpty = true ↔
      ∀ i c, s.cueTable.cue i = some c → c.line = j.line → c.owner ≠ p := by
    unfold CueTable.cuesOn
    rw [List.isEmpty_iff, List.eq_nil_iff_forall_not_mem]
    refine forall_congr' fun i => ?_
    rw [CueTable.mem_slotsWith]
    simp only [Bool.and_eq_true, beq_iff_eq, not_exists, not_and]
    exact forall_congr' fun c => forall_congr' fun _ => ⟨fun h l o => h o l, fun h o l => h l o⟩
  unfold State.mayTransfer
  rw [Bool.or_eq_true, bare, beq_iff_eq]

/-- Of the ports, a transfer changes only the port it gives the line to. -/
theorem transferLine_port (p : Port) (l : Line) (s : State) (q : Port) :
    (transferLine p l s).port q = s.portAfter p l q := by
  unfold transferLine State.portAfter
  by_cases h : s.claims.holder l = some p
  · simp only [h, if_true, true_and]
    unfold ClaimRecord.heir
    cases hp : s.session.phase
    · simp
    · cases hw : (s.claims.record l).waiters with
      | nil => simp
      | cons a b => simp [claimGrantedRecord, post_port, eq_comm]
  · simp [h]

/-- Of the claim unit, a transfer changes only the line's record. -/
theorem transferLine_claims (p : Port) (l : Line) (s : State) :
    (transferLine p l s).claims = { s.claims with records := put s.claims.records l (s.recordAfter p l) } := by
  unfold transferLine State.recordAfter
  by_cases h : s.claims.holder l = some p
  · simp only [h, if_true]
    unfold ClaimRecord.heir ClaimRecord.transferred
    cases hp : s.session.phase
    · simp [ClaimUnit.setRecord]
    · cases hw : (s.claims.record l).waiters with
      | nil => simp [ClaimUnit.setRecord]
      | cons a b => simp [ClaimUnit.setRecord]
  · simp [h, ClaimUnit.record]

/-- A transfer changes claims and ports only. -/
theorem transferLine_only (p : Port) (l : Line) (s : State) :
    ChangesOnly [.claims, .ports] s (transferLine p l s) := by
  have given : ∀ u : ClaimUnit, ChangesOnly [.claims, .ports] s (s.setClaims u) := fun u =>
    ⟨rfl, fun b hb => by cases b <;> simp_all [Block.same]⟩
  unfold transferLine
  split
  · dsimp only
    split
    · exact ⟨by simp, fun b hb => by cases b <;> simp_all [Block.same]⟩
    · exact given _
  · exact changesOnly_refl _ _

end Sys2Proof.Machine
end

