-- ==== Sys2Proof/Laws/Firing.lean ====
section
/-! SUPPORT. What continuation, the catch-up rule, the release of a deferred list and the application of staged records
do, said once. -/

namespace Sys2Proof.Machine

/-! ### Staged records (R69) -/

theorem appliedTo_applyRecord (r : StagedRecord) (c : Cue) : AppliedTo r c (c.applyRecord r) := by
  obtain ⟨a, w, p, n, x⟩ := r
  refine ⟨?_, ?_, ?_⟩
  · cases a with
    | some a => cases a <;> rfl
    | none => cases w <;> simp [Cue.applyRecord, Option.orElse]
  · cases p <;> rfl
  · cases n <;> simp only [Cue.applyRecord, Option.isNone_iff_eq_none]

/-- The record determines what it makes of a cue. -/
theorem applyRecord_of_appliedTo {r : StagedRecord} {c c' : Cue} (h : AppliedTo r c c') : c' = c.applyRecord r := by
  obtain ⟨h1, h2, h3⟩ := h
  obtain ⟨g1, g2, g3⟩ := appliedTo_applyRecord r c
  have e2 : c'.period = (c.applyRecord r).period := h2.trans g2.symm
  have e3 : c'.remaining = (c.applyRecord r).remaining := by rw [h3, g3, e2]
  rw [h1, g1, e2, e3]

/-! ### Slots freed and cues that go on (R17, R21) -/

/-- Freeing a slot that holds a cue. -/
theorem slotFreed_freeSlot {ct : CueTable} {i : SlotId} {c : Cue} (h : ct.cue i = some c) :
    SlotFreed ct (ct.freeSlot i) i c where
  cues j := CueTable.freeSlot_cue ct i j
  gens j := by rw [CueTable.freeSlot_gen]; simp [h]
  pending := CueTable.freeSlot_pendingList ct i c h
  deferred g := CueTable.freeSlot_deferred ct i c h g
  sets k := CueTable.freeSlot_commitSet ct i c h k
  entry := by simp [CueTable.freeSlot, h, CueTable.unlistAll]; cases c.set <;> rfl

/-- The same when the slot has been taken off the head of the pending list. -/
theorem slotFreed_of_taken {ct : CueTable} {i : SlotId} {rest : List SlotId} {c : Cue} (hp : ct.pendingList = i :: rest)
    (h : ct.cue i = some c) : SlotFreed ct (({ ct with pendingList := rest } : CueTable).freeSlot i) i c := by
  have hf := slotFreed_freeSlot (ct := { ct with pendingList := rest }) (i := i) (c := c) h
  exact ⟨hf.cues, hf.gens, by rw [hf.pending, hp]; simp, hf.deferred, hf.sets, hf.entry⟩

/-- A cue taken off the head of the pending list that enters it again. -/
theorem goesOn_enter (ct : CueTable) (now : Time) (i : SlotId) (rest : List SlotId) (c : Cue) :
    GoesOn ct (({ ct with pendingList := rest } : CueTable).enter now i c) i rest c where
  cues j := by rw [CueTable.enter_cue]; rfl
  gens j := CueTable.enter_gen _ _ _ _ _
  pending := CueTable.perm_enter _ _ _ _
  deferred := rfl
  sets := rfl
  entry := rfl

/-! ### Continuation (R53 to R55, R74) -/

/-- Promotion of a cue without a set-less record changes nothing. -/
theorem promote_of_none {c : Cue} (h : c.staged = none ∨ c.set.isSome = true) : c.promote = (c, 0) := by
  unfold Cue.promote
  rcases h with h | h
  · simp [h]
  · cases e : c.set <;> simp_all

/-- Promotion of a set-less record. -/
theorem promote_of_record {c : Cue} {r : StagedRecord} (h : c.staged = some r) (hs : c.set = none) :
    c.promote = (c.applyRecord r, r.shift.getD 0) := by
  simp [Cue.promote, h, hs]

/-- A cue without a period after promotion retires. -/
theorem continueCue_of_oneShot {s : State} {i : SlotId} {c c' : Cue} {shift : Triple} (h : c.promote = (c', shift))
    (hp : c'.period = none) : continueCue i c s = retire i c'.decrement s := by
  simp [continueCue, h, Cue.decrement, Cue.isOver, hp]

/-- A cue with a period and occurrences left, whose next grid due is ahead of now, enters the pending list again. -/
theorem continueCue_of_ahead {s : State} {i : SlotId} {c c' : Cue} {period shift : Triple}
    (h : c.promote = (c', shift)) (hp : c'.period = some period) (hr : c'.remaining ≠ some 1)
    (ha : isAhead s.now (shifted (later c'.gridDue period.toNat) shift) = true) :
    continueCue i c s = s.setCueTable (s.cueTable.enter s.now i
      { c' with remaining := c'.remaining.map (fun n => n - 1),
                gridDue := shifted (later c'.gridDue period.toNat) shift, effDue := none }) := by
  have goes : c'.decrement.isOver = false := by
    cases e : c'.remaining with
    | none => simp [Cue.decrement, Cue.isOver, hp, e]
    | some n =>
      have hn : n ≠ 1 := fun x => hr (by rw [e, x])
      have : n - 1 ≠ 0 := fun x => hn (by simpa using sub_eq_zero.1 x)
      simpa [Cue.decrement, Cue.isOver, hp, e] using this
  have grid : (c'.decrement.advanced shift).gridDue = shifted (later c'.gridDue period.toNat) shift := by
    simp [Cue.advanced, Cue.decrement, hp]
  simp only [continueCue, h, goes, advance, grid, ha, if_true, Bool.false_eq_true, if_false, enterPending]
  simp [Cue.advanced, Cue.decrement, hp]

/-! ### Skipping (R58) -/

theorem toNat_later (t : Time) (n : Nat) : (later t n).toNat = (t.toNat + n) % 4294967296 := by
  simp [later, BitVec.toNat_add]

theorem distance_eq (a b : Time) : distance a b = (b.toNat + 4294967296 - a.toNat) % 4294967296 := by
  have ha := a.isLt; have hb := b.isLt
  simp only [distance, BitVec.toNat_sub]
  omega

/-- The grid due `m` periods on is not ahead of now while `m` periods do not pass the distance to now. -/
theorem not_ahead_of_passed {now due : Time} {step : Nat} (h : isAhead now due = false) (hs : step ≤ distance due now) :
    isAhead now (later due step) = false := by
  have hn := now.isLt; have hd := due.isLt
  simp only [isAhead, Config.aheadWindow, distance_eq, toNat_later, Bool.and_eq_false_iff,
    decide_eq_false_iff_not] at h hs ⊢
  omega

/-- The first grid due past now is ahead of it. -/
theorem ahead_of_past {now due : Time} {step : Nat} (hs : distance due now < step)
    (hb : step ≤ distance due now + 16777216) : isAhead now (later due step) = true := by
  have hn := now.isLt; have hd := due.isLt
  simp only [isAhead, Config.aheadWindow, distance_eq, toNat_later, Bool.and_eq_true, decide_eq_true_eq] at hs hb ⊢
  omega

/-! ### Continuation, whole (R53 to R59) -/

/-- Retirement posts DONE if notify asks and frees the slot. -/
theorem retire_spec (s : State) (i : SlotId) (d : Cue) :
    Told s (retire i d s) d.owner
        (if d.notify then [cueRecord .done d (s.cueTable.handle i) 0 s.now] else [])
      ∧ (retire i d s).cueTable = s.cueTable.freeSlot i := by
  unfold retire postCue
  by_cases h : d.notify = true
  · simp only [h, if_true]
    exact ⟨⟨changesOnly_trans (changesOnly_post _ _ _) (changesOnly_setCueTable _ _),
      portReceives_of_ports (portReceives_post _ _ _) (by simp)⟩, by simp⟩
  · simp only [h]
    exact ⟨⟨changesOnly_setCueTable _ _, portReceives_of_ports (portReceives_nil _ _) (by simp)⟩, by simp⟩

/-- MISSED is posted on the rise from 0, and nothing else changes. -/
theorem postMissed_spec (s : State) (i : SlotId) (d : Cue) :
    Told s (postMissed i d s) d.owner
        (if d.missed = 0 then [cueRecord .missed d (s.cueTable.handle i) 1 s.now] else [])
      ∧ (postMissed i d s).cueTable = s.cueTable ∧ (postMissed i d s).now = s.now := by
  unfold postMissed postCue
  by_cases h : d.missed = 0
  · simp only [h, if_true]
    exact ⟨⟨changesOnly_post _ _ _, portReceives_post _ _ _⟩, by simp, by simp⟩
  · simp only [h, if_false]
    exact ⟨⟨changesOnly_refl _ _, portReceives_nil _ _⟩, by simp⟩

/-- Entering the pending list posts nothing. -/
theorem enterPending_told (s : State) (i : SlotId) (d : Cue) (p : Port) : Told s (enterPending i d s) p [] :=
  ⟨changesOnly_setCueTable _ _, portReceives_of_ports (portReceives_nil _ _) (by simp [enterPending])⟩

/-- Of the cue freed only its set matters. -/
theorem slotFreed_set {ct ct' : CueTable} {i : SlotId} {c d : Cue} (h : SlotFreed ct ct' i c) (e : c.set = d.set) :
    SlotFreed ct ct' i d := ⟨h.cues, h.gens, h.pending, h.deferred, by rw [← e]; exact h.sets, h.entry⟩

/-- Continuation of a cue taken off the head of the pending list does what `Continued` says, whatever the outcome and a
promotion have made of the cue. -/
theorem continueCue_continued {s : State} {ct : CueTable} {i : SlotId} {rest : List SlotId} {c₀ c c' : Cue}
    {shift : Triple} (hs : s.cueTable = { ct with pendingList := rest }) (hp : ct.pendingList = i :: rest)
    (hc : ct.cue i = some c₀) (hset : c₀.set = c.set) (hpro : c.promote = (c', shift))
    (hf : c'.owner = c.owner ∧ c'.line = c.line ∧ c'.notify = c.notify) :
    ∃ es, Told s (continueCue i c s) c.owner es
      ∧ Continued ct (continueCue i c s).cueTable s.now i rest c c' shift es := by
  have hh : ∀ t : State, t.cueTable = s.cueTable → t.cueTable.handle i = ct.handle i := by
    intro t e; rw [e, hs]; rfl
  have hfree : ∀ t : State, t.cueTable = s.cueTable → SlotFreed ct (t.cueTable.freeSlot i) i c := by
    intro t e; rw [e, hs]; exact slotFreed_set (slotFreed_of_taken hp hc) hset
  have hgo : ∀ (t : State) (d : Cue), t.cueTable = s.cueTable → t.now = s.now →
      GoesOn ct (enterPending i d t).cueTable i rest d := by
    intro t d e e'; simp only [enterPending, setCueTable_cueTable, e, hs]
    exact goesOn_enter _ _ _ _ _
  have hret : ∀ (t : State) (d : Cue), t.cueTable = s.cueTable → t.now = s.now → d.owner = c.owner →
      d.line = c.line → d.notify = c.notify →
      Told t (retire i d t) c.owner (if c.notify then
          [{ kind := .done, aux := lineCode c.line, ref := ct.handle i, value := 0, time := s.now }] else [])
        ∧ SlotFreed ct (retire i d t).cueTable i c := by
    intro t d e en e1 e2 e3
    obtain ⟨a, b⟩ := retire_spec t i d
    rw [b]
    refine ⟨?_, hfree t e⟩
    simpa only [cueRecord, e1, e2, e3, en, hh t e] using a
  obtain ⟨f1, f2, f3⟩ := hf
  unfold continueCue
  simp only [hpro]
  cases hper : c'.period with
  | none =>
    have ho : c'.decrement.isOver = true := by simp [Cue.decrement, Cue.isOver, hper]
    simp only [ho, if_true]
    obtain ⟨a, b⟩ := hret s c'.decrement rfl rfl f1 f2 f3
    refine ⟨_, a, ?_⟩
    simp only [Continued, hper]
    exact ⟨b, by simp⟩
  | some period =>
    by_cases hr : c'.remaining = some 1
    · have ho : c'.decrement.isOver = true := by simp [Cue.decrement, Cue.isOver, hper, hr]
      simp only [ho, if_true]
      obtain ⟨a, b⟩ := hret s c'.decrement rfl rfl f1 f2 f3
      refine ⟨_, a, ?_⟩
      simp only [Continued, hper, hr, if_true]
      exact ⟨b, by simp⟩
    · have ho : c'.decrement.isOver = false := by
        cases e : c'.remaining with
        | none => simp [Cue.decrement, Cue.isOver, hper, e]
        | some n =>
          simp [Cue.decrement, Cue.isOver, hper, e]
          rw [e] at hr; simp at hr
          bv_omega
      simp only [ho, Bool.false_eq_true, if_false]
      have hadv : c'.decrement.advanced shift = { c' with
          remaining := c'.remaining.map (fun n => n - 1), effDue := none
          gridDue := shifted (later c'.gridDue period.toNat) shift } := by
        simp [Cue.advanced, Cue.decrement, hper]
      have hcont : ∀ ct₂ es, Continued ct ct₂ s.now i rest c c' shift es ↔
          (let next : Cue := c'.decrement.advanced shift
          let told (k : EventKind) (v : Half) : EventRecord :=
            { kind := k, aux := lineCode c.line, ref := ct.handle i, value := v, time := s.now }
          let done := if c.notify then [told .done 0] else []
          let missed := if c'.missed = 0 then [told .missed 1] else []
          if isAhead s.now next.gridDue = true then GoesOn ct ct₂ i rest next ∧ es = []
          else if c'.effDue = none ∧ c'.missPolicy = .fireLate then
            GoesOn ct ct₂ i rest (next.broughtDue s.now) ∧ es = []
          else if (next.skip s.now).2 = true then SlotFreed ct ct₂ i c ∧ es = missed ++ done
          else GoesOn ct ct₂ i rest (next.skip s.now).1 ∧ es = missed) := by
        intro ct₂ es
        rw [hadv]
        simp only [Continued, hper, hr, if_false, Cue.broughtDue]
      simp only [hcont, advance]
      have g1 : (c'.decrement.advanced shift).owner = c.owner := f1
      have g2 : (c'.decrement.advanced shift).line = c.line := f2
      have g3 : (c'.decrement.advanced shift).notify = c.notify := f3
      have g4 : (c'.decrement.advanced shift).missed = c'.missed := rfl
      have g5 : (c'.decrement.advanced shift).missPolicy = c'.missPolicy := rfl
      have g6 : c'.decrement.effDue = c'.effDue := rfl
      generalize c'.decrement.advanced shift = next at *
      rw [g5, g6]
      by_cases ha : isAhead s.now next.gridDue = true
      · simp only [ha, if_true]
        exact ⟨[], enterPending_told _ _ _ _, hgo s _ rfl rfl, rfl⟩
      · by_cases hm : c'.effDue = none ∧ c'.missPolicy = .fireLate
        · have : (c'.effDue.isSome || c'.missPolicy == .skip) = false := by simp [hm.1, hm.2]
          rw [if_neg ha, this]
          simp only [if_neg ha, if_pos hm]
          exact ⟨[], enterPending_told _ _ _ _, hgo s _ rfl rfl, rfl⟩
        · have : (c'.effDue.isSome || c'.missPolicy == .skip) = true := by
            cases e1 : c'.effDue <;> cases e2 : c'.missPolicy <;> simp_all
          rw [if_neg ha, if_pos this]
          simp only [if_neg ha, if_neg hm, catchUpSkip]
          obtain ⟨a, b, n⟩ := postMissed_spec s i next
          simp only [g1, cueRecord, g2, g4, hh s rfl] at a
          by_cases hk : (next.skip s.now).2 = true
          · simp only [if_pos hk]
            obtain ⟨a2, b2⟩ := hret _ (next.skip s.now).1 b n g1 g2 g3
            exact ⟨_, a.trans a2, b2, rfl⟩
          · simp only [if_neg hk]
            exact ⟨_, a.trans (enterPending_told _ _ _ _), hgo _ _ b n, by simp⟩

/-! ### The release of a deferred list (R62, R63) -/

/-- Releasing the slots of a list of distinct slots that hold cues: each becomes PENDING with the next entry order, and
joins the pending list. -/
theorem releases_spec (now : Time) (is : List SlotId) (ct : CueTable) (hd : is.Nodup)
    (hc : ∀ i, i ∈ is → (ct.cue i).isSome = true) :
    let ct' := is.foldl (CueTable.releaseOne now) ct
    (∀ i, i ∉ is → ct'.cue i = ct.cue i)
      ∧ (∀ k i c, is[k]? = some i → ct.cue i = some c →
          ct'.cue i = some { c.released now with state := .pending, entry := ct.nextEntry + k })
      ∧ ct'.pendingList.Perm (is ++ ct.pendingList) ∧ ct'.nextEntry = ct.nextEntry + is.length
      ∧ (∀ i, ct'.gen i = ct.gen i) ∧ ct'.deferred = ct.deferred ∧ ct'.sets = ct.sets := by
  induction is generalizing ct with
  | nil => simp
  | cons j rest ih =>
    obtain ⟨hj, hr⟩ := List.nodup_cons.1 hd
    obtain ⟨cj, ej⟩ := Option.isSome_iff_exists.1 (hc j (by simp))
    have e1 : ct.releaseOne now j = ct.enter now j (cj.released now) := by simp [CueTable.releaseOne, ej]
    simp only [List.foldl_cons, e1]
    obtain ⟨a, b, p, n, g, d, x⟩ := ih (ct.enter now j (cj.released now)) hr (by
      intro i hi
      rw [CueTable.enter_cue]
      split
      · simp
      · exact hc i (by simp [hi]))
    refine ⟨fun i hi => ?_, fun k i c hk he => ?_, ?_, ?_, fun i => ?_, ?_, ?_⟩
    · simp only [List.mem_cons, not_or] at hi
      rw [a i hi.2, CueTable.enter_cue, if_neg hi.1]
    · cases k with
      | zero =>
        simp only [List.getElem?_cons_zero, Option.some.injEq] at hk
        subst hk
        rw [a j hj, CueTable.enter_cue, if_pos rfl]
        rw [ej] at he; cases he; rfl
      | succ k =>
        simp only [List.getElem?_cons_succ] at hk
        have hi : i ∈ rest := List.mem_of_getElem? hk
        have hne : i ≠ j := fun e => hj (e ▸ hi)
        rw [b k i c hk (by rw [CueTable.enter_cue, if_neg hne]; exact he), CueTable.enter_nextEntry]
        simp [Nat.add_comm, Nat.add_left_comm]
    · refine p.trans ?_
      refine (List.Perm.append_left rest (CueTable.perm_enter ct now j _)).trans ?_
      exact List.perm_middle
    · rw [n, CueTable.enter_nextEntry, List.length_cons]; omega
    · rw [g, CueTable.enter_gen]
    · rw [d, CueTable.enter_deferred]
    · rw [x, CueTable.enter_sets]

/-! ### An applying expiry without shifts (R81, R83) -/

/-- A member whose record brings no shift takes the record's fields, and nothing else changes. -/
theorem applyMember_of_noShift {s : State} {i : SlotId} {c : Cue} {r : StagedRecord} (hc : s.cueTable.cue i = some c)
    (hr : c.staged = some r) (hs : r.shift = none ∨ r.shift = some 0) :
    applyMember s i = s.setCueTable (s.cueTable.setCue i (c.applyRecord r)) := by
  rcases hs with hs | hs <;> simp [applyMember, hc, hr, hs, storeCue]

/-- The members of a set one after another, none with a shift. -/
theorem applyMembers_spec (is : List SlotId) (s : State) (hd : is.Nodup)
    (hm : ∀ i, i ∈ is → ∃ c r, s.cueTable.cue i = some c ∧ c.staged = some r ∧ (r.shift = none ∨ r.shift = some 0)) :
    ∃ ct, is.foldl applyMember s = s.setCueTable ct
      ∧ (∀ i, i ∉ is → ct.cue i = s.cueTable.cue i)
      ∧ (∀ i c r, i ∈ is → s.cueTable.cue i = some c → c.staged = some r → ct.cue i = some (c.applyRecord r))
      ∧ (∀ i, ct.gen i = s.cueTable.gen i) ∧ ct.pendingList = s.cueTable.pendingList
      ∧ ct.deferred = s.cueTable.deferred ∧ ct.sets = s.cueTable.sets ∧ ct.nextEntry = s.cueTable.nextEntry := by
  induction is generalizing s with
  | nil => exact ⟨s.cueTable, rfl, by simp, by simp, by simp, rfl, rfl, rfl, rfl⟩
  | cons j rest ih =>
    obtain ⟨hj, hr⟩ := List.nodup_cons.1 hd
    obtain ⟨cj, rj, e1, e2, e3⟩ := hm j (by simp)
    have step := applyMember_of_noShift e1 e2 e3
    obtain ⟨ct, f, a, b, g, p, d, x, n⟩ := ih (s.setCueTable (s.cueTable.setCue j (cj.applyRecord rj))) hr (by
      intro i hi
      have hne : i ≠ j := fun e => hj (e ▸ hi)
      obtain ⟨c, r, y⟩ := hm i (by simp [hi])
      exact ⟨c, r, by simpa [CueTable.setCue_cue, hne] using y⟩)
    refine ⟨ct, by rw [List.foldl_cons, step, f]; rfl, fun i hi => ?_, fun i c r hi hc hs => ?_, fun i => ?_, by rw [p]; rfl,
      by rw [d]; rfl, by rw [x]; rfl, by rw [n]; rfl⟩
    · simp only [List.mem_cons, not_or] at hi
      rw [a i hi.2]; simp [CueTable.setCue_cue, hi.1]
    · by_cases hne : i = j
      · subst hne
        rw [a i hj]
        rw [e1] at hc; cases hc
        rw [e2] at hs; cases hs
        simp
      · have hi' : i ∈ rest := by simpa [hne] using hi
        exact b i c r hi' (by simpa [CueTable.setCue_cue, hne] using hc) hs
    · rw [g]; simp

end Sys2Proof.Machine
end

