-- ==== Sys2Proof/WellFormed.lean ====
section
/-! DEFINITION. Which terms of Instr are commands of the part. Ports, lines, groups and sets are bounded by their types;
the one check left is that a transfer of claims belongs to a release or to a port release, since the halt release is
one event of its own without transfers (R132). -/

namespace Sys2Proof

/-- A claim transfer ends a release by a holder or gives up a line of a leaving port (R126, R131), never the halt. -/
def Handover.transfers : Handover → Bool
  | .release _ => true
  | .departure _ _ => true
  | .halt => false

/-- The well-formed commands. -/
def Instr.wellFormed : Instr → Bool
  | .claimTransfer h => h.transfers
  | .deviceReset _ | .resetEnd | .tbStep | .faultLow | .faultHigh => true
  | .frameStart _ | .frameEnd _ _ | .presentRequest _ | .replyArrival _ | .eventPosted _ => true
  | .badKind _ | .portUnitNotAttached _ | .readTime _ | .readEvents _ | .ackEvents _ => true
  | .attach _ | .writeConfig _ | .readConfig _ | .confirm _ | .haltVote _ => true
  | .claim _ | .queryLine _ | .trip _ | .clearTrip _ => true
  | .addCue _ | .cancelCue _ | .queryCue _ | .stage _ | .unstage _ => true
  | .openSet _ | .commitSet _ | .abandonSet _ | .release _ | .detach _ => true
  | .releaseAtClaimUnit _ | .lapsePurge _ | .haltPurge | .safeLevelDrive _ => true
  | .portReleaseStart _ _ | .haltRelease | .detachCompletion _ | .haltCompletion => true
  | .lapse _ | .lapseCleanupCompletion _ | .occurrence | .commitTimeExpiry _ => true
  | .openingNotice _ | .pulseEndExpiry _ | .holdoffExpiry _ | .refclkPeriodEnd _ => true

end Sys2Proof
end

