-- ==== Sys2Proof/Tests/Slice0.lean ====
section
/-! SUPPORT. Small tests of the model on numbers the spec works out, and for each obligation with hypotheses a state and
operands that meet them, clause by clause. -/

namespace Sys2Proof.Tests

-- One theorem at a time: in parallel their kernel evaluations ask for more threads than the check gives.
set_option Elab.async false

open Sys2Proof.Machine

/-! ### The states of the tests -/

/-- A request with seq 7. -/
def ask (kind : Byte) (body : List Byte) : Request := { kind := kind, seq := 7, body := body }

/-- A port unit that is ATTACHED and holds nothing. -/
def attachedUnit : PortUnit := { PortUnit.reset with state := .attached }

/-- P0 and P1 ATTACHED in a phase. -/
def pairIn (phase : Phase) : State :=
  { State.reset with
    session := { Session.reset with phase := phase }
    ports := #v[attachedUnit, attachedUnit, PortUnit.reset, PortUnit.reset] }

/-- A request at the head of a port's queue. -/
def heads (p : Port) (r : Request) (s : State) : State := s.changePort p (fun u => { u with cmds := [r] })

/-- A request that waits on its leaf. -/
def waits (p : Port) (r : Request) (s : State) : State :=
  (heads p r s).setArbiter { s.arbiter with presented := put s.arbiter.presented p true }

/-- A one-shot SET of P0 on line 3, due at tick 0. -/
def cueNow : Cue :=
  { state := .pending, owner := 0, line := 3, action := .set, width := none, gridDue := 0, effDue := none,
    period := none, remaining := none, notify := true, missPolicy := .skip, missed := 0, staged := none, set := none,
    entry := 0 }

/-- A cue table with one PENDING cue, in slot 0. -/
def tableOf (c : Cue) : CueTable :=
  { CueTable.reset with slots := put CueTable.reset.slots 0 { gen := 5, cue := some c }, pendingList := [0],
                        nextEntry := 1 }

/-- A cue table with one DEFERRED cue, in slot 0 on G1's list. -/
def deferredTable (c : Cue) : CueTable :=
  { CueTable.reset with slots := put CueTable.reset.slots 0 { gen := 5, cue := some { c with state := .deferred } },
                        deferred := put CueTable.reset.deferred 0 [0], nextEntry := 1 }

/-- The output unit with lines 3 and 4 in G1 (gap 20), line 4 at a level, and a policy. -/
def grouped (level : Level) (policy : GroupPolicy) : OutputUnit :=
  ((OutputUnit.reset.setLine 3 { LineRecord.reset with group := some 0 }).setLine 4
    { LineRecord.reset with group := some 0, level := level }).setGroup 0
    { gap := 20, policy := policy, holdoff := none }

/-- A line held since tick 0 with a list of waiters. -/
def heldBy (p : Port) (waiters : List Port) (s : State) : State :=
  s.setClaims (s.claims.setRecord 3 { held := some { holder := p, claimedAt := 0 }, waiters := waiters })

/-! ### Laws of the small states -/

/-- Lines that rest, with no holdoff, obey the law of the lines. -/
theorem outputLaw_of_rest {s : State}
    (hl : ∀ l, (s.output.line l).level = .inactive ∧ (s.output.line l).safe = .inactive
      ∧ (s.output.line l).pulseEnd = none)
    (hg : ∀ g, (s.output.group g).holdoff = none)
    (hb : ∀ g, (s.output.members g).length ≤ 4) : s.OutputLaw := by
  refine ⟨?_, ?_, ?_, ?_, hb, ?_⟩
  · intro l m g _ _ h; simp [(hl l).1] at h
  · intro l _; exact (hl l).2.1
  · intro g h e; simp [hg g] at e
  · intro l h; simp [(hl l).2.2] at h
  · intro _ l; exact ⟨(hl l).1.trans (hl l).2.1.symm, (hl l).2.2⟩

/-- The lists of a table are exact when Boolean checks say so. -/
theorem listed_of_checks {ct : CueTable}
    (h1 : ct.pendingList.Nodup)
    (h2 : ∀ i, i ∈ ct.pendingList ↔ (ct.cue i).any (fun c => c.state == .pending) = true)
    (h3 : ∀ g, (look ct.deferred g).Nodup)
    (h4 : ∀ g, ∀ i ∈ look ct.deferred g, (ct.cue i).any (fun c => c.state == .deferred) = true)
    (h5 : ∀ i, (ct.cue i).any (fun c => c.state == .deferred) = true →
      ∃ g, i ∈ look ct.deferred g ∧ ∀ h, i ∈ look ct.deferred h → h = g) : ct.Listed := by
  refine ⟨h1, fun i => ?_, h3, fun g i hi => ?_, fun i c hc hd => h5 i (by simp [hc, hd])⟩
  · rw [h2 i]; cases ct.cue i <;> simp
  · have := h4 g i hi
    cases e : ct.cue i <;> simp_all

theorem resetTable_listed : CueTable.reset.Listed :=
  listed_of_checks (by decide +kernel) (by decide +kernel) (by decide +kernel) (by decide +kernel) (by decide +kernel)

theorem tableOf_listed : (tableOf cueNow).Listed :=
  listed_of_checks (by decide +kernel) (by decide +kernel) (by decide +kernel) (by decide +kernel) (by decide +kernel)

theorem deferredTable_listed : (deferredTable cueNow).Listed :=
  listed_of_checks (by decide +kernel) (by decide +kernel) (by decide +kernel) (by decide +kernel) (by decide +kernel)

/-! ### The form of commands, and words of the table -/

theorem test_wellFormed_refuses_halt_transfer : Instr.wellFormed (.claimTransfer .halt) = false := by decide

theorem test_wellFormed_takes_transfers :
    Instr.wellFormed (.claimTransfer (.release 2)) = true
      ∧ Instr.wellFormed (.claimTransfer (.departure 3 .lapse)) = true
      ∧ Instr.wellFormed (.safeLevelDrive .halt) = true := by decide

theorem test_no_word_spells_a_command : decodeTableWord 16 0x1234 = none := by decide

/-! ### Numbers the spec works out -/

/-- The CRC of the nine ASCII digits 1 to 9 (R175). -/
theorem test_crc_of_the_nine_digits :
    crc16 [0x31, 0x32, 0x33, 0x34, 0x35, 0x36, 0x37, 0x38, 0x39] = 0x29B1 := by decide +kernel

/-- The comparisons worked out around the wrap of TB (R9). -/
theorem test_comparisons_around_the_wrap :
    isAhead 0xFFFFFFF0 0x10 = true ∧ distance 0xFFFFFFF0 0x10 = 32 ∧ isBehind 0x10 0xFFFFFFF0 = true := by decide

/-- A grid due 250 ticks behind with period 100: three dues are skipped and the next is 4850 (R58). -/
theorem test_skip_of_three_dues :
    ({ cueNow with gridDue := 4550, period := some 100 } : Cue).skip 4800
      = ({ cueNow with gridDue := 4850, period := some 100, missed := 3 }, false) := by decide +kernel

/-- A staged action other than PULSE drops the width, and a staged period of 0 means none (R69). -/
theorem test_record_drops_width_with_pulse :
    ({ cueNow with action := .pulse, width := some 9 } : Cue).applyRecord
        { action := some .set, width := none, period := some 0, remaining := none, shift := none }
      = { cueNow with action := .set, width := none } := by decide +kernel

/-- Four ports waiting on both leaves: the grants alternate between classes, pairs and ports (R141, R142). -/
theorem test_grants_alternate :
    let all : Leaves := { urgent := Vector.replicate 4 true, normal := Vector.replicate 4 true }
    grantsOf Switches.reset (List.replicate 8 all)
      = [(.urgent, 0), (.normal, 0), (.urgent, 2), (.normal, 2), (.urgent, 1), (.normal, 1), (.urgent, 3),
         (.normal, 3)] := by decide +kernel

/-- The first four bytes of a frame at reset: SETUP, NORMAL, DETACHED, four free commands, nothing else (R198). -/
theorem test_header_at_reset : (State.reset.header 2).bytes = [0x00, 0x80, 0x00, 0x02] := by decide

/-- With SELn# low from before reset and no frame open, SDOn is at high impedance (log 32). -/
theorem test_sdo_after_reset :
    let low : Sampler := { last := .low, sensed := .low }
    let s := State.reset.setInputs { State.reset.inputs with selPins := put State.reset.inputs.selPins 2 low }
    (s.inputs.resetHeld, s.sdoBit 2 0) = (false, none) := by decide

/-- The empty reply is 5 bytes: status 0xFF, seq 0, len 0 and the CRC (R173, R197). -/
theorem test_empty_reply_bytes : Reply.empty.bytes.take 3 = [0xFF, 0x00, 0x00] ∧ Reply.empty.bytes.length = 5 := by
  decide +kernel

/-! ### Witnesses: states that meet the hypotheses of the obligations -/

theorem pair_outputLaw (phase : Phase) : (pairIn phase).OutputLaw :=
  outputLaw_of_rest (s := pairIn phase) (by cases phase <;> decide +kernel) (by cases phase <;> decide +kernel)
    (by cases phase <;> decide +kernel)

/-- The same of any state whose output unit is at its reset value. -/
theorem rest_outputLaw {s : State} (h : s.output = OutputUnit.reset) : s.OutputLaw :=
  outputLaw_of_rest (by rw [h]; decide +kernel) (by rw [h]; decide +kernel) (by rw [h]; decide +kernel)

theorem reset_timely : State.reset.Timely where
  cues i c h := by simp [State.reset, CueTable.reset, CueTable.cue] at h
  sets k o n t h := by simp [State.reset, CueTable.reset, CueTable.commitSet] at h
  pulses l t h := by simp [State.reset, OutputUnit.reset, OutputUnit.line, LineRecord.reset] at h
  holdoffs g x h := by simp [State.reset, OutputUnit.reset, OutputUnit.group, GroupRecord.reset] at h
  leases p t h := by simp [State.reset, State.port, PortUnit.reset] at h
  periods i c h := by simp [State.reset, CueTable.reset, CueTable.cue] at h
  ticks := by decide

/-- The hypotheses of StepTakesFrontCommand. -/
theorem witness_StepTakesFrontCommand : ∃ s : State, s.pending = [] := ⟨State.reset, rfl⟩

/-- A sensed fall of RESET# that waits. -/
def resetPulled : State :=
  { State.reset with inputs := { Inputs.reset with resetPin := { last := .low, sensed := .low } } }

theorem witness_DeviceResetReturnsEveryBlock :
    ∃ s : State, s.inputs.resetHeld = false ∧ s.inputs.resetPin.sensed = .low := ⟨resetPulled, by decide⟩

/-- Device reset held, RESET# high again, and FAULT# at a level. -/
def resetLeaving (fault : PinLevel) : State :=
  { State.reset with
    inputs := { Inputs.reset with resetHeld := true, faultPin := { last := fault, sensed := fault } } }

theorem witness_ResetEndReleasesThePart : ∀ fault : PinLevel, ∃ s : State,
    s.inputs.resetHeld = true ∧ s.inputs.resetPin.sensed = .high ∧ s.OutputLaw ∧ s.inputs.faultPin.sensed = fault :=
  fun fault => ⟨resetLeaving fault, rfl, rfl, rest_outputLaw rfl, rfl⟩

theorem witness_PeriodEndCountsAndSamples :
    (∃ s : State, s.live = true ∧ s.timeBase.tickCount < s.timeBase.prescale.periods)
      ∧ (∃ s : State, s.live = true ∧ s.timeBase.tickCount < s.timeBase.prescale.periods ∧ s.timeBase.tickCount = 7)
      ∧ ∃ s : State, s.inputs.resetHeld = true ∧ s.inputs.resetPin.sensed = .low :=
  ⟨⟨State.reset, by decide⟩,
    ⟨State.reset.setTimeBase { TimeBase.reset with prescale := .by8, tickCount := 7 }, by decide⟩,
    ⟨{ resetPulled with inputs := { resetPulled.inputs with resetHeld := true } }, by decide⟩⟩

theorem witness_TbStepAdvancesTime :
    (∃ s : State, s.live = true ∧ s.timeBase.prescale.periods ≤ s.timeBase.tickCount ∧ s.tickQuiet = true
        ∧ s.timeBase.pendingPrescale = none ∧ s.now = 0xFFFFFFFF)
      ∧ ∃ s : State, s.live = true ∧ s.timeBase.prescale.periods ≤ s.timeBase.tickCount ∧ s.tickQuiet = true
        ∧ s.timeBase.pendingPrescale = some .by8 :=
  ⟨⟨State.reset.setTimeBase { TimeBase.reset with tb := 0xFFFFFFFF, tickCount := 1 }, by decide +kernel⟩,
    ⟨State.reset.setTimeBase { TimeBase.reset with tickCount := 1, pendingPrescale := some .by8 },
      by decide +kernel⟩⟩

theorem witness_TimesJudgedByDistance :
    (∃ a b : Time, distance a b = 0) ∧ (∃ a b : Time, isAhead a b = true ∧ distance a b = 2147483647)
      ∧ (∃ a b : Time, distance a b = 2147483648) ∧ ∃ a b : Time, distance a b = 2147483649 :=
  ⟨⟨5, 5, by decide⟩, ⟨1, 0x80000000, by decide⟩, ⟨0, 0x80000000, by decide⟩, ⟨0, 0x80000001, by decide⟩⟩

theorem witness_HeldTimesNeverPassed : ∃ s t : State, s.Timely ∧ step s = .next t :=
  ⟨State.reset, State.reset, reset_timely, rfl⟩

/-- A sensed edge of FAULT# that waits. -/
def faultEdge (e : PinLevel) (trip : Trip) : State :=
  { State.reset with inputs := { Inputs.reset with faultEdges := [e] }, output := { OutputUnit.reset with trip := trip } }

theorem witness_FaultEdgesAtTheTrip :
    (∃ (s : State) (rest : List PinLevel), s.live = true ∧ s.inputs.faultEdges = .low :: rest
        ∧ s.output.trip = .normal ∧ s.OutputLaw)
      ∧ (∃ (s : State) (rest : List PinLevel), s.live = true ∧ s.inputs.faultEdges = .low :: rest
        ∧ s.output.trip ≠ .normal)
      ∧ ∃ (s : State) (rest : List PinLevel), s.live = true ∧ s.inputs.faultEdges = .high :: rest :=
  ⟨⟨faultEdge .low .normal, [], rfl, rfl, rfl, rest_outputLaw rfl⟩,
    ⟨faultEdge .low (.tripped .input 0), [], rfl, rfl, by decide⟩, ⟨faultEdge .high .normal, [], rfl, rfl⟩⟩

/-- A state with another trip record. -/
def tripped (trip : Trip) (s : State) : State := s.setOutput { s.output with trip := trip }

theorem witness_TripCommand :
    (∃ (p : Port) (r : Request) (s : State), s.Takes p .trip r ∧ s.output.trip = .normal ∧ s.OutputLaw)
      ∧ ∃ (p : Port) (r : Request) (s : State) (cause : TripCause) (entry : Time), s.Takes p .trip r
        ∧ s.output.trip = .tripped cause entry :=
  ⟨⟨0, ask 0x50 [], heads 0 (ask 0x50 []) (pairIn .setup), by unfold State.Takes; decide, rfl, rest_outputLaw rfl⟩,
    ⟨1, ask 0x50 [], heads 1 (ask 0x50 []) (tripped (.tripped (.port 2) 9) (pairIn .run)), .port 2, 9,
      by unfold State.Takes; decide, rfl⟩⟩

/-- FAULT# sensed low. -/
def faultLowIn (s : State) : State :=
  s.setInputs { s.inputs with faultPin := { last := .low, sensed := .low } }

theorem witness_ClearTripCommand :
    (∃ (p : Port) (r : Request) (s : State), s.Takes p .clearTrip r ∧ s.inputs.faultPin.sensed = .low)
      ∧ (∃ (p : Port) (r : Request) (s : State), s.Takes p .clearTrip r ∧ s.inputs.faultPin.sensed = .high
        ∧ s.output.trip = .normal)
      ∧ ∃ (p : Port) (r : Request) (s : State), s.Takes p .clearTrip r ∧ s.inputs.faultPin.sensed = .high
        ∧ s.output.trip = .tripped .input 0 :=
  ⟨⟨0, ask 0x51 [], heads 0 (ask 0x51 []) (faultLowIn (pairIn .run)), by unfold State.Takes; decide⟩,
    ⟨0, ask 0x51 [], heads 0 (ask 0x51 []) (pairIn .run), by unfold State.Takes; decide⟩,
    ⟨0, ask 0x51 [], heads 0 (ask 0x51 []) (tripped (.tripped .input 0) (pairIn .run)),
      by unfold State.Takes; decide⟩⟩

theorem witness_OutputLawKept : ∃ s t : State, s.OutputLaw ∧ step s = .next t :=
  ⟨State.reset, State.reset, rest_outputLaw rfl, rfl⟩

/-- An output unit whose line 3 is ACTIVE with a pulse end at tick 0, in G1 with a gap, or in no group. -/
def pulsing (group : Option Group) (gap : Half) : State :=
  State.reset.setOutput ((OutputUnit.reset.setLine 3
    { LineRecord.reset with level := .active, group := group, pulseEnd := some 0 }).setGroup 0
    { gap := gap, policy := .defer, holdoff := none })

/-- An output unit whose G1 holds a holdoff that ends at tick 0. -/
def holding : State :=
  State.reset.setOutput (OutputUnit.reset.setGroup 0
    { gap := 1, policy := .defer, holdoff := some { line := some 3, endsAt := 0 } })

theorem witness_OutputExpiries :
    (∃ (s : State) (l : Line), s.live = true ∧ (s.output.line l).pulseEnd = some s.now
        ∧ (s.output.line l).group = none)
      ∧ (∃ (s : State) (l : Line) (g : Group), s.live = true ∧ (s.output.line l).pulseEnd = some s.now
        ∧ (s.output.line l).group = some g ∧ (s.output.group g).gap = 1)
      ∧ (∃ (s : State) (l : Line) (g : Group), s.live = true ∧ (s.output.line l).pulseEnd = some s.now
        ∧ (s.output.line l).group = some g ∧ (s.output.group g).gap = 0 ∧ (s.output.group g).holdoff = none)
      ∧ ∃ (s : State) (g : Group) (h : Holdoff), s.live = true ∧ (s.output.group g).holdoff = some h
        ∧ h.endsAt = s.now :=
  ⟨⟨pulsing none 0, 3, by decide⟩, ⟨pulsing (some 0) 1, 3, 0, by decide⟩, ⟨pulsing (some 0) 0, 3, 0, by decide⟩,
    ⟨holding, 0, { line := some 3, endsAt := 0 }, by decide⟩⟩

/-- What a reply to P0's command needs. -/
def ticket0 : Ticket := { port := 0, seq := 7, epoch := 0 }

/-- The claim unit with a release of line 3 by P0 at a stage. -/
def releasing (stage : ReleaseStage) (s : State) : State :=
  s.setClaims (s.claims.setRelease 0 (some { ticket := ticket0, line := 3, stage := stage }))

/-- The claim unit with a port release of P0 at a stage. -/
def departing (why : Departure) (stage : GiveUp) (s : State) : State :=
  s.setClaims (s.claims.setDeparture 0 why (some { owes := some ticket0, stage := stage }))

/-- The claim unit with its halt release at a stage. -/
def halting (h : HaltRelease) (s : State) : State := s.setClaims { s.claims with halt := h }

theorem witness_SafeLevelDrives :
    (∃ (s : State) (p : Port) (j : ReleaseJob), s.live = true ∧ s.OutputLaw ∧ look s.claims.releases p = some j
        ∧ j.stage = .drive)
      ∧ (∃ (s : State) (p : Port) (owes : Option Ticket) (l : Line) (rest : List Line), s.live = true ∧ s.OutputLaw
        ∧ s.claims.departure p .detach = some { owes := owes, stage := .giving (l :: rest) false })
      ∧ ∃ s : State, s.live = true ∧ s.OutputLaw ∧ s.claims.halt = .drive :=
  ⟨⟨releasing .drive (pairIn .run), 0, { ticket := ticket0, line := 3, stage := .drive }, by decide, rest_outputLaw rfl,
      by decide, rfl⟩,
    ⟨departing .detach (.giving [3, 9] false) (pairIn .run), 0, some ticket0, 3, [9], by decide, rest_outputLaw rfl,
      by decide⟩,
    ⟨halting .drive (pairIn .setup), by decide, rest_outputLaw rfl, rfl⟩⟩

/-- Every row of the apply request, the group check's two answers among them. -/
theorem witness_ApplyRequestTable :
    (∃ (o : OutputUnit) (l : Line), (o.line l).level = .active)
      ∧ (∃ (o : OutputUnit) (l : Line), (o.line l).level = .inactive ∧ (o.line l).group = none)
      ∧ (∃ (o : OutputUnit) (l : Line) (g : Group), (o.line l).level = .inactive ∧ (o.line l).group = some g
        ∧ (∀ m, m ≠ l → (o.line m).group = some g → (o.line m).level = .inactive) ∧ (o.group g).holdoff = none)
      ∧ ∃ (o : OutputUnit) (l m : Line) (g : Group), (o.line l).level = .inactive ∧ (o.line l).group = some g ∧ m ≠ l
        ∧ (o.line m).group = some g ∧ (o.line m).level = .active :=
  ⟨⟨(pulsing none 0).output, 3, by decide⟩, ⟨OutputUnit.reset, 3, by decide⟩,
    ⟨grouped .inactive .refuse, 3, 0, by decide +kernel⟩, ⟨grouped .active .refuse, 3, 4, 0, by decide⟩⟩

/-- A deactivation that sends no notice, of an ungrouped line and in a group with a gap. -/
theorem witness_ApplyRequestTable_notices : ∀ group : Option Group, group = none ∨ group = some 0 →
    ∃ (o : OutputUnit) (l : Line), (o.line l).level = .active ∧ (o.line l).group = group
      ∧ ∀ g, (o.line l).group = some g → (o.group g).gap ≠ 0 ∨ (o.group g).holdoff ≠ none := by
  intro group h
  refine ⟨(pulsing group 1).output, 3, ?_⟩
  rcases h with rfl | rfl <;> decide +kernel

/-- RUN with one cue in slot 0. -/
def running (c : Cue) (o : OutputUnit) : State := ((pairIn .run).setCueTable (tableOf c)).setOutput o

/-- A cue with period 10 that goes on. -/
def periodic : Cue := { cueNow with period := some 10 }

theorem tableOf_periodic_listed : (tableOf periodic).Listed :=
  listed_of_checks (by decide +kernel) (by decide +kernel) (by decide +kernel) (by decide +kernel) (by decide +kernel)

theorem witness_OccurrenceWithoutLine :
    (∃ (s : State) (i : SlotId) (rest : List SlotId) (c : Cue), (s.live = true ∧ s.cueTable.pendingList = i :: rest
        ∧ s.cueTable.cue i = some c ∧ c.due = s.now ∧ s.attached c.owner = false) ∧ s.cueTable.Listed)
      ∧ (∃ (s : State) (i : SlotId) (rest : List SlotId) (c : Cue), (s.live = true ∧ s.cueTable.pendingList = i :: rest
        ∧ s.cueTable.cue i = some c ∧ c.due = s.now ∧ s.session.phase = .setup) ∧ s.cueTable.Listed)
      ∧ ∃ (s : State) (i : SlotId) (rest : List SlotId) (c : Cue) (period : Triple), (s.live = true
        ∧ s.cueTable.pendingList = i :: rest ∧ s.cueTable.cue i = some c ∧ c.due = s.now ∧ s.attached c.owner = true
        ∧ s.session.phase = .run ∧ s.output.trip.isTripped = true ∧ c.staged = none ∧ c.period = some period
        ∧ c.remaining ≠ some 1 ∧ isAhead s.now (later c.gridDue period.toNat) = true) ∧ s.cueTable.Listed :=
  ⟨⟨State.reset.setCueTable (tableOf cueNow), 0, [], cueNow, by decide +kernel, tableOf_listed⟩,
    ⟨(pairIn .setup).setCueTable (tableOf cueNow), 0, [], cueNow, by decide +kernel, tableOf_listed⟩,
    ⟨tripped (.tripped .input 0) (running periodic OutputUnit.reset), 0, [], periodic, 10, by decide +kernel,
      tableOf_periodic_listed⟩⟩

theorem witness_OccurrenceAppliedOnce :
    ∃ (s : State) (i : SlotId) (rest : List SlotId) (c : Cue) (o : OutputUnit), s.live = true
      ∧ s.cueTable.pendingList = i :: rest ∧ s.cueTable.cue i = some c ∧ c.due = s.now ∧ s.attached c.owner = true
      ∧ s.session.phase = .run ∧ s.output.trip.isTripped = false ∧ c.staged = none ∧ c.period = none
      ∧ s.output.apply s.now c.line c.action c.width = (o, .applied) :=
  ⟨running cueNow OutputUnit.reset, 0, [], cueNow, OutputUnit.reset.activate 0 3 none, by decide +kernel⟩

/-- A record that stages a period of 20 and a shift of 5. -/
def record5 : StagedRecord := { action := none, width := none, period := some 20, remaining := none, shift := some 5 }

/-- The periodic cue with that record, in no set. -/
def stagedCue : Cue := { periodic with staged := some record5 }

theorem tableOf_staged_listed : (tableOf stagedCue).Listed :=
  listed_of_checks (by decide +kernel) (by decide +kernel) (by decide +kernel) (by decide +kernel) (by decide +kernel)

theorem witness_OccurrenceAppliedPeriodic :
    (∃ (s : State) (i : SlotId) (rest : List SlotId) (c : Cue) (o : OutputUnit) (period : Triple), (s.live = true
        ∧ s.cueTable.pendingList = i :: rest ∧ s.cueTable.cue i = some c ∧ c.due = s.now ∧ s.attached c.owner = true
        ∧ s.session.phase = .run ∧ s.output.trip.isTripped = false
        ∧ s.output.apply s.now c.line c.action c.width = (o, .applied) ∧ c.staged = none ∧ c.period = some period
        ∧ c.remaining ≠ some 1 ∧ isAhead s.now (shifted (later c.gridDue period.toNat) 0) = true)
        ∧ s.cueTable.Listed)
      ∧ ∃ (s : State) (i : SlotId) (rest : List SlotId) (c c' : Cue) (o : OutputUnit) (period : Triple)
        (r : StagedRecord), (s.live = true
        ∧ s.cueTable.pendingList = i :: rest ∧ s.cueTable.cue i = some c ∧ c.due = s.now ∧ s.attached c.owner = true
        ∧ s.session.phase = .run ∧ s.output.trip.isTripped = false
        ∧ s.output.apply s.now c.line c.action c.width = (o, .applied) ∧ c.staged = some r ∧ c.set = none
        ∧ c'.period = some period ∧ c'.remaining ≠ some 1
        ∧ isAhead s.now (shifted (later c.gridDue period.toNat) (r.shift.getD 0)) = true)
        ∧ AppliedTo r c c' ∧ s.cueTable.Listed :=
  ⟨⟨running periodic OutputUnit.reset, 0, [], periodic, OutputUnit.reset.activate 0 3 none, 10, by decide +kernel,
      tableOf_periodic_listed⟩,
    ⟨running stagedCue OutputUnit.reset, 0, [], stagedCue, { periodic with period := some 20 },
      OutputUnit.reset.activate 0 3 none, 20, record5, by decide +kernel, by unfold AppliedTo; decide,
      tableOf_staged_listed⟩⟩

theorem witness_OccurrenceTurnedAway :
    (∃ (s : State) (i : SlotId) (rest : List SlotId) (c : Cue) (g : Group) (period : Triple), (s.live = true
        ∧ s.cueTable.pendingList = i :: rest ∧ s.cueTable.cue i = some c ∧ c.due = s.now ∧ s.attached c.owner = true
        ∧ s.session.phase = .run ∧ s.output.trip.isTripped = false
        ∧ s.output.apply s.now c.line c.action c.width = (s.output, .refused g) ∧ c.staged = none
        ∧ c.period = some period ∧ c.remaining ≠ some 1 ∧ isAhead s.now (later c.gridDue period.toNat) = true)
        ∧ s.cueTable.Listed)
      ∧ ∃ (s : State) (i : SlotId) (rest : List SlotId) (c : Cue) (g : Group), (s.live = true
        ∧ s.cueTable.pendingList = i :: rest ∧ s.cueTable.cue i = some c ∧ c.due = s.now ∧ s.attached c.owner = true
        ∧ s.session.phase = .run ∧ s.output.trip.isTripped = false
        ∧ s.output.apply s.now c.line c.action c.width = (s.output, .deferred g)) ∧ s.cueTable.Listed :=
  ⟨⟨running periodic (grouped .active .refuse), 0, [], periodic, 0, 10, by decide +kernel, tableOf_periodic_listed⟩,
    ⟨running periodic (grouped .active .defer), 0, [], periodic, 0, by decide +kernel, tableOf_periodic_listed⟩⟩

/-- Three dues of the cue are not ahead of now; it has three occurrences left, or four. -/
theorem witness_SkipCountsPassedDues :
    let c : Cue := { cueNow with gridDue := 4550, period := some 100 }
    isAhead 4800 c.gridDue = false ∧ distance c.gridDue 4800 / 100 + 1 = 3
      ∧ (∃ k : Half, ({ c with remaining := some 3 } : Cue).remaining = some k ∧ k.toNat ≤ 3)
      ∧ ∃ k : Half, ({ c with remaining := some 4 } : Cue).remaining = some k ∧ 3 < k.toNat :=
  ⟨by decide, by decide, ⟨3, by decide⟩, ⟨4, by decide⟩⟩

theorem witness_OpeningNoticeReleases :
    ∃ (s : State) (g : Group) (k : Nat) (i : SlotId) (c : Cue), (s.live = true ∧ g ∈ s.output.notices
      ∧ (look s.cueTable.deferred g)[k]? = some i ∧ s.cueTable.cue i = some c) ∧ s.cueTable.Listed :=
  ⟨((pairIn .run).setCueTable (deferredTable cueNow)).setOutput { OutputUnit.reset with notices := [0] }, 0, 0, 0,
    { cueNow with state := .deferred }, by decide +kernel, deferredTable_listed⟩

/-- The cue as a member of S0. -/
def memberCue : Cue := { periodic with staged := some { record5 with shift := none }, set := some 0 }

/-- A table whose cue is the one member of S0, which is SCHEDULED for tick 0. -/
def scheduledTable : CueTable := (tableOf memberCue).putSet 0 (.scheduled 0 1 0)

theorem witness_CommitTimeExpiryCompletes :
    (∃ (s : State) (k : SetId) (owner : Port) (n : Nat), s.live = true
        ∧ s.cueTable.commitSet k = .scheduled owner n s.now ∧ ¬ (s.session.phase = .run ∧ s.attached owner = true))
      ∧ ∃ (s : State) (k : SetId) (owner : Port) (n : Nat), (s.live = true
        ∧ s.cueTable.commitSet k = .scheduled owner n s.now ∧ s.session.phase = .run ∧ s.attached owner = true)
        ∧ ∀ i c, s.cueTable.cue i = some c → c.set = some k →
            ∃ r, c.staged = some r ∧ (r.shift = none ∨ r.shift = some 0) := by
  refine ⟨⟨(pairIn .setup).setCueTable scheduledTable, 0, 0, 1, by decide +kernel⟩,
    ⟨(pairIn .run).setCueTable scheduledTable, 0, 0, 1, by decide +kernel, fun i c hc hk => ?_⟩⟩
  have all : ∀ i : SlotId, (scheduledTable.cue i).all (fun c => c == memberCue) = true := by decide +kernel
  have := all i
  rw [show scheduledTable.cue i = some c from hc] at this
  have e : c = memberCue := by simpa using this
  subst e
  exact ⟨_, rfl, .inl rfl⟩

/-- An ADD_CUE body: SET of line 3 at tick `due`, immediate or not. -/
def addBody (options : Byte) (due : Byte) : List Byte := [3, 0, options, 0, 0, 0, 0, 0, due, 0, 0, 0, 0, 0]

/-- RUN with P0 holding line 3 and its request waiting on its leaf. -/
def adding (body : List Byte) : State := waits 0 (ask 0x30 body) (heldBy 0 [] (pairIn .run))

theorem witness_AddCueAdmits :
    (∃ (p : Port) (r : Request) (q : CueRequest) (i : SlotId) (s : State), (s.live = true ∧ s.granted .addCue p = some r)
        ∧ s.session.phase = .run ∧ s.attached p = true ∧ parseAddCue r.body = some q
        ∧ s.claims.holder q.line = some p ∧ q.immediate = true
        ∧ s.cueTable.occupied p < (look s.session.quota p).toNat
        ∧ s.cueTable.cue i = none ∧ ∀ j, j < i → (s.cueTable.cue j).isSome = true)
      ∧ ∃ (p : Port) (r : Request) (q : CueRequest) (i : SlotId) (s : State),
        (s.live = true ∧ s.granted .addCue p = some r)
        ∧ s.session.phase = .run ∧ s.attached p = true ∧ parseAddCue r.body = some q
        ∧ s.claims.holder q.line = some p ∧ q.immediate = false ∧ isAhead s.now q.due = true
        ∧ s.cueTable.occupied p < (look s.session.quota p).toNat
        ∧ s.cueTable.cue i = none ∧ (∀ j, j < i → (s.cueTable.cue j).isSome = true) ∧ i = 1 :=
  ⟨⟨0, ask 0x30 (addBody 0x80 0),
      { line := 3, action := .set, width := none, immediate := true, due := 0, period := none, remaining := none,
        notify := false, missPolicy := .skip }, 0, adding (addBody 0x80 0), by decide +kernel⟩,
    ⟨0, ask 0x30 (addBody 0 1),
      { line := 3, action := .set, width := none, immediate := false, due := 1, period := none, remaining := none,
        notify := false, missPolicy := .skip }, 1, (adding (addBody 0 1)).setCueTable (tableOf cueNow),
      by decide +kernel⟩⟩

/-- A table with a cue of P1 in every slot. -/
def fullTable : CueTable :=
  { CueTable.reset with slots := Vector.replicate 96 { gen := 0, cue := some { cueNow with owner := 1 } } }

/-- P0's quota of cues. -/
def quota0 (n : Byte) (s : State) : State := s.setSession { s.session with quota := put s.session.quota 0 n }

/-- One refusal for each of the six checks. -/
theorem witness_AddCueRefusals :
    (∃ (r : Request) (s : State), (s.live = true ∧ s.granted .addCue 0 = some r) ∧ s.session.phase = .setup)
      ∧ (∃ (r : Request) (s : State), (s.live = true ∧ s.granted .addCue 2 = some r) ∧ s.session.phase = .run
        ∧ s.attached 2 = false)
      ∧ (∃ (r : Request) (s : State), (s.live = true ∧ s.granted .addCue 0 = some r) ∧ s.session.phase = .run
        ∧ s.attached 0 = true ∧ AddCueUnfit r.body)
      ∧ (∃ (r : Request) (s : State) (q : CueRequest), (s.live = true ∧ s.granted .addCue 0 = some r)
        ∧ s.session.phase = .run ∧ s.attached 0 = true ∧ parseAddCue r.body = some q
        ∧ s.claims.holder q.line ≠ some 0)
      ∧ (∃ (r : Request) (s : State) (q : CueRequest), (s.live = true ∧ s.granted .addCue 0 = some r)
        ∧ s.session.phase = .run ∧ s.attached 0 = true ∧ parseAddCue r.body = some q
        ∧ s.claims.holder q.line = some 0 ∧ q.immediate = false ∧ isAhead s.now q.due = false)
      ∧ (∃ (r : Request) (s : State) (q : CueRequest), (s.live = true ∧ s.granted .addCue 0 = some r)
        ∧ s.session.phase = .run ∧ s.attached 0 = true ∧ parseAddCue r.body = some q
        ∧ s.claims.holder q.line = some 0 ∧ q.immediate = true
        ∧ (look s.session.quota 0).toNat ≤ s.cueTable.occupied 0)
      ∧ ∃ (r : Request) (s : State) (q : CueRequest), (s.live = true ∧ s.granted .addCue 0 = some r)
        ∧ s.session.phase = .run ∧ s.attached 0 = true ∧ parseAddCue r.body = some q
        ∧ s.claims.holder q.line = some 0 ∧ q.immediate = true
        ∧ s.cueTable.occupied 0 < (look s.session.quota 0).toNat ∧ ∀ i, (s.cueTable.cue i).isSome = true := by
  let q (now : Bool) : CueRequest :=
    { line := 3, action := .set, width := none, immediate := now, due := 0, period := none, remaining := none,
      notify := false, missPolicy := .skip }
  exact ⟨⟨ask 0x30 [], waits 0 (ask 0x30 []) (pairIn .setup), by decide⟩,
    ⟨ask 0x30 [], waits 2 (ask 0x30 []) (pairIn .run), by decide⟩,
    ⟨ask 0x30 (addBody 0x08 0), adding (addBody 0x08 0), by unfold AddCueUnfit; decide +kernel⟩,
    ⟨ask 0x30 (addBody 0x80 0), waits 0 (ask 0x30 (addBody 0x80 0)) (pairIn .run), q true, by decide +kernel⟩,
    ⟨ask 0x30 (addBody 0 0), adding (addBody 0 0), q false, by decide +kernel⟩,
    ⟨ask 0x30 (addBody 0x80 0), quota0 0 (adding (addBody 0x80 0)), q true, by decide +kernel⟩,
    ⟨ask 0x30 (addBody 0x80 0), (adding (addBody 0x80 0)).setCueTable fullTable, q true, by decide +kernel⟩⟩

/-- A body for each row of the table of R28 and each undefined code of R195, and bodies at the edge that pass. -/
theorem witness_AddCueRefusals_fields :
    let body (line action options : Byte) (width period remaining : Byte) : List Byte :=
      [line, action, options, 0, width, 0, 0, 0, 0, 0, 0, period, 0, remaining]
    ([(addBody 0x80 0).take 13, body 16 0 0x80 0 0 0, body 3 4 0x80 0 0 0, body 3 3 0x80 1 0 0, body 3 0 0xC0 1 0 0,
      body 3 3 0xC0 0 0 0, body 3 0 0xA0 0 0 0, body 3 0 0xB0 0 1 0, body 3 0 0x90 0 0 1, body 3 0 0x88 0 0 0,
      body 3 0 0x8C 0 0 0, body 3 0 0x82 0 0 0, body 3 0 0x83 0 0 0] : List (List Byte)).all
        (fun b => (parseAddCue b).isNone) = true
      ∧ ([addBody 0x80 0, addBody 0x80 0 ++ [9], body 15 2 0 0 0 0, body 0 1 0 7 7 7, body 3 3 0xF5 1 1 1] :
          List (List Byte)).all (fun b => (parseAddCue b).isSome) = true := by decide +kernel

/-- Every field of an ADD_CUE from its own bytes. -/
theorem test_add_cue_layout :
    parseAddCue [15, 3, 0x75, 1, 2, 3, 4, 5, 6, 7, 8, 9, 10, 11] = some
      { line := 15, action := .pulse, width := some 0x0102, immediate := false, due := 0x03040506,
        period := some 0x070809, remaining := some 0x0A0B, notify := true, missPolicy := .fireLate } := by
  decide +kernel

/-- RUN with P0's cue in slot 0 (generation 5) and a request of a port waiting. -/
def asking (p : Port) (kind : Byte) (body : List Byte) (c : Cue) : State :=
  waits p (ask kind body) ((pairIn .run).setCueTable (tableOf c))

theorem witness_CancelAndQueryCue : ∀ kind : Bool,
    let k := if kind then CommandKind.cancelCue else .queryCue
    let b : Byte := if kind then 0x31 else 0x32
    (∃ (p : Port) (r : Request) (s : State), (s.live = true ∧ s.granted k p = some r) ∧ s.session.phase = .run
        ∧ s.attached p = true ∧ 2 ≤ r.body.length ∧ r.kind = b
        ∧ s.cueTable.live (byteAt r.body 0) (byteAt r.body 1) = some (0, { cueNow with owner := p }))
      ∧ (∃ (p : Port) (r : Request) (s : State), (s.live = true ∧ s.granted k p = some r) ∧ s.session.phase = .run
        ∧ s.attached p = true ∧ 2 ≤ r.body.length ∧ r.kind = b ∧ p = 1
        ∧ s.cueTable.live (byteAt r.body 0) (byteAt r.body 1) = some (0, cueNow))
      ∧ ∃ (p : Port) (r : Request) (s : State), (s.live = true ∧ s.granted k p = some r) ∧ s.session.phase = .run
        ∧ s.attached p = true ∧ 2 ≤ r.body.length ∧ r.kind = b
        ∧ s.cueTable.live (byteAt r.body 0) (byteAt r.body 1) = none := by
  intro kind
  cases kind
  · exact ⟨⟨0, ask 0x32 [0, 5], asking 0 0x32 [0, 5] cueNow, by decide +kernel⟩,
      ⟨1, ask 0x32 [0, 5], asking 1 0x32 [0, 5] cueNow, by decide +kernel⟩,
      ⟨0, ask 0x32 [0, 6], asking 0 0x32 [0, 6] cueNow, by decide +kernel⟩⟩
  · exact ⟨⟨0, ask 0x31 [0, 5], asking 0 0x31 [0, 5] cueNow, by decide +kernel⟩,
      ⟨1, ask 0x31 [0, 5], asking 1 0x31 [0, 5] cueNow, by decide +kernel⟩,
      ⟨0, ask 0x31 [96, 5], asking 0 0x31 [96, 5] cueNow, by decide +kernel⟩⟩

/-- A STAGE body on slot 0 with a presence byte, a shift of 5 and a set. -/
def stageBytes (presence set : Byte) : List Byte := [0, 5, presence, 0, 0, 0, 0, 0, 0, 0, 0, 0, 0, 5, set]

/-- The record those bytes make. -/
def shift5 : StagedRecord := { action := none, width := none, period := none, remaining := none, shift := some 5 }

theorem witness_StageAndUnstage :
    (∃ (p : Port) (r : Request) (c : Cue) (s : State) (record : StagedRecord), s.session.phase = .run
        ∧ s.attached p = true ∧ s.cueTable.live (byteAt r.body 0) (byteAt r.body 1) = some (0, c) ∧ c.owner = p
        ∧ (s.live = true ∧ s.granted .stage p = some r) ∧ 15 ≤ r.body.length
        ∧ (stageBody r.body).check c = some (record, none) ∧ c.staged = none)
      ∧ (∃ (p : Port) (r : Request) (c : Cue) (s : State) (record : StagedRecord) (j : SetId),
        s.session.phase = .run ∧ s.attached p = true
        ∧ s.cueTable.live (byteAt r.body 0) (byteAt r.body 1) = some (0, c)
        ∧ c.owner = p ∧ (s.live = true ∧ s.granted .stage p = some r) ∧ 15 ≤ r.body.length
        ∧ (stageBody r.body).check c = some (record, some j) ∧ s.cueTable.commitSet j = .opened p 1
        ∧ c.set = some j ∧ c.staged.isSome = true)
      ∧ (∃ (p : Port) (r : Request) (c : Cue) (s : State), s.session.phase = .run ∧ s.attached p = true
        ∧ s.cueTable.live (byteAt r.body 0) (byteAt r.body 1) = some (0, c) ∧ c.owner = p
        ∧ (s.live = true ∧ s.granted .unstage p = some r) ∧ 2 ≤ r.body.length ∧ c.staged.isSome = true)
      ∧ ∃ (p : Port) (r : Request) (c : Cue) (s : State), s.session.phase = .run ∧ s.attached p = true
        ∧ s.cueTable.live (byteAt r.body 0) (byteAt r.body 1) = some (0, c) ∧ c.owner = p
        ∧ (s.live = true ∧ s.granted .unstage p = some r) ∧ 2 ≤ r.body.length ∧ c.staged = none :=
  ⟨⟨0, ask 0x33 (stageBytes 0x01 0), cueNow, asking 0 0x33 (stageBytes 0x01 0) cueNow, shift5, by decide +kernel⟩,
    ⟨0, ask 0x33 (stageBytes 0x81 0), memberCue,
      (asking 0 0x33 (stageBytes 0x81 0) memberCue).setCueTable ((tableOf memberCue).putSet 0 (.opened 0 1)), shift5, 0,
      by decide +kernel⟩,
    ⟨0, ask 0x34 [0, 5], memberCue, asking 0 0x34 [0, 5] memberCue, by decide +kernel⟩,
    ⟨0, ask 0x34 [0, 5], cueNow, asking 0 0x34 [0, 5] cueNow, by decide +kernel⟩⟩

/-- RUN with the eight sets as given and a request of P0 waiting. -/
def withSets (kind : Byte) (body : List Byte) (sets : Vector CommitSet 8) : State :=
  waits 0 (ask kind body) ((pairIn .run).setCueTable { CueTable.reset with sets := sets })

theorem witness_SetCommands :
    (∃ (r : Request) (k : SetId) (s : State), s.session.phase = .run ∧ s.attached 0 = true
        ∧ (s.live = true ∧ s.granted .openSet 0 = some r) ∧ s.cueTable.commitSet k = .free
        ∧ (∀ j, j < k → s.cueTable.commitSet j ≠ .free) ∧ k = 7)
      ∧ (∃ (r : Request) (s : State), s.session.phase = .run ∧ s.attached 0 = true
        ∧ (s.live = true ∧ s.granted .openSet 0 = some r) ∧ ∀ j, s.cueTable.commitSet j ≠ .free)
      ∧ (∃ (r : Request) (k : SetId) (n : Nat) (s : State), s.session.phase = .run ∧ s.attached 0 = true
        ∧ (s.live = true ∧ s.granted .commitSet 0 = some r) ∧ 5 ≤ r.body.length ∧ byteAt r.body 0 = setCode k
        ∧ s.cueTable.commitSet k = .opened 0 n ∧ isAhead s.now (timeAt r.body 1) = true)
      ∧ (∃ (r : Request) (k : SetId) (n : Nat) (s : State), s.session.phase = .run ∧ s.attached 0 = true
        ∧ (s.live = true ∧ s.granted .commitSet 0 = some r) ∧ 5 ≤ r.body.length ∧ byteAt r.body 0 = setCode k
        ∧ s.cueTable.commitSet k = .opened 0 n ∧ isAhead s.now (timeAt r.body 1) = false)
      ∧ ∃ (r : Request) (k : SetId) (s : State), s.session.phase = .run ∧ s.attached 0 = true
        ∧ (s.live = true ∧ s.granted .abandonSet 0 = some r) ∧ 1 ≤ r.body.length ∧ byteAt r.body 0 = setCode k
        ∧ (s.cueTable.commitSet k).owner? = some 0 :=
  ⟨⟨ask 0x35 [], 7, withSets 0x35 [] (put (Vector.replicate 8 (.opened 1 0)) 7 .free), by decide +kernel⟩,
    ⟨ask 0x35 [], withSets 0x35 [] (Vector.replicate 8 (.opened 1 0)), by decide +kernel⟩,
    ⟨ask 0x36 [7, 0x7F, 0xFF, 0xFF, 0xFF], 7, 0,
      withSets 0x36 [7, 0x7F, 0xFF, 0xFF, 0xFF] (Vector.replicate 8 (.opened 0 0)), by decide +kernel⟩,
    ⟨ask 0x36 [7, 0x80, 0, 0, 0], 7, 0, withSets 0x36 [7, 0x80, 0, 0, 0] (Vector.replicate 8 (.opened 0 0)),
      by decide +kernel⟩,
    ⟨ask 0x37 [7], 7, withSets 0x37 [7] (Vector.replicate 8 (.scheduled 0 0 9)), by decide +kernel⟩⟩

/-- A state with one cue in its table, whose first command is the cue's occurrence. -/
theorem witness_CueListsKept : ∃ s t : State, s.cueTable.Listed ∧ step s = .next t :=
  ⟨(State.reset.setCueTable (tableOf cueNow)).withPending [.occurrence], _, tableOf_listed, rfl⟩

theorem oneMember_counted : ((tableOf memberCue).putSet 0 (.opened 0 1)).SetsCounted where
  counted := by decide +kernel
  owned i c k hc hk := by
    have all : ∀ i : SlotId, ((tableOf memberCue).cue i).all (fun c => c == memberCue) = true := by decide +kernel
    have := all i
    rw [show (tableOf memberCue).cue i = some c from hc] at this
    have e : c = memberCue := by simpa using this
    subst e
    have e : k = 0 := by simpa [memberCue] using hk.symm
    subst e
    decide +kernel

theorem witness_SetMembersKept : ∃ s t : State, s.cueTable.SetsCounted ∧ step s = .next t :=
  ⟨State.reset.setCueTable ((tableOf memberCue).putSet 0 (.opened 0 1)), _, oneMember_counted, rfl⟩

theorem oneCue_consistent : (tableOf cueNow).Consistent := by
  intro i c hc
  have all : ∀ i : SlotId, ((tableOf cueNow).cue i).all (fun c => c == cueNow) = true := by decide +kernel
  have := all i
  rw [hc] at this
  have e : c = cueNow := by simpa using this
  subst e
  exact ⟨by decide, by decide, by decide, by decide, by decide, fun r h => by simp [cueNow] at h⟩

theorem witness_CueFieldsKept : ∃ s t : State, s.cueTable.Consistent ∧ step s = .next t :=
  ⟨State.reset.setCueTable (tableOf cueNow), _, oneCue_consistent, rfl⟩

theorem witness_ReleaseAtCueTable :
    (∃ (p : Port) (r : Request) (l : Line) (s : State), (s.live = true ∧ s.granted .release p = some r)
        ∧ s.session.phase = .run ∧ s.attached p = true ∧ 1 ≤ r.body.length ∧ byteAt r.body 0 = lineCode l
        ∧ s.claims.holder l = some p)
      ∧ ∃ (p : Port) (r : Request) (l : Line) (s : State), (s.live = true ∧ s.granted .release p = some r)
        ∧ s.session.phase = .run ∧ s.attached p = true ∧ 1 ≤ r.body.length ∧ byteAt r.body 0 = lineCode l
        ∧ s.claims.holder l ≠ some p :=
  ⟨⟨0, ask 0x21 [3], 3, waits 0 (ask 0x21 [3]) (heldBy 0 [1] (pairIn .run)), by decide +kernel⟩,
    ⟨1, ask 0x21 [15], 15, waits 1 (ask 0x21 [15]) (pairIn .run), by decide +kernel⟩⟩

/-- A purge request waits on P2's urgent leaf. -/
def purging (k : PurgeRequest) : State :=
  (pairIn .run).setArbiter { Arbiter.reset with purges := put Arbiter.reset.purges 2 [k] }

theorem witness_PurgesComplete :
    (∃ (p : Port) (r : Request) (s : State), s.live = true ∧ s.granted .detach p = some r)
      ∧ (∃ (p : Port) (s : State), s.live = true ∧ s.nextGrant = some (.urgent, p) ∧ s.firstPurge p = some .lapse)
      ∧ ∃ (p : Port) (s : State), s.live = true ∧ s.nextGrant = some (.urgent, p) ∧ s.firstPurge p = some .halt :=
  ⟨⟨0, ask 0x02 [], waits 0 (ask 0x02 []) (pairIn .run), by decide +kernel⟩, ⟨2, purging .lapse, by decide +kernel⟩,
    ⟨2, purging .halt, by decide +kernel⟩⟩

theorem witness_PresentRequestWaits :
    ∃ (p : Port) (r : Request) (k : CommandKind) (c : ListClass) (s : State), s.live = true ∧ s.head p = some r
      ∧ kindOf r.kind = some k ∧ listClass k = some c ∧ s.attached p = true ∧ look s.arbiter.presented p = false
      ∧ look s.arbiter.purges p = [] :=
  ⟨1, ask 0x31 [], .cancelCue, .urgent, heads 1 (ask 0x31 []) (pairIn .setup), by decide⟩

/-- A port that has attached again beside the halt purge that its DETACH decided. -/
theorem witness_PresentRequestWaits_beside :
    ∃ (r : Request) (k : CommandKind) (c : ListClass) (s : State), s.live = true ∧ s.head 2 = some r
      ∧ kindOf r.kind = some k ∧ listClass k = some c ∧ s.attached 2 = true ∧ look s.arbiter.presented 2 = false
      ∧ look s.arbiter.purges 2 = [.halt] :=
  ⟨ask 0x31 [], .cancelCue, .urgent,
    heads 2 (ask 0x31 []) ((purging .halt).changePort 2 (fun u => { u with state := .attached })), by decide⟩

theorem witness_WaitingBound :
    ∃ (c : ListClass) (p : Port) (vs : List Leaves), vs.length = 8 ∧ ∀ v ∈ vs, v.holds c p = true :=
  ⟨.normal, 3, List.replicate 8 { urgent := Vector.replicate 4 true, normal := Vector.replicate 4 true }, by decide⟩

theorem witness_SwitchesMoveAtGrants :
    (∃ (c : Instr) (s t : State), (∀ cause, c ≠ .deviceReset cause) ∧ exec c s = .next t
        ∧ s.nextGrant = some (.urgent, 2))
      ∧ (∃ (p : Port) (r : Request) (s : State), (s.live = true ∧ s.granted .openSet p = some r)
        ∧ listClass .openSet = some .normal ∧ grantedCommand .openSet p = some (.openSet p))
      ∧ ∀ k : PurgeRequest, ∃ (p : Port) (s : State), s.live = true ∧ s.nextGrant = some (.urgent, p)
        ∧ s.firstPurge p = some k :=
  ⟨⟨.haltPurge, purging .halt, _, by simp, rfl, by decide +kernel⟩,
    ⟨0, ask 0x35 [], waits 0 (ask 0x35 []) (pairIn .run), by decide +kernel⟩,
    fun k => ⟨2, purging k, by cases k <;> decide +kernel⟩⟩

/-! Claims and the session -/

/-- A request of P0 or P1 at the head of its queue. -/
def saying (p : Port) (kind : Byte) (body : List Byte) (s : State) : State := heads p (ask kind body) s

theorem witness_ClaimAnswers :
    (∃ (p : Port) (r : Request) (s : State), s.Takes p .claim r ∧ s.session.phase = .setup)
      ∧ (∃ (p : Port) (r : Request) (s : State), s.Takes p .claim r ∧ s.session.phase = .run ∧ r.body.length < 2)
      ∧ (∃ (p : Port) (r : Request) (s : State), s.Takes p .claim r ∧ s.session.phase = .run
        ∧ (byteAt r.body 0).toNat = 16)
      ∧ (∃ (p : Port) (r : Request) (s : State), s.Takes p .claim r ∧ s.session.phase = .run
        ∧ (byteAt r.body 1).toNat = 2)
      ∧ (∃ (p : Port) (r : Request) (l : Line) (s : State), s.Takes p .claim r ∧ s.session.phase = .run
        ∧ 2 ≤ r.body.length ∧ byteAt r.body 0 = lineCode l ∧ byteAt r.body 1 = 0 ∧ (s.claims.record l).held = none)
      ∧ (∃ (p : Port) (r : Request) (l : Line) (s : State), s.Takes p .claim r ∧ s.session.phase = .run
        ∧ 2 ≤ r.body.length ∧ byteAt r.body 0 = lineCode l ∧ byteAt r.body 1 = 0
        ∧ (s.claims.record l).held = some { holder := p, claimedAt := 0 })
      ∧ (∃ (p : Port) (r : Request) (l : Line) (h : Holding) (s : State), s.Takes p .claim r ∧ s.session.phase = .run
        ∧ 2 ≤ r.body.length ∧ byteAt r.body 0 = lineCode l ∧ byteAt r.body 1 = 0
        ∧ (s.claims.record l).held = some h ∧ h.holder ≠ p)
      ∧ (∃ (p : Port) (r : Request) (l : Line) (h : Holding) (before after : List Port) (s : State),
        s.Takes p .claim r ∧ s.session.phase = .run
        ∧ 2 ≤ r.body.length ∧ byteAt r.body 0 = lineCode l ∧ byteAt r.body 1 = 1
        ∧ (s.claims.record l).held = some h ∧ h.holder ≠ p ∧ (s.claims.record l).waiters = before ++ p :: after
        ∧ p ∉ before ∧ before.length = 2)
      ∧ ∃ (p : Port) (r : Request) (l : Line) (h : Holding) (s : State), s.Takes p .claim r ∧ s.session.phase = .run
        ∧ 2 ≤ r.body.length ∧ byteAt r.body 0 = lineCode l ∧ byteAt r.body 1 = 1
        ∧ (s.claims.record l).held = some h ∧ h.holder ≠ p ∧ p ∉ (s.claims.record l).waiters := by
  unfold State.Takes
  exact ⟨⟨0, ask 0x20 [], saying 0 0x20 [] (pairIn .setup), by decide⟩,
    ⟨0, ask 0x20 [3], saying 0 0x20 [3] (pairIn .run), by decide⟩,
    ⟨0, ask 0x20 [16, 0], saying 0 0x20 [16, 0] (pairIn .run), by decide⟩,
    ⟨0, ask 0x20 [3, 2], saying 0 0x20 [3, 2] (pairIn .run), by decide⟩,
    ⟨0, ask 0x20 [15, 0], 15, saying 0 0x20 [15, 0] (pairIn .run), by decide⟩,
    ⟨0, ask 0x20 [3, 0], 3, saying 0 0x20 [3, 0] (heldBy 0 [] (pairIn .run)), by decide⟩,
    ⟨1, ask 0x20 [3, 0], 3, ⟨0, 0⟩, saying 1 0x20 [3, 0] (heldBy 0 [] (pairIn .run)), by decide⟩,
    ⟨1, ask 0x20 [3, 1], 3, ⟨0, 0⟩, [3, 2], [], saying 1 0x20 [3, 1] (heldBy 0 [3, 2, 1] (pairIn .run)), by decide⟩,
    ⟨1, ask 0x20 [3, 1], 3, ⟨0, 0⟩, saying 1 0x20 [3, 1] (heldBy 0 [3, 2] (pairIn .run)), by decide⟩⟩

/-- A port that is DETACHED may ask for the report of a line. -/
theorem witness_QueryLineReports :
    ∃ (p : Port) (r : Request) (l : Line) (s : State), s.Takes p .queryLine r ∧ 1 ≤ r.body.length
      ∧ byteAt r.body 0 = lineCode l ∧ s.attached p = false :=
  ⟨3, ask 0x22 [15], 15, saying 3 0x22 [15] (heldBy 0 [1] (pairIn .run)), by unfold State.Takes; decide⟩

/-- The release of line 3 by P0 that waits to be decided. -/
def undecided0 : ReleaseJob := { ticket := ticket0, line := 3, stage := .undecided }

theorem witness_ReleaseDecided :
    (∃ (p : Port) (j : ReleaseJob) (s : State), s.live = true ∧ look s.claims.releases p = some j
        ∧ j.stage = .undecided ∧ s.claims.holder j.line = some p)
      ∧ (∃ (p : Port) (j : ReleaseJob) (s : State), s.live = true ∧ look s.claims.releases p = some j
        ∧ j.stage = .undecided ∧ s.claims.holder j.line ≠ some p ∧ p ∈ (s.claims.record j.line).waiters)
      ∧ ∃ (p : Port) (j : ReleaseJob) (s : State), s.live = true ∧ look s.claims.releases p = some j
        ∧ j.stage = .undecided ∧ s.claims.holder j.line ≠ some p ∧ p ∉ (s.claims.record j.line).waiters :=
  ⟨⟨0, undecided0, releasing .undecided (heldBy 0 [] (pairIn .run)), by decide⟩,
    ⟨0, undecided0, releasing .undecided (heldBy 1 [2, 0] (pairIn .run)), by decide⟩,
    ⟨0, undecided0, releasing .undecided (pairIn .run), by decide⟩⟩

/-- The release of line 3 by P0 that waits for its transfer. -/
def transfer0 : ReleaseJob := { ticket := ticket0, line := 3, stage := .transfer }

theorem witness_ClaimTransfers :
    (∃ (p : Port) (j : ReleaseJob) (next : Port) (rest : List Port) (s : State), s.live = true
        ∧ look s.claims.releases p = some j ∧ j.stage = .transfer ∧ s.session.phase = .run
        ∧ s.claims.holder j.line = some p ∧ (s.claims.record j.line).waiters = next :: rest)
      ∧ (∃ (p : Port) (j : ReleaseJob) (s : State), s.live = true ∧ look s.claims.releases p = some j
        ∧ j.stage = .transfer ∧ s.claims.holder j.line = some p ∧ s.session.phase = .setup)
      ∧ (∃ (p : Port) (j : ReleaseJob) (s : State), s.live = true ∧ look s.claims.releases p = some j
        ∧ j.stage = .transfer ∧ s.claims.holder j.line = some p ∧ (s.claims.record j.line).waiters = [])
      ∧ (∃ (p : Port) (why : Departure) (owes : Option Ticket) (l m : Line) (more : List Line) (s : State),
        s.live = true ∧ s.claims.departure p why = some { owes := owes, stage := .giving (l :: m :: more) true }
        ∧ s.claims.holder l = some p)
      ∧ ∃ (p : Port) (why : Departure) (owes : Option Ticket) (l : Line) (s : State), s.live = true
        ∧ s.claims.departure p why = some { owes := owes, stage := .giving [l] true } ∧ s.claims.holder l ≠ some p :=
  ⟨⟨0, transfer0, 1, [2], releasing .transfer (heldBy 0 [1, 2] (pairIn .run)), by decide⟩,
    ⟨0, transfer0, releasing .transfer (heldBy 0 [1] (pairIn .setup)), by decide⟩,
    ⟨0, transfer0, releasing .transfer (heldBy 0 [] (pairIn .run)), by decide⟩,
    ⟨0, .detach, some ticket0, 3, 9, [], departing .detach (.giving [3, 9] true) (heldBy 0 [1] (pairIn .run)),
      by decide⟩,
    ⟨0, .lapse, some ticket0, 3, departing .lapse (.giving [3] true) (heldBy 1 [] (pairIn .run)), by decide⟩⟩

theorem witness_ReleasesStart :
    (∃ (s : State) (p : Port) (owes : Option Ticket) (l : Line) (rest : List Line), s.live = true
        ∧ s.claims.departure p .detach = some { owes := owes, stage := .notStarted }
        ∧ (indices 16).filter (fun m => s.claims.holder m == some p) = l :: rest)
      ∧ (∃ (s : State) (p : Port) (ticket : Ticket), s.live = true
        ∧ s.claims.departure p .detach = some { owes := some ticket, stage := .notStarted }
        ∧ ∀ m, s.claims.holder m ≠ some p)
      ∧ (∃ (s : State) (p : Port) (owes : Option Ticket), s.live = true
        ∧ s.claims.departure p .lapse = some { owes := owes, stage := .notStarted }
        ∧ look s.claims.detaching p = none ∧ look s.claims.releases p = none ∧ ∀ m, s.claims.holder m ≠ some p)
      ∧ ∃ s : State, s.live = true ∧ s.claims.halt = .release :=
  ⟨⟨departing .detach .notStarted (heldBy 0 [1] (pairIn .run)), 0, some ticket0, 3, [], by decide +kernel⟩,
    ⟨departing .detach .notStarted (pairIn .run), 0, ticket0, by decide⟩,
    ⟨departing .lapse .notStarted (pairIn .run), 0, some ticket0, by decide⟩,
    ⟨halting .release (pairIn .setup), by decide⟩⟩

/-- One held line with three waiters. -/
theorem threeWaiters_lawful : (heldBy 0 [1, 2, 3] (pairIn .run)).ClaimLaw := by
  intro l
  by_cases h : l = 3
  · subst h
    refine ⟨by decide, by decide, fun h e => ?_, fun e => ?_⟩
    · have : h = { holder := 0, claimedAt := 0 } := by
        have : (some { holder := 0, claimedAt := 0 } : Option Holding) = some h := e
        simpa using this.symm
      subst this; decide
    · exact absurd (show (some { holder := 0, claimedAt := 0 } : Option Holding) = none from e) (by simp)
  · have e : (heldBy 0 [1, 2, 3] (pairIn .run)).claims.record l = { held := none, waiters := [] } := by
      revert h; revert l; decide +kernel
    rw [e]
    exact ⟨by simp, by simp, fun h e => by simp at e, fun _ => rfl⟩

theorem witness_ClaimLawKept : ∃ s t : State, s.ClaimLaw ∧ step s = .next t :=
  ⟨heldBy 0 [1, 2, 3] (pairIn .run), _, threeWaiters_lawful, rfl⟩

/-- A port unit in another state, with its cleanup flag. -/
def portIn (p : Port) (state : PortState) (cleanup : Bool) (s : State) : State :=
  s.changePort p (fun u => { u with state := state, cleanup := cleanup })

theorem witness_AttachCompletes :
    (∃ (p : Port) (r : Request) (s : State), s.Takes p .attach r ∧ (s.port p).state = .lapsed
        ∧ (s.port p).cleanup = true)
      ∧ (∃ (p : Port) (r : Request) (s : State), s.Takes p .attach r ∧ (s.port p).state = .attached)
      ∧ (∃ (p : Port) (r : Request) (s : State), s.Takes p .attach r ∧ (s.port p).state = .detached)
      ∧ ∃ (p : Port) (r : Request) (s : State), s.Takes p .attach r ∧ (s.port p).state = .lapsed
        ∧ (s.port p).cleanup = false := by
  unfold State.Takes
  exact ⟨⟨2, ask 0x01 [], saying 2 0x01 [] (portIn 2 .lapsed true (pairIn .run)), by decide⟩,
    ⟨0, ask 0x01 [], saying 0 0x01 [] (pairIn .run), by decide⟩,
    ⟨3, ask 0x01 [], saying 3 0x01 [] (pairIn .run), by decide⟩,
    ⟨2, ask 0x01 [], saying 2 0x01 [] (portIn 2 .lapsed false (pairIn .run)), by decide⟩⟩

/-- The halt-cleanup flag is set. -/
def flagged (s : State) : State := s.setSession { s.session with haltCleanup := true }

theorem witness_WriteConfigCompletes :
    (∃ (p : Port) (r : Request) (s : State), s.Takes p .writeConfig r ∧ s.session.phase = .run)
      ∧ (∃ (p : Port) (r : Request) (s : State), s.Takes p .writeConfig r ∧ s.session.phase = .setup
        ∧ s.session.haltCleanup = true)
      ∧ (∃ (p : Port) (r : Request) (s : State), s.Takes p .writeConfig r ∧ s.session.phase = .setup
        ∧ s.session.haltCleanup = false ∧ itemOf (byteAt r.body 0) (byteAt r.body 1) = none)
      ∧ (∃ (p : Port) (r : Request) (s : State), s.Takes p .writeConfig r ∧ s.session.phase = .setup
        ∧ s.session.haltCleanup = false ∧ itemOf (byteAt r.body 0) (byteAt r.body 1) = some (.members 5))
      ∧ (∃ (p : Port) (r : Request) (s : State) (item : ConfigItem), s.Takes p .writeConfig r
        ∧ s.session.phase = .setup ∧ s.session.haltCleanup = false ∧ 4 ≤ r.body.length
        ∧ itemOf (byteAt r.body 0) (byteAt r.body 1) = some item ∧ writeOf item (halfAt r.body 2) = none)
      ∧ (∃ (p : Port) (r : Request) (s : State) (item : ConfigItem) (w : ConfigWrite), s.Takes p .writeConfig r
        ∧ s.session.phase = .setup ∧ s.session.haltCleanup = false ∧ 4 ≤ r.body.length
        ∧ itemOf (byteAt r.body 0) (byteAt r.body 1) = some item ∧ writeOf item (halfAt r.body 2) = some w
        ∧ w.permitted s.output = false)
      ∧ ∃ (p : Port) (r : Request) (s : State) (item : ConfigItem) (w : ConfigWrite), s.Takes p .writeConfig r
        ∧ s.session.phase = .setup ∧ s.session.haltCleanup = false ∧ 4 ≤ r.body.length
        ∧ itemOf (byteAt r.body 0) (byteAt r.body 1) = some item ∧ writeOf item (halfAt r.body 2) = some w
        ∧ w.permitted s.output = true := by
  unfold State.Takes
  exact ⟨⟨0, ask 0x10 [], saying 0 0x10 [] (pairIn .run), by decide⟩,
    ⟨0, ask 0x10 [], saying 0 0x10 [] (flagged (pairIn .setup)), by decide⟩,
    ⟨0, ask 0x10 [9, 0, 0, 0], saying 0 0x10 [9, 0, 0, 0] (pairIn .setup), by decide⟩,
    ⟨0, ask 0x10 [8, 6, 0, 0], saying 0 0x10 [8, 6, 0, 0] (pairIn .setup), by decide⟩,
    ⟨0, ask 0x10 [7, 3, 0, 97], saying 0 0x10 [7, 3, 0, 97] (pairIn .setup), .quota 3, by decide⟩,
    ⟨0, ask 0x10 [2, 3, 0, 1], saying 0 0x10 [2, 3, 0, 1] ((pairIn .setup).setOutput (grouped .inactive .refuse)),
      .safeLevel 3, .safeLevel 3 .active, by decide +kernel⟩,
    ⟨0, ask 0x10 [3, 15, 0, 6], saying 0 0x10 [3, 15, 0, 6] (pairIn .setup), .group 15, .group 15 (some 5),
      by decide +kernel⟩⟩

/-- The items at the ends of their index ranges, and just outside them (R194). -/
theorem test_item_codes :
    ([(0, 0), (1, 15), (2, 15), (3, 15), (4, 6), (5, 6), (6, 3), (7, 3), (8, 6)] : List (Byte × Byte)).map
        (fun x => itemOf x.1 x.2)
        = [some .prescale, some (.polarity 15), some (.safeLevel 15), some (.group 15), some (.gap 5), some (.policy 5),
          some (.lease 3), some (.quota 3), some (.members 5)]
      ∧ ([(0, 1), (1, 16), (2, 16), (3, 16), (4, 0), (4, 7), (5, 0), (5, 7), (6, 4), (7, 4), (8, 0), (8, 7), (9, 0)] :
          List (Byte × Byte)).all (fun x => (itemOf x.1 x.2).isNone) = true := by decide +kernel

/-- Values at the ends of their ranges, and just outside them (R154, R194). -/
theorem test_value_ranges :
    ([(.prescale, 8), (.polarity 3, 1), (.safeLevel 3, 1), (.group 3, 0), (.group 3, 6), (.gap 0, 65535), (.policy 0, 1),
      (.lease 0, 255), (.quota 0, 96)] : List (ConfigItem × Half)).map (fun x => writeOf x.1 x.2)
        = [some (.prescale .by8), some (.polarity 3 .activeLow), some (.safeLevel 3 .active), some (.group 3 none),
          some (.group 3 (some 5)), some (.gap 0 65535), some (.policy 0 .defer), some (.lease 0 255),
          some (.quota 0 96)]
      ∧ ([(.prescale, 0), (.prescale, 3), (.polarity 3, 2), (.safeLevel 3, 2), (.group 3, 7), (.group 3, 257),
        (.policy 0, 2), (.lease 0, 256), (.quota 0, 97), (.members 0, 0)] : List (ConfigItem × Half)).all
          (fun x => (writeOf x.1 x.2).isNone) = true := by decide +kernel

/-- The constraints of R103: a fifth member, a line that stays a fourth, a line with safe level ACTIVE, and safe level
ACTIVE for a grouped line. -/
theorem test_constraints :
    let member : LineRecord := { LineRecord.reset with group := some 0 }
    let four := (((OutputUnit.reset.setLine 0 member).setLine 1 member).setLine 2 member).setLine 3 member
    let high := OutputUnit.reset.setLine 5 { LineRecord.reset with safe := .active }
    ((ConfigWrite.group 4 (some 0)).permitted four, (ConfigWrite.group 3 (some 0)).permitted four,
        (ConfigWrite.group 5 (some 0)).permitted high, (ConfigWrite.safeLevel 3 .active).permitted four)
      = (false, true, false, false) := by decide +kernel

theorem witness_ReadConfigCompletes :
    (∃ (p : Port) (r : Request) (s : State), s.Takes p .readConfig r ∧ r.body.length < 2)
      ∧ (∃ (p : Port) (r : Request) (s : State), s.Takes p .readConfig r ∧ 2 ≤ r.body.length
        ∧ itemOf (byteAt r.body 0) (byteAt r.body 1) = none)
      ∧ (∃ (p : Port) (r : Request) (s : State), s.Takes p .readConfig r ∧ 2 ≤ r.body.length
        ∧ itemOf (byteAt r.body 0) (byteAt r.body 1) = some (.gap 5))
      ∧ ∃ (p : Port) (r : Request) (s : State), s.Takes p .readConfig r ∧ 2 ≤ r.body.length
        ∧ itemOf (byteAt r.body 0) (byteAt r.body 1) = some (.members 0) ∧ s.output.GroupsBounded
        ∧ (s.output.members 0).length = 2 := by
  unfold State.Takes OutputUnit.GroupsBounded
  exact ⟨⟨0, ask 0x11 [3], saying 0 0x11 [3] (pairIn .run), by decide⟩,
    ⟨0, ask 0x11 [4, 7], saying 0 0x11 [4, 7] (pairIn .run), by decide⟩,
    ⟨0, ask 0x11 [4, 6], saying 0 0x11 [4, 6] (pairIn .run), by decide⟩,
    ⟨0, ask 0x11 [8, 1], saying 0 0x11 [8, 1] ((pairIn .setup).setOutput (grouped .inactive .refuse)),
      by decide +kernel⟩⟩

/-- P1 has confirmed, or voted. -/
def confirmed1 (s : State) : State := s.setSession { s.session with confirmed := put s.session.confirmed 1 true }
def voted1 (s : State) : State := s.setSession { s.session with voted := put s.session.voted 1 true }

/-- The sum of the four quotas at its bound, 96, and one above it. -/
theorem witness_ConfirmCompletes :
    (∃ (p : Port) (r : Request) (s : State), s.Takes p .confirm r ∧ s.session.phase = .run)
      ∧ (∃ (p : Port) (r : Request) (s : State), s.Takes p .confirm r ∧ s.session.phase = .setup
        ∧ s.session.haltCleanup = true)
      ∧ (∃ (p : Port) (r : Request) (s : State), s.Takes p .confirm r ∧ s.session.phase = .setup
        ∧ s.session.haltCleanup = false ∧ r.body.length < 2)
      ∧ (∃ (p : Port) (r : Request) (s : State), s.Takes p .confirm r ∧ s.session.phase = .setup
        ∧ s.session.haltCleanup = false ∧ 2 ≤ r.body.length ∧ halfAt r.body 0 ≠ s.session.version)
      ∧ (∃ (p : Port) (r : Request) (s : State), s.Takes p .confirm r ∧ s.session.phase = .setup
        ∧ s.session.haltCleanup = false ∧ 2 ≤ r.body.length ∧ halfAt r.body 0 = s.session.version
        ∧ s.session.quotaSum = 97)
      ∧ (∃ (p : Port) (r : Request) (s : State), s.Takes p .confirm r ∧ s.session.phase = .setup
        ∧ s.session.haltCleanup = false ∧ 2 ≤ r.body.length ∧ halfAt r.body 0 = s.session.version
        ∧ s.session.quotaSum = 96 ∧ ∃ q, s.attached q = true ∧ ¬ (q = p ∨ look s.session.confirmed q = true))
      ∧ ∃ (p : Port) (r : Request) (s : State), s.Takes p .confirm r ∧ s.session.phase = .setup
        ∧ s.session.haltCleanup = false ∧ 2 ≤ r.body.length ∧ halfAt r.body 0 = s.session.version
        ∧ s.session.quotaSum = 96 ∧ ∀ q, s.attached q = true → q = p ∨ look s.session.confirmed q = true := by
  unfold State.Takes
  exact ⟨⟨0, ask 0x12 [], saying 0 0x12 [] (pairIn .run), by decide⟩,
    ⟨0, ask 0x12 [], saying 0 0x12 [] (flagged (pairIn .setup)), by decide⟩,
    ⟨0, ask 0x12 [0], saying 0 0x12 [0] (pairIn .setup), by decide⟩,
    ⟨0, ask 0x12 [0, 1], saying 0 0x12 [0, 1] (pairIn .setup), by decide⟩,
    ⟨0, ask 0x12 [0, 0], saying 0 0x12 [0, 0] (quota0 25 (pairIn .setup)), by decide +kernel⟩,
    ⟨0, ask 0x12 [0, 0], saying 0 0x12 [0, 0] (pairIn .setup), by decide +kernel⟩,
    ⟨0, ask 0x12 [0, 0], saying 0 0x12 [0, 0] (confirmed1 (pairIn .setup)), by decide +kernel⟩⟩

theorem witness_HaltVoteCompletes :
    (∃ (p : Port) (r : Request) (s : State), s.Takes p .haltVote r ∧ s.session.phase = .setup)
      ∧ (∃ (p : Port) (r : Request) (s : State), s.Takes p .haltVote r ∧ s.session.phase = .run
        ∧ ∃ q, q ≠ p ∧ s.attached q = true ∧ look s.session.voted q = false)
      ∧ ∃ (p : Port) (r : Request) (s : State), (s.Takes p .haltVote r ∧ s.session.phase = .run
        ∧ ∀ q, q ≠ p → s.attached q = true → look s.session.voted q = true) ∧ s.OutputLaw := by
  unfold State.Takes
  exact ⟨⟨0, ask 0x13 [], saying 0 0x13 [] (pairIn .setup), by decide⟩,
    ⟨0, ask 0x13 [], saying 0 0x13 [] (pairIn .run), by decide⟩,
    ⟨0, ask 0x13 [], saying 0 0x13 [] (voted1 (pairIn .run)), by decide, rest_outputLaw rfl⟩⟩

theorem witness_OnlyTheirCommandsMove :
    (∃ (c : Instr) (s t : State), (∀ cause, c ≠ .deviceReset cause) ∧ exec c s = .next t ∧ c ≠ .tbStep
        ∧ s.session.phase = .run)
      ∧ ∃ (c : Instr) (s t : State) (cause : TripCause) (entry : Time), (∀ cause, c ≠ .deviceReset cause)
        ∧ exec c s = .next t ∧ s.output.trip = .tripped cause entry ∧ (∀ p, c ≠ .clearTrip p) ∧ c ≠ .resetEnd :=
  ⟨⟨.trip 0, saying 0 0x50 [] (pairIn .run), _, by simp, rfl, by simp, rfl⟩,
    ⟨.faultLow, faultEdge .low (.tripped .input 0), _, .input, 0, by simp, rfl, rfl, by simp, by simp⟩⟩

/-- The completion notice of a DETACH of P0, whose ticket is of the port's present lapse count or of an older one. -/
def detachNotice (epoch : Nat) (s : State) : State :=
  s.setClaims { s.claims with detachDone := put s.claims.detachDone 0 [{ ticket0 with epoch := epoch }] }

/-- P1 has left. -/
def alone (s : State) : State := portIn 1 .detached false s

theorem witness_DetachCompletes :
    let notice (s : State) (epoch : Nat) : Prop :=
      s.live = true ∧ look s.claims.detachDone 0 = [{ ticket0 with epoch := epoch }] ∧ s.OutputLaw
    (∃ s : State, notice s 0 ∧ (s.port 0).epoch = 0 ∧ (s.port 0).state = .attached ∧ s.session.phase = .run
        ∧ ∃ q, q ≠ 0 ∧ s.attached q = true ∧ look s.session.voted q = false)
      ∧ (∃ s : State, notice s 0 ∧ (s.port 0).epoch = 0 ∧ (s.port 0).state = .attached ∧ s.session.phase = .run
        ∧ (∃ q, q ≠ 0 ∧ s.attached q = true)
        ∧ ∀ q, q ≠ 0 → s.attached q = true → look s.session.voted q = true)
      ∧ (∃ s : State, notice s 0 ∧ (s.port 0).epoch = 0 ∧ (s.port 0).state = .attached ∧ s.session.phase = .run
        ∧ (∀ q, q ≠ 0 → s.attached q = false) ∧ ∀ q, (s.port q).cleanup = false)
      ∧ (∃ s : State, notice s 0 ∧ (s.port 0).epoch = 0 ∧ (s.port 0).state = .attached ∧ s.session.phase = .setup
        ∧ ∃ q, q ≠ 0 ∧ s.attached q = true ∧ look s.session.confirmed q = false)
      ∧ (∃ s : State, notice s 0 ∧ (s.port 0).epoch = 0 ∧ (s.port 0).state = .attached ∧ s.session.phase = .setup
        ∧ (∃ q, q ≠ 0 ∧ s.attached q = true) ∧ s.session.haltCleanup = false
        ∧ ∀ q, q ≠ 0 → s.attached q = true → look s.session.confirmed q = true)
      ∧ (∃ s : State, notice s 0 ∧ (s.port 0).state = .lapsed ∧ s.session.phase = .run
        ∧ ∃ q, s.attached q = true ∧ look s.session.voted q = false)
      ∧ ∃ s : State, notice s 1 ∧ (s.port 0).epoch = 0 ∧ (s.port 0).state = .attached := by
  refine ⟨⟨detachNotice 0 (pairIn .run), ⟨by decide, by decide, rest_outputLaw rfl⟩, by decide⟩,
    ⟨detachNotice 0 (voted1 (pairIn .run)), ⟨by decide, by decide, rest_outputLaw rfl⟩, by decide⟩,
    ⟨detachNotice 0 (alone (pairIn .run)), ⟨by decide, by decide, rest_outputLaw rfl⟩, by decide⟩,
    ⟨detachNotice 0 (pairIn .setup), ⟨by decide, by decide, rest_outputLaw rfl⟩, by decide⟩,
    ⟨detachNotice 0 (confirmed1 (pairIn .setup)), ⟨by decide, by decide, rest_outputLaw rfl⟩, by decide⟩,
    ⟨detachNotice 0 (portIn 0 .lapsed true (pairIn .run)), ⟨by decide, by decide, rest_outputLaw rfl⟩, by decide⟩,
    ⟨detachNotice 1 (pairIn .run), ⟨by decide, by decide, rest_outputLaw rfl⟩, by decide⟩⟩

theorem witness_HaltCompletes : ∃ s : State, s.live = true ∧ s.claims.halt = .notice :=
  ⟨halting .notice (pairIn .setup), by decide⟩

/-- P0's lease is over at tick 0. -/
def leaseOver0 (s : State) : State := s.changePort 0 (fun u => { u with leaseEnd := some 0 })

/-- The completion notice of a lapse cleanup of P2, which is LAPSED. -/
def lapseNotice (s : State) : State :=
  (portIn 2 .lapsed true s).setClaims { s.claims with lapseDone := put s.claims.lapseDone 2 true }

theorem witness_LapseAndCleanup :
    (∃ (p : Port) (s : State), s.live = true ∧ s.attached p = true ∧ (s.port p).leaseEnd = some s.now)
      ∧ (∃ (p : Port) (s : State), s.live = true ∧ look s.claims.lapseDone p = true ∧ s.session.phase = .setup
        ∧ s.session.haltCleanup = true)
      ∧ (∃ (p : Port) (s : State), s.live = true ∧ look s.claims.lapseDone p = true ∧ s.session.phase = .setup
        ∧ s.session.haltCleanup = false ∧ s.attached p = false ∧ (∃ q, s.attached q = true)
        ∧ ∀ q, s.attached q = true → look s.session.confirmed q = true)
      ∧ (∃ (p : Port) (s : State), s.live = true ∧ look s.claims.lapseDone p = true ∧ s.session.phase = .run
        ∧ (∀ q, s.attached q = false) ∧ ∃ q, q ≠ p ∧ (s.port q).cleanup = true)
      ∧ (∃ (p : Port) (s : State), s.live = true ∧ look s.claims.lapseDone p = true ∧ s.session.phase = .run
        ∧ ∃ q, s.attached q = true ∧ look s.session.voted q = false)
      ∧ (∃ (p : Port) (s : State), (s.live = true ∧ look s.claims.lapseDone p = true ∧ s.session.phase = .run
        ∧ (∃ q, s.attached q = true) ∧ ∀ q, s.attached q = true → look s.session.voted q = true) ∧ s.OutputLaw)
      ∧ ∃ (p : Port) (s : State), (s.live = true ∧ look s.claims.lapseDone p = true ∧ s.session.phase = .run
        ∧ (∀ q, s.attached q = false) ∧ ∀ q, q ≠ p → (s.port q).cleanup = false) ∧ s.OutputLaw := by
  let only1 (s : State) : State := portIn 0 .detached false s
  let nobody (s : State) : State := alone (only1 s)
  exact ⟨⟨0, leaseOver0 (pairIn .run), by decide⟩, ⟨2, lapseNotice (flagged (pairIn .setup)), by decide⟩,
    ⟨2, lapseNotice (confirmed1 (only1 (pairIn .setup))), by decide⟩,
    ⟨2, portIn 3 .lapsed true (lapseNotice (nobody (pairIn .run))), by decide⟩,
    ⟨2, lapseNotice (pairIn .run), by decide⟩,
    ⟨2, lapseNotice (voted1 (only1 (pairIn .run))), by decide, rest_outputLaw rfl⟩,
    ⟨2, lapseNotice (nobody (pairIn .run)), by decide, rest_outputLaw rfl⟩⟩

/-! Port units -/

/-- A sensed edge of P0's select input that waits. -/
def selEdge0 (e : PinLevel) (s : State) : State :=
  s.setInputs { s.inputs with selEdges := put s.inputs.selEdges 0 [e] }

/-- P0's select input stands at a level. -/
def selAt (e : PinLevel) (s : State) : State :=
  s.setInputs { s.inputs with selPins := put s.inputs.selPins 0 { last := e, sensed := e } }

/-- A frame start with a full reply queue and one with an empty one; the pin at its two levels, and reset held. -/
theorem witness_FrameStartCaptures :
    (∀ n : Nat, n = 0 ∨ n = 4 → ∃ (rest : List PinLevel) (s : State), s.live = true
        ∧ look s.inputs.selEdges 0 = .low :: rest ∧ (s.port 0).replies.length = n ∧ (s.port 0).cmds.length ≤ 4
        ∧ (s.port 0).events.length ≤ 16 ∧ (look s.inputs.selPins 0).last = .low
        ∧ (look s.inputs.selPins 0).sensed = .low ∧ .low ∉ rest)
      ∧ (∃ s : State, s.inputs.resetHeld = true) ∧ ∃ s : State, (look s.inputs.selPins 0).last = .high := by
  let full (n : Nat) (s : State) : State :=
    s.changePort 0 (fun u => { u with replies := List.replicate n { status := .ok, seq := 7, body := [1] } })
  refine ⟨fun n h => ⟨[], full n (selEdge0 .low (selAt .low (pairIn .run))), ?_⟩,
    ⟨resetLeaving .high, rfl⟩, ⟨selAt .high (pairIn .run), by decide⟩⟩
  rcases h with rfl | rfl <;> decide +kernel

/-- The bytes of a request as they are shifted. -/
def framed (kind seq : Byte) (body : List Byte) : List Byte :=
  let covered := [kind, seq, BitVec.ofNat 8 body.length] ++ body
  covered ++ halfBytes (crc16 covered)

/-- One stream for each answer of the check, at the bounds of len and of the length. -/
theorem witness_RequestCheckOrder :
    checkRequest [0x03, 7] = .error .short ∧ checkRequest [0x03, 7, 25] = .error .badLength
      ∧ checkRequest [0x03, 7, 24] = .error .short ∧ checkRequest [0x03, 7, 0, 0] = .error .short
      ∧ checkRequest [0x03, 7, 0, 0, 0] = .error .crc
      ∧ checkRequest (framed 0x03 7 []) = .ok { request := ask 0x03 [], crc := crc16 [0x03, 7, 0] } := by
  decide +kernel

/-- An open frame of P0 that ends, with nothing to read. -/
def ending (s : State) : State :=
  let f : Snapshot := { header := State.reset.header 0, reply := Reply.empty, held := false }
  (selEdge0 .high s).changePort 0 (fun u => { u with snapshot := some f })

/-- The bits of some bytes as they are shifted. -/
def bitsOf (bytes : List Byte) : List Bool := bytes.flatMap bitsOfByte

/-- A request with good CRC in every case of the fifth and sixth step. -/
theorem witness_FrameEndSteps :
    (∃ (rest : List PinLevel) (s : State), s.live = true ∧ look s.inputs.selEdges 0 = .high :: rest
        ∧ (s.port 0).snapshot.isSome = true)
      ∧ bytesOfBits (bitsOf [0x03, 7, 24]) = [0x03, 7, 24]
      ∧ (∃ x, checkRequest (bytesOfBits (bitsOf (framed 0x00 7 []))) = .ok x ∧ kindOf x.request.kind = some .null)
      ∧ (∃ x, checkRequest (bytesOfBits (bitsOf (framed 0x03 7 []))) = .ok x ∧ kindOf x.request.kind ≠ some .null
        ∧ (ending (pairIn .run)).live = true ∧ (((ending (pairIn .run)).port 0).lastAccepted).isNone = true)
      ∧ ∀ answered : Bool, ∃ (s : State) (a : LastAccepted) (x : Received),
        (s.port 0).lastAccepted = some a ∧ checkRequest (bytesOfBits (bitsOf (framed 0x03 7 []))) = .ok x
          ∧ a.seq = x.request.seq ∧ a.crc = x.crc ∧ a.answered = answered := by
  refine ⟨⟨[], ending (pairIn .run), by decide⟩, by decide +kernel,
    ⟨{ request := ask 0x00 [], crc := crc16 [0x00, 7, 0] }, by decide +kernel⟩,
    ⟨{ request := ask 0x03 [], crc := crc16 [0x03, 7, 0] }, by decide +kernel⟩, fun answered => ?_⟩
  let a : LastAccepted := { seq := 7, crc := crc16 [0x03, 7, 0], answered := answered }
  refine ⟨(ending (pairIn .run)).changePort 0 (fun u => { u with lastAccepted := some a }), a,
    { request := ask 0x03 [], crc := crc16 [0x03, 7, 0] }, ?_⟩
  cases answered <;> decide +kernel

/-- A reply on its way to P0, for a command that has been taken; an event queue with room, and one that is full. -/
theorem witness_RepliesAndRecordsArrive :
    (∃ (s : State) (t : Ticket) (x : Reply) (rest : List (Ticket × Reply)), s.live = true
        ∧ (s.port 0).produced = (t, x) :: rest ∧ t.port = 0 ∧ t.epoch = (s.port 0).epoch
        ∧ (s.port 0).setAside = true)
      ∧ (∃ (s : State) (t : Ticket) (x : Reply) (rest : List (Ticket × Reply)), s.live = true
        ∧ (s.port 0).produced = (t, x) :: rest ∧ t.port = 0 ∧ t.epoch ≠ (s.port 0).epoch)
      ∧ (∃ s : State, s.live = true ∧ (s.port 0).posted.length = 1 ∧ (s.port 0).state = .attached
        ∧ (s.port 0).events.length = 15)
      ∧ (∃ s : State, s.live = true ∧ (s.port 0).posted.length = 1 ∧ (s.port 0).state = .attached
        ∧ (s.port 0).events.length = 16 ∧ (s.port 0).overflow = 255)
      ∧ ∃ s : State, s.live = true ∧ (s.port 0).posted.length = 1 ∧ (s.port 0).state ≠ .attached := by
  let reply : Reply := { status := .ok, seq := 7, body := [] }
  let owing (epoch : Nat) : State := (saying 0 0x50 [] (pairIn .run)).changePort 0
    (fun u => { u with produced := [(ticket0, reply)], setAside := true, epoch := epoch })
  let e := phaseRecord .run 0 0
  let receiving (n : Nat) (s : State) : State := s.changePort 0
    (fun u => { u with posted := [e], events := List.replicate n e, overflow := 255 })
  exact ⟨⟨owing 0, ticket0, reply, [], by decide⟩, ⟨owing 1, ticket0, reply, [], by decide⟩,
    ⟨receiving 15 (pairIn .run), by decide⟩, ⟨receiving 16 (pairIn .run), by decide⟩,
    ⟨receiving 0 State.reset, by decide⟩⟩

/-- Two replies owed to flushed commands: the first one discarded clears the mark, the second is discarded too (log 31). -/
theorem test_two_owed_replies :
    let reply : Reply := { status := .ok, seq := 7, body := [] }
    let s := (pairIn .run).changePort 0
      (fun u => { u with produced := [(ticket0, reply), (ticket0, reply)], owed := true, epoch := 2 })
    (match exec (.replyArrival 0) s with
      | .next t => (match exec (.replyArrival 0) t with
          | .next v => ((t.port 0).owed, (t.port 0).produced.length, (v.port 0).produced.length, (v.port 0).replies)
          | _ => (true, 9, 9, []))
      | _ => (true, 9, 9, [])) = (false, 1, 0, []) := by decide +kernel

theorem witness_PortUnitCommands :
    (∃ (p : Port) (r : Request) (s : State), s.live = true ∧ s.head p = some r ∧ kindOf r.kind = none)
      ∧ (∃ (p : Port) (r : Request) (s : State), s.live = true ∧ s.head p = some r
        ∧ kindOf r.kind = some .detach ∧ s.attached p = false)
      ∧ (∃ (p : Port) (r : Request) (s : State), s.Takes p .readTime r ∧ s.attached p = false)
      ∧ (∃ (p : Port) (r : Request) (s : State), s.Takes p .readEvents r ∧ r.body.length = 1)
      ∧ ∃ (p : Port) (r : Request) (s : State), s.Takes p .ackEvents r ∧ r.body.length = 1 := by
  unfold State.Takes
  exact ⟨⟨0, ask 0x04 [], saying 0 0x04 [] (pairIn .run), by decide⟩,
    ⟨2, ask 0x02 [], saying 2 0x02 [] (pairIn .run), by decide⟩,
    ⟨2, ask 0x03 [], saying 2 0x03 [] (pairIn .run), by decide⟩,
    ⟨0, ask 0x40 [4], saying 0 0x40 [4] (pairIn .run), by decide⟩,
    ⟨0, ask 0x41 [255], saying 0 0x41 [255] (pairIn .run), by decide⟩⟩

theorem witness_QueueAndSessionLawsKept :
    (∃ s t : State, s.QueuesBounded ∧ step s = .next t) ∧ ∃ s t : State, s.SessionLaw ∧ step s = .next t :=
  ⟨⟨pairIn .run, _, ⟨by decide, by decide, by decide, by decide, by decide⟩, rfl⟩,
    ⟨voted1 (pairIn .run), _, ⟨by decide, by decide, by decide, by decide⟩, rfl⟩⟩

/-! ### Witnesses: the wider clauses -/

/-- An output unit whose line 3 is ACTIVE in G1, with gap 0, in RUN, with a release of P0 that asks for its drive. -/
def openingRelease : State := releasing .drive ((pairIn .run).setOutput
  (OutputUnit.reset.setLine 3 { LineRecord.reset with level := .active, group := some 0 }))

theorem openingRelease_outputLaw : openingRelease.OutputLaw := by
  unfold State.OutputLaw OutputUnit.Interlocked OutputUnit.GroupedSafe OutputUnit.PulsesActive OutputUnit.GroupsBounded
  refine ⟨by decide +kernel, by decide +kernel, fun g h e => ?_, by decide +kernel, by decide +kernel, fun h => ?_⟩
  · have all : ∀ g, (openingRelease.output.group g).holdoff = none := by decide +kernel
    simp [all g] at e
  · exact absurd h (by decide +kernel)

/-- The drive of a line that opens its group. -/
theorem witness_SafeLevelDrives_opening :
    ∃ (s : State) (j : ReleaseJob) (g : Group), (s.live = true ∧ look s.claims.releases 0 = some j ∧ j.stage = .drive
      ∧ (s.output.line j.line).group = some g ∧ (s.output.line j.line).level = .active ∧ (s.output.group g).gap = 0)
      ∧ s.OutputLaw :=
  ⟨openingRelease, { ticket := ticket0, line := 3, stage := .drive }, 0, by decide +kernel, openingRelease_outputLaw⟩

/-- The due cue of a state, in slot 0, with its owner ATTACHED in RUN. -/
def Comes (s : State) (c : Cue) : Prop :=
  s.live = true ∧ s.cueTable.pendingList = [0] ∧ s.cueTable.cue 0 = some c ∧ c.due = s.now ∧ s.attached c.owner = true
    ∧ s.session.phase = .run

/-- A record that shifts back by 20. -/
def shiftBack : StagedRecord :=
  { action := none, width := none, period := none, remaining := none, shift := some 0xFFFFEC }

/-- The periodic cue: with its last occurrence, under FIRE_LATE with a shift back, and late at tick 0 by 15 ticks. -/
def lastCue : Cue := { periodic with remaining := some 1 }
def backCue : Cue := { periodic with staged := some shiftBack, missPolicy := .fireLate }
def lateCue : Cue := { periodic with gridDue := 0xFFFFFFF1, effDue := some 0 }

/-- SUPPRESSED with the last occurrence, APPLIED with a shift that brings the next due behind, REFUSED late. -/
theorem witness_OccurrenceAppliedPeriodic_continued :
    (∃ (s : State) (c : Cue), (Comes s c ∧ s.output.trip.isTripped = true ∧ c.staged = none ∧ c.remaining = some 1)
        ∧ s.cueTable.Listed)
      ∧ (∃ (s : State) (c c' : Cue) (o : OutputUnit) (r : StagedRecord), (Comes s c ∧ s.output.trip.isTripped = false
        ∧ s.output.apply s.now c.line c.action c.width = (o, .applied) ∧ c.staged = some r ∧ c.set = none
        ∧ c'.effDue = none ∧ c'.missPolicy = .fireLate
        ∧ isAhead s.now (shifted (later c.gridDue 10) (r.shift.getD 0)) = false)
        ∧ AppliedTo r { c with missed := 0 } c' ∧ s.cueTable.Listed)
      ∧ ∃ (s : State) (c : Cue) (o : OutputUnit) (g : Group), (Comes s c ∧ s.output.trip.isTripped = false
        ∧ s.output.apply s.now c.line c.action c.width = (o, .refused g) ∧ c.staged = none ∧ c.effDue = some s.now
        ∧ isAhead s.now (later c.gridDue 10) = false) ∧ s.cueTable.Listed := by
  unfold Comes
  exact ⟨⟨tripped (.tripped .input 0) (running lastCue OutputUnit.reset), lastCue, by decide +kernel,
      listed_of_checks (by decide +kernel) (by decide +kernel) (by decide +kernel) (by decide +kernel)
        (by decide +kernel)⟩,
    ⟨running backCue OutputUnit.reset, backCue, { periodic with missPolicy := .fireLate },
      OutputUnit.reset.activate 0 3 none, shiftBack, by decide +kernel, by unfold AppliedTo; decide,
      listed_of_checks (by decide +kernel) (by decide +kernel) (by decide +kernel) (by decide +kernel)
        (by decide +kernel)⟩,
    ⟨running lateCue (grouped .active .refuse), lateCue, grouped .active .refuse, 0, by decide +kernel,
      listed_of_checks (by decide +kernel) (by decide +kernel) (by decide +kernel) (by decide +kernel)
        (by decide +kernel)⟩⟩

/-- The records of a member at an applying expiry exist for every member. -/
theorem shiftPosts_exists (c : Cue) (shift : Triple) (now : Time) (handle : Half) :
    ∃ es, ShiftPosts c shift now handle es := by
  by_cases h : c.SkipsBy shift now
  · exact ⟨_, fun _ => rfl, fun n => absurd h n⟩
  · exact ⟨[], fun y => absurd y h, fun _ => rfl⟩

/-- A table whose cue is the one member of S0, SCHEDULED for tick 0, with a record that shifts it. -/
def shiftTable (r : StagedRecord) : CueTable := (tableOf { memberCue with staged := some r }).putSet 0 (.scheduled 0 1 0)

/-- A shift to a place ahead, and one that the catch-up rule under SKIP meets. -/
theorem witness_CommitTimeExpiryCompletes_shifted : ∀ back : Bool,
    let r := if back then shiftBack else shift5
    let s := (pairIn .run).setCueTable (shiftTable r)
    ∃ (applied : SlotId → Cue) (shift : SlotId → Triple) (posts : SlotId → List EventRecord),
      (s.live = true ∧ s.cueTable.commitSet 0 = .scheduled 0 1 s.now ∧ s.session.phase = .run ∧ s.attached 0 = true)
        ∧ s.cueTable.Listed ∧ s.cueTable.SetsCounted
        ∧ (∀ i, i ∈ s.cueTable.membersOf 0 → ∃ c r, s.cueTable.cue i = some c ∧ c.staged = some r
          ∧ AppliedTo r c (applied i) ∧ shift i = r.shift.getD 0
          ∧ ShiftPosts (applied i) (shift i) s.now (s.cueTable.handle i) (posts i))
        ∧ isAhead s.now (shifted (applied 0).gridDue (shift 0)) = !back := by
  intro back r s
  obtain ⟨es, he⟩ := shiftPosts_exists periodic (r.shift.getD 0) 0 (s.cueTable.handle 0)
  have member : ∀ i, i ∈ s.cueTable.membersOf 0 → i = 0 := by cases back <;> decide +kernel
  refine ⟨fun _ => periodic, fun _ => r.shift.getD 0, fun _ => es, by cases back <;> decide +kernel, ?_, ?_, ?_, ?_⟩
  · cases back <;>
      exact listed_of_checks (by decide +kernel) (by decide +kernel) (by decide +kernel) (by decide +kernel)
        (by decide +kernel)
  · refine ⟨by cases back <;> decide +kernel, fun i c k hc hk => ?_⟩
    have all : ∀ i : SlotId, (s.cueTable.cue i).all
        (fun c => c == { memberCue with staged := some r }) = true := by cases back <;> decide +kernel
    have e : c = { memberCue with staged := some r } := by simpa [hc] using all i
    subst e
    have e : k = 0 := by simpa [memberCue] using hk.symm
    subst e
    cases back <;> decide +kernel
  · intro i hi
    rw [member i hi]
    refine ⟨{ memberCue with staged := some r }, r, by cases back <;> decide +kernel, rfl, ?_, rfl, he⟩
    cases back <;> unfold AppliedTo <;> decide
  · cases back <;> decide +kernel

/-- A cue alone in the table stands in order. -/
theorem tableOf_ordered (now : Time) : (tableOf cueNow).Ordered now where
  sorted := by simp [tableOf]
  older i c h := by
    have all : ∀ i : SlotId, ((tableOf cueNow).cue i).all (fun c => c == cueNow) = true := by decide +kernel
    have e : c = cueNow := by simpa [h] using all i
    subst e; decide
  distinct i j c d h k _ := by
    have all : ∀ i : SlotId, ((tableOf cueNow).cue i).isSome = true → i = 0 := by decide +kernel
    rw [all i (by simp [h]), all j (by simp [k])]

theorem witness_CueListsKept_ordered :
    ∃ s t : State, s.cueTable.Listed ∧ s.cueTable.Ordered s.now ∧ step s = .next t :=
  ⟨(State.reset.setCueTable (tableOf cueNow)).withPending [.occurrence], _, tableOf_listed, tableOf_ordered _, rfl⟩

/-- A DETACH whose port has a cue in a set, and a halt purge with a cue on a list. -/
theorem witness_PurgesComplete_lists :
    (∃ (r : Request) (s : State), (s.live = true ∧ s.granted .detach 0 = some r) ∧ s.cueTable.SetsCounted
        ∧ (s.cueTable.commitSet 0).owner? = some 0)
      ∧ ∃ s : State, (s.live = true ∧ s.nextGrant = some (.urgent, 2) ∧ s.firstPurge 2 = some .halt)
        ∧ s.cueTable.Listed ∧ s.cueTable.pendingList = [0] :=
  ⟨⟨ask 0x02 [], waits 0 (ask 0x02 []) ((pairIn .run).setCueTable ((tableOf memberCue).putSet 0 (.opened 0 1))),
      by decide +kernel, oneMember_counted, rfl⟩,
    ⟨(purging .halt).setCueTable (tableOf cueNow), by decide +kernel, tableOf_listed, rfl⟩⟩

/-- A line with three waiters and a holdoff that names a line, or that a configuration write set. -/
theorem witness_QueryLineReports_holdoff : ∀ named : Option Line,
    ∃ (r : Request) (s : State), (s.Takes 0 .queryLine r ∧ 1 ≤ r.body.length ∧ byteAt r.body 0 = lineCode 3)
      ∧ (s.claims.record 3).waiters = [1, 2, 3] ∧ s.output.holdoffOf 3 = some { line := named, endsAt := 9 } := by
  intro named
  unfold State.Takes
  let held : OutputUnit := (grouped .inactive .defer).setGroup 0
    { gap := 20, policy := .defer, holdoff := some { line := named, endsAt := 9 } }
  exact ⟨ask 0x22 [3], (saying 0 0x22 [3] (heldBy 0 [1, 2, 3] (pairIn .run))).setOutput held, by decide +revert, by decide +revert,
    rfl⟩

/-- A RELEASE of line 3 by P0 at a stage: its present one, or a late one behind one at another stage. -/
def carrying (late : Bool) (stage : ReleaseStage) (s : State) : State :=
  let job (x : ReleaseStage) : ReleaseJob := { ticket := ticket0, line := 3, stage := x }
  let first := if stage = .drive then job .undecided else job .drive
  if late then s.setClaims { s.claims with releases := put s.claims.releases 0 none
                                           late := put s.claims.late 0 [first, job stage] }
  else s.setClaims { s.claims with releases := put s.claims.releases 0 (some (job stage)) }

/-- Present or late, it is the one that an event at its stage takes. -/
theorem carrying_serves (late : Bool) (stage : ReleaseStage) (s : State) :
    ∃ moved, (carrying late stage s).claims.Serves 0 { ticket := ticket0, line := 3, stage := stage } moved := by
  cases late
  · exact ⟨_, .inl ⟨by simp [carrying], fun _ => rfl⟩⟩
  · refine ⟨_, .inr ⟨by simp [carrying], [_], [], by simp [carrying]; rfl, ?_, fun _ => rfl⟩⟩
    cases stage <;> simp

/-- For the present RELEASE and for a late one: the drive; the decision for the holder, for a waiter and for another port;
the transfer to a waiter, to nobody and in SETUP, of a line that another port holds, and of a line with a cue. -/
theorem witness_servedReleases : ∀ late : Bool,
    (∃ s : State, s = carrying late .drive (pairIn .run) ∧ s.live = true ∧ s.OutputLaw)
      ∧ (∃ s : State, s = carrying late .undecided (heldBy 0 [1] (pairIn .run)) ∧ s.live = true
        ∧ s.claims.holder 3 = some 0)
      ∧ (∃ s : State, s = carrying late .undecided (heldBy 1 [2, 0] (pairIn .run)) ∧ s.live = true
        ∧ s.claims.holder 3 ≠ some 0 ∧ 0 ∈ (s.claims.record 3).waiters)
      ∧ (∃ s : State, s = carrying late .undecided (heldBy 1 [2] (pairIn .run)) ∧ s.live = true
        ∧ s.claims.holder 3 ≠ some 0 ∧ 0 ∉ (s.claims.record 3).waiters)
      ∧ (∀ phase : Phase, ∀ waiters : List Port, waiters = [] ∨ waiters = [1, 2] →
        ∃ s : State, s = carrying late .transfer (heldBy 0 waiters (pairIn phase)) ∧ s.live = true
          ∧ s.session.phase = phase ∧ s.claims.holder 3 = some 0 ∧ (s.claims.record 3).waiters = waiters
          ∧ ∀ i, s.cueTable.cue i = none)
      ∧ (∃ s : State, s = carrying late .transfer (heldBy 1 [] (pairIn .run)) ∧ s.live = true
        ∧ s.claims.holder 3 = some 1)
      ∧ ∃ s : State, s = carrying late .transfer (heldBy 0 [1] ((pairIn .run).setCueTable (tableOf cueNow)))
        ∧ s.live = true ∧ s.claims.holder 3 = some 0 ∧ s.cueTable.cue 0 = some cueNow
        ∧ cueNow.line = 3 ∧ cueNow.owner = 0
        ∧ (late = true → look s.claims.releases 0 = none) := by
  intro late
  refine ⟨⟨_, rfl, by cases late <;> decide, rest_outputLaw (by cases late <;> rfl)⟩,
    ⟨_, rfl, by cases late <;> decide⟩, ⟨_, rfl, by cases late <;> decide⟩, ⟨_, rfl, by cases late <;> decide⟩,
    fun phase waiters h => ⟨_, rfl, ?_⟩, ⟨_, rfl, by cases late <;> decide⟩,
    ⟨_, rfl, by cases late <;> decide +kernel⟩⟩
  rcases h with rfl | rfl <;> cases late <;> cases phase <;> decide +kernel

/-- A late RELEASE is decided by the record: P0, a waiter again, leaves the list and is answered OK. -/
theorem test_late_release_leaves_the_list :
    (match exec (.releaseAtClaimUnit 0) (carrying true .undecided (heldBy 1 [0, 2] (pairIn .run))) with
      | .next t => decide ((t.claims.record 3).waiters = [2] ∧ (t.port 0).produced.map (·.2.body) = [[3, 1, 1]])
      | _ => false) = true := by decide +kernel

/-- A late transfer gives the line on where no cue of the port stands, and leaves it where one does. -/
theorem test_late_transfer_spares_cues : ∀ cue : Bool,
    (match exec (.claimTransfer (.release 0)) (carrying true .transfer (heldBy 0 [1]
        ((pairIn .run).setCueTable (if cue then tableOf cueNow else CueTable.reset)))) with
      | .next t => t.claims.holder 3
      | _ => none) = some (if cue then 0 else 1) := by decide +kernel

/-- The start event of a lapse is held by a drive or transfer, present or late. -/
theorem test_lapse_start_held : ∀ late : Bool,
    ([.drive, .transfer] : List ReleaseStage).all (fun stage =>
      let s := departing .lapse .notStarted (carrying late stage (pairIn .run))
      match exec (.portReleaseStart 0 .lapse) s with
        | .next t => decide (t = s)
        | _ => false) = true := by
  intro late; cases late <;> decide +kernel

/-- A release whose line another port has claimed since, and the last line of a port release with a waiter. -/
theorem witness_ClaimTransfers_last :
    (∃ (j : ReleaseJob) (s : State), s.live = true ∧ look s.claims.releases 0 = some j ∧ j.stage = .transfer
        ∧ s.claims.holder j.line = some 1)
      ∧ ∀ why : Departure, ∃ (owes : Option Ticket) (l : Line) (s : State), s.live = true
        ∧ s.claims.departure 0 why = some { owes := owes, stage := .giving [l] true } ∧ s.session.phase = .run
        ∧ s.claims.holder l = some 0 ∧ (s.claims.record l).waiters = [1] :=
  ⟨⟨transfer0, releasing .transfer (heldBy 1 [] (pairIn .run)), by decide⟩,
    fun why => ⟨some ticket0, 3, departing why (.giving [3] true) (heldBy 0 [1] (pairIn .run)),
      by cases why <;> decide⟩⟩

/-- The start event of a lapse with a RELEASE of the port that is not decided, the port holding a line or none. -/
theorem witness_ReleasesStart_undecided : ∀ holder : Port, holder = 0 ∨ holder = 1 →
    ∃ (s : State) (owes : Option Ticket) (j : ReleaseJob), s.live = true
      ∧ s.claims.departure 0 .lapse = some { owes := owes, stage := .notStarted } ∧ look s.claims.detaching 0 = none
      ∧ look s.claims.releases 0 = some j ∧ j.stage = .undecided ∧ look s.claims.late 0 = [j]
      ∧ ((∃ m, s.claims.holder m = some 0) ↔ holder = 0) := by
  intro holder h
  let s := releasing .undecided (heldBy holder [] (pairIn .run))
  refine ⟨departing .lapse .notStarted (s.setClaims { s.claims with late := put s.claims.late 0 [undecided0] }),
    some ticket0, undecided0, ?_⟩
  rcases h with rfl | rfl <;> decide +kernel

/-- The decision after the start event, while the port still holds the line. -/
theorem witness_ReleaseDecided_started :
    ∃ (s : State) (j : ReleaseJob) (owes : Option Ticket), s.live = true ∧ look s.claims.releases 0 = some j
      ∧ j.stage = .undecided ∧ s.claims.holder j.line = some 0
      ∧ s.claims.departure 0 .lapse = some { owes := owes, stage := .giving [3] false } :=
  ⟨departing .lapse (.giving [3] false) (releasing .undecided (heldBy 0 [1] (pairIn .run))), undecided0, some ticket0,
    by decide +kernel⟩

/-- SETUP at tick 5 with lines 3 and 4 in G1 (gap 20), line 3 changed at tick 2, and a holdoff. -/
def guardedSetup : State :=
  ((pairIn .setup).setTimeBase { TimeBase.reset with tb := 5 }).setOutput
    (((grouped .inactive .refuse).setLine 3 { LineRecord.reset with group := some 0, lastChange := some 2 }).setGroup 0
      { gap := 20, policy := .refuse, holdoff := some { line := some 3, endsAt := 22 } })

theorem guardedSetup_outputLaw : guardedSetup.OutputLaw := by
  have rest : ∀ l, (guardedSetup.output.line l).level = .inactive ∧ (guardedSetup.output.line l).safe = .inactive
      ∧ (guardedSetup.output.line l).pulseEnd = none := by decide +kernel
  have held : ∀ g, (guardedSetup.output.group g).holdoff.isSome = true → (guardedSetup.output.group g).gap ≠ 0 := by
    decide +kernel
  refine ⟨?_, fun l _ => (rest l).2.1, fun g h e => ⟨held g (by simp [e]), fun l _ => (rest l).1⟩, ?_, ?_, ?_⟩
  · intro l m g _ _ h; simp [(rest l).1] at h
  · intro l h; simp [(rest l).2.2] at h
  · unfold OutputUnit.GroupsBounded; decide +kernel
  · intro _ l; exact ⟨(rest l).1.trans (rest l).2.1.symm, (rest l).2.2⟩

/-- A write of the gap with a member within it, and one that clears the holdoff. -/
theorem witness_WriteConfigCompletes_holdoff :
    guardedSetup.OutputLaw
      ∧ ∀ gap : Byte, gap = 10 ∨ gap = 0 →
        let r := ask 0x10 [4, 1, 0, gap]
        let s := heads 0 r guardedSetup
        (s.live = true ∧ s.head 0 = some r ∧ kindOf r.kind = some .writeConfig ∧ s.passes 0 .writeConfig = true)
          ∧ s.session.phase = .setup ∧ s.session.haltCleanup = false
          ∧ itemOf (byteAt r.body 0) (byteAt r.body 1) = some (.gap 0)
          ∧ writeOf (.gap 0) (halfAt r.body 2) = some (.gap 0 (gap.setWidth 16))
          ∧ (ConfigWrite.gap 0 (gap.setWidth 16)).permitted s.output = true
          ∧ (s.output.group 0).holdoff.isSome = true ∧ (s.output.line 3).lastChange = some 2 := by
  refine ⟨guardedSetup_outputLaw, fun gap h => ?_⟩
  rcases h with rfl | rfl <;> decide +kernel

theorem witness_PortUnitCommands_short :
    (∃ (r : Request) (s : State), s.Takes 0 .readEvents r ∧ r.body = [])
      ∧ ∃ (r : Request) (s : State), s.Takes 0 .ackEvents r ∧ r.body = [] := by
  unfold State.Takes
  exact ⟨⟨ask 0x40 [], saying 0 0x40 [] (pairIn .run), by decide⟩,
    ⟨ask 0x41 [], saying 0 0x41 [] (pairIn .run), by decide⟩⟩

/-- RUN with P0 holding line 3 and its cue on that line in the table. -/
def working : State := heldBy 0 [] (running cueNow OutputUnit.reset)

theorem working_law : working.WorkLaw := by
  have cue : ∀ i c, working.cueTable.cue i = some c → c = cueNow := by
    intro i c h
    have all : ∀ i : SlotId, (working.cueTable.cue i).all (fun c => c == cueNow) = true := by decide +kernel
    simpa [h] using all i
  have idle : ∀ p, look working.claims.releases p = none ∧ look working.claims.detaching p = none
      ∧ look working.claims.lapsing p = none ∧ look working.claims.detachDone p = []
      ∧ look working.claims.late p = [] ∧ look working.claims.lapseDone p = false
      ∧ look working.arbiter.purges p = [] ∧ look working.arbiter.presented p = false
      ∧ (working.port p).produced = [] ∧ (working.port p).cleanup = false := by decide +kernel
  have waiter : working.session.haltWaiter = none := rfl
  refine ⟨⟨?_, ?_, ?_, ?_, ?_, ?_, ?_⟩, ⟨?_, ?_, ?_, ?_, ?_, ?_, ?_, ?_, ?_⟩, ⟨?_, ?_, ?_, ?_, ?_, ?_, ?_, ?_⟩⟩
  · intro i c h; rw [cue i c h]; decide +kernel
  · intro i c h; rw [cue i c h]; exact .inl (by decide +kernel)
  · intro g i c h _
    have none : ∀ g, look working.cueTable.deferred g = [] := by decide +kernel
    simp [none g] at h
  · intro h; exact absurd h (by decide)
  · intro p i c h; simp [(idle p).2.1] at h
  · intro p t i c h; simp [(idle p).2.2.2.1] at h
  · intro p j i c h; simp [(idle p).1] at h
  · intro p h; simp [(idle p).2.2.2.2.2.2.1] at h
  · intro h; exact absurd rfl h
  · intro p h; simp [(idle p).2.2.2.2.2.2.1] at h
  · intro p h; exact absurd (idle p).2.2.1 h
  · intro p h; simp [(idle p).2.2.2.2.2.1] at h
  · intro p h; simp [waiter] at h
  · intro p h; simp [(idle p).2.2.2.2.2.2.2.2.2] at h
  · intro p j h; simp [(idle p).2.2.1] at h
  · intro p h; simp [(idle p).2.2.2.2.2.1, waiter] at h
  · intro p h; simp [(idle p).2.2.2.2.2.2.2.1] at h
  · decide +kernel
  · intro p x h; simp [(idle p).2.2.2.2.2.2.2.2.1] at h
  · intro t h; simp [waiter] at h
  · intro p t h; simp [(idle p).2.2.2.1] at h
  · intro p d h; simp [(idle p).2.1] at h
  · intro p j h; simp [(idle p).1] at h
  · intro p t h; simp [(idle p).2.2.2.2.1] at h

theorem witness_OwnersHoldTheirLines : ∃ s t : State, s.cueTable.Listed ∧ s.WorkLaw ∧ step s = .next t :=
  ⟨working, _, tableOf_listed, working_law, rfl⟩

/-! The refusals of the list-class commands, a deferral into a list, and the departures that decide -/

/-- The first checks: the phase, the attachment and the length of the body. -/
theorem witness_ChecksFirst :
    ∀ x ∈ [(CommandKind.cancelCue, (0x31 : Byte), 2), (.queryCue, 0x32, 2), (.stage, 0x33, 15), (.unstage, 0x34, 2),
        (.openSet, 0x35, 0), (.commitSet, 0x36, 5), (.abandonSet, 0x37, 1), (.release, 0x21, 1)],
      let s (p : Port) (phase : Phase) : State := waits p (ask x.2.1 []) (pairIn phase)
      ((s 0 .setup).live = true ∧ (s 0 .setup).granted x.1 0 = some (ask x.2.1 []) ∧ (s 0 .setup).session.phase = .setup)
        ∧ ((s 2 .run).live = true ∧ (s 2 .run).granted x.1 2 = some (ask x.2.1 []) ∧ (s 2 .run).attached 2 = false)
        ∧ ((s 0 .run).live = true ∧ (s 0 .run).granted x.1 0 = some (ask x.2.1 []) ∧ (s 0 .run).attached 0 = true
          ∧ ([] : List Byte).length ≤ x.2.2) := by decide +kernel

/-- The rows of the table of R70, one set of fields for each, and two sets of fields that pass. -/
theorem witness_StageAndUnstage_fields :
    let none' : StageBody :=
      { action := none, width := none, period := none, remaining := none, shift := none, set := none }
    ([none', { none' with action := some 4 }, { none' with action := some 3 },
      { none' with action := some 0, width := some 9 }, { none' with action := some 3, width := some 0 },
      { none' with width := some 9 }, { none' with remaining := some 1, period := some 0 },
      { none' with remaining := some 1 }, { none' with shift := some 5, set := some 8 }] : List StageBody).all
        (fun f => (f.check cueNow).isNone) = true
      ∧ ([{ none' with action := some 3, width := some 1 }, { none' with remaining := some 1, period := some 1 },
        { none' with remaining := some 0 }, { none' with shift := some 5, set := some 7 }] : List StageBody).all
        (fun f => (f.check cueNow).isSome) = true := by decide +kernel

/-- Every field of a STAGE from its own bytes. -/
theorem test_stage_layout :
    stageBody [1, 2, 0x9F, 3, 4, 5, 6, 7, 8, 9, 10, 11, 12, 13, 14] =
        { action := some 3, width := some 0x0405, period := some 0x060708, remaining := some 0x090A,
          shift := some 0x0B0C0D, set := some 14 }
      ∧ stageBody [1, 2, 0x60, 3, 4, 5, 6, 7, 8, 9, 10, 11, 12, 13, 14] =
        { action := none, width := none, period := none, remaining := none, shift := none, set := none } := by
  decide +kernel

/-- STAGE and UNSTAGE of no live cue and of another port's; STAGE with no field, and with each refusal of a set. -/
theorem witness_StageAndUnstage_refused :
    (∀ kind : Bool, ∀ slot : Byte, slot = 96 ∨ slot = 0 →
      let k := if kind then CommandKind.stage else .unstage
      ∃ (r : Request) (s : State), (s.live = true ∧ s.granted k 1 = some r) ∧ s.session.phase = .run
        ∧ s.attached 1 = true ∧ 15 ≤ r.body.length
        ∧ s.cueTable.live (byteAt r.body 0) (byteAt r.body 1) = if slot = 0 then some (0, cueNow) else none)
      ∧ (∃ (r : Request) (s : State), (s.live = true ∧ s.granted .stage 0 = some r) ∧ s.session.phase = .run
        ∧ s.attached 0 = true ∧ 15 ≤ r.body.length
        ∧ s.cueTable.live (byteAt r.body 0) (byteAt r.body 1) = some (0, cueNow)
        ∧ (stageBody r.body).check cueNow = none)
      ∧ (∀ set ∈ [CommitSet.free, .opened 1 2, .scheduled 1 2 9, .scheduled 0 2 9], ∃ (r : Request) (s : State),
        (s.live = true ∧ s.granted .stage 0 = some r) ∧ s.session.phase = .run ∧ s.attached 0 = true
        ∧ 15 ≤ r.body.length ∧ s.cueTable.live (byteAt r.body 0) (byteAt r.body 1) = some (0, cueNow)
        ∧ (stageBody r.body).check cueNow = some (shift5, some 7) ∧ s.cueTable.commitSet 7 = set)
      ∧ ∃ (r : Request) (s : State), (s.live = true ∧ s.granted .stage 0 = some r) ∧ s.session.phase = .run
        ∧ s.attached 0 = true ∧ 15 ≤ r.body.length
        ∧ s.cueTable.live (byteAt r.body 0) (byteAt r.body 1) = some (0, memberCue)
        ∧ (stageBody r.body).check memberCue = some (shift5, none) ∧ memberCue.staged.isSome = true
        ∧ memberCue.set ≠ none := by
  refine ⟨fun kind slot h => ?_, ⟨ask 0x33 (stageBytes 0 0), asking 0 0x33 (stageBytes 0 0) cueNow, by decide +kernel⟩,
    fun set h => ?_, ⟨ask 0x33 (stageBytes 1 0), asking 0 0x33 (stageBytes 1 0) memberCue, by decide +kernel⟩⟩
  · let b : Byte := if kind then 0x33 else 0x34
    let body : List Byte := slot :: (stageBytes 1 0).tail
    refine ⟨ask b body, asking 1 b body cueNow, ?_⟩
    cases kind <;> rcases h with rfl | rfl <;> decide +kernel
  · refine ⟨ask 0x33 (stageBytes 0x81 7),
      (asking 0 0x33 (stageBytes 0x81 7) cueNow).setCueTable ((tableOf cueNow).putSet 7 set), ?_⟩
    revert h; revert set; simp only [List.forall_mem_cons]
    refine ⟨?_, ?_, ?_, ?_, by simp⟩ <;> decide +kernel

/-- COMMIT_SET and ABANDON_SET of no set and of S7 as each refusal wants it. -/
theorem witness_SetCommands_refused : ∀ kind : Bool,
    let c := if kind then CommandKind.commitSet else .abandonSet
    (∃ (r : Request) (s : State), (s.live = true ∧ s.granted c 0 = some r) ∧ s.session.phase = .run
        ∧ s.attached 0 = true ∧ 5 ≤ r.body.length ∧ (byteAt r.body 0).toNat = 8)
      ∧ ∀ set ∈ [CommitSet.free, .opened 1 2, .scheduled 1 2 9, .scheduled 0 2 9], ∃ (r : Request) (s : State),
        (s.live = true ∧ s.granted c 0 = some r) ∧ s.session.phase = .run ∧ s.attached 0 = true ∧ 5 ≤ r.body.length
        ∧ byteAt r.body 0 = setCode 7 ∧ s.cueTable.commitSet 7 = set := by
  intro kind c
  let b : Byte := if kind then 0x36 else 0x37
  refine ⟨⟨ask b [8, 0, 0, 0, 9], withSets b [8, 0, 0, 0, 9] (Vector.replicate 8 (.opened 0 0)), ?_⟩, fun set h =>
    ⟨ask b [7, 0, 0, 0, 9], withSets b [7, 0, 0, 0, 9] (Vector.replicate 8 set), ?_⟩⟩
  · cases kind <;> decide +kernel
  · revert h; revert set; simp only [List.forall_mem_cons]
    cases kind <;> refine ⟨?_, ?_, ?_, ?_, by simp⟩ <;> decide +kernel

/-- RELEASE of line 16; RELEASE by the holder of a line with a member of a set on it. -/
theorem witness_ReleaseAtCueTable_sets :
    (∃ (r : Request) (s : State), (s.live = true ∧ s.granted .release 0 = some r) ∧ s.session.phase = .run
        ∧ s.attached 0 = true ∧ (byteAt r.body 0).toNat = 16)
      ∧ ∃ (r : Request) (s : State), (s.live = true ∧ s.granted .release 0 = some r) ∧ s.session.phase = .run
        ∧ s.attached 0 = true ∧ 1 ≤ r.body.length ∧ byteAt r.body 0 = lineCode 3 ∧ s.claims.holder 3 = some 0
        ∧ (s.cueTable.slotsWith (fun c => c.owner == 0 && c.line == 3 && c.set == some 0)).length = 1 :=
  ⟨⟨ask 0x21 [16], waits 0 (ask 0x21 [16]) (pairIn .run), by decide +kernel⟩,
    ⟨ask 0x21 [3], waits 0 (ask 0x21 [3]) ((heldBy 0 [] (pairIn .run)).setCueTable (tableOf memberCue)),
      by decide +kernel⟩⟩

theorem witness_QueryLineReports_badField :
    (∃ (r : Request) (s : State), s.Takes 0 .queryLine r ∧ r.body = [])
      ∧ ∃ (r : Request) (s : State), s.Takes 0 .queryLine r ∧ (byteAt r.body 0).toNat = 16 := by
  unfold State.Takes
  exact ⟨⟨ask 0x22 [], saying 0 0x22 [] (pairIn .run), by decide⟩,
    ⟨ask 0x22 [16], saying 0 0x22 [16] (pairIn .run), by decide⟩⟩

/-- The due cue of slot 0 with two DEFERRED cues of its group, one with a grid due behind its own and one ahead. -/
def crowdedTable : CueTable :=
  let held (d : Time) (n : Nat) : Slot :=
    { gen := 0, cue := some { periodic with state := .deferred, gridDue := d, entry := n } }
  { tableOf periodic with slots := put (put (tableOf periodic).slots 1 (held 0xFFFFFFF0 1)) 2 (held 4 2)
                          deferred := put CueTable.reset.deferred 0 [1, 2], nextEntry := 3 }

/-- A deferral into a list that stands in order. -/
theorem witness_OccurrenceTurnedAway_list :
    ∃ s : State, (Comes s periodic ∧ s.output.trip.isTripped = false
        ∧ s.output.apply s.now 3 .set none = (s.output, .deferred 0) ∧ look s.cueTable.deferred 0 = [1, 2])
      ∧ s.cueTable.Listed ∧ s.cueTable.WaitsInOrder s.now 0 := by
  refine ⟨((pairIn .run).setCueTable crowdedTable).setOutput (grouped .active .defer),
    by unfold Comes; decide +kernel,
    listed_of_checks (by decide +kernel) (by decide +kernel) (by decide +kernel) (by decide +kernel)
      (by decide +kernel), ?_⟩
  have list : look crowdedTable.deferred 0 = [1, 2] := by decide +kernel
  unfold CueTable.WaitsInOrder
  simp only [setOutput_cueTable, setCueTable_cueTable, list, List.pairwise_cons, List.mem_singleton, forall_eq,
    List.not_mem_nil, false_implies, implies_true, List.Pairwise.nil, and_true]
  intro c d hc hd
  have one : crowdedTable.cue 1 = some { periodic with state := .deferred, gridDue := 0xFFFFFFF0, entry := 1 } := by
    decide +kernel
  have two : crowdedTable.cue 2 = some { periodic with state := .deferred, gridDue := 4, entry := 2 } := by
    decide +kernel
  rw [one, Option.some.injEq] at hc
  rw [two, Option.some.injEq] at hd
  subst hc; subst hd
  exact .inl (by decide)

/-- DETACH_COMPLETION of an ATTACHED port alone beside a pending cleanup, and of a LAPSED port with each check. -/
theorem witness_DetachCompletes_checks :
    (∃ s : State, (s.live = true ∧ look s.claims.detachDone 0 = [ticket0] ∧ (s.port 0).epoch = 0
        ∧ (s.port 0).state = .attached ∧ s.session.phase = .run ∧ (∀ q, q ≠ 0 → s.attached q = false)
        ∧ (s.port 2).cleanup = true) ∧ s.OutputLaw)
      ∧ (∃ s : State, (s.live = true ∧ look s.claims.detachDone 0 = [ticket0] ∧ (s.port 0).state = .lapsed
        ∧ s.session.phase = .run ∧ (∃ q, s.attached q = true)
        ∧ ∀ q, s.attached q = true → look s.session.voted q = true) ∧ s.OutputLaw)
      ∧ (∃ s : State, (s.live = true ∧ look s.claims.detachDone 0 = [ticket0] ∧ (s.port 0).state = .lapsed
        ∧ s.session.phase = .run ∧ (∀ q, s.attached q = false) ∧ (s.port 0).cleanup = true) ∧ s.OutputLaw)
      ∧ (∃ s : State, (s.live = true ∧ look s.claims.detachDone 0 = [ticket0] ∧ (s.port 0).state = .lapsed
        ∧ s.session.phase = .run ∧ (∀ q, s.attached q = false) ∧ ∀ q, (s.port q).cleanup = false) ∧ s.OutputLaw)
      ∧ (∃ s : State, (s.live = true ∧ look s.claims.detachDone 0 = [ticket0] ∧ (s.port 0).state = .lapsed
        ∧ s.session.phase = .setup ∧ s.session.haltCleanup = true) ∧ s.OutputLaw)
      ∧ (∃ s : State, (s.live = true ∧ look s.claims.detachDone 0 = [ticket0] ∧ (s.port 0).state = .lapsed
        ∧ s.session.phase = .setup ∧ s.session.haltCleanup = false ∧ ∃ q, s.attached q = true
          ∧ look s.session.confirmed q = false) ∧ s.OutputLaw)
      ∧ ∃ s : State, (s.live = true ∧ look s.claims.detachDone 0 = [ticket0] ∧ (s.port 0).state = .lapsed
        ∧ s.session.phase = .setup ∧ s.session.haltCleanup = false ∧ (∃ q, s.attached q = true)
        ∧ ∀ q, s.attached q = true → look s.session.confirmed q = true) ∧ s.OutputLaw := by
  let lapsed (cleanup : Bool) (s : State) : State := detachNotice 0 (portIn 0 .lapsed cleanup s)
  exact ⟨⟨detachNotice 0 (portIn 2 .lapsed true (alone (pairIn .run))), by decide, rest_outputLaw rfl⟩,
    ⟨lapsed true (voted1 (pairIn .run)), by decide, rest_outputLaw rfl⟩,
    ⟨lapsed true (alone (pairIn .run)), by decide, rest_outputLaw rfl⟩,
    ⟨lapsed false (alone (pairIn .run)), by decide, rest_outputLaw rfl⟩,
    ⟨lapsed true (flagged (pairIn .setup)), by decide, rest_outputLaw rfl⟩,
    ⟨lapsed true (pairIn .setup), by decide, rest_outputLaw rfl⟩,
    ⟨lapsed true (confirmed1 (pairIn .setup)), by decide, rest_outputLaw rfl⟩⟩

end Sys2Proof.Tests
end

section
/-! PROOFS. The judgement of two times (R4), the values after reset, the sampled inputs and the step of TB. -/

namespace Sys2Proof.Machine

/-! ### Distances (R4) -/

/-- Ahead is 1 to 2147483647. -/
theorem isAhead_iff (a b : Time) : isAhead a b = true ↔ 1 ≤ distance a b ∧ distance a b ≤ 2147483647 := by
  simp only [isAhead, Bool.and_eq_true, decide_eq_true_eq]
  rfl

/-- Behind is 2147483648 and above. -/
theorem isBehind_iff (a b : Time) : isBehind a b = true ↔ 2147483648 ≤ distance a b := by
  simp only [isBehind, decide_eq_true_eq]
  rfl

theorem distance_lt (a b : Time) : distance a b < 4294967296 := (b - a).isLt

@[simp] theorem distance_self (a : Time) : distance a a = 0 := by simp [distance]

/-- Only a time itself is at it. -/
theorem distance_eq_zero_iff (a b : Time) : distance a b = 0 ↔ b = a := by
  constructor
  · intro h
    have ha := a.isLt; have hb := b.isLt
    rw [distance_eq] at h
    exact BitVec.eq_of_toNat_eq (by omega)
  · rintro rfl; exact distance_self b

/-- The two distances of distinct times add up to 2^32. -/
theorem distance_swap {a b : Time} (h : distance a b ≠ 0) : distance b a = 4294967296 - distance a b := by
  have ha := a.isLt; have hb := b.isLt
  simp only [distance_eq] at h ⊢
  omega

/-- Of two times exactly one judgement holds. -/
theorem judged_once (a b : Time) :
    (distance a b = 0 ∧ isAhead a b = false ∧ isBehind a b = false)
      ∨ (distance a b ≠ 0 ∧ isAhead a b = true ∧ isBehind a b = false)
      ∨ (distance a b ≠ 0 ∧ isAhead a b = false ∧ isBehind a b = true) := by
  simp only [← Bool.not_eq_true, isAhead_iff, isBehind_iff]
  omega

/-- Settles O8: the judgements are ranges of the distance, and the distance the other way round is its complement. -/
theorem timesJudgedByDistance : Obligations.TimesJudgedByDistance := by
  intro a b
  have swap := distance_swap (a := a) (b := b)
  refine ⟨distance_eq a b, isAhead_iff a b, isBehind_iff a b, distance_eq_zero_iff a b, judged_once a b, ?_, ?_, ?_, ?_⟩
  · intro h
    rw [(distance_eq_zero_iff a b).1 h, distance_self]
  · intro h
    have near := (isAhead_iff a b).1 h
    have far := swap (by omega)
    exact ⟨(isBehind_iff b a).2 (by omega), far⟩
  · intro h
    have near := swap (by omega)
    have bound := distance_lt a b
    exact ⟨(isAhead_iff b a).2 (by omega), near⟩
  · intro h
    have far := swap (by omega)
    exact ⟨(isBehind_iff b a).2 (by omega), by omega⟩

/-! ### The values after reset -/

/-- No leaf holds a request after reset. -/
theorem reset_nextGrant : State.reset.nextGrant = none := by decide

/-- Settles O4: every table is one value repeated, so that reading any entry gives that value. -/
theorem resetValues : Obligations.ResetValues := by
  refine ⟨rfl, fun i => ?_, rfl, fun g => look_replicate _ g, fun k => look_replicate _ k, fun l => look_replicate _ l,
    fun g => look_replicate _ g, rfl, fun l => look_replicate _ l, rfl, reset_nextGrant, rfl, rfl, rfl, rfl,
    fun p => ?_, fun p => ?_⟩
  · simp [State.reset, CueTable.reset, CueTable.cue, CueTable.gen]
  · simp [State.reset, Session.reset]
  · have unit : State.reset.port p = PortUnit.reset := look_replicate _ p
    simp [State.attnPin, unit, PortUnit.reset]

/-! ### The end of a REFCLK period (R2, R200) -/

/-- A period can end in a live part with a tick that is not full. -/
theorem periodMayEnd_of_live {s : State} (hl : s.live = true)
    (ht : s.timeBase.tickCount < s.timeBase.prescale.periods) : s.periodMayEnd = true := by
  obtain ⟨held, sensed⟩ : s.inputs.resetHeld = false ∧ s.inputs.resetPin.sensed = .high := by
    simpa [State.live] using hl
  simp [State.periodMayEnd, State.resetFalls, State.resetRises, held, sensed, TimeBase.full, ht]

/-- A period can end while device reset is held. -/
theorem periodMayEnd_of_held {s : State} (hr : s.inputs.resetHeld = true) (hs : s.inputs.resetPin.sensed = .low) :
    s.periodMayEnd = true := by
  simp [State.periodMayEnd, State.resetFalls, State.resetRises, hr, hs]

/-- A sample that changes the sensed level makes one edge, to that level. -/
theorem edge_eq (x : Sampler) (level : PinLevel) :
    x.edge level = if (x.sample level).sensed ≠ x.sensed then [(x.sample level).sensed] else [] := by
  unfold Sampler.edge Sampler.sample
  by_cases h : x.last = level <;> simp [h, ite_not]

/-- The edges that are kept: none while device reset holds. -/
theorem keep_edge (held : Bool) (x : Sampler) (level : PinLevel) :
    (if held then [] else x.edge level) =
      if held = false ∧ (x.sample level).sensed ≠ x.sensed then [(x.sample level).sensed] else [] := by
  rw [edge_eq]
  cases held <;> simp

/-- Settles O6: in either case the period may end, and each input's new sampler and edges are those of one sample. -/
theorem periodEndCountsAndSamples : Obligations.PeriodEndCountsAndSamples := by
  intro pins s h
  have may : s.periodMayEnd = true := by
    rcases h with ⟨hl, ht⟩ | ⟨hr, hs⟩
    · exact periodMayEnd_of_live hl ht
    · exact periodMayEnd_of_held hr hs
  refine ⟨(s.setTimeBase (s.timeBase.period s.inputs.resetHeld)).setInputs (s.inputs.sample pins), ?_, ⟨rfl, ?_⟩, rfl,
    rfl, rfl, rfl, fun p => ?_, ?_, fun p => ?_⟩
  · show execRefclkPeriodEnd pins s = _
    simp [execRefclkPeriodEnd, may]
  · intro b hb
    cases b <;> simp_all [Block.same]
  · simp only [setInputs_inputs, Inputs.sample, look_forPorts]
    rfl
  · exact congrArg (s.inputs.faultEdges ++ ·) (keep_edge _ _ _)
  · simp only [setInputs_inputs, Inputs.sample, look_forPorts]
    exact congrArg (look s.inputs.selEdges p ++ ·) (keep_edge _ _ _)

/-! ### The step of TB (R1 to R3) -/

/-- With a full tick whose events have been taken, TB steps. -/
theorem execTbStep_of_quiet {s : State} (hl : s.live = true) (hf : s.timeBase.full = true)
    (hq : s.tickQuiet = true) : execTbStep s = .next (s.setTimeBase s.timeBase.step) := by
  simp [execTbStep, whenLive_of_live hl, hf, hq]

/-- Settles O7: the step is of the time base alone, and TB + 1 is the sum modulo 2^32. -/
theorem tbStepAdvancesTime : Obligations.TbStepAdvancesTime := by
  intro s hl ht hq
  have full : s.timeBase.full = true := by simpa [TimeBase.full] using ht
  refine ⟨_, execTbStep_of_quiet hl full hq, ⟨rfl, fun b hb => ?_⟩, ?_, rfl, rfl, fun v hv => ?_, fun hn => ?_⟩
  · cases b <;> simp_all [Block.same]
  · simp [TimeBase.step, State.now, BitVec.toNat_add]
  · simp [TimeBase.step, hv]
  · simp [TimeBase.step, hn]

end Sys2Proof.Machine
end

section
/-! PROOFS. The port unit's own answers and its local commands (R10, R183, R189, R190). -/

namespace Sys2Proof.Machine

/-- A command whose head is taken and answered, and that does nothing else. -/
theorem answeredOnly_takeHead (s : State) (p : Port) (r : Request) (status : Status) (body : List Byte) :
    AnsweredOnly s (answer (s.ticket p r) status body (takeHead p s)) p r status body := by
  refine ⟨⟨rfl, fun b hb => ?_⟩, rfl, ?_⟩
  · cases b <;> simp_all [Block.same]
  · simp [State.portsAnswering]

/-- A direct command that is answered and does nothing else. -/
theorem answeredOnly_of_takes {s : State} {p : Port} {k : CommandKind} {r : Request}
    {effect : Ticket → List Byte → State → State} {status : Status} {body : List Byte} (h : s.Takes p k r)
    (he : effect (s.ticket p r) r.body (takeHead p s) = answer (s.ticket p r) status body (takeHead p s)) :
    ∃ t, takeDirect k p s effect = .next t ∧ AnsweredOnly s t p r status body :=
  ⟨_, takeDirect_of_takes h effect, he ▸ answeredOnly_takeHead s p r status body⟩

/-- BAD_KIND answers a head whose kind names no command. -/
theorem execBadKind_of_unknown {s : State} {p : Port} {r : Request} (hl : s.live = true) (hh : s.head p = some r)
    (hk : kindOf r.kind = none) :
    execBadKind p s = .next (answer (s.ticket p r) .badKind [] (takeHead p s)) := by
  simp [execBadKind, whenLive_of_live hl, hh, hk]

/-- The kinds a port that is not attached may use, beside NULL, are ATTACH, READ_TIME and QUERY_LINE (R148). -/
theorem usableUnattached_of_ne {k : CommandKind} (ha : k ≠ .attach) (ht : k ≠ .readTime) (hq : k ≠ .queryLine) :
    usableUnattached k = false := by
  cases k <;> simp_all [usableUnattached]

/-- NOT_ATTACHED answers a head the port is turned away with. -/
theorem execPortUnitNotAttached_of_turnedAway {s : State} {p : Port} {r : Request} (hl : s.live = true)
    (hh : s.head p = some r) (ht : s.turnedAway p r.kind = true) :
    execPortUnitNotAttached p s = .next (answer (s.ticket p r) .notAttached [] (takeHead p s)) := by
  simp [execPortUnitNotAttached, whenLive_of_live hl, hh, ht]

/-- READ_EVENTS with its one byte of body returns copies of the oldest records and the counts. -/
theorem readEvents_of_body {t : Ticket} {body : List Byte} (s : State) (h : 1 ≤ body.length) :
    let records := (s.port t.port).recordsFor (byteAt body 0)
    readEvents t body s = answer t .ok ([countByte records.length, countByte (s.port t.port).events.length,
      (s.port t.port).overflow] ++ records.flatMap EventRecord.bytes) s := by
  have long : ¬ body.length < bodyLength .readEvents := Nat.not_lt.2 h
  simp only [readEvents, if_neg long]

/-- ACK_EVENTS with its one byte of body removes the oldest records and clears the overflow count it returns. -/
theorem ackEvents_of_body {t : Ticket} {body : List Byte} (s : State) (h : 1 ≤ body.length) :
    let k := (byteAt body 0).toNat
    ackEvents t body s = answer t .ok
      [countByte (min k (s.port t.port).events.length), (s.port t.port).overflow]
      (s.changePort t.port (fun u => { u with events := u.events.drop k, overflow := 0 })) := by
  have long : ¬ body.length < bodyLength .ackEvents := Nat.not_lt.2 h
  simp only [ackEvents, if_neg long]

/-- An ACK_EVENTS taken: of the port unit its records and its overflow count change, and the reply is produced. -/
theorem ackEvents_completes {s : State} {p : Port} {r : Request} (h : s.Takes p .ackEvents r)
    (hb : 1 ≤ r.body.length) :
    let k := (byteAt r.body 0).toNat
    ∃ t, exec (.ackEvents p) s = .next t ∧ ChangesOnly [.arbiter, .ports] s t ∧ t.arbiter = s.arbiter.without p
      ∧ t.ports = put s.ports p (({ s.port p with
          setAside := true, events := (s.port p).events.drop k, overflow := 0 } : PortUnit).produce
          (s.ticket p r) .ok [BitVec.ofNat 8 (min k (s.port p).events.length), (s.port p).overflow]) := by
  refine ⟨_, takeDirect_of_takes h ackEvents, ?_⟩
  rw [ackEvents_of_body _ hb]
  refine ⟨⟨rfl, fun b hb => ?_⟩, rfl, ?_⟩
  · cases b <;> simp_all [Block.same]
  · simp [PortUnit.setEntryAside, countByte]

/-- Settles O57: each of these commands takes the head and answers it; only ACK_EVENTS changes anything more. -/
theorem portUnitCommands : Obligations.PortUnitCommands := by
  intro p r s
  refine ⟨fun hl hh hk => ?_, fun k hl hh hk ha h1 h2 h3 h4 => ?_, fun h => ?_, fun h hb => ?_,
    fun h hb => ackEvents_completes h hb, fun hb => ⟨fun h => ?_, fun h => ?_⟩⟩
  · exact ⟨_, execBadKind_of_unknown hl hh hk, answeredOnly_takeHead s p r _ _⟩
  · have away : s.turnedAway p r.kind = true := by
      simp [State.turnedAway, hk, h1, State.passes, ha, usableUnattached_of_ne h2 h3 h4]
    exact ⟨_, execPortUnitNotAttached_of_turnedAway hl hh away, answeredOnly_takeHead s p r _ _⟩
  · exact answeredOnly_of_takes h rfl
  · refine answeredOnly_of_takes (effect := readEvents) h ?_
    rw [readEvents_of_body _ hb]
    simp [PortUnit.recordsFor, PortUnit.setEntryAside, countByte, Config.eventsPerRead]
  · exact answeredOnly_of_takes (effect := readEvents) h (by simp [readEvents, hb, bodyLength])
  · exact answeredOnly_of_takes (effect := ackEvents) h (by simp [ackEvents, hb, bodyLength])

end Sys2Proof.Machine
end

section
/-! PROOFS. Held times block by block (R7): what `State.Timely` asks of each block, and that each operation on a block
keeps it. -/

namespace Sys2Proof.Machine

/-! ### Times from now on -/

/-- A time `n` ticks on lies `n` ahead (R6). -/
theorem distance_later (now : Time) {n : Nat} (h : n < 4294967296) : distance now (later now n) = n := by
  have hn := now.isLt
  rw [distance_eq, toNat_later]
  omega

/-- A time that is not behind now lies in the window ahead of it. -/
theorem distance_le_of_not_behind {now t : Time} (h : isBehind now t = false) :
    distance now t ≤ Config.aheadWindow := by
  simpa [isBehind] using h

theorem distance_le_of_ahead {now t : Time} (h : isAhead now t = true) : distance now t ≤ Config.aheadWindow :=
  ((isAhead_iff now t).1 h).2

/-- A time that is not at now is one tick nearer after a step of TB. -/
theorem distance_step {now t : Time} (h : t ≠ now) : distance (now + 1) t + 1 = distance now t := by
  have far := mt (distance_eq_zero_iff now t).1 h
  have hn := now.isLt; have ht := t.isLt
  rw [distance_eq] at far ⊢
  rw [distance_eq, show (now + 1).toNat = (now.toNat + 1) % 4294967296 by simp [BitVec.toNat_add]]
  omega

/-- So a step of TB keeps a time that is not at now within its range. -/
theorem distance_step_le {now t : Time} {n : Nat} (h : t ≠ now) (hn : distance now t ≤ n) :
    distance (now + 1) t ≤ n := by
  have nearer := distance_step h
  omega

/-! ### What is asked of each block -/

/-- A PENDING cue's due lies at now or ahead of it, and no period is 0. -/
structure Cue.Timely (c : Cue) (now : Time) : Prop where
  due : c.state = .pending → distance now c.due ≤ Config.aheadWindow
  period : c.period ≠ some 0

/-- The commit time of a SCHEDULED set lies at now or ahead of it. -/
def CommitSet.Timely (k : CommitSet) (now : Time) : Prop :=
  ∀ p n t, k = .scheduled p n t → distance now t ≤ Config.aheadWindow

theorem CommitSet.timely_free (now : Time) : CommitSet.free.Timely now := fun _ _ _ e => by cases e

structure CueTable.Timely (ct : CueTable) (now : Time) : Prop where
  cues : ∀ i c, ct.cue i = some c → c.Timely now
  sets : ∀ k, (ct.commitSet k).Timely now

/-- A pulse end lies at now or at most the longest width ahead. -/
def LineRecord.Timely (r : LineRecord) (now : Time) : Prop := ∀ t, r.pulseEnd = some t → distance now t ≤ 65535

/-- A holdoff ends at now or at most the longest gap ahead. -/
def GroupRecord.Timely (r : GroupRecord) (now : Time) : Prop :=
  ∀ h, r.holdoff = some h → distance now h.endsAt ≤ 65535

structure OutputUnit.Timely (o : OutputUnit) (now : Time) : Prop where
  lines : ∀ l, (o.line l).Timely now
  groups : ∀ g, (o.group g).Timely now

/-- A lease end belongs to an ATTACHED port and lies at now or at most the longest lease ahead. -/
def PortUnit.Timely (u : PortUnit) (now : Time) : Prop :=
  ∀ t, u.leaseEnd = some t → u.state = .attached ∧ distance now t ≤ longestLease

/-- The tick count has not passed the prescale in force. -/
def TimeBase.Counted (b : TimeBase) : Prop := b.tickCount ≤ b.prescale.periods

/-- The law of held times is the law of each block. -/
theorem timely_iff (s : State) : s.Timely ↔ s.cueTable.Timely s.now ∧ s.output.Timely s.now
    ∧ (∀ p, (s.port p).Timely s.now) ∧ s.timeBase.Counted := by
  constructor
  · intro h
    exact ⟨⟨fun i c e => ⟨h.cues i c e, h.periods i c e⟩, fun k p n t e => h.sets k p n t e⟩,
      ⟨fun l t e => h.pulses l t e, fun g x e => h.holdoffs g x e⟩,
      fun p t e => ⟨beq_iff_eq.1 (h.leases p t e).1, (h.leases p t e).2⟩, h.ticks⟩
  · rintro ⟨table, output, ports, ticks⟩
    exact { cues := fun i c e => (table.cues i c e).due, sets := table.sets, pulses := output.lines,
            holdoffs := output.groups, leases := fun p t e => ⟨beq_iff_eq.2 (ports p t e).1, (ports p t e).2⟩,
            periods := fun i c e => (table.cues i c e).period, ticks := ticks }

/-! ### Cues -/

section Cues

variable {now : Time} {c d : Cue}

/-- A cue that is not PENDING need only keep its period. -/
theorem Cue.Timely.of_deferred (hs : d.state = .deferred) (hp : d.period ≠ some 0) : d.Timely now :=
  ⟨fun e => by simp [hs] at e, hp⟩

/-- A cue that keeps state and due. -/
theorem Cue.Timely.of_same (h : c.Timely now) (hs : d.state = c.state) (hd : d.due = c.due)
    (hp : d.period ≠ some 0) : d.Timely now :=
  ⟨fun e => hd ▸ h.due (hs ▸ e), hp⟩

/-- A staged period of 0 means none (R69). -/
theorem applyRecord_period (r : StagedRecord) (h : c.period ≠ some 0) : (c.applyRecord r).period ≠ some 0 := by
  unfold Cue.applyRecord
  cases r.period with
  | none => exact h
  | some p => simp

theorem promote_period (h : c.period ≠ some 0) : c.promote.1.period ≠ some 0 := by
  unfold Cue.promote
  split
  · exact applyRecord_period _ h
  · exact h

/-- A record applied to a cue moves neither its state nor its due. -/
theorem Cue.Timely.applyRecord (h : c.Timely now) (r : StagedRecord) : (c.applyRecord r).Timely now :=
  h.of_same rfl rfl (applyRecord_period r h.period)

/-- A cue brought due lies at now or ahead of it (R59, R63). -/
theorem distance_broughtDue (now : Time) (c : Cue) : distance now (c.broughtDue now).due ≤ Config.aheadWindow := by
  unfold Cue.broughtDue Cue.due
  cases h : isBehind now c.gridDue with
  | true => simp
  | false => simpa using distance_le_of_not_behind h

/-- A cue that goes on after skipping has its next grid due ahead of now: the first one past the passed ones (R58). -/
theorem distance_skip (he : c.effDue = none) (hp : c.period ≠ some 0)
    (hr : (c.skip now).2 = false) : distance now (c.skip now).1.due ≤ Config.aheadWindow := by
  cases period : c.period with
  | none => simp [Cue.skip, period] at hr
  | some p =>
    have positive : 0 < p.toNat := by
      rw [period] at hp
      exact Nat.pos_of_ne_zero fun z => hp (congrArg some (BitVec.eq_of_toNat_eq z))
    have steps : (c.skip now).1.due = later c.gridDue ((distance c.gridDue now / p.toNat + 1) * p.toNat) := by
      cases remaining : c.remaining with
      | none => simp [Cue.skip, Cue.due, Cue.duesPassed, he, period, remaining]
      | some m =>
        have more : distance c.gridDue now / p.toNat + 1 < m.toNat := by
          simpa [Cue.skip, Cue.duesPassed, period, remaining] using hr
        simp [Cue.skip, Cue.due, Cue.duesPassed, he, period, remaining, Nat.min_eq_right (Nat.le_of_lt more)]
    have whole := Nat.div_add_mod (distance c.gridDue now) p.toNat
    have part := Nat.mod_lt (distance c.gridDue now) positive
    have short := p.isLt
    rw [steps, Nat.add_mul, Nat.mul_comm _ p.toNat, Nat.one_mul]
    exact distance_le_of_ahead (ahead_of_past (by omega) (by omega))

end Cues

/-! ### The cue table -/

namespace CueTable.Timely

variable {ct : CueTable} {now : Time} (h : ct.Timely now)

include h

theorem setCue {c : Cue} (i : SlotId) (hc : c.Timely now) : (ct.setCue i c).Timely now where
  cues j d e := by
    rw [CueTable.setCue_cue] at e
    split at e
    · cases e; exact hc
    · exact h.cues j d e
  sets := h.sets

/-- Only slots and sets count, not the lists. -/
theorem of_slots {ct' : CueTable} (hs : ct'.slots = ct.slots) (hk : ct'.sets = ct.sets) : ct'.Timely now where
  cues i c e := h.cues i c (by rwa [CueTable.cue, hs] at e)
  sets k := by
    have := h.sets k
    rwa [CueTable.commitSet, ← hk] at this

/-- A cue placed in the pending list with its due ahead or at now. -/
theorem place {c : Cue} (i : SlotId) (hd : distance now c.due ≤ Config.aheadWindow) (hp : c.period ≠ some 0) :
    (ct.place now i c).Timely now :=
  (h.setCue i (c := { c with state := .pending }) ⟨fun _ => hd, hp⟩).of_slots rfl rfl

theorem enter {c : Cue} (i : SlotId) (hd : distance now c.due ≤ Config.aheadWindow) (hp : c.period ≠ some 0) :
    (ct.enter now i c).Timely now :=
  (h.place i (c := { c with entry := ct.nextEntry }) hd hp).of_slots rfl rfl

theorem replace {c : Cue} (i : SlotId) (hd : distance now c.due ≤ Config.aheadWindow) (hp : c.period ≠ some 0) :
    (ct.replace now i c).Timely now :=
  (h.of_slots (ct' := ct.unlist i) rfl rfl).place i hd hp

theorem defer {c : Cue} (i : SlotId) (g : Group) (hp : c.period ≠ some 0) : (ct.defer now i c g).Timely now :=
  (h.setCue i (c := { c with state := .deferred, effDue := none }) (.of_deferred rfl hp)).of_slots rfl rfl

theorem putSet {x : CommitSet} (k : SetId) (hx : x.Timely now) : (ct.putSet k x).Timely now where
  cues := h.cues
  sets j := by
    rw [CueTable.putSet_commitSet]
    split
    · exact hx
    · exact h.sets j

omit h in
/-- A set whose members are counted anew keeps its commit time. -/
theorem recount {x : CommitSet} (hx : x.Timely now) (f : Nat → Nat) : (x.recount f).Timely now := by
  intro p n t e
  cases x with
  | scheduled q m u => cases e; exact hx p m t rfl
  | free => cases e
  | opened q m => cases e

theorem joinSet (c : Cue) (k : Option SetId) : (ct.joinSet c k).Timely now := by
  unfold CueTable.joinSet
  cases k with
  | none => exact h
  | some k =>
    simp only
    split
    · exact h
    · exact h.putSet k (recount (h.sets k) _)

theorem leaveSet (k : Option SetId) : (ct.leaveSet k).Timely now := by
  cases k with
  | none => exact h
  | some k => exact h.putSet k (recount (h.sets k) _)

/-- A freed slot holds no cue, and its set keeps its commit time. -/
theorem freeSlot (i : SlotId) : (ct.freeSlot i).Timely now where
  cues j c e := by
    rw [CueTable.freeSlot_cue] at e
    split at e
    · cases e
    · exact h.cues j c e
  sets k := by
    cases hc : ct.cue i with
    | none => rw [CueTable.freeSlot_of_free ct i hc]; exact h.sets k
    | some c =>
      rw [CueTable.freeSlot_commitSet ct i c hc]
      split
      · exact recount (h.sets k) _
      · exact h.sets k

theorem purge (has : Cue → Bool) : (ct.purge has).Timely now where
  cues i c e := by
    rw [CueTable.purge_cue] at e
    exact h.cues i c (Option.filter_eq_some_iff.1 e).1
  sets k := by
    rw [CueTable.purge_commitSet]
    exact recount (h.sets k) _

theorem freeSets (has : CommitSet → Bool) : (ct.freeSets has).Timely now where
  cues := h.cues
  sets k := by
    rw [CueTable.freeSets_commitSet]
    split
    · exact CommitSet.timely_free now
    · exact h.sets k

/-- A set freed whole takes staged records from its members, not their dues. -/
theorem freeSetWhole (k : SetId) : (ct.freeSetWhole k).Timely now where
  cues i d e := by
    rw [CueTable.freeSetWhole_cue] at e
    obtain ⟨c, hc, rfl⟩ := Option.map_eq_some_iff.1 e
    split
    · exact (h.cues i c hc).of_same rfl rfl (h.cues i c hc).period
    · exact h.cues i c hc
  sets j := by
    rw [CueTable.freeSetWhole_commitSet]
    split
    · exact CommitSet.timely_free now
    · exact h.sets j

/-- A staged record is stored beside its cue. -/
theorem stageRecord {c : Cue} (i : SlotId) (hc : c.Timely now) (r : StagedRecord) (k : Option SetId) :
    (ct.stageRecord i c r k).Timely now :=
  (h.joinSet c k).setCue i (hc.of_same rfl rfl hc.period)

theorem releaseOne (i : SlotId) : (ct.releaseOne now i).Timely now := by
  unfold CueTable.releaseOne
  cases e : ct.cue i with
  | none => exact h
  | some c => exact h.enter i (distance_broughtDue now c) (h.cues i c e).period

omit h in
theorem releases (is : List SlotId) (h : ct.Timely now) : (is.foldl (CueTable.releaseOne now) ct).Timely now := by
  induction is generalizing ct with
  | nil => exact h
  | cons i rest ih => exact ih (h.releaseOne i)

theorem releaseGroup (g : Group) : (ct.releaseGroup now g).Timely now :=
  releases _ (h.of_slots rfl rfl)

end CueTable.Timely

/-! ### Ports -/

section Ports

variable {u v : PortUnit} {now : Time}

/-- A port unit that keeps its state and its lease end. -/
theorem PortUnit.Timely.of_same (h : u.Timely now) (hs : v.state = u.state) (hl : v.leaseEnd = u.leaseEnd) :
    v.Timely now := fun t e => by
  rw [hs]; exact h t (hl ▸ e)

/-- A port unit without lease end. -/
theorem PortUnit.Timely.of_none (hl : v.leaseEnd = none) : v.Timely now := fun t e => by simp [hl] at e

/-- A lease timer loaded now ends within the longest lease (R167). -/
theorem PortUnit.Timely.of_load (hs : v.state = .attached) (lease : Byte)
    (hl : v.leaseEnd = leaseEndOf now lease) : v.Timely now := fun t e => by
  have short := lease.isLt
  rw [hl] at e
  unfold leaseEndOf at e
  split at e
  · cases e
  · cases e
    have range : lease.toNat * Config.leaseUnit ≤ longestLease := Nat.mul_le_mul_right _ (by omega)
    have small : longestLease < 4294967296 := by decide
    rw [distance_later now (by omega)]
    exact ⟨hs, range⟩

@[simp] theorem receive_leaseEnd (e : EventRecord) (u : PortUnit) : (u.receive e).leaseEnd = u.leaseEnd := by
  unfold PortUnit.receive; split <;> rfl

theorem PortUnit.Timely.receive (h : u.Timely now) (e : EventRecord) : (u.receive e).Timely now :=
  h.of_same (receive_state e u) (receive_leaseEnd e u)

end Ports

end Sys2Proof.Machine
end

section
/-! PROOFS. The output unit's operations at an event: the configured settings stand, a standing trip stands, and every
new pulse end and holdoff end lies within its range (R7, R116, R153). -/

namespace Sys2Proof.Machine

/-! ### One record -/

/-- A line record of an event at `now`: its settings stand, and it holds no time out of range that it did not hold. -/
structure LineRecord.Steady (now : Time) (r r' : LineRecord) : Prop where
  polarity : r'.polarity = r.polarity
  safe : r'.safe = r.safe
  group : r'.group = r.group
  timely : r.Timely now → r'.Timely now

/-- The same of a group record. -/
structure GroupRecord.Steady (now : Time) (r r' : GroupRecord) : Prop where
  gap : r'.gap = r.gap
  policy : r'.policy = r.policy
  timely : r.Timely now → r'.Timely now

section Records

variable (now : Time)

theorem LineRecord.Steady.refl (r : LineRecord) : r.Steady now r := ⟨rfl, rfl, rfl, id⟩

theorem GroupRecord.Steady.refl (r : GroupRecord) : r.Steady now r := ⟨rfl, rfl, id⟩

/-- A line whose pulse end is taken away or set within the longest width. -/
theorem LineRecord.Steady.of_pulseEnd {r r' : LineRecord} (hp : r'.polarity = r.polarity) (hs : r'.safe = r.safe)
    (hg : r'.group = r.group) (ht : r'.Timely now) : r.Steady now r' := ⟨hp, hs, hg, fun _ => ht⟩

theorem LineRecord.timely_of_none {r : LineRecord} (h : r.pulseEnd = none) : r.Timely now := fun t e => by
  simp [h] at e

theorem GroupRecord.timely_of_none {r : GroupRecord} (h : r.holdoff = none) : r.Timely now := fun t e => by
  simp [h] at e

theorem down_steady (r : LineRecord) : r.Steady now (r.down now) :=
  .of_pulseEnd now rfl rfl rfl (LineRecord.timely_of_none now rfl)

/-- A holdoff of a gap ends within the longest gap (R98). -/
theorem guarded_steady (r : GroupRecord) (l : Line) : r.Steady now (r.guarded l now) :=
  ⟨rfl, rfl, fun _ x e => by
    cases e
    have short := r.gap.isLt
    rw [distance_later now (by omega)]
    omega⟩

/-- A pulse ends within the longest width (R93). -/
theorem distance_pulseEndOf {a : Action} {w : Option Half} {t : Time} (h : pulseEndOf now a w = some t) :
    distance now t ≤ 65535 := by
  cases a with
  | pulse =>
    obtain ⟨n, _, rfl⟩ := Option.map_eq_some_iff.1 h
    have short := n.isLt
    rw [distance_later now (by omega)]
    omega
  | set | clear | toggle => cases h

end Records

/-! ### The whole unit -/

/-- An output unit before and after part of an event at `now`: each line and group is steady. -/
structure OutputUnit.Steady (now : Time) (o o' : OutputUnit) : Prop where
  lines : ∀ l, (o.line l).Steady now (o'.line l)
  groups : ∀ g, (o.group g).Steady now (o'.group g)

/-- A standing trip keeps its cause and entry time (R116). -/
def Trip.Stands (x y : Trip) : Prop := ∀ cause entry, x = .tripped cause entry → y = .tripped cause entry

theorem Trip.Stands.of_eq {x y : Trip} (h : y = x) : x.Stands y := fun _ _ e => h.trans e

namespace OutputUnit

variable (now : Time) (o : OutputUnit)

theorem Steady.refl : o.Steady now o := ⟨fun _ => .refl now _, fun _ => .refl now _⟩

variable {now} in
theorem Steady.trans {o o' o'' : OutputUnit} (h : o.Steady now o') (k : o'.Steady now o'') : o.Steady now o'' where
  lines l :=
    have a := h.lines l; have b := k.lines l
    ⟨b.polarity.trans a.polarity, b.safe.trans a.safe, b.group.trans a.group, b.timely ∘ a.timely⟩
  groups g :=
    have a := h.groups g; have b := k.groups g
    ⟨b.gap.trans a.gap, b.policy.trans a.policy, b.timely ∘ a.timely⟩

variable {now} in
theorem Steady.timely {o o' : OutputUnit} (h : o.Steady now o') (ho : o.Timely now) : o'.Timely now :=
  ⟨fun l => (h.lines l).timely (ho.lines l), fun g => (h.groups g).timely (ho.groups g)⟩

variable {now} in
/-- The members of a group are read off the settings. -/
theorem Steady.members {o o' : OutputUnit} (h : o.Steady now o') (g : Group) : o'.members g = o.members g := by
  unfold OutputUnit.members
  exact List.filter_congr fun l _ => by rw [(h.lines l).group]

variable {o} in
theorem setLine_steady {l : Line} {r : LineRecord} (h : (o.line l).Steady now r) : o.Steady now (o.setLine l r) where
  lines m := by
    rw [setLine_line]
    split
    · next e => exact e ▸ h
    · exact .refl now _
  groups g := .refl now _

theorem deactivate_steady (l : Line) : o.Steady now (o.deactivate now l) where
  lines m := by
    rw [deactivate_line]
    split
    · next e => exact e ▸ down_steady now _
    · exact .refl now _
  groups g := by
    rw [deactivate_group]
    split
    · exact guarded_steady now _ l
    · exact .refl now _

theorem activate_steady (l : Line) {pe : Option Time} (h : ∀ t, pe = some t → distance now t ≤ 65535) :
    o.Steady now (o.activate now l pe) where
  lines m := by
    rw [activate_line]
    split
    · next e => exact e ▸ .of_pulseEnd now rfl rfl rfl h
    · exact .refl now _
  groups g := by
    rw [activate_group]
    split
    · exact ⟨rfl, rfl, fun _ => GroupRecord.timely_of_none now rfl⟩
    · exact .refl now _

/-- A line's pulse end taken away, or set as an apply request sets it. -/
theorem setPulseEnd_steady (l : Line) {pe : Option Time} (h : ∀ t, pe = some t → distance now t ≤ 65535) :
    o.Steady now (o.setLine l { o.line l with pulseEnd := pe }) :=
  setLine_steady now (.of_pulseEnd now rfl rfl rfl h)

theorem drive_steady (l : Line) : o.Steady now (o.drive now l) := by
  have none : ∀ t, (Option.none : Option Time) = some t → distance now t ≤ 65535 := by simp
  unfold drive
  dsimp only
  split
  · exact deactivate_steady now o l
  · exact activate_steady now o l none
  · exact setPulseEnd_steady now o l none
  · exact setPulseEnd_steady now o l none

theorem drives_steady (ls : List Line) : o.Steady now (ls.foldl (fun o l => o.drive now l) o) := by
  induction ls generalizing o with
  | nil => exact .refl now o
  | cons l rest ih => exact (drive_steady now o l).trans (ih _)

theorem driveAll_steady : o.Steady now (o.driveAll now) := drives_steady now o _

theorem tryActivate_steady (l : Line) {pe : Option Time} (h : ∀ t, pe = some t → distance now t ≤ 65535) :
    o.Steady now (o.tryActivate now l pe).1 := by
  unfold tryActivate
  split
  · exact activate_steady now o l h
  · exact .refl now o

@[simp] theorem tryActivate_trip (l : Line) (pe : Option Time) : (o.tryActivate now l pe).1.trip = o.trip := by
  unfold tryActivate
  split
  · exact activate_trip o now l pe
  · rfl

/-- An apply request leaves the settings, and every pulse end and holdoff it sets is in range (R92). -/
theorem apply_steady (l : Line) (a : Action) (w : Option Half) : o.Steady now (o.apply now l a w).1 := by
  have activates (b : Action) : o.Steady now (o.tryActivate now l (pulseEndOf now b w)).1 :=
    tryActivate_steady now o l fun _ h => distance_pulseEndOf now h
  unfold apply
  dsimp only
  split
  · exact .refl now o
  · exact activates .set
  · exact activates .toggle
  · exact activates .pulse
  · exact setPulseEnd_steady now o l (by simp)
  · exact setPulseEnd_steady now o l fun _ h => distance_pulseEndOf now h
  · exact deactivate_steady now o l
  · exact deactivate_steady now o l

@[simp] theorem apply_trip (l : Line) (a : Action) (w : Option Half) : (o.apply now l a w).1.trip = o.trip := by
  unfold apply
  dsimp only
  split <;> simp

/-- A holdoff cleared, with the notice that its group opens (R99). -/
theorem open_steady (g : Group) : o.Steady now ((o.setHoldoff g none).sendNotice g) where
  lines l := .refl now _
  groups h := by
    rw [sendNotice_group, setHoldoff_group]
    split
    · next e => exact e ▸ ⟨rfl, rfl, fun _ => GroupRecord.timely_of_none now rfl⟩
    · exact .refl now _

/-! ### A configuration write (R104) -/

variable {now o}

/-- What is left of a gap is no longer than the gap. -/
theorem gapLeft_le {r : LineRecord} {gap : Half} {n : Nat} (h : r.gapLeft now gap = some n) : n ≤ gap.toNat := by
  unfold LineRecord.gapLeft at h
  split at h
  · split at h
    · cases h; omega
    · cases h
  · cases h

/-- Nor is the longest of several. -/
theorem longestGapLeft_le {g : Group} {n : Nat} (h : o.longestGapLeft now g = some n) : n ≤ (o.group g).gap.toNat := by
  unfold longestGapLeft at h
  refine List.foldlRecOn (motive := fun best : Option Nat => ∀ n, best = some n → n ≤ (o.group g).gap.toNat)
    (o.members g) _ (by simp) (fun best ih m _ n e => ?_) n h
  cases best with
  | none => exact gapLeft_le e
  | some b =>
    cases left : (o.line m).gapLeft now (o.group g).gap with
    | none =>
      simp only [left, Option.some.injEq] at e
      exact e ▸ ih b rfl
    | some k =>
      simp only [left, Option.some.injEq] at e
      exact e ▸ Nat.max_le.2 ⟨ih b rfl, gapLeft_le left⟩

theorem Timely.setLine (h : o.Timely now) (l : Line) {r : LineRecord} (hr : r.Timely now) :
    (o.setLine l r).Timely now where
  lines m := by
    rw [setLine_line]
    split
    · exact hr
    · exact h.lines m
  groups := h.groups

theorem Timely.setGroup (h : o.Timely now) (g : Group) {r : GroupRecord} (hr : r.Timely now) :
    (o.setGroup g r).Timely now where
  lines := h.lines
  groups j := by
    rw [setGroup_group]
    split
    · exact hr
    · exact h.groups j

/-- A holdoff set afresh ends with what is left of a gap. -/
theorem Timely.recompute (h : o.Timely now) (g : Group) : (o.recompute now g).Timely now := by
  unfold OutputUnit.recompute
  split
  · next n hn =>
    refine h.setGroup g fun x e => ?_
    cases e
    have left := longestGapLeft_le hn
    have short := (o.group g).gap.isLt
    rw [distance_later now (by omega)]
    omega
  · split
    · exact (open_steady now o g).timely h
    · exact h

theorem Timely.recompute? (h : o.Timely now) (g : Option Group) : (o.recompute? now g).Timely now := by
  cases g with
  | none => exact h
  | some g => exact h.recompute g

theorem Timely.configure (h : o.Timely now) (w : ConfigWrite) : (o.configure now w).Timely now := by
  cases w with
  | polarity l v => exact h.setLine l (h.lines l)
  | safeLevel l v => exact (drive_steady now _ l).timely (h.setLine l (h.lines l))
  | group l v =>
    have moved := (h.setLine l (r := { o.line l with group := v }) (h.lines l)).recompute? (o.line l).group
    unfold OutputUnit.configure
    dsimp only
    split
    · exact moved
    · exact moved.recompute? v
  | gap g v => exact (h.setGroup g (r := { o.group g with gap := v }) (h.groups g)).recompute g
  | policy g v => exact h.setGroup g (h.groups g)
  | prescale v => exact h
  | lease p v => exact h
  | quota p v => exact h

variable (now o)

@[simp] theorem recompute_trip (g : Group) : (o.recompute now g).trip = o.trip := by
  unfold recompute
  split
  · rfl
  · split <;> rfl

@[simp] theorem recompute?_trip (g : Option Group) : (o.recompute? now g).trip = o.trip := by
  cases g with
  | none => rfl
  | some g => exact recompute_trip now o g

/-- No configuration write touches the trip. -/
@[simp] theorem configure_trip (w : ConfigWrite) : (o.configure now w).trip = o.trip := by
  cases w with
  | group l v => simp only [configure]; split <;> simp
  | polarity | safeLevel | gap | policy | prescale | lease | quota => simp [configure]

end OutputUnit

end Sys2Proof.Machine
end

section
/-! PROOFS. What an event keeps, and the operations that events are made of: time stands still, the law of held times
stands (R7), and so do the configured settings (R153) and a standing trip (R116). -/

namespace Sys2Proof.Machine

/-! ### What is kept -/

/-- The session unit's part of the configuration stands. -/
structure Session.SameSettings (x y : Session) : Prop where
  version : y.version = x.version
  prescale : y.prescale = x.prescale
  lease : y.lease = x.lease
  quota : y.quota = x.quota

theorem Session.SameSettings.refl (x : Session) : x.SameSettings x := ⟨rfl, rfl, rfl, rfl⟩

/-- What every event keeps but the few that time, configuration and reset are made of. -/
structure KeepsTimes (s t : State) : Prop where
  timeBase : t.timeBase = s.timeBase
  session : s.session.SameSettings t.session
  cueTable : s.cueTable.Timely s.now → t.cueTable.Timely s.now
  output : s.output.Steady s.now t.output
  ports : ∀ p, (s.port p).Timely s.now → (t.port p).Timely s.now

/-- The same, and a standing trip stands. -/
structure Keeps (s t : State) : Prop extends KeepsTimes s t where
  trip : s.output.trip.Stands t.output.trip

section Kept

variable {s t u : State}

theorem KeepsTimes.now (h : KeepsTimes s t) : t.now = s.now := congrArg TimeBase.tb h.timeBase

theorem KeepsTimes.timely (h : KeepsTimes s t) (hs : s.Timely) : t.Timely := by
  obtain ⟨table, output, ports, ticks⟩ := (timely_iff s).1 hs
  refine (timely_iff t).2 ?_
  rw [h.now, h.timeBase]
  exact ⟨h.cueTable table, h.output.timely output, fun p => h.ports p (ports p), ticks⟩

theorem KeepsTimes.trans (h : KeepsTimes s t) (k : KeepsTimes t u) : KeepsTimes s u where
  timeBase := k.timeBase.trans h.timeBase
  session := ⟨k.session.version.trans h.session.version, k.session.prescale.trans h.session.prescale,
    k.session.lease.trans h.session.lease, k.session.quota.trans h.session.quota⟩
  cueTable a := h.now ▸ k.cueTable (h.now.symm ▸ h.cueTable a)
  output := h.output.trans (h.now ▸ k.output)
  ports p a := h.now ▸ k.ports p (h.now.symm ▸ h.ports p a)

theorem Keeps.refl (s : State) : Keeps s s :=
  ⟨⟨rfl, .refl _, id, .refl _ _, fun _ => id⟩, .of_eq rfl⟩

theorem Keeps.trans (h : Keeps s t) (k : Keeps t u) : Keeps s u :=
  ⟨h.toKeepsTimes.trans k.toKeepsTimes, fun c e a => k.trip c e (h.trip c e a)⟩

/-- Every item reads as before, and so do the members of every group. -/
theorem KeepsTimes.settings (h : KeepsTimes s t) :
    t.session.version = s.session.version ∧ (∀ item, t.configValue item = s.configValue item)
      ∧ ∀ g, t.output.members g = s.output.members g := by
  refine ⟨h.session.version, fun item => ?_, h.output.members⟩
  have line := h.output.lines
  have group := h.output.groups
  cases item with
  | prescale => simp only [State.configValue, h.session.prescale]
  | polarity l => simp only [State.configValue, (line l).polarity]
  | safeLevel l => simp only [State.configValue, (line l).safe]
  | group l => simp only [State.configValue, (line l).group]
  | gap g => simp only [State.configValue, (group g).gap]
  | policy g => simp only [State.configValue, (group g).policy]
  | lease p => simp only [State.configValue, h.session.lease]
  | quota p => simp only [State.configValue, h.session.quota]
  | members g => rfl

end Kept

/-! ### Blocks replaced -/

section Blocks

variable (s : State)

theorem setInputs_keeps (b : Inputs) : Keeps s (s.setInputs b) :=
  ⟨⟨rfl, .refl _, id, .refl _ _, fun _ => id⟩, .of_eq rfl⟩

theorem setClaims_keeps (b : ClaimUnit) : Keeps s (s.setClaims b) :=
  ⟨⟨rfl, .refl _, id, .refl _ _, fun _ => id⟩, .of_eq rfl⟩

theorem setArbiter_keeps (b : Arbiter) : Keeps s (s.setArbiter b) :=
  ⟨⟨rfl, .refl _, id, .refl _ _, fun _ => id⟩, .of_eq rfl⟩

variable {s}

theorem setSession_keeps {x : Session} (h : s.session.SameSettings x) : Keeps s (s.setSession x) :=
  { Keeps.refl s with session := h }

theorem setCueTable_keeps {ct : CueTable} (h : s.cueTable.Timely s.now → ct.Timely s.now) :
    Keeps s (s.setCueTable ct) :=
  { Keeps.refl s with cueTable := h }

theorem setOutput_keeps {o : OutputUnit} (h : s.output.Steady s.now o) (ht : s.output.trip.Stands o.trip) :
    Keeps s (s.setOutput o) :=
  { Keeps.refl s with output := h, trip := ht }

theorem changePort_keeps {p : Port} {f : PortUnit → PortUnit}
    (h : (s.port p).Timely s.now → (f (s.port p)).Timely s.now) : Keeps s (s.changePort p f) :=
  { Keeps.refl s with
    ports := fun q a => by
      rw [changePort_port]
      split
      · next e => exact h (e ▸ a)
      · exact a }

/-- A port unit changed in anything but its state and its lease end. -/
theorem changePort_keeps_of_same {p : Port} {f : PortUnit → PortUnit} (hs : (f (s.port p)).state = (s.port p).state)
    (hl : (f (s.port p)).leaseEnd = (s.port p).leaseEnd) : Keeps s (s.changePort p f) :=
  changePort_keeps fun a => a.of_same hs hl

end Blocks

/-! ### Shared operations -/

section Shared

variable (s : State) (p : Port)

theorem post_keeps (e : EventRecord) : Keeps s (post p e s) := by
  unfold post
  split
  · exact changePort_keeps_of_same rfl rfl
  · exact .refl s

theorem postAll_keeps (e : EventRecord) : Keeps s (postAll e s) :=
  ⟨⟨postAll_timeBase e s, by rw [postAll_session]; exact .refl _, by rw [postAll_cueTable]; exact id,
    by rw [postAll_output]; exact .refl _ _, fun q a => by rw [postAll_port]; exact a.receive e⟩,
    .of_eq (by rw [postAll_output])⟩

theorem answer_keeps (t : Ticket) (st : Status) (b : List Byte) : Keeps s (answer t st b s) :=
  changePort_keeps_of_same rfl rfl

theorem takeHead_keeps : Keeps s (takeHead p s) :=
  (changePort_keeps_of_same (f := PortUnit.setEntryAside) rfl rfl).trans (setArbiter_keeps _ _)

theorem afterGrant_keeps (c : ListClass) : Keeps s (afterGrant c p s) :=
  (setArbiter_keeps _ _).trans (takeHead_keeps _ p)

theorem driveLine_keeps (l : Line) : Keeps s (driveLine l s) :=
  setOutput_keeps (OutputUnit.drive_steady _ _ l) (.of_eq (OutputUnit.drive_trip _ _ l))

theorem driveEvery_keeps : Keeps s (driveEvery s) :=
  setOutput_keeps (OutputUnit.driveAll_steady _ _) (.of_eq (OutputUnit.driveAll_trip _ _))

/-- A trip entry keeps all but a trip that stands. -/
theorem tripEntry_keepsTimes (cause : TripCause) : KeepsTimes s (tripEntry cause s) := by
  have entered : KeepsTimes s (s.setOutput { s.output with trip := .tripped cause s.now }) :=
    { (Keeps.refl s).toKeepsTimes with output := ⟨fun _ => .refl _ _, fun _ => .refl _ _⟩ }
  exact entered.trans ((driveEvery_keeps _).trans (postAll_keeps _ _)).toKeepsTimes

/-- An entry from NORMAL finds no trip that stands. -/
theorem tripEntry_keeps (cause : TripCause) (h : s.output.trip = .normal) : Keeps s (tripEntry cause s) :=
  ⟨tripEntry_keepsTimes s cause, fun c e a => by simp [h] at a⟩

theorem loadLease_keeps (h : s.attached p = true) : Keeps s (loadLease p s) :=
  changePort_keeps fun _ => .of_load (beq_iff_eq.1 h) _ rfl

theorem phaseCheck_keeps : Keeps s (phaseCheck s) := by
  unfold phaseCheck
  split
  · refine (setSession_keeps ?_).trans (postAll_keeps _ _)
    exact ⟨rfl, rfl, rfl, rfl⟩
  · exact .refl s

theorem decideHalt_keeps (w : HaltWaiter) : Keeps s (decideHalt p w s) := by
  refine ((setSession_keeps ?_).trans (driveEvery_keeps _)).trans (setArbiter_keeps _ _)
  exact ⟨rfl, rfl, rfl, rfl⟩

theorem emptyRunCheck_keeps : Keeps s (emptyRunCheck s) := by
  rcases emptyRunCheck_cases s with e | e <;> rw [e]
  · exact .refl s
  · refine (setSession_keeps ?_).trans (driveEvery_keeps _)
    exact ⟨rfl, rfl, rfl, rfl⟩

theorem forget_keeps : Keeps s (s.setSession (s.session.forget p)) := setSession_keeps ⟨rfl, rfl, rfl, rfl⟩

theorem clearCleanup_keeps : Keeps s (clearCleanup p s) := changePort_keeps_of_same rfl rfl

theorem transferLine_keeps (l : Line) : Keeps s (transferLine p l s) := by
  unfold transferLine
  split
  · dsimp only
    split
    · exact (setClaims_keeps s _).trans (post_keeps _ _ _)
    · exact setClaims_keeps s _
  · exact .refl s

end Shared

/-! ### The guards of events and commands -/

section Guards

variable {s t : State} {p : Port} {k : CommandKind}

theorem keeps_of_whenLive {event : State → State} (e : whenLive s event = .next t) (h : Keeps s (event s)) :
    Keeps s t := by
  obtain ⟨u, eu, hu⟩ := whenLive_next s event
  cases e.symm.trans eu
  rcases hu with ⟨_, rfl⟩ | ⟨_, rfl⟩
  · exact h
  · exact .refl _

theorem keeps_of_takeDirect {effect : Ticket → List Byte → State → State} (e : takeDirect k p s effect = .next t)
    (h : ∀ c b u, Keeps u (effect c b u)) : Keeps s t := by
  obtain ⟨u, eu, hu⟩ := takeDirect_next s p k effect
  cases e.symm.trans eu
  rcases hu with ⟨r, _, rfl⟩ | rfl
  · exact (takeHead_keeps s p).trans (h _ _ _)
  · exact .refl _

theorem keeps_of_takeGranted {effect : Ticket → List Byte → State → State} {c : ListClass}
    (e : takeGranted k p s effect = .next t) (hc : listClass k = some c) (h : ∀ c b u, Keeps u (effect c b u)) :
    Keeps s t := by
  obtain ⟨u, eu, hu⟩ := takeGranted_next s p k c hc effect
  cases e.symm.trans eu
  rcases hu with ⟨r, _, rfl⟩ | rfl
  · exact (afterGrant_keeps s p c).trans (h _ _ _)
  · exact .refl _

end Guards

end Sys2Proof.Machine
end

section
/-! PROOFS. The firing engine and the commit-time expiry: what they do beside the cue table, and that every due they set
lies at now or ahead of it (R20, R55 to R59, R63, R82). -/

namespace Sys2Proof.Machine

/-! ### Beside the cue table -/

/-- Only the cue table differs, and of the ports what is on its way to them. -/
structure TableStep (s t : State) : Prop where
  only : ChangesOnly [.cueTable, .ports] s t
  ports : ∀ p, (t.port p).state = (s.port p).state ∧ (t.port p).leaseEnd = (s.port p).leaseEnd

section TableSteps

variable {s t u : State}

theorem TableStep.refl (s : State) : TableStep s s := ⟨changesOnly_refl _ s, fun _ => ⟨rfl, rfl⟩⟩

theorem TableStep.trans (h : TableStep s t) (k : TableStep t u) : TableStep s u :=
  ⟨changesOnly_trans h.only k.only, fun p => ⟨(k.ports p).1.trans (h.ports p).1, (k.ports p).2.trans (h.ports p).2⟩⟩

/-- Such a step keeps all that is to be kept if it keeps the times of the table. -/
theorem TableStep.keeps (h : TableStep s t) (hc : s.cueTable.Timely s.now → t.cueTable.Timely s.now) : Keeps s t := by
  have time : t.timeBase = s.timeBase := h.only.2 .timeBase (by decide)
  have session : t.session = s.session := h.only.2 .session (by decide)
  have output : t.output = s.output := h.only.2 .output (by decide)
  exact ⟨⟨time, session ▸ .refl _, hc, output ▸ .refl _ _, fun p a => a.of_same (h.ports p).1 (h.ports p).2⟩,
    .of_eq (congrArg OutputUnit.trip output)⟩

theorem setCueTable_tableStep (s : State) (ct : CueTable) : TableStep s (s.setCueTable ct) :=
  ⟨changesOnly_setCueTable s ct, fun _ => ⟨rfl, rfl⟩⟩

theorem post_tableStep (p : Port) (e : EventRecord) (s : State) : TableStep s (post p e s) :=
  ⟨changesOnly_post s p e, fun q => by
    rw [post_port]
    split
    · exact ⟨receive_state _ _, receive_leaseEnd _ _⟩
    · exact ⟨rfl, rfl⟩⟩

end TableSteps

section Steps

variable (i : SlotId) (c : Cue) (s : State)

theorem postMissed_tableStep : TableStep s (postMissed i c s) := by
  unfold postMissed
  split
  · exact post_tableStep _ _ s
  · exact .refl s

theorem retire_tableStep : TableStep s (retire i c s) := by
  unfold retire
  dsimp only
  split
  · exact (post_tableStep _ _ s).trans (setCueTable_tableStep _ _)
  · exact setCueTable_tableStep _ _

variable {goOn : Cue → State → State}

theorem catchUpSkip_tableStep (h : ∀ d u, TableStep u (goOn d u)) : TableStep s (catchUpSkip i c goOn s) := by
  unfold catchUpSkip
  dsimp only
  split
  · exact (postMissed_tableStep i c s).trans (retire_tableStep i _ _)
  · exact (postMissed_tableStep i c s).trans (h _ _)

theorem enterPending_tableStep : TableStep s (enterPending i c s) := setCueTable_tableStep _ _

theorem replacePending_tableStep : TableStep s (replacePending i c s) := setCueTable_tableStep _ _

theorem storeCue_tableStep : TableStep s (storeCue i c s) := setCueTable_tableStep _ _

theorem advance_tableStep (shift : Triple) : TableStep s (advance i c shift s) := by
  unfold advance
  dsimp only
  split
  · exact enterPending_tableStep i _ s
  · split
    · exact catchUpSkip_tableStep i _ s (enterPending_tableStep i)
    · exact enterPending_tableStep i _ s

theorem continueCue_tableStep : TableStep s (continueCue i c s) := by
  unfold continueCue
  dsimp only
  split
  · exact retire_tableStep i _ s
  · exact advance_tableStep i _ s _

theorem shiftCue_tableStep (shift : Triple) : TableStep s (shiftCue i c shift s) := by
  have stored := storeCue_tableStep i c s
  unfold shiftCue
  dsimp only
  split
  · exact storeCue_tableStep i _ s
  · split
    · exact replacePending_tableStep i _ s
    · split
      · exact stored.trans (catchUpSkip_tableStep i _ _ (replacePending_tableStep i))
      · exact replacePending_tableStep i _ s
  · split
    · exact storeCue_tableStep i _ s
    · split
      · exact stored.trans (catchUpSkip_tableStep i _ _ (storeCue_tableStep i))
      · exact storeCue_tableStep i _ s

end Steps

/-! ### The times of the table -/

section Times

variable {i : SlotId} {c : Cue} {s : State}

theorem retire_timely (h : s.cueTable.Timely s.now) : (retire i c s).cueTable.Timely s.now := by
  rw [(retire_spec s i c).2]
  exact h.freeSlot i

/-- The catch-up rule keeps the times if going on with what skipping leaves of the cue does. -/
theorem catchUpSkip_timely {goOn : Cue → State → State} (h : s.cueTable.Timely s.now)
    (hgo : (c.skip s.now).2 = false → ∀ u : State, u.cueTable.Timely u.now → u.now = s.now →
      (goOn (c.skip s.now).1 u).cueTable.Timely u.now) :
    (catchUpSkip i c goOn s).cueTable.Timely s.now := by
  obtain ⟨_, table, now⟩ := postMissed_spec s i c
  have posted : (postMissed i c s).cueTable.Timely (postMissed i c s).now := by rw [table, now]; exact h
  unfold catchUpSkip
  dsimp only
  rw [← now]
  split
  · exact retire_timely posted
  · next still =>
    rw [now] at still ⊢
    exact now ▸ hgo (Bool.eq_false_iff.2 still) _ posted now

/-- The advance finds the next grid due ahead, or catches up (R55, R57). -/
theorem advance_timely (shift : Triple) (h : s.cueTable.Timely s.now) (hp : c.period ≠ some 0) :
    (advance i c shift s).cueTable.Timely s.now := by
  unfold advance
  dsimp only
  split
  · next ahead => exact h.enter i (distance_le_of_ahead ahead) hp
  · split
    · exact catchUpSkip_timely h fun on u hu now =>
        hu.enter i (by rw [now]; exact distance_skip rfl hp on) hp
    · exact h.enter i (distance_broughtDue _ _) hp

theorem continueCue_timely (h : s.cueTable.Timely s.now) (hp : c.period ≠ some 0) :
    (continueCue i c s).cueTable.Timely s.now := by
  unfold continueCue
  dsimp only
  split
  · exact retire_timely h
  · exact advance_timely _ h (promote_period hp)

/-- A shift leaves a PENDING cue with its effective due, or with its new grid due ahead, or caught up (R82). -/
theorem shiftCue_timely (shift : Triple) (h : s.cueTable.Timely s.now) (hc : c.Timely s.now) :
    (shiftCue i c shift s).cueTable.Timely s.now := by
  have stored : (storeCue i c s).cueTable.Timely s.now := h.setCue i hc
  unfold shiftCue
  dsimp only
  split
  · next hs he => exact h.setCue i (hc.of_same rfl (by simp [Cue.due, he]) hc.period)
  · next hs he =>
    split
    · next ahead => exact h.replace i (by simpa [Cue.due, he] using distance_le_of_ahead ahead) hc.period
    · split
      · exact catchUpSkip_timely (s := storeCue i c s) stored fun on u hu now =>
          hu.replace i (by rw [now]; exact distance_skip he hc.period on) hc.period
      · exact h.replace i (distance_broughtDue _ _) hc.period
  · next hs =>
    split
    · exact h.setCue i (.of_deferred hs hc.period)
    · split
      · exact catchUpSkip_timely (s := storeCue i c s) stored fun _ u hu _ =>
          hu.setCue i (.of_deferred hs hc.period)
      · exact h.setCue i (.of_deferred hs hc.period)

end Times

/-! ### Occurrences (R43 to R51) -/

section Occurrences

variable {i : SlotId} {c : Cue} {s : State}

theorem continueCue_keeps (hp : s.cueTable.Timely s.now → c.period ≠ some 0) : Keeps s (continueCue i c s) :=
  (continueCue_tableStep i c s).keeps fun h => continueCue_timely h (hp h)

theorem suppress_keeps (hp : s.cueTable.Timely s.now → c.period ≠ some 0) : Keeps s (suppress i c s) := by
  obtain ⟨_, table, now⟩ := postMissed_spec s i c
  refine ((postMissed_tableStep i c s).keeps (by rw [table]; exact id)).trans (continueCue_keeps ?_)
  rw [table, now]
  exact hp

theorem takeAnswer_keeps (a : ApplyAnswer) (hp : s.cueTable.Timely s.now → c.period ≠ some 0) :
    Keeps s (takeAnswer i c a s) := by
  cases a with
  | applied =>
    unfold takeAnswer
    dsimp only
    split
    · exact (post_keeps s _ _).trans (continueCue_keeps (by simpa [postCue] using hp))
    · exact continueCue_keeps hp
  | refused g => exact (post_keeps s _ _).trans (continueCue_keeps (by simpa [postCue] using hp))
  | deferred g => exact setCueTable_keeps fun h => h.defer i g (hp h)

theorem occur_keeps (hp : s.cueTable.Timely s.now → c.period ≠ some 0) : Keeps s (occur i c s) := by
  unfold occur
  split
  · exact setCueTable_keeps fun h => h.freeSlot i
  · split
    · exact suppress_keeps hp
    · exact (setOutput_keeps (OutputUnit.apply_steady _ _ _ _ _)
        (.of_eq (OutputUnit.apply_trip _ _ _ _ _))).trans (takeAnswer_keeps _ hp)

/-- The cue due at the head of the pending list stands in its slot. -/
theorem dueCue_cue (h : s.dueCue = some (i, c)) : s.cueTable.cue i = some c := by
  unfold State.dueCue at h
  split at h
  · cases h
  · next j _ _ =>
    split at h
    · next d hd =>
      split at h
      · cases h; exact hd
      · cases h
    · cases h

theorem execOccurrence_keeps {t : State} (e : execOccurrence s = .next t) : Keeps s t := by
  refine keeps_of_whenLive e ?_
  split
  · next i c due =>
    have taken : Keeps s (s.setCueTable { s.cueTable with pendingList := s.cueTable.pendingList.tail }) :=
      setCueTable_keeps fun h => h.of_slots rfl rfl
    have stands := dueCue_cue due
    exact taken.trans (occur_keeps fun h => (h.cues i c stands).period)
  · exact .refl s

end Occurrences

/-! ### Commit-time expiry (R80 to R83) -/

section Expiry

/-- A member's record is applied, and its shift moves it, or the member loses its empty set field. -/
theorem applyMember_keeps (s : State) (i : SlotId) : Keeps s (applyMember s i) := by
  unfold applyMember
  split
  · exact .refl s
  · next c hc =>
    split
    · exact setCueTable_keeps fun h => h.setCue i ((h.cues i c hc).of_same rfl rfl (h.cues i c hc).period)
    · next r _ =>
      dsimp only
      split
      · exact setCueTable_keeps fun h => h.setCue i ((h.cues i c hc).applyRecord r)
      · exact (shiftCue_tableStep i _ s _).keeps fun h => shiftCue_timely _ h ((h.cues i c hc).applyRecord r)

theorem applyMembers_keeps (is : List SlotId) (s : State) : Keeps s (is.foldl applyMember s) := by
  induction is generalizing s with
  | nil => exact .refl s
  | cons i rest ih => exact (applyMember_keeps s i).trans (ih _)

theorem applySet_keeps (k : SetId) (owner : Port) (n : Nat) (s : State) : Keeps s (applySet k owner n s) :=
  ((applyMembers_keeps _ s).trans (setCueTable_keeps fun h => h.putSet k (CommitSet.timely_free _))).trans
    (post_keeps _ _ _)

theorem execCommitTimeExpiry_keeps {k : SetId} {s t : State} (e : execCommitTimeExpiry k s = .next t) :
    Keeps s t := by
  refine keeps_of_whenLive e ?_
  split
  · split
    · exact .refl s
    · split
      · exact applySet_keeps k _ _ s
      · exact setCueTable_keeps fun h => h.freeSetWhole k
  · exact .refl s
  · exact .refl s

end Expiry

/-! ### Release of a deferred list (R62, R63) -/

theorem erase_notice_steady (now : Time) (o : OutputUnit) (g : Group) :
    o.Steady now { o with notices := o.notices.erase g } := ⟨fun _ => .refl _ _, fun _ => .refl _ _⟩

theorem execOpeningNotice_keeps {g : Group} {s t : State} (e : execOpeningNotice g s = .next t) : Keeps s t := by
  refine keeps_of_whenLive e ?_
  split
  · exact (setOutput_keeps (erase_notice_steady _ _ g) (.of_eq rfl)).trans
      (setCueTable_keeps fun h => h.releaseGroup g)
  · exact .refl s

end Sys2Proof.Machine
end

section
/-! PROOFS. Every command, one after another: what it keeps. -/

namespace Sys2Proof.Machine

/-! ### Trip and output (R94, R99, R107, R111) -/

section Output

variable {s t : State}

theorem execFaultLow_keeps (e : execFaultLow s = .next t) : Keeps s t := by
  refine keeps_of_whenLive e ?_
  split
  · split
    · next normal => exact (setInputs_keeps s _).trans (tripEntry_keeps _ _ normal)
    · exact setInputs_keeps s _
  · exact .refl s

theorem execFaultHigh_keeps (e : execFaultHigh s = .next t) : Keeps s t := by
  refine keeps_of_whenLive e ?_
  split
  · exact setInputs_keeps s _
  · exact .refl s

theorem execPulseEndExpiry_keeps {l : Line} (e : execPulseEndExpiry l s = .next t) : Keeps s t := by
  refine keeps_of_whenLive e ?_
  split
  · exact setOutput_keeps (OutputUnit.deactivate_steady _ _ l) (.of_eq (OutputUnit.deactivate_trip _ _ l))
  · exact .refl s

theorem execHoldoffExpiry_keeps {g : Group} (e : execHoldoffExpiry g s = .next t) : Keeps s t := by
  refine keeps_of_whenLive e ?_
  split
  · split
    · exact setOutput_keeps (OutputUnit.open_steady _ _ g) (.of_eq rfl)
    · exact .refl s
  · exact .refl s

theorem execTrip_keeps {p : Port} (e : execTrip p s = .next t) : Keeps s t := by
  refine keeps_of_takeDirect e fun c b u => ?_
  split
  · next normal => exact (tripEntry_keeps u _ normal).trans (answer_keeps _ _ _ _)
  · exact answer_keeps u _ _ _

end Output

/-! ### The port unit (chapter 10) -/

section PortUnits

variable {s t : State} {p : Port}

theorem takeSelEdge_keeps (p : Port) (s : State) : Keeps s (takeSelEdge p s) := setInputs_keeps s _

theorem setDrop_keeps (p : Port) (d : DropReason) (s : State) : Keeps s (setDrop p d s) :=
  changePort_keeps_of_same rfl rfl

theorem withdrawIfFull_keeps (p : Port) (s : State) : Keeps s (withdrawIfFull p s) := by
  unfold withdrawIfFull
  split
  · exact .refl s
  · exact setArbiter_keeps s _

theorem reloadLease_keeps (p : Port) (s : State) : Keeps s (reloadLease p s) := by
  unfold reloadLease
  split
  · next h => exact loadLease_keeps s p h
  · exact .refl s

theorem duplicate_keeps (p : Port) (a : LastAccepted) (s : State) : Keeps s (duplicate p a s) := by
  unfold duplicate
  split
  · exact setDrop_keeps p _ s
  · split
    · exact (changePort_keeps_of_same (f := PortUnit.copyReply) rfl rfl).trans (withdrawIfFull_keeps p _)
    · exact setDrop_keeps p _ s

theorem queueRequest_keeps (p : Port) (r : Received) (s : State) : Keeps s (queueRequest p r s) := by
  unfold queueRequest
  split
  · exact changePort_keeps_of_same rfl rfl
  · exact setDrop_keeps p _ s

/-- A good request loads the lease timer of an ATTACHED port (R178). -/
theorem acceptRequest_keeps (p : Port) (r : Received) (s : State) : Keeps s (acceptRequest p r s) := by
  have loaded := reloadLease_keeps p s
  unfold acceptRequest
  dsimp only
  split
  · exact loaded
  · split
    · exact loaded.trans (duplicate_keeps p _ _)
    · exact loaded.trans (queueRequest_keeps p r _)

theorem takeBytes_keeps (p : Port) (bytes : List Byte) (s : State) : Keeps s (takeBytes p bytes s) := by
  unfold takeBytes
  split
  · exact .refl s
  · split
    · exact setDrop_keeps p _ s
    · exact acceptRequest_keeps p _ s

theorem execFrameStart_keeps (e : execFrameStart p s = .next t) : Keeps s t := by
  refine keeps_of_whenLive e ?_
  split
  · exact (takeSelEdge_keeps p s).trans (changePort_keeps_of_same rfl rfl)
  · exact .refl s

theorem execFrameEnd_keeps {sdi : List Bool} (e : execFrameEnd p sdi s = .next t) : Keeps s t := by
  refine keeps_of_whenLive e ?_
  split
  · split
    · next f _ =>
      have closed : Keeps (takeSelEdge p s)
          ((takeSelEdge p s).changePort p (fun u => u.closeFrame f (bytesOfBits sdi))) :=
        changePort_keeps_of_same rfl rfl
      exact ((takeSelEdge_keeps p s).trans closed).trans (takeBytes_keeps p _ _)
    · exact takeSelEdge_keeps p s
  · exact .refl s

theorem execReplyArrival_keeps (e : execReplyArrival p s = .next t) : Keeps s t := by
  refine keeps_of_whenLive e ?_
  split
  · exact .refl s
  · split
    · exact changePort_keeps_of_same rfl rfl
    · split
      · exact changePort_keeps_of_same rfl rfl
      · exact .refl s

theorem takeRecord_same (u : PortUnit) (e : EventRecord) :
    (u.takeRecord e).state = u.state ∧ (u.takeRecord e).leaseEnd = u.leaseEnd := by
  unfold PortUnit.takeRecord
  split
  · split <;> exact ⟨rfl, rfl⟩
  · exact ⟨rfl, rfl⟩
  · exact ⟨rfl, rfl⟩

theorem execEventPosted_keeps (e : execEventPosted p s = .next t) : Keeps s t := by
  refine keeps_of_whenLive e ?_
  split
  · exact .refl s
  · exact changePort_keeps_of_same (takeRecord_same _ _).1 (takeRecord_same _ _).2

theorem execBadKind_keeps (e : execBadKind p s = .next t) : Keeps s t := by
  refine keeps_of_whenLive e ?_
  split
  · split
    · exact (takeHead_keeps s p).trans (answer_keeps _ _ _ _)
    · exact .refl s
  · exact .refl s

theorem execPortUnitNotAttached_keeps (e : execPortUnitNotAttached p s = .next t) : Keeps s t := by
  refine keeps_of_whenLive e ?_
  split
  · split
    · exact (takeHead_keeps s p).trans (answer_keeps _ _ _ _)
    · exact .refl s
  · exact .refl s

theorem execReadTime_keeps (e : execReadTime p s = .next t) : Keeps s t :=
  keeps_of_takeDirect e fun _ _ u => answer_keeps u _ _ _

theorem execReadEvents_keeps (e : execReadEvents p s = .next t) : Keeps s t := by
  refine keeps_of_takeDirect e fun c b u => ?_
  unfold readEvents
  split <;> exact answer_keeps u _ _ _

theorem execAckEvents_keeps (e : execAckEvents p s = .next t) : Keeps s t := by
  refine keeps_of_takeDirect e fun c b u => ?_
  unfold ackEvents
  split
  · exact answer_keeps u _ _ _
  · exact (changePort_keeps_of_same rfl rfl).trans (answer_keeps _ _ _ _)

theorem execPresentRequest_keeps (e : execPresentRequest p s = .next t) : Keeps s t := by
  refine keeps_of_whenLive e ?_
  split
  · exact setArbiter_keeps s _
  · exact .refl s

end PortUnits

/-! ### The session (chapter 9) -/

section Sessions

variable {s t : State} {p : Port}

/-- ATTACH loads the lease timer of a port that becomes ATTACHED (R149). -/
theorem execAttach_keeps (e : execAttach p s = .next t) : Keeps s t := by
  refine keeps_of_takeDirect e fun c b u => ?_
  have attached : Keeps u (loadLease c.port
      ((u.changePort c.port PortUnit.attach).setSession (u.session.forget c.port))) := by
    have comes : u.session.SameSettings (u.session.forget c.port) := ⟨rfl, rfl, rfl, rfl⟩
    refine { Keeps.refl u with session := comes, ports := fun q a => ?_ }
    unfold loadLease
    rw [changePort_port]
    split
    · refine PortUnit.Timely.of_load ?_ _ rfl
      simp [PortUnit.attach]
    · next other =>
      rw [setSession_port, changePort_port_ne _ _ _ _ other]
      exact a
  unfold attach
  split
  · exact answer_keeps u _ _ _
  · exact answer_keeps u _ _ _
  · exact attached.trans (answer_keeps _ _ _ _)
  · exact attached.trans (answer_keeps _ _ _ _)

theorem execReadConfig_keeps (e : execReadConfig p s = .next t) : Keeps s t := by
  refine keeps_of_takeDirect e fun c b u => ?_
  unfold readConfig
  split
  · exact answer_keeps u _ _ _
  · split <;> exact answer_keeps u _ _ _

theorem execConfirm_keeps (e : execConfirm p s = .next t) : Keeps s t := by
  refine keeps_of_takeDirect e fun c b u => ?_
  have recorded : Keeps u (u.setSession { u.session with confirmed := put u.session.confirmed c.port true }) :=
    setSession_keeps ⟨rfl, rfl, rfl, rfl⟩
  unfold confirm
  iterate 5
    split
    · exact answer_keeps u _ _ _
  exact (recorded.trans (phaseCheck_keeps _)).trans (answer_keeps _ _ _ _)

theorem execHaltVote_keeps (e : execHaltVote p s = .next t) : Keeps s t := by
  refine keeps_of_takeDirect e fun c b u => ?_
  have voted : Keeps u (u.setSession { u.session with voted := put u.session.voted c.port true }) :=
    setSession_keeps ⟨rfl, rfl, rfl, rfl⟩
  unfold haltVote
  split
  · exact answer_keeps u _ _ _
  · dsimp only
    split
    · exact voted.trans (decideHalt_keeps _ _ _)
    · exact voted.trans (answer_keeps _ _ _ _)

theorem purgePort_keeps (p : Port) (why : Departure) (owes : Option Ticket) (s : State) :
    Keeps s (purgePort p why owes s) :=
  (setCueTable_keeps fun h => (h.purge _).freeSets _).trans (setClaims_keeps _ _)

theorem grantPurge_keeps (p : Port) (s : State) : Keeps s (grantPurge p s) :=
  (setArbiter_keeps s _).trans (setArbiter_keeps _ _)

theorem execDetach_keeps (e : execDetach p s = .next t) : Keeps s t :=
  keeps_of_takeGranted e rfl fun _ _ u => purgePort_keeps _ _ _ u

theorem execLapsePurge_keeps (e : execLapsePurge p s = .next t) : Keeps s t := by
  refine keeps_of_whenLive e ?_
  split
  · exact (grantPurge_keeps p s).trans (purgePort_keeps p _ _ _)
  · exact .refl s

theorem purgeForHalt_keeps (s : State) : Keeps s (purgeForHalt s) :=
  (setCueTable_keeps fun h => (h.purge _).freeSets _).trans (setClaims_keeps _ _)

theorem execHaltPurge_keeps (e : execHaltPurge s = .next t) : Keeps s t := by
  refine keeps_of_whenLive e ?_
  split
  · next p _ => exact (grantPurge_keeps p s).trans (purgeForHalt_keeps _)
  · exact .refl s

theorem departureCheck_keeps (c : Ticket) (s : State) : Keeps s (departureCheck c s) := by
  unfold departureCheck
  split
  · exact (phaseCheck_keeps s).trans (answer_keeps _ _ _ _)
  · split
    · exact (emptyRunCheck_keeps s).trans (answer_keeps _ _ _ _)
    · split
      · exact decideHalt_keeps s _ _
      · exact answer_keeps s _ _ _

/-- A port that leaves has no lease end (R151). -/
theorem leave_keeps (p : Port) (s : State) : Keeps s (s.changePort p PortUnit.leave) :=
  changePort_keeps fun _ => .of_none rfl

theorem completeDetach_keeps (c : Ticket) (s : State) : Keeps s (completeDetach c s) := by
  unfold completeDetach
  dsimp only
  split
  · exact (forget_keeps s _).trans (departureCheck_keeps c _)
  · split
    · exact ((leave_keeps c.port s).trans (forget_keeps _ c.port)).trans (departureCheck_keeps c _)
    · exact answer_keeps s _ _ _

theorem execDetachCompletion_keeps (e : execDetachCompletion p s = .next t) : Keeps s t := by
  refine keeps_of_whenLive e ?_
  split
  · exact (setClaims_keeps s _).trans (completeDetach_keeps _ _)
  · exact .refl s

theorem resumeWaiter_keeps (w : Option HaltWaiter) (s : State) : Keeps s (resumeWaiter w s) := by
  unfold resumeWaiter
  split
  · exact answer_keeps s _ _ _
  · exact answer_keeps s _ _ _
  · exact clearCleanup_keeps s _
  · exact .refl s

theorem execHaltCompletion_keeps (e : execHaltCompletion s = .next t) : Keeps s t := by
  refine keeps_of_whenLive e ?_
  have halted (u : State) : Keeps u (u.setSession u.session.afterHalt) := setSession_keeps ⟨rfl, rfl, rfl, rfl⟩
  split
  · exact (((setClaims_keeps s _).trans (halted _)).trans (postAll_keeps _ _)).trans (resumeWaiter_keeps _ _)
  · exact .refl s

/-- A lapsed port has no lease end (R168). -/
theorem lapsePort_keeps (p : Port) (s : State) : Keeps s (lapsePort p s) := by
  have lapsed : Keeps s (s.changePort p PortUnit.lapse) := changePort_keeps fun _ => .of_none rfl
  exact (((lapsed.trans (forget_keeps _ p)).trans (setArbiter_keeps _ _)).trans (postAll_keeps _ _)).trans
    (setArbiter_keeps _ _)

theorem execLapse_keeps (e : execLapse p s = .next t) : Keeps s t := by
  refine keeps_of_whenLive e ?_
  split
  · exact lapsePort_keeps p s
  · exact .refl s

theorem completeCleanup_keeps (p : Port) (s : State) : Keeps s (completeCleanup p s) := by
  have cleared := clearCleanup_keeps s p
  unfold completeCleanup
  split
  · exact cleared.trans (phaseCheck_keeps _)
  · split
    · exact cleared.trans (emptyRunCheck_keeps _)
    · split
      · exact decideHalt_keeps s _ _
      · exact cleared

theorem execLapseCleanupCompletion_keeps (e : execLapseCleanupCompletion p s = .next t) : Keeps s t := by
  refine keeps_of_whenLive e ?_
  split
  · exact (setClaims_keeps s _).trans (completeCleanup_keeps p _)
  · exact .refl s

end Sessions

/-! ### Claims (chapter 7) -/

section Claiming

variable {s t : State} {p : Port}

theorem claimLine_keeps (c : Ticket) (l : Line) (wait : Bool) (s : State) : Keeps s (claimLine c l wait s) := by
  unfold claimLine
  dsimp only
  split
  · exact (setClaims_keeps s _).trans (answer_keeps _ _ _ _)
  · iterate 3
      split
      · exact answer_keeps s _ _ _
    exact (setClaims_keeps s _).trans (answer_keeps _ _ _ _)

theorem execClaim_keeps (e : execClaim p s = .next t) : Keeps s t := by
  refine keeps_of_takeDirect e fun c b u => ?_
  unfold claim
  iterate 2
    split
    · exact answer_keeps u _ _ _
  split
  · exact claimLine_keeps c _ _ u
  · exact answer_keeps u _ _ _

theorem execQueryLine_keeps (e : execQueryLine p s = .next t) : Keeps s t := by
  refine keeps_of_takeDirect e fun c b u => ?_
  unfold queryLine
  split
  · exact answer_keeps u _ _ _
  · split <;> exact answer_keeps u _ _ _

theorem execRelease_keeps (e : execRelease p s = .next t) : Keeps s t := by
  refine keeps_of_takeGranted e rfl fun c b u => ?_
  unfold releaseLine
  iterate 2
    split
    · exact answer_keeps u _ _ _
  split
  · exact (setCueTable_keeps fun h => h.purge _).trans (setClaims_keeps _ _)
  · exact setClaims_keeps u _

theorem decideRelease_keeps (p : Port) (j : ReleaseJob) (s : State) : Keeps s (decideRelease p j s) := by
  unfold decideRelease
  dsimp only
  split
  · exact setClaims_keeps s _
  · split <;> exact (setClaims_keeps s _).trans (answer_keeps _ _ _ _)

theorem execReleaseAtClaimUnit_keeps (e : execReleaseAtClaimUnit p s = .next t) : Keeps s t := by
  refine keeps_of_whenLive e ?_
  split
  · exact decideRelease_keeps p _ s
  · exact .refl s

theorem execPortReleaseStart_keeps {why : Departure} (e : execPortReleaseStart p why s = .next t) : Keeps s t := by
  refine keeps_of_whenLive e ?_
  split
  · split
    · exact setClaims_keeps s _
    · exact .refl s
  · exact .refl s

theorem execSafeLevelDrive_keeps {h : Handover} (e : execSafeLevelDrive h s = .next t) : Keeps s t := by
  refine keeps_of_whenLive e ?_
  cases h with
  | release p =>
    dsimp only
    split
    · exact (driveLine_keeps s _).trans (setClaims_keeps _ _)
    · exact .refl s
  | departure p why =>
    dsimp only
    split
    · exact (driveLine_keeps s _).trans (setClaims_keeps _ _)
    · exact .refl s
  | halt =>
    dsimp only
    split
    · exact (driveEvery_keeps s).trans (setClaims_keeps _ _)
    · exact .refl s

theorem finishRelease_keeps (p : Port) (j : ReleaseJob) (s : State) : Keeps s (finishRelease p j s) := by
  have given : Keeps s (if s.mayTransfer p j then transferLine p j.line s else s) := by
    split
    · exact transferLine_keeps s p j.line
    · exact .refl s
  exact (given.trans (setClaims_keeps _ _)).trans (answer_keeps _ _ _ _)

theorem execClaimTransfer_keeps {h : Handover} (e : execClaimTransfer h s = .next t) : Keeps s t := by
  refine keeps_of_whenLive e ?_
  cases h with
  | release p =>
    dsimp only
    split
    · exact finishRelease_keeps p _ s
    · exact .refl s
  | departure p why =>
    dsimp only
    split
    · exact (transferLine_keeps s p _).trans (setClaims_keeps _ _)
    · exact .refl s
  | halt => exact .refl s

theorem execHaltRelease_keeps (e : execHaltRelease s = .next t) : Keeps s t := by
  refine keeps_of_whenLive e ?_
  split
  · exact setClaims_keeps s _
  · exact .refl s

end Claiming

/-! ### List-class commands (chapters 2 and 4) -/

section Listing

variable {s t : State} {p : Port}

/-- A live handle names a cue that stands in its slot (R15). -/
theorem live_cue {ct : CueTable} {slot gen : Byte} {i : SlotId} {c : Cue} (h : ct.live slot gen = some (i, c)) :
    ct.cue i = some c := by
  unfold CueTable.live at h
  split at h
  · split at h
    · next d hd =>
      split at h
      · cases h; exact hd
      · cases h
    · cases h
  · cases h

theorem onOwnedCue_keeps {c : Ticket} {body : List Byte} {effect : SlotId → Cue → State}
    (h : ∀ i d, s.cueTable.cue i = some d → Keeps s (effect i d)) : Keeps s (onOwnedCue c body s effect) := by
  unfold onOwnedCue
  split
  · exact answer_keeps s _ _ _
  · next i d live =>
    split
    · exact h i d (live_cue live)
    · exact answer_keeps s _ _ _

/-- An admitted body has no period of 0 (R28). -/
theorem parseAddCue_period {b : List Byte} {q : CueRequest} (h : parseAddCue b = some q) : q.period ≠ some 0 := by
  unfold parseAddCue at h
  dsimp only at h
  split at h
  · rw [Option.ite_none_left_eq_some, Option.some.injEq] at h
    obtain ⟨passed, rfl⟩ := h
    simp only [Bool.or_eq_true, beq_iff_eq, not_or] at passed
    obtain ⟨⟨⟨_, period⟩, _⟩, _⟩ := passed
    exact period
  · cases h

/-- An admitted due is at now or ahead of it (R30, R32). -/
theorem cue_timely {s : State} {p : Port} {q : CueRequest} (h : refuseCue s p q = none) :
    distance s.now (q.cue p s.now).due ≤ Config.aheadWindow := by
  unfold CueRequest.cue Cue.due
  cases immediate : q.immediate with
  | true => simp
  | false =>
    have ahead : isAhead s.now q.due = true := by
      unfold refuseCue at h
      split at h
      · cases h
      · split at h
        · cases h
        · next notLate => simpa [immediate] using notLate
    simpa using distance_le_of_ahead ahead

theorem execAddCue_keeps (e : execAddCue p s = .next t) : Keeps s t := by
  refine keeps_of_takeGranted e rfl fun c b u => ?_
  unfold addCue
  split
  · exact answer_keeps u _ _ _
  · split
    · exact answer_keeps u _ _ _
    · next q parsed =>
      split
      · exact answer_keeps u _ _ _
      · next admitted =>
        split
        · exact answer_keeps u _ _ _
        · next i _ =>
          have entered : Keeps u (u.setCueTable (u.cueTable.enter u.now i (q.cue c.port u.now))) :=
            setCueTable_keeps fun h => h.enter i (cue_timely admitted) (parseAddCue_period parsed)
          exact entered.trans (answer_keeps _ _ _ _)

theorem execCancelCue_keeps (e : execCancelCue p s = .next t) : Keeps s t := by
  refine keeps_of_takeGranted e rfl fun c b u => ?_
  unfold cancelCue
  split
  · exact answer_keeps u _ _ _
  · exact onOwnedCue_keeps fun i d _ => (setCueTable_keeps fun h => h.freeSlot i).trans (answer_keeps _ _ _ _)

theorem execQueryCue_keeps (e : execQueryCue p s = .next t) : Keeps s t := by
  refine keeps_of_takeGranted e rfl fun c b u => ?_
  unfold queryCue
  split
  · exact answer_keeps u _ _ _
  · exact onOwnedCue_keeps fun i d _ => answer_keeps u _ _ _

theorem execStage_keeps (e : execStage p s = .next t) : Keeps s t := by
  refine keeps_of_takeGranted e rfl fun c b u => ?_
  unfold stageCue
  split
  · exact answer_keeps u _ _ _
  · refine onOwnedCue_keeps fun i d stands => ?_
    split
    · exact answer_keeps u _ _ _
    · next r k _ =>
      iterate 2
        split
        · exact answer_keeps u _ _ _
      exact (setCueTable_keeps fun h => h.stageRecord i (h.cues i d stands) r k).trans (answer_keeps _ _ _ _)

theorem execUnstage_keeps (e : execUnstage p s = .next t) : Keeps s t := by
  refine keeps_of_takeGranted e rfl fun c b u => ?_
  unfold unstageCue
  split
  · exact answer_keeps u _ _ _
  · refine onOwnedCue_keeps fun i d stands => ?_
    split
    · have bare (h : u.cueTable.Timely u.now) : d.unstaged.Timely u.now :=
        (h.cues i d stands).of_same rfl rfl (h.cues i d stands).period
      exact (setCueTable_keeps fun h => (h.leaveSet d.set).setCue i (bare h)).trans (answer_keeps _ _ _ _)
    · exact answer_keeps u _ _ _

theorem execOpenSet_keeps (e : execOpenSet p s = .next t) : Keeps s t := by
  refine keeps_of_takeGranted e rfl fun c b u => ?_
  unfold openSet
  split
  · exact answer_keeps u _ _ _
  · split
    · exact answer_keeps u _ _ _
    · next k _ =>
      have opened : (CommitSet.opened c.port 0).Timely u.now := fun _ _ _ e => by cases e
      exact (setCueTable_keeps fun h => h.putSet k opened).trans (answer_keeps _ _ _ _)

/-- COMMIT_SET takes a commit time that is ahead of now (R78). -/
theorem execCommitSet_keeps (e : execCommitSet p s = .next t) : Keeps s t := by
  refine keeps_of_takeGranted e rfl fun c b u => ?_
  unfold commitSet
  split
  · exact answer_keeps u _ _ _
  · split
    · exact answer_keeps u _ _ _
    · next k _ =>
      split
      · exact answer_keeps u _ _ _
      · exact answer_keeps u _ _ _
      · next o n _ =>
        split
        · exact answer_keeps u _ _ _
        · split
          · exact answer_keeps u _ _ _
          · next ahead =>
            have due : (CommitSet.scheduled o n (timeAt b 1)).Timely u.now := fun _ _ _ e => by
              cases e
              exact distance_le_of_ahead (by simpa using ahead)
            exact (setCueTable_keeps fun h => h.putSet k due).trans (answer_keeps _ _ _ _)

theorem execAbandonSet_keeps (e : execAbandonSet p s = .next t) : Keeps s t := by
  refine keeps_of_takeGranted e rfl fun c b u => ?_
  unfold abandonSet
  split
  · exact answer_keeps u _ _ _
  · split
    · exact answer_keeps u _ _ _
    · next k _ =>
      split
      · exact answer_keeps u _ _ _
      · split
        · exact answer_keeps u _ _ _
        · exact (setCueTable_keeps fun h => h.freeSetWhole k).trans (answer_keeps _ _ _ _)

end Listing

end Sys2Proof.Machine
end

section
/-! PROOFS. Held times are never stepped over (R7), and what moves only at its own commands (R1, R116, R153): the
commands that keep everything, and the few that move time, configuration, reset or trip. -/

namespace Sys2Proof

/-- The commands that are made to move the time base, the configuration, the trip, or the whole part. -/
def Instr.isMover : Instr → Bool
  | .deviceReset _ | .resetEnd | .tbStep | .refclkPeriodEnd _ | .writeConfig _ | .clearTrip _ => true
  | _ => false

end Sys2Proof

namespace Sys2Proof.Machine

/-! ### Every other command keeps everything -/

/-- A command that is not made to move them keeps time, held times, configuration and a standing trip. -/
theorem exec_keeps {c : Instr} {s t : State} (hc : c.isMover = false) (e : exec c s = .next t) : Keeps s t := by
  cases c with
  | deviceReset cause => cases hc
  | resetEnd => cases hc
  | tbStep => cases hc
  | refclkPeriodEnd pins => cases hc
  | writeConfig p => cases hc
  | clearTrip p => cases hc
  | faultLow => exact execFaultLow_keeps e
  | faultHigh => exact execFaultHigh_keeps e
  | frameStart p => exact execFrameStart_keeps e
  | frameEnd p sdi => exact execFrameEnd_keeps e
  | presentRequest p => exact execPresentRequest_keeps e
  | replyArrival p => exact execReplyArrival_keeps e
  | eventPosted p => exact execEventPosted_keeps e
  | badKind p => exact execBadKind_keeps e
  | readTime p => exact execReadTime_keeps e
  | readEvents p => exact execReadEvents_keeps e
  | ackEvents p => exact execAckEvents_keeps e
  | attach p => exact execAttach_keeps e
  | readConfig p => exact execReadConfig_keeps e
  | confirm p => exact execConfirm_keeps e
  | haltVote p => exact execHaltVote_keeps e
  | claim p => exact execClaim_keeps e
  | queryLine p => exact execQueryLine_keeps e
  | trip p => exact execTrip_keeps e
  | addCue p => exact execAddCue_keeps e
  | cancelCue p => exact execCancelCue_keeps e
  | queryCue p => exact execQueryCue_keeps e
  | stage p => exact execStage_keeps e
  | unstage p => exact execUnstage_keeps e
  | openSet p => exact execOpenSet_keeps e
  | commitSet p => exact execCommitSet_keeps e
  | abandonSet p => exact execAbandonSet_keeps e
  | release p => exact execRelease_keeps e
  | releaseAtClaimUnit p => exact execReleaseAtClaimUnit_keeps e
  | detach p => exact execDetach_keeps e
  | lapsePurge p => exact execLapsePurge_keeps e
  | haltPurge => exact execHaltPurge_keeps e
  | safeLevelDrive h => exact execSafeLevelDrive_keeps e
  | claimTransfer h => exact execClaimTransfer_keeps e
  | portReleaseStart p why => exact execPortReleaseStart_keeps e
  | haltRelease => exact execHaltRelease_keeps e
  | detachCompletion p => exact execDetachCompletion_keeps e
  | haltCompletion => exact execHaltCompletion_keeps e
  | lapse p => exact execLapse_keeps e
  | lapseCleanupCompletion p => exact execLapseCleanupCompletion_keeps e
  | occurrence => exact execOccurrence_keeps e
  | commitTimeExpiry k => exact execCommitTimeExpiry_keeps e
  | openingNotice g => exact execOpeningNotice_keeps e
  | pulseEndExpiry l => exact execPulseEndExpiry_keeps e
  | holdoffExpiry g => exact execHoldoffExpiry_keeps e
  | portUnitNotAttached p => exact execPortUnitNotAttached_keeps e

/-! ### The step of TB (R7) -/

section Quiet

variable {s : State}

/-- In a quiet tick no PENDING cue is due. -/
theorem due_ne_of_quiet (h : s.cueDue = false) {i : SlotId} {c : Cue} (hc : s.cueTable.cue i = some c)
    (hp : c.state = .pending) : c.due ≠ s.now := by
  intro due
  have none : s.cueTable.slotsWith (fun c => c.state == .pending && c.due == s.now) = [] := by
    simpa [State.cueDue] using h
  have one := (CueTable.mem_slotsWith s.cueTable (fun c => c.state == .pending && c.due == s.now) i).2
    ⟨c, hc, by simp [hp, due]⟩
  simp [none] at one

/-- In a quiet tick no set's commit time is at now. -/
theorem commitTime_ne_of_quiet (h : s.commitDue = false) {k : SetId} {p : Port} {n : Nat} {t : Time}
    (hk : s.cueTable.commitSet k = .scheduled p n t) : t ≠ s.now := by
  have quiet := List.any_eq_false.1 h k (mem_indices k)
  simpa [hk] using quiet

/-- In a quiet tick no pulse ends and no holdoff ends. -/
theorem output_ne_of_quiet (h : s.outputDue = false) :
    (∀ l t, (s.output.line l).pulseEnd = some t → t ≠ s.now)
      ∧ ∀ g x, (s.output.group g).holdoff = some x → x.endsAt ≠ s.now := by
  obtain ⟨pulses, holdoffs⟩ := Bool.or_eq_false_iff.1 h
  refine ⟨fun l t e => ?_, fun g x e => ?_⟩
  · simpa [e] using List.any_eq_false.1 pulses l (mem_indices l)
  · simpa [e] using List.any_eq_false.1 holdoffs g (mem_indices g)

/-- In a quiet tick no lease is over. -/
theorem leaseEnd_ne_of_quiet (h : (indices 4).any s.leaseOver = false) {p : Port} {t : Time}
    (ha : (s.port p).state = .attached) (ht : (s.port p).leaseEnd = some t) : t ≠ s.now := by
  have quiet := List.any_eq_false.1 h p (mem_indices p)
  simpa [State.leaseOver, State.attached, ha, ht] using quiet

/-- No held time is at now in a quiet tick, so the step of TB brings each one tick nearer and passes none. -/
theorem timely_step (h : s.Timely) (hq : s.tickQuiet = true) : (s.setTimeBase s.timeBase.step).Timely := by
  obtain ⟨⟨cues, sets⟩, ⟨lines, groups⟩, ports, _⟩ := (timely_iff s).1 h
  simp only [State.tickQuiet, Bool.and_eq_true, Bool.not_eq_true'] at hq
  obtain ⟨⟨⟨⟨cueQuiet, setQuiet⟩, outputQuiet⟩, leaseQuiet⟩, _⟩ := hq
  obtain ⟨pulseQuiet, holdoffQuiet⟩ := output_ne_of_quiet outputQuiet
  refine (timely_iff _).2 ⟨⟨fun i c e => ⟨fun hp => ?_, (cues i c e).period⟩, fun k p n t e => ?_⟩,
    ⟨fun l t e => ?_, fun g x e => ?_⟩, fun p t e => ?_, Nat.zero_le _⟩
  · exact distance_step_le (due_ne_of_quiet cueQuiet e hp) ((cues i c e).due hp)
  · exact distance_step_le (commitTime_ne_of_quiet setQuiet e) (sets k p n t e)
  · exact distance_step_le (pulseQuiet l t e) (lines l t e)
  · exact distance_step_le (holdoffQuiet g x e) (groups g x e)
  · obtain ⟨attached, range⟩ := ports p t e
    exact ⟨attached, distance_step_le (leaseEnd_ne_of_quiet leaseQuiet attached e) range⟩

/-- TB_STEP steps TB in a quiet tick, or does nothing. -/
theorem execTbStep_cases {t : State} (e : execTbStep s = .next t) :
    (s.tickQuiet = true ∧ t = s.setTimeBase s.timeBase.step) ∨ t = s := by
  obtain ⟨u, eu, hu⟩ := whenLive_next s
    (fun s => if s.timeBase.full && s.tickQuiet then s.setTimeBase s.timeBase.step else s)
  cases e.symm.trans eu
  rcases hu with ⟨_, rfl⟩ | ⟨_, rfl⟩
  · split
    · next ends => exact .inl ⟨(Bool.and_eq_true_iff.1 ends).2, rfl⟩
    · exact .inr rfl
  · exact .inr rfl

end Quiet

/-! ### The end of a REFCLK period (R2) -/

section Periods

variable {s t : State} {pins : InputSample}

/-- REFCLK_PERIOD_END counts and samples where a period may end, or does nothing. -/
theorem execRefclkPeriodEnd_cases (e : execRefclkPeriodEnd pins s = .next t) :
    (s.periodMayEnd = true
        ∧ t = (s.setTimeBase (s.timeBase.period s.inputs.resetHeld)).setInputs (s.inputs.sample pins)) ∨ t = s := by
  unfold execRefclkPeriodEnd at e
  split at e <;> cases e
  · next may => exact .inl ⟨may, rfl⟩
  · exact .inr rfl

@[simp] theorem period_tb (b : TimeBase) (held : Bool) : (b.period held).tb = b.tb := by
  unfold TimeBase.period
  split <;> rfl

/-- A period is counted only in a tick that is not full. -/
theorem period_counted (h : s.timeBase.Counted) (may : s.periodMayEnd = true) :
    (s.timeBase.period s.inputs.resetHeld).Counted := by
  unfold TimeBase.period
  split
  · exact h
  · next running =>
    have room : s.timeBase.full = false := by
      simpa [running] using (Bool.and_eq_true_iff.1 may).2
    have less : s.timeBase.tickCount < s.timeBase.prescale.periods := by simpa [TimeBase.full] using room
    exact less

theorem execRefclkPeriodEnd_timely (h : s.Timely) (e : execRefclkPeriodEnd pins s = .next t) : t.Timely := by
  rcases execRefclkPeriodEnd_cases e with ⟨may, rfl⟩ | rfl
  · obtain ⟨table, output, ports, ticks⟩ := (timely_iff s).1 h
    refine (timely_iff _).2 ?_
    rw [setInputs_now, setTimeBase_now, period_tb]
    exact ⟨table, output, ports, period_counted ticks may⟩
  · exact h

end Periods

/-! ### Reset (R107, R192) -/

/-- After reset no time is held. -/
theorem timely_enterReset (s : State) (cause : ResetCause) : (s.enterReset cause).Timely := by
  have ports (p : Port) : (s.enterReset cause).port p = PortUnit.reset := look_replicate _ p
  refine (timely_iff _).2 ⟨⟨fun i c e => ?_, fun k p n t e => ?_⟩, ⟨fun l t e => ?_, fun g x e => ?_⟩,
    fun p t e => ?_, by show 0 ≤ _; exact Nat.zero_le _⟩
  · simp [State.enterReset, State.reset, CueTable.reset, CueTable.cue] at e
  · simp [State.enterReset, State.reset, CueTable.reset, CueTable.commitSet] at e
  · simp [State.enterReset, State.reset, OutputUnit.reset, OutputUnit.line, LineRecord.reset] at e
  · simp [State.enterReset, State.reset, OutputUnit.reset, OutputUnit.group, GroupRecord.reset] at e
  · simp [ports, PortUnit.reset] at e

theorem execDeviceReset_timely {cause : ResetCause} {s t : State} (h : s.Timely)
    (e : execDeviceReset cause s = .next t) : t.Timely := by
  unfold execDeviceReset at e
  split at e <;> cases e
  · exact timely_enterReset s cause
  · exact h

/-- RESET_END keeps all but the trip. -/
theorem execResetEnd_keepsTimes {s t : State} (e : execResetEnd s = .next t) : KeepsTimes s t := by
  have freed := (setInputs_keeps s { s.inputs with resetHeld := false }).toKeepsTimes
  obtain rfl := Host.Outcome.next.inj e
  split
  · dsimp only
    split
    · exact freed.trans (tripEntry_keepsTimes _ _)
    · exact freed
  · exact (Keeps.refl s).toKeepsTimes

/-! ### CLEAR_TRIP (R112) -/

/-- CLEAR_TRIP keeps all but the trip. -/
theorem execClearTrip_keepsTimes {p : Port} {s t : State} (e : execClearTrip p s = .next t) : KeepsTimes s t := by
  obtain ⟨u, eu, hu⟩ := takeDirect_next s p .clearTrip _
  cases e.symm.trans eu
  rcases hu with ⟨r, _, rfl⟩ | rfl
  · refine (takeHead_keeps s p).toKeepsTimes.trans ?_
    generalize takeHead p s = v
    split
    · exact (answer_keeps v _ _ _).toKeepsTimes
    · split
      · exact (answer_keeps v _ _ _).toKeepsTimes
      · have cleared : KeepsTimes v (v.setOutput { v.output with trip := .normal }) :=
          { (Keeps.refl v).toKeepsTimes with output := ⟨fun _ => .refl _ _, fun _ => .refl _ _⟩ }
        exact cleared.trans ((postAll_keeps _ _).trans (answer_keeps _ _ _ _)).toKeepsTimes
  · exact (Keeps.refl _).toKeepsTimes

/-! ### WRITE_CONFIG (R153, R156) -/

section Configuring

variable {s t : State}

/-- A configuration value reaches the time base only as the pending prescale (R3). -/
theorem timeBase_configure (b : TimeBase) (w : ConfigWrite) :
    (b.configure w).tb = b.tb ∧ (b.configure w).tickCount = b.tickCount ∧ (b.configure w).prescale = b.prescale := by
  cases w <;> exact ⟨rfl, rfl, rfl⟩

@[simp] theorem configure_now (w : ConfigWrite) (s : State) : (configure w s).now = s.now :=
  (timeBase_configure s.timeBase w).1

theorem timely_configure (w : ConfigWrite) (h : s.Timely) : (configure w s).Timely := by
  obtain ⟨table, output, ports, ticks⟩ := (timely_iff s).1 h
  obtain ⟨_, count, prescale⟩ := timeBase_configure s.timeBase w
  refine (timely_iff _).2 ?_
  rw [configure_now]
  refine ⟨table, output.configure w, ports, ?_⟩
  show (s.timeBase.configure w).Counted
  unfold TimeBase.Counted
  rw [count, prescale]
  exact ticks

/-- WRITE_CONFIG writes in SETUP alone; all else it does is to answer. -/
theorem writeConfig_cases (c : Ticket) (b : List Byte) (s : State) :
    Keeps s (writeConfig c b s) ∨ (s.session.phase = .setup ∧ ∃ w, Keeps (configure w s) (writeConfig c b s)) := by
  unfold writeConfig
  split
  · exact .inl (answer_keeps s _ _ _)
  · next notRun =>
    have setup : s.session.phase = .setup := by cases h : s.session.phase <;> simp_all
    iterate 2
      split
      · exact .inl (answer_keeps s _ _ _)
    split
    · exact .inl (answer_keeps s _ _ _)
    · exact .inl (answer_keeps s _ _ _)
    · split
      · exact .inl (answer_keeps s _ _ _)
      · next w _ => exact .inr ⟨setup, w, answer_keeps _ _ _ _⟩

/-- The same of the command whole, from the state with its head taken. -/
theorem execWriteConfig_cases {p : Port} (e : execWriteConfig p s = .next t) :
    Keeps s t ∨ (s.session.phase = .setup ∧ ∃ u w, Keeps s u ∧ Keeps (configure w u) t) := by
  obtain ⟨u, eu, hu⟩ := takeDirect_next s p .writeConfig writeConfig
  cases e.symm.trans eu
  rcases hu with ⟨r, _, rfl⟩ | rfl
  · have taken := takeHead_keeps s p
    rcases writeConfig_cases (s.ticket p r) r.body (takeHead p s) with h | ⟨setup, w, h⟩
    · exact .inl (taken.trans h)
    · exact .inr ⟨setup, takeHead p s, w, taken, h⟩
  · exact .inl (.refl _)

end Configuring

/-! ### Held times are never passed -/

/-- Every command keeps the law of held times. -/
theorem exec_timely {c : Instr} {s t : State} (h : s.Timely) (e : exec c s = .next t) : t.Timely := by
  cases hc : c.isMover with
  | false => exact (exec_keeps hc e).timely h
  | true =>
    cases c with
    | deviceReset cause => exact execDeviceReset_timely h e
    | resetEnd => exact (execResetEnd_keepsTimes e).timely h
    | tbStep =>
      rcases execTbStep_cases e with ⟨quiet, rfl⟩ | rfl
      · exact timely_step h quiet
      · exact h
    | refclkPeriodEnd pins => exact execRefclkPeriodEnd_timely h e
    | writeConfig p =>
      rcases execWriteConfig_cases e with k | ⟨_, u, w, k, k'⟩
      · exact k.timely h
      · exact k'.timely (timely_configure w (k.timely h))
    | clearTrip p => exact (execClearTrip_keepsTimes e).timely h
    | _ => cases hc

/-- Settles O9: the queue of commands holds no time, and every command keeps the law. -/
theorem heldTimesNeverPassed : Obligations.HeldTimesNeverPassed := by
  intro s t h e
  unfold step at e
  split at e
  · cases e; exact h
  · next c rest _ =>
    have queued : (s.withPending rest).Timely := (timely_iff _).2 ((timely_iff s).1 h)
    exact exec_timely queued e

/-! ### What moves only at its own commands -/

section OwnCommands

variable {c : Instr} {s t : State}

/-- TB moves at TB_STEP and DEVICE_RESET alone (R1). -/
theorem exec_now (hr : ∀ cause, c ≠ .deviceReset cause) (hs : c ≠ .tbStep) (e : exec c s = .next t) :
    t.now = s.now := by
  cases hc : c.isMover with
  | false => exact (exec_keeps hc e).now
  | true =>
    cases c with
    | deviceReset cause => exact absurd rfl (hr cause)
    | tbStep => exact absurd rfl hs
    | resetEnd => exact (execResetEnd_keepsTimes e).now
    | refclkPeriodEnd pins =>
      rcases execRefclkPeriodEnd_cases e with ⟨_, rfl⟩ | rfl
      · exact period_tb _ _
      · rfl
    | writeConfig p =>
      rcases execWriteConfig_cases e with k | ⟨_, u, w, k, k'⟩
      · exact k.now
      · rw [k'.now, configure_now, k.now]
    | clearTrip p => exact (execClearTrip_keepsTimes e).now
    | _ => cases hc

/-- A standing trip ends at CLEAR_TRIP, RESET_END and DEVICE_RESET alone (R116). -/
theorem exec_trip (hr : ∀ cause, c ≠ .deviceReset cause) (hp : ∀ p, c ≠ .clearTrip p) (he : c ≠ .resetEnd)
    (e : exec c s = .next t) : s.output.trip.Stands t.output.trip := by
  cases hc : c.isMover with
  | false => exact (exec_keeps hc e).trip
  | true =>
    cases c with
    | deviceReset cause => exact absurd rfl (hr cause)
    | clearTrip p => exact absurd rfl (hp p)
    | resetEnd => exact absurd rfl he
    | tbStep => rcases execTbStep_cases e with ⟨_, rfl⟩ | rfl <;> exact .of_eq rfl
    | refclkPeriodEnd pins => rcases execRefclkPeriodEnd_cases e with ⟨_, rfl⟩ | rfl <;> exact .of_eq rfl
    | writeConfig p =>
      rcases execWriteConfig_cases e with k | ⟨_, u, w, k, k'⟩
      · exact k.trip
      · intro cause entry standing
        exact k'.trip cause entry ((OutputUnit.configure_trip _ _ w).trans (k.trip cause entry standing))
    | _ => cases hc

/-- In RUN the configuration stands (R153). -/
theorem exec_settings (hr : ∀ cause, c ≠ .deviceReset cause) (run : s.session.phase = .run)
    (e : exec c s = .next t) :
    t.session.version = s.session.version ∧ (∀ item, t.configValue item = s.configValue item)
      ∧ ∀ g, t.output.members g = s.output.members g := by
  cases hc : c.isMover with
  | false => exact (exec_keeps hc e).settings
  | true =>
    cases c with
    | deviceReset cause => exact absurd rfl (hr cause)
    | clearTrip p => exact (execClearTrip_keepsTimes e).settings
    | resetEnd => exact (execResetEnd_keepsTimes e).settings
    | tbStep =>
      rcases execTbStep_cases e with ⟨_, rfl⟩ | rfl <;> exact ⟨rfl, fun item => by cases item <;> rfl, fun _ => rfl⟩
    | refclkPeriodEnd pins =>
      rcases execRefclkPeriodEnd_cases e with ⟨_, rfl⟩ | rfl <;>
        exact ⟨rfl, fun item => by cases item <;> rfl, fun _ => rfl⟩
    | writeConfig p =>
      rcases execWriteConfig_cases e with k | ⟨setup, _⟩
      · exact k.settings
      · cases run.symm.trans setup
    | _ => cases hc

end OwnCommands

/-- Settles O49: most commands keep all three; each of the others moves its own alone. -/
theorem onlyTheirCommandsMove : Obligations.OnlyTheirCommandsMove := by
  intro c s t hr e
  exact ⟨fun hs => exec_now hr hs e, fun cause entry standing hp he => exec_trip hr hp he e cause entry standing,
    fun run => exec_settings hr run e⟩

end Sys2Proof.Machine
end

section
/-! PROOFS. The moves of the cue table: every change that an event makes to it is a run of a few moves, each of one
slot, and each keeps the lists exact, the pending list in order and the fields of every cue consistent (R13 to R28, R67,
R69). -/

namespace Sys2Proof.Machine

/-! ### Cues with new fields -/

/-- The cue with new fields: owner, line, state and entry order stay, and fields that belonged together still do. -/
structure Cue.Reworked (c d : Cue) : Prop where
  owner : d.owner = c.owner
  line : d.line = c.line
  state : d.state = c.state
  entry : d.entry = c.entry
  consistent : c.Consistent → d.Consistent

section Reworking

variable {c d e : Cue}

theorem Cue.Reworked.refl (c : Cue) : c.Reworked c := ⟨rfl, rfl, rfl, rfl, id⟩

theorem Cue.Reworked.trans (h : c.Reworked d) (k : d.Reworked e) : c.Reworked e :=
  ⟨k.owner.trans h.owner, k.line.trans h.line, k.state.trans h.state, k.entry.trans h.entry,
    k.consistent ∘ h.consistent⟩

/-- A staged record fits a cue by the cue's action and period alone. -/
theorem StagedRecord.Fits.of_same {r : StagedRecord} (h : r.Fits c) (ha : d.action = c.action)
    (hp : d.period = c.period) : r.Fits d := by
  obtain ⟨present, pulse, width, nonzero, remaining⟩ := h
  exact ⟨present, pulse, fun e w => ha ▸ width e w, nonzero, fun n e z => hp ▸ remaining n e z⟩

/-- Only action, width, period, remaining and the staged record are asked to belong together. -/
theorem Cue.Consistent.of_same (h : c.Consistent) (ha : d.action = c.action) (hw : d.width = c.width)
    (hp : d.period = c.period) (hr : d.remaining = c.remaining) (hs : d.staged = c.staged) : d.Consistent where
  width := by rw [ha, hw]; exact h.width
  widthNonzero := hw ▸ h.widthNonzero
  period := hp ▸ h.period
  remaining := by rw [hr, hp]; exact h.remaining
  remainingNonzero := hr ▸ h.remainingNonzero
  staged r e := (h.staged r (hs ▸ e)).of_same ha hp

/-- A cue whose staged record is discarded (R68). -/
theorem Cue.reworked_unstaged (c : Cue) : c.Reworked c.unstaged :=
  ⟨rfl, rfl, rfl, rfl, fun h => ⟨h.width, h.widthNonzero, h.period, h.remaining, h.remainingNonzero,
    fun _ e => by cases e⟩⟩

/-- A cue of another action has no width (R28). -/
theorem Cue.Consistent.width_none (h : c.Consistent) (ha : c.action ≠ .pulse) : c.width = none :=
  Option.isNone_iff_eq_none.1 (by simpa using mt h.width.1 ha)

/-- The width of a cue that has taken a record which fits it (R69): present exactly with PULSE, and not 0. -/
theorem Cue.Consistent.applyRecord_width {r : StagedRecord} (h : c.Consistent) (hr : r.Fits c) :
    ((c.applyRecord r).width.isSome = true ↔ (c.applyRecord r).action = .pulse)
      ∧ (c.applyRecord r).width ≠ some 0 := by
  obtain ⟨_, pulse, _, nonzero, _⟩ := hr
  have width := congrArg Cue.width (appliedTo_applyRecord r c).1
  have action : (c.applyRecord r).action = r.action.getD c.action := rfl
  dsimp only at width
  rw [width, action]
  cases a : r.action with
  | some a' =>
    have brought := pulse a' a
    cases a' with
    | pulse => exact ⟨by simpa using brought.1 rfl, nonzero⟩
    | set | clear | toggle => simp
  | none =>
    by_cases hp : c.action = .pulse
    · cases w : r.width with
      | none => simpa [hp, h.width.2 hp] using h.widthNonzero
      | some n => simpa [hp, w] using nonzero
    · simp [hp, h.width_none hp]

/-- A cue that takes a record which fits it stays consistent (R69). -/
theorem Cue.Consistent.applyRecord {r : StagedRecord} (h : c.Consistent) (hr : r.Fits c) :
    (c.applyRecord r).Consistent := by
  obtain ⟨width, widthNonzero⟩ := h.applyRecord_width hr
  have remaining := (appliedTo_applyRecord r c).2.2
  refine ⟨width, widthNonzero, applyRecord_period r h.period, fun counts => ?_, fun zero => ?_, fun _ e => by cases e⟩
  · by_contra absent
    rw [remaining, if_pos (by simpa using absent)] at counts
    cases counts
  · rw [remaining] at zero
    split at zero
    · cases zero
    · split at zero
      · exact h.remainingNonzero zero
      · split at zero
        · cases zero
        · next n _ other => exact other (Option.some.inj zero)

theorem Cue.reworked_applyRecord {r : StagedRecord} (h : c.staged = some r) : c.Reworked (c.applyRecord r) :=
  ⟨rfl, rfl, rfl, rfl, fun k => k.applyRecord (k.staged r h)⟩

theorem Cue.reworked_promote (c : Cue) : c.Reworked c.promote.1 := by
  unfold Cue.promote
  split
  · next r h _ => exact Cue.reworked_applyRecord h
  · exact .refl c

/-- A cue that is not over after the decrement has occurrences left (R53, R54). -/
theorem Cue.reworked_decrement (h : c.decrement.isOver = false) : c.Reworked c.decrement := by
  obtain ⟨_, left⟩ := Bool.or_eq_false_iff.1 h
  refine ⟨rfl, rfl, rfl, rfl, fun k => ⟨k.width, k.widthNonzero, k.period, fun counts => k.remaining ?_, ?_, fun r e =>
    (k.staged r e).of_same rfl rfl⟩⟩
  · simpa [Cue.decrement] using counts
  · simpa using left

/-- A cue moved in time alone. -/
theorem Cue.reworked_moved (c : Cue) (grid : Time) (eff : Option Time) (missed : Half) :
    c.Reworked { c with gridDue := grid, effDue := eff, missed := missed } :=
  ⟨rfl, rfl, rfl, rfl, fun k => k.of_same rfl rfl rfl rfl rfl⟩

theorem Cue.reworked_advanced (c : Cue) (shift : Triple) : c.Reworked (c.advanced shift) :=
  c.reworked_moved _ none c.missed

theorem Cue.reworked_broughtDue (c : Cue) (now : Time) : c.Reworked (c.broughtDue now) :=
  c.reworked_moved c.gridDue _ c.missed

/-- A cue that goes on after skipping has occurrences left (R58). -/
theorem Cue.reworked_skip {now : Time} (h : (c.skip now).2 = false) : c.Reworked (c.skip now).1 := by
  refine ⟨rfl, rfl, rfl, rfl, fun k => ⟨k.width, k.widthNonzero, k.period, fun counts => k.remaining ?_, ?_, fun r e =>
    (k.staged r e).of_same rfl rfl⟩⟩
  · simpa [Cue.skip] using counts
  · cases remaining : c.remaining with
    | none => simp [Cue.skip, remaining]
    | some m =>
      have more : c.duesPassed now < m.toNat := by
        simp only [Cue.skip, remaining, Bool.or_eq_false_iff, decide_eq_false_iff_not] at h
        omega
      have short := m.isLt
      simp only [Cue.skip, remaining, Option.map_some, ne_eq, Option.some.injEq]
      intro zero
      have value := congrArg BitVec.toNat zero
      simp [BitVec.toNat_sub, BitVec.toNat_ofNat, Nat.min_eq_right (Nat.le_of_lt more)] at value
      omega

end Reworking

/-! ### The moves -/

/-- One move of the cue table at `now`: the sets change; a cue is stored with new fields in its place; a PENDING cue
takes a new place; a slot is freed; the cue at the head of the pending list enters it again; a deferred list's first cue
is released, or its first slot leaves it because it is FREE. -/
inductive CueTable.Move (now : Time) (ct : CueTable) : CueTable → Prop
  | sets (x : Vector CommitSet 8) : Move now ct { ct with sets := x }
  | store {i : SlotId} {c d : Cue} (stands : ct.cue i = some c) (reworked : c.Reworked d)
      (due : c.state = .pending → d.due = c.due) : Move now ct (ct.setCue i d)
  | replace {i : SlotId} {c d : Cue} (stands : ct.cue i = some c) (pending : c.state = .pending)
      (reworked : c.Reworked d) : Move now ct (ct.replace now i d)
  | free {i : SlotId} {c : Cue} (stands : ct.cue i = some c) : Move now ct (ct.freeSlot i)
  | again {i : SlotId} {rest : List SlotId} {c d : Cue} (first : ct.pendingList = i :: rest)
      (stands : ct.cue i = some c) (reworked : c.Reworked d) :
      Move now ct (({ ct with pendingList := rest } : CueTable).enter now i d)
  | release {g : Group} {i : SlotId} {rest : List SlotId} {c : Cue} (first : look ct.deferred g = i :: rest)
      (stands : ct.cue i = some c) :
      Move now ct (({ ct with deferred := put ct.deferred g rest } : CueTable).enter now i (c.released now))
  | drop {g : Group} {i : SlotId} {rest : List SlotId} (first : look ct.deferred g = i :: rest)
      (empty : ct.cue i = none) : Move now ct { ct with deferred := put ct.deferred g rest }

/-- Moves one after another. -/
def CueTable.Moves (now : Time) : CueTable → CueTable → Prop := Relation.ReflTransGen (CueTable.Move now)

/-- What an event at `now` does to the table: moves, or a new cue in a FREE slot, or the cue at the head of the pending
list joins a deferred list. -/
inductive CueTable.Change (now : Time) (ct : CueTable) : CueTable → Prop
  | moves {ct' : CueTable} (h : ct.Moves now ct') : Change now ct ct'
  | newCue {i : SlotId} {c : Cue} (empty : ct.cue i = none) (consistent : c.Consistent) :
      Change now ct (ct.enter now i c)
  | defer {i : SlotId} {rest : List SlotId} {c : Cue} (g : Group) (first : ct.pendingList = i :: rest)
      (stands : ct.cue i = some c) : Change now ct (({ ct with pendingList := rest } : CueTable).defer now i c g)

theorem CueTable.Moves.refl (now : Time) (ct : CueTable) : ct.Moves now ct := Relation.ReflTransGen.refl

theorem CueTable.Move.once {now : Time} {ct ct' : CueTable} (h : ct.Move now ct') : ct.Moves now ct' :=
  Relation.ReflTransGen.single h

theorem CueTable.Moves.trans {now : Time} {ct ct' ct'' : CueTable} (h : ct.Moves now ct') (k : ct'.Moves now ct'') :
    ct.Moves now ct'' := Relation.ReflTransGen.trans h k

/-- What every move keeps, moves one after another keep. -/
theorem CueTable.Moves.keep {now : Time} {law : CueTable → Prop}
    (one : ∀ ct ct' : CueTable, ct.Move now ct' → law ct → law ct') {ct ct' : CueTable} (h : ct.Moves now ct')
    (hl : law ct) : law ct' := by
  induction h with
  | refl => exact hl
  | tail _ last ih => exact one _ _ last ih

/-! ### The fields of the cues -/

/-- A slot given a consistent cue, in a table that else has none but the old ones. -/
theorem CueTable.Consistent.of_one {ct ct' : CueTable} {i : SlotId} {c : Cue} (h : ct.Consistent)
    (hs : ∀ j, ct'.cue j = if j = i then some c else ct.cue j) (hc : c.Consistent) : ct'.Consistent := fun j d e => by
  rw [hs] at e
  split at e
  · cases e; exact hc
  · exact h j d e

theorem CueTable.Move.consistent {now : Time} {ct ct' : CueTable} (m : ct.Move now ct') (h : ct.Consistent) :
    ct'.Consistent := by
  cases m with
  | sets x => exact h
  | @store i c d stands reworked due => exact h.of_one (ct.setCue_cue i · d) (reworked.consistent (h i c stands))
  | @replace i c d stands pending reworked =>
    exact h.of_one (ct.replace_cue now i · d) ((reworked.consistent (h i c stands)).of_same rfl rfl rfl rfl rfl)
  | @free i c stands =>
    intro j d e
    rw [CueTable.freeSlot_cue] at e
    split at e
    · cases e
    · exact h j d e
  | @again i rest c d first stands reworked =>
    exact h.of_one (({ ct with pendingList := rest } : CueTable).enter_cue now i · d)
      ((reworked.consistent (h i c stands)).of_same rfl rfl rfl rfl rfl)
  | @release g i rest c first stands =>
    exact h.of_one (({ ct with deferred := put ct.deferred g rest } : CueTable).enter_cue now i · (c.released now))
      (((c.reworked_broughtDue now).consistent (h i c stands)).of_same rfl rfl rfl rfl rfl)
  | drop first empty => exact h

theorem CueTable.Change.consistent {now : Time} {ct ct' : CueTable} (m : ct.Change now ct') (h : ct.Consistent) :
    ct'.Consistent := by
  cases m with
  | moves m => exact m.keep (fun _ _ one => one.consistent) h
  | @newCue i c empty consistent =>
    exact h.of_one (ct.enter_cue now i · c) (consistent.of_same rfl rfl rfl rfl rfl)
  | @defer i rest c g first stands =>
    exact h.of_one (({ ct with pendingList := rest } : CueTable).defer_cue now i · c g)
      ((h i c stands).of_same rfl rfl rfl rfl rfl)

end Sys2Proof.Machine
end

section
/-! PROOFS. Every change of the cue table keeps its lists exact and the pending list in order (R13, R20 to R23). -/

namespace Sys2Proof.Machine

/-! ### Exact lists -/

namespace CueTable.Listed

variable {ct ct' : CueTable} {i : SlotId}

/-- A PENDING cue stands on no deferred list. -/
theorem not_deferred (h : ct.Listed) {c : Cue} (hc : ct.cue i = some c) (hs : c.state = .pending) (g : Group) :
    i ∉ look ct.deferred g := fun m => by
  obtain ⟨d, hd, waits⟩ := h.deferredOnly g i m
  rw [hc] at hd
  cases hd
  rw [hs] at waits
  cases waits

/-- A FREE slot stands on no list. -/
theorem not_listed (h : ct.Listed) (hc : ct.cue i = none) :
    i ∉ ct.pendingList ∧ ∀ g, i ∉ look ct.deferred g := by
  refine ⟨fun m => ?_, fun g m => ?_⟩
  · obtain ⟨d, hd, _⟩ := (h.pendingExact i).1 m
    simp [hc] at hd
  · obtain ⟨d, hd, _⟩ := h.deferredOnly g i m
    simp [hc] at hd

/-- A list that does not hold the slot is the same without it. -/
theorem filter_ne_self {l : List SlotId} (h : i ∉ l) : l.filter (fun j => j != i) = l :=
  List.filter_eq_self.2 fun _ hj => bne_iff_ne.2 fun e => h (e ▸ hj)

/-- The first slot of the pending list holds a PENDING cue and stands in the list once. -/
theorem first_pending (h : ct.Listed) {rest : List SlotId} (first : ct.pendingList = i :: rest) {c : Cue}
    (hc : ct.cue i = some c) : c.state = .pending ∧ rest = ct.pendingList.filter (fun j => j != i) := by
  have once := h.pendingOnce
  obtain ⟨d, hd, waits⟩ := (h.pendingExact i).1 (by simp [first])
  rw [first, List.nodup_cons] at once
  rw [hc] at hd
  cases hd
  refine ⟨waits, ?_⟩
  simp [first, filter_ne_self once.1]

/-- The same lists, and every cue in the state it was in. -/
theorem of_states (h : ct.Listed) (hp : ct'.pendingList = ct.pendingList) (hd : ct'.deferred = ct.deferred)
    (hs : ∀ (j : SlotId) (x : CueState),
      (∃ c, ct'.cue j = some c ∧ c.state = x) ↔ ∃ c, ct.cue j = some c ∧ c.state = x) :
    ct'.Listed where
  pendingOnce := hp ▸ h.pendingOnce
  pendingExact j := by rw [hp, h.pendingExact j, hs]
  deferredOnce := hd ▸ h.deferredOnce
  deferredOnly g j m := (hs j .deferred).2 (h.deferredOnly g j (by rwa [hd] at m))
  deferredOne j c hc waits := by
    obtain ⟨d, hd', waits'⟩ := (hs j .deferred).1 ⟨c, hc, waits⟩
    rw [hd]
    exact h.deferredOne j d hd' waits'

/-- One slot changes what it holds and the place it stands at: the pending list when it holds a PENDING cue, one
deferred list when it holds a DEFERRED one, and no list when it is FREE. -/
theorem of_one {x : Option Cue} {at' : Option Group} (h : ct.Listed)
    (hs : ∀ j, ct'.cue j = if j = i then x else ct.cue j) (pn : ct'.pendingList.Nodup)
    (dn : ∀ g, (look ct'.deferred g).Nodup)
    (pm : ∀ j, j ∈ ct'.pendingList ↔ if j = i then ∃ c, x = some c ∧ c.state = .pending else j ∈ ct.pendingList)
    (dm : ∀ g j, j ∈ look ct'.deferred g ↔ if j = i then at' = some g else j ∈ look ct.deferred g)
    (hx : at'.isSome = true ↔ ∃ c, x = some c ∧ c.state = .deferred) : ct'.Listed where
  pendingOnce := pn
  pendingExact j := by
    rw [pm, hs]
    split
    · rfl
    · exact h.pendingExact j
  deferredOnce := dn
  deferredOnly g j m := by
    rw [dm] at m
    rw [hs]
    by_cases e : j = i
    · rw [if_pos e] at m ⊢
      exact hx.1 (by simp [m])
    · rw [if_neg e] at m ⊢
      exact h.deferredOnly g j m
  deferredOne j c hc waits := by
    rw [hs] at hc
    simp only [dm]
    split at hc
    · next e =>
      obtain ⟨g, hg⟩ := Option.isSome_iff_exists.1 (hx.2 ⟨c, hc, waits⟩)
      exact ⟨g, by simp [e, hg], fun k hk => by simpa [e, hg, eq_comm] using hk⟩
    · next e => simpa [e] using h.deferredOne j c hc waits

/-- A slot is freed: it leaves its list. -/
theorem leave (h : ct.Listed) (hs : ∀ j, ct'.cue j = if j = i then none else ct.cue j)
    (hp : ct'.pendingList = ct.pendingList.filter (fun j => j != i))
    (hd : ∀ g, look ct'.deferred g = (look ct.deferred g).filter (fun j => j != i)) : ct'.Listed := by
  refine h.of_one (x := none) (at' := none) hs (hp ▸ h.pendingOnce.filter _)
    (fun g => hd g ▸ (h.deferredOnce g).filter _) (fun j => ?_) (fun g j => ?_) (by simp)
  · by_cases e : j = i <;> simp [hp, e]
  · by_cases e : j = i <;> simp [hd, e]

/-- A slot that comes to hold a PENDING cue joins the pending list and leaves any other. -/
theorem join {c : Cue} (h : ct.Listed) (hc : c.state = .pending)
    (hs : ∀ j, ct'.cue j = if j = i then some c else ct.cue j)
    (hp : ct'.pendingList.Perm (i :: ct.pendingList.filter (fun j => j != i)))
    (hd : ∀ g, look ct'.deferred g = (look ct.deferred g).filter (fun j => j != i)) : ct'.Listed := by
  refine h.of_one (x := some c) (at' := none) hs (hp.nodup_iff.2 ?_)
    (fun g => hd g ▸ (h.deferredOnce g).filter _) (fun j => ?_) (fun g j => ?_) (by simp [hc])
  · exact List.nodup_cons.2 ⟨by simp, h.pendingOnce.filter _⟩
  · by_cases e : j = i <;> simp [hp.mem_iff, e, hc]
  · by_cases e : j = i <;> simp [hd, e]

/-- A PENDING cue that becomes DEFERRED leaves the pending list and joins one deferred list. -/
theorem wait {c d : Cue} {g : Group} (h : ct.Listed) (hc : ct.cue i = some c) (was : c.state = .pending)
    (hd : d.state = .deferred) (hs : ∀ j, ct'.cue j = if j = i then some d else ct.cue j)
    (hp : ct'.pendingList = ct.pendingList.filter (fun j => j != i))
    (hg : ∀ k, (look ct'.deferred k).Perm (if k = g then i :: look ct.deferred g else look ct.deferred k)) :
    ct'.Listed := by
  have out := h.not_deferred hc was
  refine h.of_one (x := some d) (at' := some g) hs (hp ▸ h.pendingOnce.filter _)
    (fun k => (hg k).nodup_iff.2 ?_) (fun j => ?_) (fun k j => ?_) (by simp [hd])
  · split
    · exact List.nodup_cons.2 ⟨out g, h.deferredOnce g⟩
    · exact h.deferredOnce k
  · by_cases e : j = i <;> simp [hp, e, hd]
  · rw [(hg k).mem_iff]
    by_cases e : j = i <;> by_cases f : k = g <;> simp [e, f, Ne.symm, out]

end CueTable.Listed

theorem CueTable.Move.listed {now : Time} {ct ct' : CueTable} (m : ct.Move now ct') (h : ct.Listed) : ct'.Listed := by
  cases m with
  | sets x => exact ⟨h.pendingOnce, h.pendingExact, h.deferredOnce, h.deferredOnly, h.deferredOne⟩
  | @store i c d stands reworked due =>
    refine h.of_states rfl rfl fun j x => ?_
    rw [ct.setCue_cue]
    split
    · next e => simp [e, stands, reworked.state]
    · rfl
  | @replace i c d stands pending reworked =>
    refine h.join (c := { d with state := .pending }) rfl (ct.replace_cue now i · d)
      (CueTable.perm_place _ _ _ _) fun g => ?_
    exact (CueTable.Listed.filter_ne_self (h.not_deferred stands pending g)).symm
  | @free i c stands =>
    exact h.leave (ct.freeSlot_cue i) (ct.freeSlot_pendingList i c stands) (ct.freeSlot_deferred i c stands)
  | @again i rest c d first stands reworked =>
    obtain ⟨pending, others⟩ := h.first_pending first stands
    subst others
    refine h.join (c := { d with state := .pending, entry := ct.nextEntry }) rfl
      (CueTable.enter_cue _ now i · d) (CueTable.perm_enter _ _ _ _) fun g => ?_
    exact (CueTable.Listed.filter_ne_self (h.not_deferred stands pending g)).symm
  | @release g i rest c first stands =>
    have once := h.deferredOnce g
    obtain ⟨d, hd, waits⟩ := h.deferredOnly g i (by simp [first])
    rw [stands] at hd
    cases hd
    obtain ⟨k, _, only⟩ := h.deferredOne i c stands waits
    have here : g = k := only g (by simp [first])
    have out : i ∉ ct.pendingList := fun m => by
      obtain ⟨d, hd, pending⟩ := (h.pendingExact i).1 m
      rw [stands] at hd
      cases hd
      rw [waits] at pending
      cases pending
    refine h.join (c := { c.released now with state := .pending, entry := ct.nextEntry }) rfl
      (CueTable.enter_cue _ now i · _) ?_ fun l => ?_
    · rw [CueTable.Listed.filter_ne_self out]
      exact CueTable.perm_enter _ _ _ _
    · rw [CueTable.enter_deferred, look_put]
      split
      · next e =>
        rw [first, List.nodup_cons] at once
        simp [e, first, CueTable.Listed.filter_ne_self once.1]
      · next e => exact (CueTable.Listed.filter_ne_self fun m => e ((only l m).trans here.symm)).symm
  | @drop g i rest first empty => exact absurd (by simp [first]) ((h.not_listed empty).2 g)

theorem CueTable.Change.listed {now : Time} {ct ct' : CueTable} (m : ct.Change now ct') (h : ct.Listed) :
    ct'.Listed := by
  cases m with
  | moves m => exact m.keep (fun _ _ one => one.listed) h
  | @newCue i c empty consistent =>
    obtain ⟨pending, deferred⟩ := h.not_listed empty
    refine h.join (c := { c with state := .pending, entry := ct.nextEntry }) rfl (ct.enter_cue now i · c) ?_
      fun g => (CueTable.Listed.filter_ne_self (deferred g)).symm
    rw [CueTable.Listed.filter_ne_self pending]
    exact ct.perm_enter _ _ _
  | @defer i rest c g first stands =>
    obtain ⟨pending, others⟩ := h.first_pending first stands
    exact h.wait (d := { c with state := .deferred, effDue := none }) stands pending rfl
      (CueTable.defer_cue _ now i · c g) others (CueTable.perm_defer _ _ _ _ g)

/-! ### The order of the pending list -/

/-- The first cue stands before the second in the pending list, as judged from `now` (R20). -/
def Cue.FiresBefore (now : Time) (c d : Cue) : Prop :=
  distance now c.due < distance now d.due ∨ (distance now c.due = distance now d.due ∧ c.entry < d.entry)

theorem standsBefore_iff (now : Time) (c d : Cue) : Cue.standsBefore now c d = true ↔ c.FiresBefore now d := by
  simp [Cue.standsBefore, Cue.FiresBefore]

theorem Cue.FiresBefore.trans {now : Time} {c d e : Cue} (h : c.FiresBefore now d) (k : d.FiresBefore now e) :
    c.FiresBefore now e := by
  unfold Cue.FiresBefore at *
  omega

/-- Of two cues with distinct entry orders one stands before the other. -/
theorem Cue.firesBefore_of_not {now : Time} {c d : Cue} (h : ¬ c.FiresBefore now d) (he : d.entry ≠ c.entry) :
    d.FiresBefore now c := by
  unfold Cue.FiresBefore at *
  omega

/-- An item placed before the first that stands after it keeps a list in order, where the order is total between the
item and the list. -/
theorem pairwise_insertBefore {α : Type} {before : α → α → Prop} {after : α → Bool} {x : α} {l : List α}
    (sorted : l.Pairwise before) (ahead : ∀ y, y ∈ l → after y = false → before y x)
    (behind : ∀ y, y ∈ l → after y = true → before x y)
    (further : ∀ y z, y ∈ l → z ∈ l → before x y → before y z → before x z) :
    (insertBefore after x l).Pairwise before := by
  obtain ⟨front, back, e, f, hf, hb⟩ := insertBefore_splits after x l
  subst e
  rw [List.pairwise_append] at sorted
  obtain ⟨frontSorted, backSorted, across⟩ := sorted
  have near : ∀ z, z ∈ back → before x z := by
    cases back with
    | nil => simp
    | cons y rest =>
      have first := behind y (by simp) (hb y rfl)
      intro z hz
      rcases List.mem_cons.1 hz with rfl | hz
      · exact first
      · exact further y z (by simp) (by simp [hz]) first ((List.pairwise_cons.1 backSorted).1 z hz)
  rw [f, List.pairwise_append, List.pairwise_cons]
  refine ⟨frontSorted, ⟨near, backSorted⟩, fun y hy z hz => ?_⟩
  rcases List.mem_cons.1 hz with rfl | hz
  · exact ahead y (by simp [hy]) (hf y hy)
  · exact across y hy z hz

namespace CueTable.Ordered

variable {ct ct' : CueTable} {now : Time} {i : SlotId}

/-- Cues that keep their entry orders, and on a shorter pending list their dues. -/
theorem of_sublist (h : ct.Ordered now) (hp : ct'.pendingList.Sublist ct.pendingList)
    (hs : ∀ j d, ct'.cue j = some d →
      ∃ c, ct.cue j = some c ∧ d.entry = c.entry ∧ (j ∈ ct'.pendingList → d.due = c.due))
    (hn : ct'.nextEntry = ct.nextEntry) : ct'.Ordered now where
  sorted := by
    refine (h.sorted.sublist hp).imp_of_mem fun {j k} hj hk before c d hc hd => ?_
    obtain ⟨c', hc', entry, due⟩ := hs j c hc
    obtain ⟨d', hd', entry', due'⟩ := hs k d hd
    rw [due hj, due' hk, entry, entry']
    exact before c' d' hc' hd'
  older j d hd := by
    obtain ⟨c, hc, entry, _⟩ := hs j d hd
    rw [entry, hn]
    exact h.older j c hc
  distinct j k c d hc hd e := by
    obtain ⟨c', hc', entry, _⟩ := hs j c hc
    obtain ⟨d', hd', entry', _⟩ := hs k d hd
    exact h.distinct j k c' d' hc' hd' (by rw [← entry, ← entry', e])

/-- A cue placed in a pending list that does not hold it, with an entry order of its own (R20, R22). -/
theorem place {c : Cue} {n : Nat} (h : ct.Ordered now) (out : i ∉ ct.pendingList)
    (full : ∀ j, j ∈ ct.pendingList → ∃ d, ct.cue j = some d) (hn : ct.nextEntry ≤ n) (older : c.entry < n)
    (distinct : ∀ j d, j ≠ i → ct.cue j = some d → d.entry ≠ c.entry) :
    ({ ct.place now i c with nextEntry := n } : CueTable).Ordered now := by
  have cues (j : SlotId) : ({ ct.place now i c with nextEntry := n } : CueTable).cue j
      = if j = i then some { c with state := .pending } else ct.cue j := ct.place_cue now i j c
  have other {j : SlotId} (hj : j ∈ ct.pendingList) : j ≠ i := fun e => out (e ▸ hj)
  have after {j : SlotId} {d : Cue} (hd : ct.cue j = some d) :
      ct.after (Cue.standsBefore now) { c with state := .pending } j = true ↔ c.FiresBefore now d := by
    simp only [CueTable.after, hd, standsBefore_iff]
    exact Iff.rfl
  refine ⟨?_, fun j d hd => ?_, fun j k d e hd he same => ?_⟩
  · refine pairwise_insertBefore ?_ (fun j hj stands => ?_) (fun j hj stands => ?_)
      (fun j k hj hk near far d e hd he => ?_)
    · refine h.sorted.imp_of_mem fun {j k} hj hk before d e hd he => before d e ?_ ?_
      · rwa [cues, if_neg (other hj)] at hd
      · rwa [cues, if_neg (other hk)] at he
    · intro d e hd he
      rw [cues, if_neg (other hj)] at hd
      rw [cues, if_pos rfl] at he
      cases he
      have not : ¬ c.FiresBefore now d := fun b => by simp [(after hd).2 b] at stands
      exact Cue.firesBefore_of_not not (distinct j d (other hj) hd)
    · intro d e hd he
      rw [cues, if_neg (other hj)] at he
      rw [cues, if_pos rfl] at hd
      cases hd
      exact (after he).1 stands
    · obtain ⟨m, hm⟩ := full j hj
      have here : ({ ct.place now i c with nextEntry := n } : CueTable).cue j = some m := by
        rw [cues, if_neg (other hj), hm]
      exact Cue.FiresBefore.trans (near d m hd here) (far m e here he)
  · rw [cues] at hd
    split at hd
    · cases hd; exact older
    · exact Nat.lt_of_lt_of_le (h.older j d hd) hn
  · rw [cues] at hd he
    split at hd
    · next ej =>
      split at he
      · next ek => exact ej.trans ek.symm
      · next ek => cases hd; exact absurd same.symm (distinct k e ek he)
    · next ej =>
      split at he
      · cases he; exact absurd same (distinct j d ej hd)
      · exact h.distinct j k d e hd he same

/-- A cue entered with a fresh entry order (R21). -/
theorem enter {c : Cue} (h : ct.Ordered now) (out : i ∉ ct.pendingList)
    (full : ∀ j, j ∈ ct.pendingList → ∃ d, ct.cue j = some d) : (ct.enter now i c).Ordered now :=
  h.place (c := { c with entry := ct.nextEntry }) out full (Nat.le_succ _) (Nat.lt_succ_self _)
    fun j d _ hd => Nat.ne_of_lt (h.older j d hd)

end CueTable.Ordered

/-- In exact lists every slot of the pending list holds a cue. -/
theorem CueTable.Listed.full {ct : CueTable} (h : ct.Listed) {j : SlotId} (hj : j ∈ ct.pendingList) :
    ∃ d, ct.cue j = some d := by
  obtain ⟨d, hd, _⟩ := (h.pendingExact j).1 hj
  exact ⟨d, hd⟩

theorem CueTable.Move.ordered {now : Time} {ct ct' : CueTable} (m : ct.Move now ct') (hl : ct.Listed)
    (h : ct.Ordered now) : ct'.Ordered now := by
  cases m with
  | sets x => exact ⟨h.sorted, h.older, h.distinct⟩
  | @store i c d stands reworked due =>
    refine h.of_sublist (List.Sublist.refl _) (fun j e hj => ?_) rfl
    rw [ct.setCue_cue] at hj
    split at hj
    · next same =>
      cases hj
      refine ⟨c, same ▸ stands, reworked.entry, fun m => due ?_⟩
      obtain ⟨c', hc', pending⟩ := (hl.pendingExact j).1 m
      rw [same, stands] at hc'
      cases hc'
      exact pending
    · exact ⟨e, hj, rfl, fun _ => rfl⟩
  | @replace i c d stands pending reworked =>
    have left : (ct.unlist i).Ordered now :=
      h.of_sublist List.filter_sublist (fun j e hj => ⟨e, hj, rfl, fun _ => rfl⟩) rfl
    refine left.place (by simp [CueTable.unlist]) (fun j hj => hl.full (List.mem_of_mem_filter hj)) (Nat.le_refl _)
      (reworked.entry ▸ h.older i c stands) fun j e other he same => other ?_
    exact h.distinct j i e c he stands (same.trans reworked.entry)
  | @free i c stands =>
    refine h.of_sublist (by rw [ct.freeSlot_pendingList i c stands]; exact List.filter_sublist) (fun j e hj => ?_)
      (slotFreed_freeSlot stands).entry
    rw [ct.freeSlot_cue] at hj
    split at hj
    · cases hj
    · exact ⟨e, hj, rfl, fun _ => rfl⟩
  | @again i rest c d first stands reworked =>
    have once := hl.pendingOnce
    rw [first, List.nodup_cons] at once
    have taken : ({ ct with pendingList := rest } : CueTable).Ordered now :=
      h.of_sublist (by rw [first]; exact List.sublist_cons_self i rest) (fun j e hj => ⟨e, hj, rfl, fun _ => rfl⟩) rfl
    exact taken.enter once.1 fun j hj => hl.full (by rw [first]; exact List.mem_cons_of_mem i hj)
  | @release g i rest c first stands =>
    have taken : ({ ct with deferred := put ct.deferred g rest } : CueTable).Ordered now :=
      ⟨h.sorted, h.older, h.distinct⟩
    refine taken.enter (fun m => ?_) fun j hj => hl.full hj
    obtain ⟨d, hd, pending⟩ := (hl.pendingExact i).1 m
    exact hl.not_deferred hd pending g (by simp [first])
  | drop first empty => exact ⟨h.sorted, h.older, h.distinct⟩

theorem CueTable.Change.ordered {now : Time} {ct ct' : CueTable} (m : ct.Change now ct') (hl : ct.Listed)
    (h : ct.Ordered now) : ct'.Ordered now := by
  cases m with
  | moves m =>
    exact (m.keep (law := fun ct => ct.Listed ∧ ct.Ordered now)
      (fun _ _ one both => ⟨one.listed both.1, one.ordered both.1 both.2⟩) ⟨hl, h⟩).2
  | @newCue i c empty consistent => exact h.enter (hl.not_listed empty).1 fun j hj => hl.full hj
  | @defer i rest c g first stands =>
    refine h.of_sublist (by rw [first]; exact List.sublist_cons_self i rest) (fun j e hj => ?_) rfl
    have once := hl.pendingOnce
    rw [first, List.nodup_cons] at once
    rw [CueTable.defer_cue] at hj
    split at hj
    · next same =>
      cases hj
      exact ⟨c, same ▸ stands, rfl, fun m => absurd (same ▸ m) once.1⟩
    · exact ⟨e, hj, rfl, fun _ => rfl⟩

/-- A step of TB brings every due of the pending list one tick nearer, when none is at now, and so keeps its order (R7,
R20). -/
theorem CueTable.Ordered.step {ct : CueTable} {now : Time} (hl : ct.Listed) (h : ct.Ordered now)
    (quiet : ∀ i c, ct.cue i = some c → c.state = .pending → c.due ≠ now) : ct.Ordered (now + 1) where
  sorted := by
    have nearer {j : SlotId} (hj : j ∈ ct.pendingList) {c : Cue} (hc : ct.cue j = some c) :
        distance (now + 1) c.due + 1 = distance now c.due := by
      obtain ⟨d, hd, pending⟩ := (hl.pendingExact j).1 hj
      rw [hc] at hd
      cases hd
      exact distance_step (quiet j c hc pending)
    refine h.sorted.imp_of_mem fun {j k} hj hk before c d hc hd => ?_
    have first := nearer hj hc
    have second := nearer hk hd
    have order := before c d hc hd
    omega
  older := h.older
  distinct := h.distinct

end Sys2Proof.Machine
end

section
/-! PROOFS. The cue table at every command: most leave it as it is, and the others change it as `CueTable.Change`
says. -/

namespace Sys2Proof.Machine

/-! ### What holds before and after the guards of an event -/

section Guards

variable {P : State → Prop} {s t : State} {p : Port} {k : CommandKind}

theorem of_whenLive {event : State → State} (e : whenLive s event = .next t) (still : P s) (h : P (event s)) : P t := by
  obtain ⟨u, eu, hu⟩ := whenLive_next s event
  cases e.symm.trans eu
  rcases hu with ⟨_, rfl⟩ | ⟨_, rfl⟩
  · exact h
  · exact still

theorem of_takeDirect {effect : Ticket → List Byte → State → State} (e : takeDirect k p s effect = .next t)
    (still : P s) (h : ∀ r, s.Takes p k r → P (effect (s.ticket p r) r.body (takeHead p s))) : P t := by
  obtain ⟨u, eu, hu⟩ := takeDirect_next s p k effect
  cases e.symm.trans eu
  rcases hu with ⟨r, takes, rfl⟩ | rfl
  · exact h r takes
  · exact still

theorem of_takeGranted {effect : Ticket → List Byte → State → State} {c : ListClass}
    (e : takeGranted k p s effect = .next t) (hc : listClass k = some c) (still : P s)
    (h : ∀ r, s.Grants p k r → P (effect (s.ticket p r) r.body (afterGrant c p s))) : P t := by
  obtain ⟨u, eu, hu⟩ := takeGranted_next s p k c hc effect
  cases e.symm.trans eu
  rcases hu with ⟨r, grants, rfl⟩ | rfl
  · exact h r grants
  · exact still

theorem cueTable_of_whenLive {event : State → State} (e : whenLive s event = .next t)
    (h : (event s).cueTable = s.cueTable) : t.cueTable = s.cueTable :=
  of_whenLive (P := fun u => u.cueTable = s.cueTable) e rfl h

theorem cueTable_of_takeDirect {effect : Ticket → List Byte → State → State} (e : takeDirect k p s effect = .next t)
    (h : ∀ c b u, (effect c b u).cueTable = u.cueTable) : t.cueTable = s.cueTable :=
  of_takeDirect (P := fun u => u.cueTable = s.cueTable) e rfl fun _ _ => (h _ _ _).trans (takeHead_cueTable p s)

theorem cueTable_of_takeGranted {effect : Ticket → List Byte → State → State} {c : ListClass}
    (e : takeGranted k p s effect = .next t) (hc : listClass k = some c)
    (h : ∀ c b u, (effect c b u).cueTable = u.cueTable) : t.cueTable = s.cueTable :=
  of_takeGranted (P := fun u => u.cueTable = s.cueTable) e hc rfl fun _ _ =>
    (h _ _ _).trans (afterGrant_cueTable c p s)

end Guards

/-! ### Operations that leave the table -/

section Left

variable (s : State) (p : Port)

@[simp] theorem loadLease_cueTable : (loadLease p s).cueTable = s.cueTable := rfl
@[simp] theorem clearCleanup_cueTable : (clearCleanup p s).cueTable = s.cueTable := rfl
@[simp] theorem takeSelEdge_cueTable : (takeSelEdge p s).cueTable = s.cueTable := rfl
@[simp] theorem takeFaultEdge_cueTable : (takeFaultEdge s).cueTable = s.cueTable := rfl
@[simp] theorem configure_cueTable (w : ConfigWrite) : (configure w s).cueTable = s.cueTable := rfl
@[simp] theorem setDrop_cueTable (d : DropReason) : (setDrop p d s).cueTable = s.cueTable := rfl
@[simp] theorem withdraw_cueTable : (withdraw p s).cueTable = s.cueTable := rfl

@[simp] theorem phaseCheck_cueTable : (phaseCheck s).cueTable = s.cueTable :=
  (phaseCheck_changes s).2 .cueTable (by decide)

@[simp] theorem emptyRunCheck_cueTable : (emptyRunCheck s).cueTable = s.cueTable := by
  rcases emptyRunCheck_cases s with e | e <;> simp [e]

@[simp] theorem lapsePort_cueTable : (lapsePort p s).cueTable = s.cueTable := by simp [lapsePort]

@[simp] theorem departureCheck_cueTable (t : Ticket) : (departureCheck t s).cueTable = s.cueTable := by
  unfold departureCheck
  split
  · simp
  · split
    · simp
    · split <;> simp

@[simp] theorem completeDetach_cueTable (t : Ticket) : (completeDetach t s).cueTable = s.cueTable := by
  unfold completeDetach
  dsimp only
  split
  · simp
  · split <;> simp

@[simp] theorem completeCleanup_cueTable : (completeCleanup p s).cueTable = s.cueTable := by
  unfold completeCleanup
  split
  · simp
  · split
    · simp
    · split <;> simp

@[simp] theorem resumeWaiter_cueTable (w : Option HaltWaiter) : (resumeWaiter w s).cueTable = s.cueTable := by
  unfold resumeWaiter
  split <;> simp

@[simp] theorem claimLine_cueTable (t : Ticket) (l : Line) (wait : Bool) :
    (claimLine t l wait s).cueTable = s.cueTable := by
  unfold claimLine
  dsimp only
  split
  · simp
  · iterate 3
      split
      · simp
    simp

@[simp] theorem decideRelease_cueTable (j : ReleaseJob) : (decideRelease p j s).cueTable = s.cueTable := by
  unfold decideRelease
  dsimp only
  split
  · simp
  · split <;> simp

@[simp] theorem finishRelease_cueTable (j : ReleaseJob) : (finishRelease p j s).cueTable = s.cueTable := by
  unfold finishRelease
  dsimp only
  split <;> simp

@[simp] theorem takeBytes_cueTable (bytes : List Byte) : (takeBytes p bytes s).cueTable = s.cueTable := by
  have loaded (u : State) : (reloadLease p u).cueTable = u.cueTable := by
    unfold reloadLease; split <;> simp
  have repeated (a : LastAccepted) (u : State) : (duplicate p a u).cueTable = u.cueTable := by
    unfold duplicate withdrawIfFull
    split
    · simp
    · split
      · split <;> simp
      · simp
  have queued (r : Received) (u : State) : (queueRequest p r u).cueTable = u.cueTable := by
    unfold queueRequest; split <;> simp
  unfold takeBytes acceptRequest
  split
  · rfl
  · split
    · simp
    · dsimp only
      split
      · exact loaded s
      · split <;> simp [loaded, repeated, queued]

end Left

end Sys2Proof.Machine

namespace Sys2Proof

/-- The commands that may change the cue table. -/
def Instr.changesTable : Instr → Bool
  | .deviceReset _ | .addCue _ | .cancelCue _ | .stage _ | .unstage _ | .openSet _ | .commitSet _ | .abandonSet _
  | .release _ | .detach _ | .lapsePurge _ | .haltPurge | .occurrence | .commitTimeExpiry _ | .openingNotice _ => true
  | _ => false

end Sys2Proof

namespace Sys2Proof.Machine

/-- Every other command leaves the table as it is. -/
theorem exec_cueTable {c : Instr} {s t : State} (hc : c.changesTable = false) (e : exec c s = .next t) :
    t.cueTable = s.cueTable := by
  cases c with
  | deviceReset | addCue | cancelCue | stage | unstage | openSet | commitSet | abandonSet | release | detach
  | lapsePurge | haltPurge | occurrence | commitTimeExpiry | openingNotice => cases hc
  | resetEnd =>
    obtain rfl := Host.Outcome.next.inj e
    split
    · dsimp only
      split <;> simp
    · rfl
  | refclkPeriodEnd pins => rcases execRefclkPeriodEnd_cases e with ⟨_, rfl⟩ | rfl <;> rfl
  | tbStep => rcases execTbStep_cases e with ⟨_, rfl⟩ | rfl <;> rfl
  | faultLow =>
    refine cueTable_of_whenLive (show execFaultLow s = .next t from e) ?_
    split
    · split <;> simp
    · rfl
  | faultHigh => refine cueTable_of_whenLive (show execFaultHigh s = .next t from e) ?_; split <;> simp
  | frameStart p => refine cueTable_of_whenLive (show execFrameStart p s = .next t from e) ?_; split <;> simp
  | frameEnd p sdi =>
    refine cueTable_of_whenLive (show execFrameEnd p sdi s = .next t from e) ?_
    split
    · split <;> simp [endFrame]
    · rfl
  | presentRequest p => refine cueTable_of_whenLive (show execPresentRequest p s = .next t from e) ?_; split <;> simp
  | replyArrival p =>
    refine cueTable_of_whenLive (show execReplyArrival p s = .next t from e) ?_
    split
    · rfl
    · split
      · simp
      · split <;> simp
  | eventPosted p => refine cueTable_of_whenLive (show execEventPosted p s = .next t from e) ?_; split <;> simp
  | badKind p =>
    refine cueTable_of_whenLive (show execBadKind p s = .next t from e) ?_
    split
    · split <;> simp
    · rfl
  | portUnitNotAttached p =>
    refine cueTable_of_whenLive (show execPortUnitNotAttached p s = .next t from e) ?_
    split
    · split <;> simp
    · rfl
  | readTime p => exact cueTable_of_takeDirect (show execReadTime p s = .next t from e) fun c b u => rfl
  | readEvents p =>
    refine cueTable_of_takeDirect (show execReadEvents p s = .next t from e) fun c b u => ?_
    unfold readEvents
    split <;> simp
  | ackEvents p =>
    refine cueTable_of_takeDirect (show execAckEvents p s = .next t from e) fun c b u => ?_
    unfold ackEvents
    split <;> simp
  | attach p =>
    refine cueTable_of_takeDirect (show execAttach p s = .next t from e) fun c b u => ?_
    unfold attach
    split <;> simp
  | writeConfig p =>
    refine cueTable_of_takeDirect (show execWriteConfig p s = .next t from e) fun c b u => ?_
    unfold writeConfig
    iterate 3
      split
      · simp
    split
    · simp
    · simp
    · split <;> simp
  | readConfig p =>
    refine cueTable_of_takeDirect (show execReadConfig p s = .next t from e) fun c b u => ?_
    unfold readConfig
    split
    · simp
    · split <;> simp
  | confirm p =>
    refine cueTable_of_takeDirect (show execConfirm p s = .next t from e) fun c b u => ?_
    unfold confirm
    iterate 5
      split
      · simp
    simp
  | haltVote p =>
    refine cueTable_of_takeDirect (show execHaltVote p s = .next t from e) fun c b u => ?_
    unfold haltVote
    split
    · simp
    · dsimp only
      split <;> simp
  | claim p =>
    refine cueTable_of_takeDirect (show execClaim p s = .next t from e) fun c b u => ?_
    unfold claim
    iterate 2
      split
      · simp
    split <;> simp
  | queryLine p =>
    refine cueTable_of_takeDirect (show execQueryLine p s = .next t from e) fun c b u => ?_
    unfold queryLine
    split
    · simp
    · split <;> simp
  | trip p => refine cueTable_of_takeDirect (show execTrip p s = .next t from e) fun c b u => ?_; split <;> simp
  | clearTrip p =>
    refine cueTable_of_takeDirect (show execClearTrip p s = .next t from e) fun c b u => ?_
    split
    · simp
    · split <;> simp
  | queryCue p =>
    refine cueTable_of_takeGranted (show execQueryCue p s = .next t from e) rfl fun c b u => ?_
    unfold queryCue onOwnedCue
    split
    · simp
    · split
      · simp
      · split <;> simp
  | releaseAtClaimUnit p =>
    refine cueTable_of_whenLive (show execReleaseAtClaimUnit p s = .next t from e) ?_
    split <;> simp
  | safeLevelDrive h =>
    refine cueTable_of_whenLive (show execSafeLevelDrive h s = .next t from e) ?_
    cases h <;> dsimp only <;> split <;> simp
  | claimTransfer h =>
    refine cueTable_of_whenLive (show execClaimTransfer h s = .next t from e) ?_
    cases h with
    | release p => dsimp only; split <;> simp
    | departure p why => dsimp only; split <;> simp
    | halt => rfl
  | portReleaseStart p why =>
    refine cueTable_of_whenLive (show execPortReleaseStart p why s = .next t from e) ?_
    split
    · split <;> simp
    · rfl
  | haltRelease => refine cueTable_of_whenLive (show execHaltRelease s = .next t from e) ?_; split <;> simp
  | detachCompletion p =>
    refine cueTable_of_whenLive (show execDetachCompletion p s = .next t from e) ?_
    split <;> simp
  | haltCompletion => refine cueTable_of_whenLive (show execHaltCompletion s = .next t from e) ?_; split <;> simp
  | lapse p => refine cueTable_of_whenLive (show execLapse p s = .next t from e) ?_; split <;> simp
  | lapseCleanupCompletion p =>
    refine cueTable_of_whenLive (show execLapseCleanupCompletion p s = .next t from e) ?_
    split <;> simp
  | pulseEndExpiry l => refine cueTable_of_whenLive (show execPulseEndExpiry l s = .next t from e) ?_; split <;> simp
  | holdoffExpiry g =>
    refine cueTable_of_whenLive (show execHoldoffExpiry g s = .next t from e) ?_
    split
    · split <;> simp
    · rfl

end Sys2Proof.Machine
end

section
/-! PROOFS. The commands that change the cue table: each changes it as `CueTable.Change` says. -/

namespace Sys2Proof.Machine

/-! ### Sets, frees and purges (R17, R38 to R41, R76) -/

namespace CueTable

variable (now : Time) (ct : CueTable)

theorem putSet_moves (k : SetId) (x : CommitSet) : ct.Moves now (ct.putSet k x) := (Move.sets _).once

theorem leaveSet_moves (k : Option SetId) : ct.Moves now (ct.leaveSet k) := by
  cases k with
  | none => exact .refl now ct
  | some k => exact (Move.sets _).once

theorem joinSet_moves (c : Cue) (k : Option SetId) : ct.Moves now (ct.joinSet c k) := by
  unfold joinSet
  cases k with
  | none => exact .refl now ct
  | some k =>
    dsimp only
    split
    · exact .refl now ct
    · exact (Move.sets _).once

@[simp] theorem joinSet_cue (c : Cue) (k : Option SetId) (i : SlotId) : (ct.joinSet c k).cue i = ct.cue i := by
  unfold joinSet
  cases k with
  | none => rfl
  | some k => dsimp only; split <;> rfl

theorem freeSlot_moves (i : SlotId) : ct.Moves now (ct.freeSlot i) := by
  cases h : ct.cue i with
  | none => rw [ct.freeSlot_of_free i h]; exact .refl now ct
  | some c => exact (Move.free h).once

theorem frees_moves (is : List SlotId) : ct.Moves now (is.foldl CueTable.freeSlot ct) := by
  induction is generalizing ct with
  | nil => exact .refl now ct
  | cons i rest ih => exact (ct.freeSlot_moves now i).trans (ih _)

theorem purge_moves (has : Cue → Bool) : ct.Moves now (ct.purge has) := ct.frees_moves now _

theorem portPurge_moves (p : Port) : ct.Moves now (ct.portPurge p) := (ct.purge_moves now _).trans (Move.sets _).once

theorem haltPurge_moves : ct.Moves now ct.haltPurge := (ct.purge_moves now _).trans (Move.sets _).once

theorem discard_moves (i : SlotId) : ct.Moves now (ct.discard i) := by
  unfold discard
  split
  · next c h => exact (Move.store h c.reworked_unstaged fun _ => rfl).once
  · exact .refl now ct

theorem discards_moves (is : List SlotId) : ct.Moves now (is.foldl CueTable.discard ct) := by
  induction is generalizing ct with
  | nil => exact .refl now ct
  | cons i rest ih => exact (ct.discard_moves now i).trans (ih _)

theorem freeSetWhole_moves (k : SetId) : ct.Moves now (ct.freeSetWhole k) :=
  (ct.discards_moves now _).trans (putSet_moves now _ k .free)

/-! ### The release of a deferred list (R62, R63) -/

/-- The slots of a deferred list leave it one after another, each with its cue, or alone when it is FREE. -/
theorem releases_moves (g : Group) (is : List SlotId) (h : look ct.deferred g = is) :
    ct.Moves now (is.foldl (CueTable.releaseOne now) { ct with deferred := put ct.deferred g [] }) := by
  induction is generalizing ct with
  | nil =>
    have same : put ct.deferred g [] = ct.deferred := by rw [← h, put_look_self]
    rw [List.foldl_nil, same]
    exact .refl now ct
  | cons i rest ih =>
    rw [List.foldl_cons]
    cases hc : ct.cue i with
    | none =>
      have alone : ({ ct with deferred := put ct.deferred g [] } : CueTable).releaseOne now i
          = { ct with deferred := put ct.deferred g [] } := by
        have empty : ({ ct with deferred := put ct.deferred g [] } : CueTable).cue i = none := hc
        simp [releaseOne, empty]
      have left := ih { ct with deferred := put ct.deferred g rest } (look_put_self _ _ _)
      rw [put_put] at left
      rw [alone]
      exact (Move.drop h hc).once.trans left
    | some c =>
      have released : ({ ct with deferred := put ct.deferred g [] } : CueTable).releaseOne now i
          = ({ ct with deferred := put ct.deferred g [] } : CueTable).enter now i (c.released now) := by
        have stands : ({ ct with deferred := put ct.deferred g [] } : CueTable).cue i = some c := hc
        simp [releaseOne, stands]
      have left := ih (({ ct with deferred := put ct.deferred g rest } : CueTable).enter now i (c.released now))
        (look_put_self _ _ _)
      rw [enter_deferred, put_put] at left
      rw [released]
      exact (Move.release h hc).once.trans left

theorem releaseGroup_moves (g : Group) : ct.Moves now (ct.releaseGroup now g) := ct.releases_moves now g _ rfl

end CueTable

/-! ### Continuation (R53 to R59) -/

section Continuing

variable {ct : CueTable} {i : SlotId} {rest : List SlotId} {c₀ c d : Cue} {s : State}

/-- Freeing a slot taken off the head of the pending list frees it from the list as it was. -/
theorem freeSlot_taken (first : ct.pendingList = i :: rest) (stands : ct.cue i = some c₀) :
    ({ ct with pendingList := rest } : CueTable).freeSlot i = ct.freeSlot i := by
  have stands' : ({ ct with pendingList := rest } : CueTable).cue i = some c₀ := stands
  have same : ({ ct with pendingList := rest } : CueTable).unlistAll i = ct.unlistAll i := by
    simp [CueTable.unlistAll, first]
  simp only [CueTable.freeSlot, stands, stands', same]
  rfl

/-- The catch-up rule frees the slot, or goes on with what skipping leaves of the cue, and posts (R58). -/
theorem catchUpSkip_table {P : CueTable → Prop} {goOn : Cue → State → State} (hf : P (s.cueTable.freeSlot i))
    (hgo : (c.skip s.now).2 = false → ∀ u : State, u.cueTable = s.cueTable → u.now = s.now →
      P (goOn (c.skip s.now).1 u).cueTable) : P (catchUpSkip i c goOn s).cueTable := by
  obtain ⟨_, table, now⟩ := postMissed_spec s i c
  unfold catchUpSkip
  dsimp only
  split
  · rw [(retire_spec _ i _).2, table]
    exact hf
  · next on => exact hgo (Bool.eq_false_iff.2 on) _ table now

/-- A cue taken off the head of the pending list and continued is freed, or enters the list again. -/
theorem continueCue_move (table : s.cueTable = { ct with pendingList := rest }) (first : ct.pendingList = i :: rest)
    (stands : ct.cue i = some c₀) (reworked : c₀.Reworked c) : ct.Move s.now (continueCue i c s).cueTable := by
  have freed : ct.Move s.now (s.cueTable.freeSlot i) := by
    rw [table, freeSlot_taken first stands]
    exact .free stands
  have enters {d : Cue} (h : c₀.Reworked d) {u : State} (ht : u.cueTable = s.cueTable) (hn : u.now = s.now) :
      ct.Move s.now (enterPending i d u).cueTable := by
    unfold enterPending
    rw [setCueTable_cueTable, ht, hn, table]
    exact .again first stands h
  unfold continueCue
  dsimp only
  split
  · rw [(retire_spec s i _).2]
    exact freed
  · next left =>
    have kept := (reworked.trans c.reworked_promote).trans (Cue.reworked_decrement (Bool.eq_false_iff.2 left))
    have next := kept.trans (Cue.reworked_advanced _ c.promote.2)
    unfold advance
    dsimp only
    split
    · exact enters next rfl rfl
    · split
      · exact catchUpSkip_table freed fun on u ht hn => enters (next.trans (Cue.reworked_skip on)) ht hn
      · exact enters (next.trans (Cue.reworked_broughtDue _ s.now)) rfl rfl

/-! ### Occurrences (R43 to R51) -/

/-- An apply request is deferred by the group of its line (R92, R97). -/
theorem group_of_deferred {o : OutputUnit} {now : Time} {l : Line} {a : Action} {w : Option Half} {g : Group}
    (h : (o.apply now l a w).2 = .deferred g) : (o.line l).group = some g := by
  have turned (pe : Option Time) (k : (o.tryActivate now l pe).2 = .deferred g) : (o.line l).group = some g := by
    unfold OutputUnit.tryActivate at k
    split at k
    · cases k
    · unfold OutputUnit.turnAway at k
      dsimp only at k
      split at k
      · cases k
      · next x hx =>
        split at k
        · cases k
        · cases k; exact hx
  unfold OutputUnit.apply at h
  dsimp only at h
  split at h
  case h_2 | h_3 | h_4 => exact turned _ h
  all_goals cases h

/-- The occurrence of a cue taken off the head of the pending list: a move, or the cue joins the deferred list of its
line's group. -/
theorem occur_change (table : s.cueTable = { ct with pendingList := rest }) (first : ct.pendingList = i :: rest)
    (stands : ct.cue i = some c) : ct.Move s.now (occur i c s).cueTable
      ∨ ∃ g, (s.output.line c.line).group = some g
          ∧ (occur i c s).cueTable = ({ ct with pendingList := rest } : CueTable).defer s.now i c g := by
  have continues {u : State} {d : Cue} (ht : u.cueTable = s.cueTable) (hn : u.now = s.now) (h : c.Reworked d) :
      ct.Move s.now (continueCue i d u).cueTable := by
    rw [← hn]
    exact continueCue_move (ht.trans table) first stands h
  have counted (missed : Half) : c.Reworked { c with missed := missed } := c.reworked_moved c.gridDue c.effDue missed
  unfold occur
  split
  · refine .inl ?_
    rw [setCueTable_cueTable, table, freeSlot_taken first stands]
    exact .free stands
  · split
    · obtain ⟨_, ht, hn⟩ := postMissed_spec s i c
      exact .inl (continues ht hn (counted _))
    · dsimp only
      unfold takeAnswer
      split
      · refine .inl (continues ?_ ?_ (counted 0))
        · split <;> simp [postCue]
        · split <;> simp [postCue]
      · exact .inl (continues (by simp [postCue]) (by simp [postCue]) (.refl c))
      · next g waits =>
        refine .inr ⟨g, group_of_deferred waits, ?_⟩
        rw [setCueTable_cueTable, setOutput_cueTable, setOutput_now, table]

/-- The cue due stands at the head of the pending list. -/
theorem dueCue_first (h : s.dueCue = some (i, c)) : s.cueTable.pendingList = i :: s.cueTable.pendingList.tail := by
  unfold State.dueCue at h
  split at h
  · cases h
  · next j l e =>
    split at h
    · split at h
      · cases h; rw [e]; rfl
      · cases h
    · cases h

theorem execOccurrence_change {t : State} (e : execOccurrence s = .next t) : s.cueTable.Moves s.now t.cueTable
    ∨ ∃ i rest c g, s.cueTable.pendingList = i :: rest ∧ s.cueTable.cue i = some c
        ∧ (s.output.line c.line).group = some g
        ∧ t.cueTable = ({ s.cueTable with pendingList := rest } : CueTable).defer s.now i c g := by
  refine of_whenLive (P := fun u => s.cueTable.Moves s.now u.cueTable ∨ ∃ i rest c g,
    s.cueTable.pendingList = i :: rest ∧ s.cueTable.cue i = some c ∧ (s.output.line c.line).group = some g
      ∧ u.cueTable = ({ s.cueTable with pendingList := rest } : CueTable).defer s.now i c g) e (.inl (.refl _ _)) ?_
  split
  · next i c due =>
    have first := dueCue_first due
    have stands := dueCue_cue due
    rcases occur_change (s := s.setCueTable { s.cueTable with pendingList := s.cueTable.pendingList.tail }) rfl first
      stands with move | ⟨g, member, waits⟩
    · exact .inl move.once
    · exact .inr ⟨i, _, c, g, first, stands, member, waits⟩
  · exact .inl (.refl _ _)

end Continuing

/-! ### Commit-time expiry (R80 to R83) -/

section Expiry

variable (k : SetId) (i : SlotId) (s : State)

/-- A shift moves a cue that stands in its slot, with fields that may be newer than the slot's (R82). -/
theorem shiftCue_moves {c₀ c : Cue} (shift : Triple) (stands : s.cueTable.cue i = some c₀) (reworked : c₀.Reworked c)
    (due : c.due = c₀.due) : s.cueTable.Moves s.now (shiftCue i c shift s).cueTable := by
  have moved : c₀.Reworked { c with gridDue := shifted c.gridDue shift } :=
    reworked.trans (c.reworked_moved _ c.effDue c.missed)
  have stored : s.cueTable.Moves s.now (storeCue i c s).cueTable :=
    (CueTable.Move.store stands reworked fun _ => due).once
  have stands' : (storeCue i c s).cueTable.cue i = some c := s.cueTable.setCue_cue_self i c
  have moved' : c.Reworked { c with gridDue := shifted c.gridDue shift } := c.reworked_moved _ c.effDue c.missed
  unfold shiftCue
  dsimp only
  split
  · next hs he =>
    refine (CueTable.Move.store stands moved fun _ => ?_).once
    rw [← due]
    simp [Cue.due, he]
  · next hs he =>
    have pending : c₀.state = .pending := reworked.state ▸ hs
    split
    · exact (CueTable.Move.replace stands pending moved).once
    · split
      · refine stored.trans
          (catchUpSkip_table (s := storeCue i c s) (CueTable.freeSlot_moves _ _ i) fun on u ht hn => ?_)
        unfold replacePending
        rw [setCueTable_cueTable, ht, hn]
        exact (CueTable.Move.replace stands' hs (moved'.trans (Cue.reworked_skip on))).once
      · exact (CueTable.Move.replace stands pending (moved.trans (Cue.reworked_broughtDue _ s.now))).once
  · next hs =>
    have waits : c₀.state ≠ .pending := fun e => by rw [← reworked.state, hs] at e; cases e
    have waits' : c.state ≠ .pending := fun e => by rw [hs] at e; cases e
    split
    · exact (CueTable.Move.store stands moved fun e => absurd e waits).once
    · split
      · refine stored.trans
          (catchUpSkip_table (s := storeCue i c s) (CueTable.freeSlot_moves _ _ i) fun on u ht hn => ?_)
        unfold storeCue
        rw [setCueTable_cueTable, ht]
        exact (CueTable.Move.store stands' (moved'.trans (Cue.reworked_skip on)) fun e => absurd e waits').once
      · exact (CueTable.Move.store stands moved fun e => absurd e waits).once

theorem applyMember_moves : s.cueTable.Moves s.now (applyMember s i).cueTable := by
  unfold applyMember
  split
  · exact .refl _ _
  · next c stands =>
    split
    · exact (CueTable.Move.store stands c.reworked_unstaged fun _ => rfl).once
    · next r hr =>
      dsimp only
      split
      · exact (CueTable.Move.store stands (Cue.reworked_applyRecord hr) fun _ => rfl).once
      · exact shiftCue_moves i s _ stands (Cue.reworked_applyRecord hr) rfl

theorem applyMembers_moves (is : List SlotId) : s.cueTable.Moves s.now (is.foldl applyMember s).cueTable := by
  induction is generalizing s with
  | nil => exact .refl _ _
  | cons i rest ih =>
    have later := ih (applyMember s i)
    rw [(applyMember_keeps s i).now] at later
    exact (applyMember_moves i s).trans later

theorem applySet_moves (owner : Port) (n : Nat) : s.cueTable.Moves s.now (applySet k owner n s).cueTable := by
  unfold applySet
  rw [post_cueTable, setCueTable_cueTable]
  exact (applyMembers_moves s _).trans (CueTable.putSet_moves _ _ k .free)

end Expiry

/-! ### List-class commands (chapters 2 and 4) -/

section Listing

variable {s t : State} {p : Port}

/-- A width that fits its action is present exactly with PULSE and is not 0 (R28). -/
theorem widthFits_iff (a : Action) (w : Option Half) :
    widthFits a w = true ↔ (w.isSome = true ↔ a = .pulse) ∧ w ≠ some 0 := by
  unfold widthFits
  cases w with
  | none => simp
  | some n => simp

/-- An admitted cue has fields that belong together (R28). -/
theorem parseAddCue_consistent {b : List Byte} {q : CueRequest} (h : parseAddCue b = some q) (p : Port) (now : Time) :
    (q.cue p now).Consistent := by
  unfold parseAddCue at h
  dsimp only at h
  split at h
  · rw [Option.ite_none_left_eq_some, Option.some.injEq] at h
    obtain ⟨passed, rfl⟩ := h
    simp only [Bool.or_eq_true, Bool.and_eq_true, beq_iff_eq, not_or, not_and, Bool.not_eq_true', Bool.not_eq_false,
      decide_eq_true_eq] at passed
    obtain ⟨⟨⟨⟨_, width⟩, period⟩, remaining⟩, together⟩ := passed
    obtain ⟨exact, nonzero⟩ := (widthFits_iff _ _).1 width
    refine ⟨exact, nonzero, period, fun counts => ?_, remaining, fun r e => by cases e⟩
    exact Option.isSome_iff_ne_none.2 fun absent => together counts (Option.isNone_iff_eq_none.2 absent)
  · cases h

/-- A record that a STAGE makes fits the cue it is staged for (R70). -/
theorem fits_of_check {f : StageBody} {c : Cue} {r : StagedRecord} {k : Option SetId} (h : f.check c = some (r, k)) :
    r.Fits c := by
  unfold StageBody.check at h
  dsimp only at h
  split at h
  · next a' k' action _ =>
    rw [Option.ite_none_left_eq_some, Option.some.injEq, Prod.mk.injEq] at h
    obtain ⟨passed, rfl, _⟩ := h
    simp only [Bool.or_eq_true, Bool.not_eq_true', not_or, Bool.not_eq_false, Bool.not_eq_true] at passed
    obtain ⟨⟨present, width⟩, remaining⟩ := passed
    have chosen : a'.isNone = f.action.isNone := by
      cases hf : f.action with
      | none => simp only [hf, Option.some.injEq] at action; simp [← action]
      | some b =>
        simp only [hf] at action
        obtain ⟨a, _, rfl⟩ := Option.map_eq_some_iff.1 action
        simp
    unfold StageBody.widthFits at width
    unfold StageBody.remainingFits at remaining
    refine ⟨?_, fun a ha => ?_, fun alone wide => ?_, ?_, fun n hn nonzero => ?_⟩
    · rw [StageBody.isEmpty, ← chosen] at present
      simpa only [← Option.not_isSome, ← Bool.not_or, Bool.not_eq_false'] using present
    · dsimp only at ha
      subst ha
      exact ((widthFits_iff a f.width).1 width).1.symm
    · dsimp only at alone wide
      subst alone
      obtain ⟨w, hw⟩ := Option.isSome_iff_exists.1 wide
      simp only [hw, Bool.and_eq_true, beq_iff_eq] at width
      exact width.1
    · dsimp only
      cases a' with
      | some a => exact ((widthFits_iff a f.width).1 width).2
      | none =>
        intro zero
        simp [zero] at width
    · dsimp only at hn ⊢
      simp only [hn, Bool.or_eq_true, beq_iff_eq, nonzero, false_or] at remaining
      cases hp : f.period with
      | none => exact .inr ⟨rfl, by simpa [hp] using remaining⟩
      | some q => exact .inl ⟨q, rfl, by simpa [hp] using remaining⟩
  · cases h

/-- A record staged beside a cue it fits (R71). -/
theorem stageRecord_moves {ct : CueTable} {i : SlotId} {c : Cue} {r : StagedRecord} (now : Time)
    (stands : ct.cue i = some c) (fits : r.Fits c) (k : Option SetId) : ct.Moves now (ct.stageRecord i c r k) := by
  have stands' : (ct.joinSet c k).cue i = some c := by rw [CueTable.joinSet_cue, stands]
  have reworked : c.Reworked { c with staged := some r, set := k } :=
    ⟨rfl, rfl, rfl, rfl, fun h => ⟨h.width, h.widthNonzero, h.period, h.remaining, h.remainingNonzero,
      fun r' e => by cases e; exact fits.of_same rfl rfl⟩⟩
  exact (ct.joinSet_moves now c k).trans (CueTable.Move.store stands' reworked fun _ => rfl).once

/-- A granted command is answered, and beside that at most moves the table. -/
def AnswersMoving (c : Ticket) (s t : State) : Prop :=
  ∃ st b ct, s.cueTable.Moves s.now ct ∧ t = answer c st b (s.setCueTable ct)

theorem AnswersMoving.of_moves {c : Ticket} {ct : CueTable} (st : Status) (b : List Byte)
    (h : s.cueTable.Moves s.now ct) : AnswersMoving c s (answer c st b (s.setCueTable ct)) := ⟨st, b, ct, h, rfl⟩

theorem AnswersMoving.of_answer (c : Ticket) (st : Status) (b : List Byte) (s : State) :
    AnswersMoving c s (answer c st b s) := ⟨st, b, s.cueTable, .refl _ _, rfl⟩

theorem AnswersMoving.moves {c : Ticket} (h : AnswersMoving c s t) : s.cueTable.Moves s.now t.cueTable := by
  obtain ⟨st, b, ct, moves, rfl⟩ := h
  exact moves

/-- A command on the owner's cue is refused, or has its effect on a cue that stands (R34). -/
theorem onOwnedCue_answers {c : Ticket} {body : List Byte} {effect : SlotId → Cue → State}
    (h : ∀ i d, s.cueTable.cue i = some d → AnswersMoving c s (effect i d)) :
    AnswersMoving c s (onOwnedCue c body s effect) := by
  unfold onOwnedCue
  split
  · exact .of_answer c _ _ s
  · next i d live =>
    split
    · exact h i d (live_cue live)
    · exact .of_answer c _ _ s

section Answers

variable (c : Ticket) (b : List Byte) (u : State)

theorem cancelCue_answers : AnswersMoving c u (cancelCue c b u) := by
  unfold cancelCue
  split
  · exact .of_answer c _ _ u
  · exact onOwnedCue_answers fun i d _ => .of_moves _ _ (u.cueTable.freeSlot_moves _ i)

theorem queryCue_answers : AnswersMoving c u (queryCue c b u) := by
  unfold queryCue
  split
  · exact .of_answer c _ _ u
  · exact onOwnedCue_answers fun i d _ => .of_answer c _ _ u

theorem stageCue_answers : AnswersMoving c u (stageCue c b u) := by
  unfold stageCue
  split
  · exact .of_answer c _ _ u
  · refine onOwnedCue_answers fun i d stands => ?_
    split
    · exact .of_answer c _ _ u
    · next r k made =>
      iterate 2
        split
        · exact .of_answer c _ _ u
      exact .of_moves _ _ (stageRecord_moves _ stands (fits_of_check made) k)

theorem unstageCue_answers : AnswersMoving c u (unstageCue c b u) := by
  unfold unstageCue
  split
  · exact .of_answer c _ _ u
  · refine onOwnedCue_answers fun i d stands => ?_
    split
    · have stands' : (u.cueTable.leaveSet d.set).cue i = some d := by rw [CueTable.leaveSet_cue, stands]
      exact .of_moves _ _ ((u.cueTable.leaveSet_moves _ d.set).trans
        (CueTable.Move.store stands' d.reworked_unstaged fun _ => rfl).once)
    · exact .of_answer c _ _ u

theorem openSet_answers : AnswersMoving c u (openSet c b u) := by
  unfold openSet
  iterate 2
    split
    · exact .of_answer c _ _ u
  exact .of_moves _ _ (u.cueTable.putSet_moves _ _ _)

theorem commitSet_answers : AnswersMoving c u (commitSet c b u) := by
  unfold commitSet
  iterate 2
    split
    · exact .of_answer c _ _ u
  split
  · exact .of_answer c _ _ u
  · exact .of_answer c _ _ u
  · iterate 2
      split
      · exact .of_answer c _ _ u
    exact .of_moves _ _ (u.cueTable.putSet_moves _ _ _)

theorem abandonSet_answers : AnswersMoving c u (abandonSet c b u) := by
  unfold abandonSet
  iterate 4
    split
    · exact .of_answer c _ _ u
  exact .of_moves _ _ (u.cueTable.freeSetWhole_moves _ _)

end Answers

/-- ADD_CUE is refused, or in RUN puts a new cue of the port on a line that it holds into a FREE slot (R26 to R32). -/
theorem addCue_cases (c : Ticket) (b : List Byte) (s : State) : (∃ st, addCue c b s = answer c st [] s)
    ∨ ∃ (q : CueRequest) (i : SlotId) (b' : List Byte), s.session.phase = .run
        ∧ s.claims.holder q.line = some c.port ∧ s.cueTable.cue i = none ∧ (q.cue c.port s.now).Consistent
        ∧ addCue c b s = answer c .ok b' (s.setCueTable (s.cueTable.enter s.now i (q.cue c.port s.now))) := by
  unfold addCue
  split
  · exact .inl ⟨_, rfl⟩
  · next checked =>
    split
    · exact .inl ⟨_, rfl⟩
    · next q parsed =>
      split
      · exact .inl ⟨_, rfl⟩
      · next admitted =>
        split
        · exact .inl ⟨_, rfl⟩
        · next i free =>
          have run : s.session.phase = .run := by
            cases h : s.session.phase with
            | run => rfl
            | setup => simp [listCheck, h] at checked
          have holds : s.claims.holder q.line = some c.port := by
            by_contra not
            simp [refuseCue, not] at admitted
          exact .inr ⟨q, i, _, run, holds, s.cueTable.lowestFree_spec free, parseAddCue_consistent parsed _ _, rfl⟩

theorem execAddCue_change (e : execAddCue p s = .next t) : s.cueTable.Change s.now t.cueTable := by
  refine of_takeGranted (P := fun u => s.cueTable.Change s.now u.cueTable) e rfl (.moves (.refl _ _)) fun r _ => ?_
  rcases addCue_cases (s.ticket p r) r.body (afterGrant .normal p s) with
    ⟨st, refused⟩ | ⟨q, i, b, _, _, free, fit, enters⟩
  · rw [refused]; exact .moves (.refl _ _)
  · rw [enters]; exact .newCue free fit

/-- Of a granted command: a table that moves, judged from the state after the grant. -/
theorem moves_of_takeGranted {k : CommandKind} {effect : Ticket → List Byte → State → State} {c : ListClass}
    (e : takeGranted k p s effect = .next t) (hc : listClass k = some c)
    (h : ∀ (c : Ticket) (b : List Byte) (u : State), u.cueTable.Moves u.now (effect c b u).cueTable) :
    s.cueTable.Moves s.now t.cueTable :=
  of_takeGranted (P := fun u => s.cueTable.Moves s.now u.cueTable) e hc (.refl _ _) fun _ _ =>
    h _ _ (afterGrant c p s)

/-- Of an event: a table that moves. -/
theorem moves_of_whenLive {event : State → State} (e : whenLive s event = .next t)
    (h : s.cueTable.Moves s.now (event s).cueTable) : s.cueTable.Moves s.now t.cueTable :=
  of_whenLive (P := fun u => s.cueTable.Moves s.now u.cueTable) e (.refl _ _) h

theorem execRelease_moves (e : execRelease p s = .next t) : s.cueTable.Moves s.now t.cueTable := by
  refine moves_of_takeGranted e rfl fun c b u => ?_
  unfold releaseLine
  iterate 2
    split
    · exact .refl _ _
  split
  · exact u.cueTable.purge_moves _ _
  · exact .refl _ _

theorem execDetach_moves (e : execDetach p s = .next t) : s.cueTable.Moves s.now t.cueTable :=
  moves_of_takeGranted e rfl fun c _ u => u.cueTable.portPurge_moves _ c.port

theorem execLapsePurge_moves (e : execLapsePurge p s = .next t) : s.cueTable.Moves s.now t.cueTable := by
  refine moves_of_whenLive e ?_
  split
  · exact s.cueTable.portPurge_moves _ p
  · exact .refl _ _

theorem execHaltPurge_moves (e : execHaltPurge s = .next t) : s.cueTable.Moves s.now t.cueTable := by
  refine moves_of_whenLive e ?_
  split
  · exact s.cueTable.haltPurge_moves _
  · exact .refl _ _

theorem execCommitTimeExpiry_moves {k : SetId} (e : execCommitTimeExpiry k s = .next t) :
    s.cueTable.Moves s.now t.cueTable := by
  refine moves_of_whenLive e ?_
  split
  · split
    · exact .refl _ _
    · split
      · exact applySet_moves k s _ _
      · exact s.cueTable.freeSetWhole_moves _ k
  · exact .refl _ _
  · exact .refl _ _

theorem execOpeningNotice_moves {g : Group} (e : execOpeningNotice g s = .next t) :
    s.cueTable.Moves s.now t.cueTable := by
  refine moves_of_whenLive e ?_
  split
  · exact s.cueTable.releaseGroup_moves _ g
  · exact .refl _ _

end Listing

/-! ### Every command -/

/-- Every command but DEVICE_RESET changes the table as `CueTable.Change` says. -/
theorem exec_change {c : Instr} {s t : State} (hr : ∀ cause, c ≠ .deviceReset cause) (e : exec c s = .next t) :
    s.cueTable.Change s.now t.cueTable := by
  cases hc : c.changesTable with
  | false => rw [exec_cueTable hc e]; exact .moves (.refl _ _)
  | true =>
    cases c with
    | deviceReset cause => exact absurd rfl (hr cause)
    | addCue p => exact execAddCue_change e
    | cancelCue p => exact .moves (moves_of_takeGranted e rfl fun c b u => (cancelCue_answers c b u).moves)
    | stage p => exact .moves (moves_of_takeGranted e rfl fun c b u => (stageCue_answers c b u).moves)
    | unstage p => exact .moves (moves_of_takeGranted e rfl fun c b u => (unstageCue_answers c b u).moves)
    | openSet p => exact .moves (moves_of_takeGranted e rfl fun c b u => (openSet_answers c b u).moves)
    | commitSet p => exact .moves (moves_of_takeGranted e rfl fun c b u => (commitSet_answers c b u).moves)
    | abandonSet p => exact .moves (moves_of_takeGranted e rfl fun c b u => (abandonSet_answers c b u).moves)
    | release p => exact .moves (execRelease_moves e)
    | detach p => exact .moves (execDetach_moves e)
    | lapsePurge p => exact .moves (execLapsePurge_moves e)
    | haltPurge => exact .moves (execHaltPurge_moves e)
    | commitTimeExpiry k => exact .moves (execCommitTimeExpiry_moves e)
    | openingNotice g => exact .moves (execOpeningNotice_moves e)
    | occurrence =>
      rcases execOccurrence_change e with moves | ⟨i, rest, d, g, first, stands, _, waits⟩
      · exact .moves moves
      · rw [waits]; exact .defer g first stands
    | _ => cases hc

/-- DEVICE_RESET empties the table, or does nothing. -/
theorem execDeviceReset_cases {cause : ResetCause} {s t : State} (e : execDeviceReset cause s = .next t) :
    t = s.enterReset cause ∨ t = s := by
  unfold execDeviceReset at e
  split at e <;> cases e
  · exact .inl rfl
  · exact .inr rfl

@[simp] theorem reset_cue (i : SlotId) : CueTable.reset.cue i = none := by simp [CueTable.reset, CueTable.cue]

theorem listed_reset : CueTable.reset.Listed where
  pendingOnce := List.nodup_nil
  pendingExact i := by simp [CueTable.reset, CueTable.cue]
  deferredOnce g := by simp [CueTable.reset]
  deferredOnly g i m := by simp [CueTable.reset] at m
  deferredOne i c hc _ := by simp at hc

theorem ordered_reset (now : Time) : CueTable.reset.Ordered now where
  sorted := List.Pairwise.nil
  older i c hc := by simp at hc
  distinct i j c d hc _ _ := by simp at hc

theorem consistent_reset : CueTable.reset.Consistent := fun i c hc => by simp at hc

section Laws

variable {c : Instr} {s t : State}

theorem exec_listed (h : s.cueTable.Listed) (e : exec c s = .next t) : t.cueTable.Listed := by
  by_cases hr : ∃ cause, c = .deviceReset cause
  · obtain ⟨cause, rfl⟩ := hr
    rcases execDeviceReset_cases e with rfl | rfl
    · exact listed_reset
    · exact h
  · exact (exec_change (fun cause hc => hr ⟨cause, hc⟩) e).listed h

theorem exec_consistent (h : s.cueTable.Consistent) (e : exec c s = .next t) : t.cueTable.Consistent := by
  by_cases hr : ∃ cause, c = .deviceReset cause
  · obtain ⟨cause, rfl⟩ := hr
    rcases execDeviceReset_cases e with rfl | rfl
    · exact consistent_reset
    · exact h
  · exact (exec_change (fun cause hc => hr ⟨cause, hc⟩) e).consistent h

/-- The order is judged from now: a command that leaves TB keeps it by its moves, and a step of TB brings all dues
nearer. -/
theorem exec_ordered (hl : s.cueTable.Listed) (h : s.cueTable.Ordered s.now) (e : exec c s = .next t) :
    t.cueTable.Ordered t.now := by
  by_cases hr : ∃ cause, c = .deviceReset cause
  · obtain ⟨cause, rfl⟩ := hr
    rcases execDeviceReset_cases e with rfl | rfl
    · exact ordered_reset _
    · exact h
  · by_cases hs : c = .tbStep
    · subst hs
      rcases execTbStep_cases e with ⟨quiet, rfl⟩ | rfl
      · simp only [State.tickQuiet, Bool.and_eq_true, Bool.not_eq_true'] at quiet
        exact h.step hl fun i c => due_ne_of_quiet quiet.1.1.1.1
      · exact h
    · have only (cause : ResetCause) : c ≠ .deviceReset cause := fun hc => hr ⟨cause, hc⟩
      rw [exec_now only hs e]
      exact (exec_change only e).ordered hl h

end Laws

/-- What every command keeps of the table, a step keeps. -/
theorem step_of_exec {law : State → Prop} {s t : State}
    (one : ∀ (c : Instr) (u : State), law u → exec c u = .next t → law t)
    (queued : ∀ rest, law s → law (s.withPending rest)) (h : law s) (e : step s = .next t) : law t := by
  unfold step at e
  split at e
  · cases e; exact h
  · next c rest _ => exact one c _ (queued rest h) e

/-- Settles O30: each command changes the table by moves that keep lists and order, and a step of TB keeps the order of
dues that are all ahead. -/
theorem cueListsKept : Obligations.CueListsKept := by
  refine ⟨fun s t h e => ?_, fun s t hl h e => ?_⟩
  · exact step_of_exec (law := fun u => u.cueTable.Listed) (fun _ _ h e => exec_listed h e) (fun _ h => h) h e
  · exact (step_of_exec (law := fun u => u.cueTable.Listed ∧ u.cueTable.Ordered u.now)
      (fun _ _ h e => ⟨exec_listed h.1 e, exec_ordered h.1 h.2 e⟩) (fun _ h => h) ⟨hl, h⟩ e).2

/-- Settles O32: a cue admitted has fields that belong together, and a cue reworked keeps them so. -/
theorem cueFieldsKept : Obligations.CueFieldsKept := fun _ _ h e =>
  step_of_exec (law := fun u => u.cueTable.Consistent) (fun _ _ h e => exec_consistent h e) (fun _ h => h) h e

end Sys2Proof.Machine
end

section
/-! PROOFS. The law of work in progress, port by port: what it reads of a port is gathered in one record, so that a
command's effect on the law is its effect on a few such records (R18, R23, R38 to R41, R128, R130, R137, R138, R169,
R185). -/

namespace Sys2Proof.Machine

/-! ### What the law reads of a port -/

/-- What the law of work in progress reads of one port: of its port unit, of its leaf, of the claim unit's work for it,
and of what waits for a halt. -/
structure PortWork where
  state : PortState
  cleanup : Bool
  setAside : Bool
  epoch : Nat
  /-- tickets of the replies on their way -/
  produced : List Ticket
  presented : Bool
  purges : List PurgeRequest
  release : Option ReleaseJob
  late : List ReleaseJob
  detaching : Option PortRelease
  lapsing : Option PortRelease
  detachDone : List Ticket
  lapseDone : Bool
  /-- tickets of the port's replies that wait for a halt -/
  waiting : List Ticket
  /-- the port's lapse cleanup waits for a halt -/
  cleanupWaits : Bool

/-- The tickets of a port's replies that wait for a halt. -/
def ticketsFor (p : Port) (w : Option HaltWaiter) : List Ticket :=
  match w with
  | some (.vote t _) | some (.detach t) => if t.port = p then [t] else []
  | _ => []

/-- What the law reads of a port of the state. -/
def State.work (s : State) (p : Port) : PortWork :=
  { state := (s.port p).state, cleanup := (s.port p).cleanup, setAside := (s.port p).setAside
    epoch := (s.port p).epoch, produced := (s.port p).produced.map (·.1)
    presented := look s.arbiter.presented p, purges := look s.arbiter.purges p
    release := look s.claims.releases p, late := look s.claims.late p
    detaching := look s.claims.detaching p, lapsing := look s.claims.lapsing p
    detachDone := look s.claims.detachDone p, lapseDone := look s.claims.lapseDone p
    waiting := ticketsFor p s.session.haltWaiter, cleanupWaits := s.session.haltWaiter == some (.lapse p) }

/-- How many of some tickets belong to one run of a port's commands (R185). -/
def ofEpoch (e : Nat) (ts : List Ticket) : Nat := ts.countP (fun t => t.epoch == e)

namespace PortWork

variable (w : PortWork)

/-- How many replies the port's present run of commands has still to receive. -/
def owed : Nat :=
  ofEpoch w.epoch w.produced + ofEpoch w.epoch (w.release.map (·.ticket)).toList
    + ofEpoch w.epoch (w.detaching.bind (·.owes)).toList + ofEpoch w.epoch w.detachDone + ofEpoch w.epoch w.waiting

/-- How many steps of a lapse cleanup stand: its purge asked for, its port release, its notice, its wait for a halt. -/
def cleanings : Nat :=
  w.purges.count .lapse + w.lapsing.toList.length + w.lapseDone.toNat + w.cleanupWaits.toNat

/-- The law of one port: its lapse cleanup stands at one step at most, and then the port is LAPSED; at most one reply is
owed to its present run of commands; and each piece of work bears the port's tickets. -/
structure Lawful (p : Port) : Prop where
  cleaning : w.cleanup = true → w.state = .lapsed
  cleanings : w.cleanings ≤ w.cleanup.toNat
  lapseStarted : ∀ j, w.lapsing = some j → j.stage ≠ .notStarted → w.detaching = none
  lapsePast : w.lapseDone = true ∨ w.cleanupWaits = true → w.detaching = none ∧ w.release = none
  presented : w.presented = true → w.state = .attached ∧ w.setAside = false ∧ w.purges = []
  owed : w.owed ≤ w.setAside.toNat
  produced : ∀ t, t ∈ w.produced → t.port = p ∧ t.epoch ≤ w.epoch
  waiting : ∀ t, t ∈ w.waiting → t.port = p ∧ t.epoch ≤ w.epoch
  detachDone : ∀ t, t ∈ w.detachDone → t.port = p ∧ t.epoch ≤ w.epoch
  detaching : ∀ d, w.detaching = some d → (∀ t, d.owes = some t → t.port = p ∧ t.epoch ≤ w.epoch)
    ∧ ((w.state = .attached ∧ ∃ t, d.owes = some t ∧ t.epoch = w.epoch) ∨ w.cleanup = true)
  release : ∀ j, w.release = some j → j.ticket.port = p
    ∧ ((w.state = .attached ∧ j.ticket.epoch = w.epoch) ∨ (w.cleanup = true ∧ j.ticket.epoch < w.epoch))
  late : ∀ j, j ∈ w.late → j.ticket.port = p ∧ j.ticket.epoch < w.epoch

/-- The port may own a cue on the line (R18, R38, R45): it is ATTACHED or waits for its lapse purge, and no DETACH of it
and no RELEASE of the line has been purged. -/
structure MayOwn (l : Line) : Prop where
  present : w.state = .attached ∨ .lapse ∈ w.purges
  detaching : w.detaching = none
  detachDone : ∀ t, t ∈ w.detachDone → t.epoch ≠ w.epoch
  release : ∀ j, w.release = some j → j.line ≠ l

end PortWork

/-- The law of a halt (R41, R132, R163): outside one no cue is in the table in SETUP; its purge is asked for once, in
SETUP; and once that is made no cue is left. -/
structure State.HaltsInTurn (s : State) : Prop where
  setup : s.session.phase = .setup → s.session.haltCleanup = false → ∀ i, s.cueTable.cue i = none
  asked : ∀ p, .halt ∈ (s.work p).purges → s.session.phase = .setup ∧ s.session.haltCleanup = true
    ∧ (s.work p).purges.count .halt = 1 ∧ ∀ q, .halt ∈ (s.work q).purges → q = p
  halting : s.claims.halt ≠ .idle → s.session.phase = .setup ∧ s.session.haltCleanup = true
    ∧ (∀ i, s.cueTable.cue i = none) ∧ ∀ p, .halt ∉ (s.work p).purges

/-- The law of work in progress: of each port, of each cue and its owner, and of a halt. -/
structure State.Work (s : State) : Prop where
  ports : ∀ p, (s.work p).Lawful p
  owners : ∀ i c, s.cueTable.cue i = some c →
    s.claims.holder c.line = some c.owner ∧ (s.work c.owner).MayOwn c.line
  groups : ∀ g i c, i ∈ look s.cueTable.deferred g → s.cueTable.cue i = some c → (s.output.line c.line).group = some g
  halts : s.HaltsInTurn

/-! ### The two forms of the law -/

section Forms

variable {s : State} {p : Port}

/-- The replies owed are counted by where they wait. -/
theorem owed_eq (s : State) (p : Port) : (s.work p).owed = (s.owedTickets p).length := by
  have parts : s.owedTickets p = ((s.work p).produced ++ ((s.work p).release.map (·.ticket)).toList
      ++ ((s.work p).detaching.bind (·.owes)).toList ++ (s.work p).detachDone
      ++ (s.work p).waiting).filter (fun t => t.epoch == (s.work p).epoch) := rfl
  rw [parts]
  simp only [PortWork.owed, ofEpoch, List.filter_append, List.length_append, List.countP_eq_length_filter]

/-- The lapse cleanup stands at one step at most, and belongs to a cleanup. -/
theorem cleanings_le_iff (w : PortWork) : w.cleanings ≤ w.cleanup.toNat ↔
    (.lapse ∈ w.purges → w.cleanup = true ∧ w.purges.count .lapse = 1 ∧ w.lapsing = none ∧ w.lapseDone = false
        ∧ w.cleanupWaits = false)
      ∧ (w.lapsing ≠ none → w.cleanup = true ∧ w.lapseDone = false ∧ w.cleanupWaits = false)
      ∧ (w.lapseDone = true → w.cleanup = true ∧ w.cleanupWaits = false)
      ∧ (w.cleanupWaits = true → w.cleanup = true) := by
  have asked : .lapse ∈ w.purges ↔ 0 < w.purges.count .lapse := List.count_pos_iff.symm
  rw [asked]
  unfold PortWork.cleanings
  generalize w.purges.count .lapse = asks
  cases w.lapsing <;> cases w.lapseDone <;> cases w.cleanupWaits <;> cases w.cleanup <;>
    grind

theorem mem_ticketsFor {t : Ticket} {w : Option HaltWaiter} : t ∈ ticketsFor p w ↔
    t.port = p ∧ ((∃ n, w = some (.vote t n)) ∨ w = some (.detach t)) := by
  unfold ticketsFor
  split
  · next u n =>
    split
    · next h => simp only [List.mem_singleton, Option.some.injEq, HaltWaiter.vote.injEq]; grind
    · next h => simp only [List.not_mem_nil, Option.some.injEq, HaltWaiter.vote.injEq]; grind
  · next u =>
    split
    · next h => simp only [List.mem_singleton, Option.some.injEq, HaltWaiter.detach.injEq]; grind
    · next h => simp only [List.not_mem_nil, Option.some.injEq, HaltWaiter.detach.injEq]; grind
  · next vote detach =>
    simp only [List.not_mem_nil, false_iff, not_and, not_or, not_exists]
    exact fun _ => ⟨fun n e => vote t n e, fun e => detach t e⟩

theorem cleanupWaits_iff : (s.work p).cleanupWaits = true ↔ s.session.haltWaiter = some (.lapse p) := by
  simp [State.work]

theorem lawful_of_workLaw (h : s.WorkLaw) (p : Port) : (s.work p).Lawful p := by
  obtain ⟨_, purges, commands⟩ := h
  have waits (k : s.session.haltWaiter ≠ some (.lapse p)) : (s.work p).cleanupWaits = false :=
    Bool.eq_false_iff.2 (mt cleanupWaits_iff.1 k)
  refine ⟨purges.cleaning p, (cleanings_le_iff _).2 ⟨fun m => ?_, fun m => ?_, fun m => ?_, fun m => ?_⟩,
    purges.lapseStarted p, fun m => purges.lapsePast p (m.imp_right cleanupWaits_iff.1), fun m => ?_, ?_, fun t m => ?_,
    fun t m => ?_, commands.detachDone p, commands.detaching p, commands.releases p, commands.late p⟩
  · obtain ⟨cleanup, once, lapsing, done, waiter⟩ := purges.lapseAsked p m
    exact ⟨cleanup, once, lapsing, done, waits waiter⟩
  · obtain ⟨cleanup, done, waiter⟩ := purges.lapsing p m
    exact ⟨cleanup, done, waits waiter⟩
  · obtain ⟨cleanup, waiter⟩ := purges.lapseDone p m
    exact ⟨cleanup, waits waiter⟩
  · exact purges.lapseWaits p (cleanupWaits_iff.1 m)
  · obtain ⟨attached, rest⟩ := commands.presented p m
    exact ⟨beq_iff_eq.1 attached, rest⟩
  · rw [owed_eq]
    refine (commands.owed p).trans (Nat.le_of_eq ?_)
    show _ = (s.port p).setAside.toNat
    cases (s.port p).setAside <;> rfl
  · obtain ⟨x, hx, rfl⟩ := List.mem_map.1 m
    exact commands.produced p x hx
  · obtain ⟨port, waiter⟩ := mem_ticketsFor.1 m
    exact ⟨port, port ▸ commands.waiter t waiter⟩

theorem work_of_workLaw (h : s.WorkLaw) : s.Work := by
  have ports := lawful_of_workLaw h
  obtain ⟨cues, purges, _⟩ := h
  refine ⟨ports, fun i c hc => ⟨cues.owners i c hc, ?_⟩, cues.groups, cues.setup, purges.haltAsked, purges.halting⟩
  refine ⟨(cues.present i c hc).imp_left beq_iff_eq.1, ?_, fun t m e => cues.detachDone c.owner t i c m e hc rfl,
    fun j m e => cues.releases c.owner j i c m hc e.symm rfl⟩
  by_contra left
  exact cues.detaching c.owner i c left hc rfl

theorem workLaw_of_work (h : s.Work) : s.WorkLaw := by
  have steps (p : Port) := (cleanings_le_iff _).1 (h.ports p).cleanings
  have waits {p : Port} (k : (s.work p).cleanupWaits = false) : s.session.haltWaiter ≠ some (.lapse p) :=
    fun e => by simp [cleanupWaits_iff.2 e] at k
  refine ⟨⟨fun i c hc => (h.owners i c hc).1, fun i c hc => ?_, h.groups, h.halts.setup, fun p i c m hc e => ?_,
      fun p t i c m e hc o => ?_, fun p j i c m hc l o => ?_⟩,
    ⟨h.halts.asked, h.halts.halting, fun p m => ?_, fun p m => ?_, fun p m => ?_, fun p m => ?_,
      fun p => (h.ports p).cleaning, fun p => (h.ports p).lapseStarted,
      fun p m => (h.ports p).lapsePast (m.imp_right cleanupWaits_iff.2)⟩,
    ⟨fun p m => ?_, fun p => ?_, fun p x m => ?_, fun t m => ?_, fun p => (h.ports p).detachDone,
      fun p => (h.ports p).detaching, fun p => (h.ports p).release, fun p => (h.ports p).late⟩⟩
  · exact (h.owners i c hc).2.present.imp_left beq_iff_eq.2
  · exact m (e ▸ (h.owners i c hc).2.detaching)
  · subst o
    exact (h.owners i c hc).2.detachDone t m e
  · subst o
    exact (h.owners i c hc).2.release j m l.symm
  · obtain ⟨cleanup, once, lapsing, done, waiter⟩ := (steps p).1 m
    exact ⟨cleanup, once, lapsing, done, waits waiter⟩
  · obtain ⟨cleanup, done, waiter⟩ := (steps p).2.1 m
    exact ⟨cleanup, done, waits waiter⟩
  · obtain ⟨cleanup, waiter⟩ := (steps p).2.2.1 m
    exact ⟨cleanup, waits waiter⟩
  · exact (steps p).2.2.2 (cleanupWaits_iff.2 m)
  · obtain ⟨attached, rest⟩ := (h.ports p).presented m
    exact ⟨beq_iff_eq.2 attached, rest⟩
  · rw [← owed_eq]
    refine (h.ports p).owed.trans (Nat.le_of_eq ?_)
    show (s.port p).setAside.toNat = _
    cases (s.port p).setAside <;> rfl
  · exact (h.ports p).produced x.1 (List.mem_map_of_mem m)
  · exact ((h.ports t.port).waiting t (mem_ticketsFor.2 ⟨rfl, m⟩)).2

/-- The law in the statement's form and the law by ports are the same. -/
theorem workLaw_iff (s : State) : s.WorkLaw ↔ s.Work := ⟨work_of_workLaw, workLaw_of_work⟩

end Forms

end Sys2Proof.Machine
end

section
/-! PROOFS. How the law of work in progress goes from one state to the next: what it reads beside the ports, events that
change nothing it reads, events that change one port, and commands that owe a reply. -/

namespace Sys2Proof.Machine

/-! ### The table only thins -/

/-- Every cue stands where one of its owner and line stood, and no slot joins a deferred list. -/
structure CueTable.Thins (ct ct' : CueTable) : Prop where
  cues : ∀ i d, ct'.cue i = some d → ∃ c, ct.cue i = some c ∧ d.owner = c.owner ∧ d.line = c.line
  waits : ∀ g i, i ∈ look ct'.deferred g → i ∈ look ct.deferred g

namespace CueTable.Thins

variable {ct ct' ct'' : CueTable} {i : SlotId}

theorem refl (ct : CueTable) : ct.Thins ct := ⟨fun _ d h => ⟨d, h, rfl, rfl⟩, fun _ _ => id⟩

theorem trans (h : ct.Thins ct') (k : ct'.Thins ct'') : ct.Thins ct'' where
  cues i e he := by
    obtain ⟨d, hd, owner, line⟩ := k.cues i e he
    obtain ⟨c, hc, owner', line'⟩ := h.cues i d hd
    exact ⟨c, hc, owner.trans owner', line.trans line'⟩
  waits g i m := h.waits g i (k.waits g i m)

/-- One slot holds a cue of the same owner and line. -/
theorem of_one {c d : Cue} (hc : ct.cue i = some c) (ho : d.owner = c.owner) (hl : d.line = c.line)
    (hs : ∀ j, ct'.cue j = if j = i then some d else ct.cue j)
    (hw : ∀ g j, j ∈ look ct'.deferred g → j ∈ look ct.deferred g) : ct.Thins ct' where
  cues j e he := by
    rw [hs] at he
    split at he
    · next same => cases he; exact ⟨c, same ▸ hc, ho, hl⟩
    · exact ⟨e, he, rfl, rfl⟩
  waits := hw

/-- A deferred list with its first slot gone. -/
theorem waits_of_rest {g : Group} {rest : List SlotId} (first : look ct.deferred g = i :: rest) (k : Group) (j : SlotId)
    (h : j ∈ look (put ct.deferred g rest) k) : j ∈ look ct.deferred k := by
  rw [look_put] at h
  split at h
  · next same => rw [same, first]; exact List.mem_cons_of_mem i h
  · exact h

end CueTable.Thins

theorem CueTable.Move.thins {now : Time} {ct ct' : CueTable} (m : ct.Move now ct') : ct.Thins ct' := by
  cases m with
  | sets x => exact ⟨fun _ d h => ⟨d, h, rfl, rfl⟩, fun _ _ => id⟩
  | @store i c d stands reworked due =>
    exact .of_one stands reworked.owner reworked.line (ct.setCue_cue i · d) fun _ _ => id
  | @replace i c d stands pending reworked =>
    exact .of_one (d := { d with state := .pending }) stands reworked.owner reworked.line (ct.replace_cue now i · d)
      fun _ _ => id
  | @free i c stands =>
    refine ⟨fun j d h => ?_, fun g j m => ?_⟩
    · rw [ct.freeSlot_cue] at h
      split at h
      · cases h
      · exact ⟨d, h, rfl, rfl⟩
    · rw [ct.freeSlot_deferred i c stands] at m
      exact List.mem_of_mem_filter m
  | @again i rest c d first stands reworked =>
    exact .of_one (d := { d with state := .pending, entry := ct.nextEntry }) stands reworked.owner reworked.line
      (CueTable.enter_cue _ now i · d) fun _ _ => id
  | @release g i rest c first stands =>
    exact .of_one (d := { c.released now with state := .pending, entry := ct.nextEntry }) stands rfl rfl
      (CueTable.enter_cue _ now i · _) (CueTable.Thins.waits_of_rest first)
  | @drop g i rest first empty => exact ⟨fun _ d h => ⟨d, h, rfl, rfl⟩, CueTable.Thins.waits_of_rest first⟩

theorem CueTable.Moves.thins {now : Time} {ct ct' : CueTable} (m : ct.Moves now ct') : ct.Thins ct' :=
  m.keep (law := ct.Thins) (fun _ _ one thinned => thinned.trans one.thins) (.refl ct)

/-! ### Beside the ports -/

/-- The table only thins, and of the cues left each keeps the holder and the group of its line. -/
structure CuesStay (s t : State) : Prop where
  table : s.cueTable.Thins t.cueTable
  holders : ∀ i c, t.cueTable.cue i = some c → t.claims.holder c.line = s.claims.holder c.line
  groups : ∀ i c, t.cueTable.cue i = some c → (t.output.line c.line).group = (s.output.line c.line).group

/-- Of what the law reads beside the ports' work, the cues left are as before, and so is a halt. -/
structure Aside (s t : State) : Prop extends CuesStay s t where
  phase : t.session.phase = s.session.phase
  haltCleanup : t.session.haltCleanup = s.session.haltCleanup
  halt : t.claims.halt = s.claims.halt

section Asides

variable {s t u : State}

theorem CueTable.Thins.none_of_none {ct ct' : CueTable} (h : ct.Thins ct') (empty : ∀ i, ct.cue i = none) (i : SlotId) :
    ct'.cue i = none := by
  by_contra stands
  obtain ⟨d, hd⟩ := Option.ne_none_iff_exists'.1 stands
  obtain ⟨c, hc, _⟩ := h.cues i d hd
  simp [empty] at hc

/-- An event that leaves these units as they are. -/
theorem CuesStay.of_same (hc : t.cueTable = s.cueTable) (hm : t.claims = s.claims) (ho : t.output = s.output) :
    CuesStay s t := ⟨hc ▸ .refl _, by simp [hm], by simp [ho]⟩

theorem CuesStay.refl (s : State) : CuesStay s s := .of_same rfl rfl rfl

theorem CuesStay.trans (h : CuesStay s t) (k : CuesStay t u) : CuesStay s u where
  table := h.table.trans k.table
  holders i d hd := by
    obtain ⟨c, hc, _, line⟩ := k.table.cues i d hd
    rw [k.holders i d hd, line, h.holders i c hc]
  groups i d hd := by
    obtain ⟨c, hc, _, line⟩ := k.table.cues i d hd
    rw [k.groups i d hd, line, h.groups i c hc]

/-- Where no cue is left, nothing is to be kept. -/
theorem CuesStay.of_none (table : s.cueTable.Thins t.cueTable) (empty : ∀ i, t.cueTable.cue i = none) :
    CuesStay s t := ⟨table, by simp [empty], by simp [empty]⟩

theorem Aside.of_same (hc : t.cueTable = s.cueTable) (hm : t.claims = s.claims) (ho : t.output = s.output)
    (hs : t.session = s.session) : Aside s t := ⟨.of_same hc hm ho, by rw [hs], by rw [hs], by rw [hm]⟩

theorem Aside.refl (s : State) : Aside s s := .of_same rfl rfl rfl rfl

theorem Aside.trans (h : Aside s t) (k : Aside t u) : Aside s u :=
  ⟨h.toCuesStay.trans k.toCuesStay, k.phase.trans h.phase, k.haltCleanup.trans h.haltCleanup, k.halt.trans h.halt⟩

/-- The law goes on where the law of a halt does, the ports' work is lawful, and each owner may still own its cues. -/
theorem State.Work.of_cues (h : s.Work) (a : CuesStay s t) (ports : ∀ q, (t.work q).Lawful q)
    (own : ∀ i c, t.cueTable.cue i = some c → (s.work c.owner).MayOwn c.line → (t.work c.owner).MayOwn c.line)
    (halts : t.HaltsInTurn) : t.Work := by
  refine ⟨ports, fun i d hd => ?_, fun g i d m hd => ?_, halts⟩
  · obtain ⟨c, hc, owner, line⟩ := a.table.cues i d hd
    obtain ⟨holds, may⟩ := h.owners i c hc
    exact ⟨by rw [a.holders i d hd, owner, line, holds], own i d hd (by rw [owner, line]; exact may)⟩
  · obtain ⟨c, hc, _, line⟩ := a.table.cues i d hd
    rw [a.groups i d hd, line]
    exact h.groups g i c (a.table.waits g i m) hc

/-- The law of a halt goes on when no leaf gains or loses a halt purge. -/
theorem State.HaltsInTurn.of_aside (h : s.HaltsInTurn) (a : Aside s t)
    (asks : ∀ q, (t.work q).purges.count .halt = (s.work q).purges.count .halt) : t.HaltsInTurn := by
  have asked (q : Port) : .halt ∈ (t.work q).purges ↔ .halt ∈ (s.work q).purges := by
    rw [← List.count_pos_iff, asks, List.count_pos_iff]
  refine ⟨fun setup done => ?_, fun p m => ?_, fun busy => ?_⟩
  · exact a.table.none_of_none (h.setup (a.phase ▸ setup) (a.haltCleanup ▸ done))
  · obtain ⟨setup, cleanup, once, only⟩ := h.asked p ((asked p).1 m)
    exact ⟨a.phase.trans setup, a.haltCleanup.trans cleanup, (asks p).trans once, fun q m => only q ((asked q).1 m)⟩
  · obtain ⟨setup, cleanup, empty, quiet⟩ := h.halting (a.halt ▸ busy)
    exact ⟨a.phase.trans setup, a.haltCleanup.trans cleanup, a.table.none_of_none empty,
      fun p m => quiet p ((asked p).1 m)⟩

theorem State.Work.of_aside (h : s.Work) (a : Aside s t) (ports : ∀ q, (t.work q).Lawful q)
    (own : ∀ i c, t.cueTable.cue i = some c → (s.work c.owner).MayOwn c.line → (t.work c.owner).MayOwn c.line)
    (asks : ∀ q, (t.work q).purges.count .halt = (s.work q).purges.count .halt) : t.Work :=
  h.of_cues a.toCuesStay ports own (h.halts.of_aside a asks)

/-- The law goes on when one port's work changes to lawful work. -/
theorem State.Work.of_port {p : Port} {w : PortWork} (h : s.Work) (a : Aside s t)
    (hw : ∀ q, t.work q = if q = p then w else s.work q) (lawful : w.Lawful p)
    (own : ∀ i c, t.cueTable.cue i = some c → c.owner = p → (s.work p).MayOwn c.line → w.MayOwn c.line)
    (asks : w.purges.count .halt = (s.work p).purges.count .halt) : t.Work := by
  refine h.of_aside a (fun q => ?_) (fun i c hc may => ?_) fun q => ?_
  · rw [hw]
    split
    · next e => exact e ▸ lawful
    · exact h.ports q
  · rw [hw]
    split
    · next e => exact own i c hc e (e ▸ may)
    · exact may
  · rw [hw]
    split
    · next e => rw [asks, e]
    · rfl

end Asides

/-! ### Events that change nothing the law reads -/

/-- Nothing that the law reads has changed, but that the table may have thinned. -/
structure Still (s t : State) : Prop where
  work : ∀ q, t.work q = s.work q
  aside : Aside s t

/-- A port unit that is the same in what the law reads. -/
structure PortUnit.SameWork (u v : PortUnit) : Prop where
  state : v.state = u.state
  cleanup : v.cleanup = u.cleanup
  setAside : v.setAside = u.setAside
  epoch : v.epoch = u.epoch
  produced : v.produced = u.produced

/-- Nothing that the law reads beside the table has changed. -/
structure Quiet (s t : State) : Prop where
  units : ∀ q, (s.port q).SameWork (t.port q)
  presented : t.arbiter.presented = s.arbiter.presented
  purges : t.arbiter.purges = s.arbiter.purges
  claims : t.claims = s.claims
  groups : ∀ l, (t.output.line l).group = (s.output.line l).group
  phase : t.session.phase = s.session.phase
  haltCleanup : t.session.haltCleanup = s.session.haltCleanup
  haltWaiter : t.session.haltWaiter = s.session.haltWaiter

section Stills

variable {s t u : State}

theorem Still.trans (h : Still s t) (k : Still t u) : Still s u :=
  ⟨fun q => (k.work q).trans (h.work q), h.aside.trans k.aside⟩

theorem State.Work.still (h : s.Work) (k : Still s t) : t.Work :=
  h.of_aside k.aside (fun q => (k.work q).symm ▸ h.ports q) (fun _ c _ may => (k.work c.owner).symm ▸ may)
    fun q => by rw [k.work]

theorem PortUnit.SameWork.refl (u : PortUnit) : u.SameWork u := ⟨rfl, rfl, rfl, rfl, rfl⟩

theorem PortUnit.SameWork.trans {u v w : PortUnit} (h : u.SameWork v) (k : v.SameWork w) : u.SameWork w :=
  ⟨k.state.trans h.state, k.cleanup.trans h.cleanup, k.setAside.trans h.setAside, k.epoch.trans h.epoch,
    k.produced.trans h.produced⟩

theorem Quiet.refl (s : State) : Quiet s s := ⟨fun _ => .refl _, rfl, rfl, rfl, fun _ => rfl, rfl, rfl, rfl⟩

theorem Quiet.trans (h : Quiet s t) (k : Quiet t u) : Quiet s u :=
  ⟨fun q => (h.units q).trans (k.units q), k.presented.trans h.presented, k.purges.trans h.purges,
    k.claims.trans h.claims, fun l => (k.groups l).trans (h.groups l), k.phase.trans h.phase,
    k.haltCleanup.trans h.haltCleanup, k.haltWaiter.trans h.haltWaiter⟩

theorem Quiet.work (h : Quiet s t) (q : Port) : t.work q = s.work q := by
  simp only [State.work, (h.units q).state, (h.units q).cleanup, (h.units q).setAside, (h.units q).epoch,
    (h.units q).produced, h.presented, h.purges, h.claims, h.haltWaiter]

/-- Such an event changes nothing that the law reads if the table thins. -/
theorem Quiet.still (h : Quiet s t) (table : s.cueTable.Thins t.cueTable) : Still s t :=
  ⟨h.work, ⟨table, by simp [h.claims], by simp [h.groups]⟩, h.phase, h.haltCleanup, by rw [h.claims]⟩

theorem State.Work.quiet (h : s.Work) (k : Quiet s t) (table : s.cueTable.Thins t.cueTable) : t.Work :=
  h.still (k.still table)

theorem receive_sameWork (u : PortUnit) (e : EventRecord) : u.SameWork (u.receive e) := by
  unfold PortUnit.receive
  split <;> exact ⟨rfl, rfl, rfl, rfl, rfl⟩

section Blocks

variable (s)

theorem setInputs_quiet (b : Inputs) : Quiet s (s.setInputs b) := { Quiet.refl s with }

theorem setTimeBase_quiet (b : TimeBase) : Quiet s (s.setTimeBase b) := { Quiet.refl s with }

theorem withPending_quiet (cs : List Instr) : Quiet s (s.withPending cs) := { Quiet.refl s with }

theorem setCueTable_quiet (ct : CueTable) : Quiet s (s.setCueTable ct) := { Quiet.refl s with }

theorem moveSwitches_quiet (c : ListClass) (p : Port) : Quiet s (moveSwitches c p s) := { Quiet.refl s with }

variable {s}

theorem setOutput_quiet {o : OutputUnit} (h : ∀ l, (o.line l).group = (s.output.line l).group) :
    Quiet s (s.setOutput o) := { Quiet.refl s with groups := h }

theorem setOutput_quiet_of_steady {o : OutputUnit} (h : s.output.Steady s.now o) : Quiet s (s.setOutput o) :=
  setOutput_quiet fun l => (h.lines l).group

theorem setSession_quiet {x : Session} (hp : x.phase = s.session.phase) (hc : x.haltCleanup = s.session.haltCleanup)
    (hw : x.haltWaiter = s.session.haltWaiter) : Quiet s (s.setSession x) :=
  { Quiet.refl s with phase := hp, haltCleanup := hc, haltWaiter := hw }

theorem changePort_quiet {p : Port} {f : PortUnit → PortUnit} (h : (s.port p).SameWork (f (s.port p))) :
    Quiet s (s.changePort p f) :=
  { Quiet.refl s with
    units := fun q => by
      rw [changePort_port]
      split
      · next e => exact e ▸ h
      · exact .refl _ }

end Blocks

variable (s)

theorem post_quiet (p : Port) (e : EventRecord) : Quiet s (post p e s) := by
  unfold post
  split
  · exact changePort_quiet ⟨rfl, rfl, rfl, rfl, rfl⟩
  · exact .refl s

theorem postAll_quiet (e : EventRecord) : Quiet s (postAll e s) where
  units q := by rw [postAll_port]; exact receive_sameWork _ e
  presented := by rw [postAll_arbiter]
  purges := by rw [postAll_arbiter]
  claims := postAll_claims e s
  groups := by simp
  phase := by rw [postAll_session]
  haltCleanup := by rw [postAll_session]
  haltWaiter := by rw [postAll_session]

theorem driveLine_quiet (l : Line) : Quiet s (driveLine l s) :=
  setOutput_quiet_of_steady (OutputUnit.drive_steady _ _ l)

theorem driveEvery_quiet : Quiet s (driveEvery s) := setOutput_quiet_of_steady (OutputUnit.driveAll_steady _ _)

theorem tripEntry_quiet (cause : TripCause) : Quiet s (tripEntry cause s) := by
  have entered : Quiet s (s.setOutput { s.output with trip := .tripped cause s.now }) := setOutput_quiet fun _ => rfl
  exact (entered.trans (driveEvery_quiet _)).trans (postAll_quiet _ _)

theorem forget_quiet (p : Port) : Quiet s (s.setSession (s.session.forget p)) := setSession_quiet rfl rfl rfl

theorem loadLease_quiet (p : Port) : Quiet s (loadLease p s) := changePort_quiet ⟨rfl, rfl, rfl, rfl, rfl⟩

end Stills

/-! ### Commands that owe a reply -/

section Epochs

variable {e : Nat} {t : Ticket} {ts us : List Ticket}

@[simp] theorem ofEpoch_nil (e : Nat) : ofEpoch e [] = 0 := rfl

theorem ofEpoch_cons (e : Nat) (t : Ticket) (ts : List Ticket) : ofEpoch e (t :: ts) = ofEpoch e [t] + ofEpoch e ts :=
  List.countP_append (l₁ := [t])

theorem ofEpoch_append (e : Nat) (ts us : List Ticket) : ofEpoch e (ts ++ us) = ofEpoch e ts + ofEpoch e us :=
  List.countP_append

theorem ofEpoch_pos (hm : t ∈ ts) (he : t.epoch = e) : 0 < ofEpoch e ts := List.countP_pos_iff.2 ⟨t, hm, by simp [he]⟩

theorem ofEpoch_one (h : t.epoch = e) : ofEpoch e [t] = 1 := by simp [ofEpoch, h]

/-- A ticket of an earlier run of commands counts nothing (R185). -/
theorem ofEpoch_past (h : t.epoch < e) : ofEpoch e [t] = 0 := by simp [ofEpoch, Nat.ne_of_lt h]

theorem ofEpoch_none (h : ∀ t, t ∈ ts → t.epoch < e) : ofEpoch e ts = 0 :=
  List.countP_eq_zero.2 fun t m => by simpa using Nat.ne_of_lt (h t m)

end Epochs

namespace PortWork

variable {w : PortWork} {p : Port} {t : Ticket}

/-- Only these decide what a port may own. -/
theorem MayOwn.of_same {w' : PortWork} {l : Line} (h : w.MayOwn l) (hs : w'.state = w.state)
    (hp : w'.purges = w.purges) (hd : w'.detaching = w.detaching) (hn : w'.detachDone = w.detachDone)
    (he : w'.epoch = w.epoch) (hr : w'.release = w.release) : w'.MayOwn l :=
  ⟨by rw [hs, hp]; exact h.present, hd ▸ h.detaching, by rw [hn, he]; exact h.detachDone, hr ▸ h.release⟩

/-- The work of a port whose head command has been taken. -/
def taken (w : PortWork) : PortWork := { w with setAside := true, presented := false }

/-- The work of a port for which a reply has been produced. -/
def answered (w : PortWork) (t : Ticket) : PortWork := { w with produced := w.produced ++ [t] }

theorem Lawful.taken (h : w.Lawful p) (free : w.setAside = false) : w.taken.Lawful p :=
  { h with
    presented := fun m => by cases m
    owed := by
      have quiet := h.owed
      rw [free] at quiet
      exact quiet.trans (Nat.zero_le _) }

theorem Lawful.answered (h : w.Lawful p) (hp : t.port = p) (he : t.epoch ≤ w.epoch)
    (room : w.owed + ofEpoch w.epoch [t] ≤ w.setAside.toNat) : (w.answered t).Lawful p :=
  { h with
    owed := by
      unfold PortWork.owed at room ⊢
      simp only [PortWork.answered, ofEpoch_append]
      omega
    produced := fun u m => by
      rcases List.mem_append.1 m with m | m
      · exact h.produced u m
      · rw [List.mem_singleton.1 m]; exact ⟨hp, he⟩ }

end PortWork

/-- The law holds, and the reply to a ticket may still be produced: it belongs to an earlier run of its port's
commands, or no other is owed. -/
structure State.Owes (s : State) (t : Ticket) : Prop where
  law : s.Work
  epoch : t.epoch ≤ (s.work t.port).epoch
  room : (s.work t.port).owed + ofEpoch (s.work t.port).epoch [t] ≤ (s.work t.port).setAside.toNat

section Owing

variable {s t : State} {c : Ticket} {p : Port}

theorem State.Owes.of_work (h : s.Owes c) (law : t.Work) (hw : t.work c.port = s.work c.port) : t.Owes c :=
  ⟨law, hw ▸ h.epoch, hw ▸ h.room⟩

theorem State.Owes.still (h : s.Owes c) (k : Still s t) : t.Owes c := h.of_work (h.law.still k) (k.work _)

theorem State.Owes.quiet (h : s.Owes c) (k : Quiet s t) (table : t.cueTable = s.cueTable) : t.Owes c :=
  h.still (k.still (table ▸ .refl _))

/-- The ticket belongs to its port's present run of commands, and no other reply is owed to it. -/
structure State.Serves (s : State) (t : Ticket) : Prop extends s.Owes t where
  present : t.epoch = (s.work t.port).epoch

/-- A port that is owed nothing and cleans nothing up has no RELEASE and no DETACH in progress. -/
theorem PortWork.Lawful.idle {w : PortWork} (h : w.Lawful p) (done : w.owed = 0) (clean : w.cleanup = false) :
    w.detaching = none ∧ w.release = none ∧ ∀ t, t ∈ w.detachDone → t.epoch ≠ w.epoch := by
  unfold PortWork.owed at done
  refine ⟨?_, ?_, fun t m e => ?_⟩
  · by_contra some
    obtain ⟨d, hd⟩ := Option.ne_none_iff_exists'.1 some
    rcases (h.detaching d hd).2 with ⟨_, t, ht, he⟩ | cleaning
    · have := ofEpoch_pos (ts := (w.detaching.bind (·.owes)).toList) (by simp [hd, ht]) he
      omega
    · simp [clean] at cleaning
  · by_contra some
    obtain ⟨j, hj⟩ := Option.ne_none_iff_exists'.1 some
    rcases (h.release j hj).2 with ⟨_, he⟩ | ⟨cleaning, _⟩
    · have := ofEpoch_pos (ts := (w.release.map (·.ticket)).toList) (by simp [hj]) he
      omega
    · simp [clean] at cleaning
  · have := ofEpoch_pos m e
    omega

theorem PortWork.Lawful.clean_of_attached {w : PortWork} (h : w.Lawful p) (attached : w.state = .attached) :
    w.cleanup = false := by
  by_contra cleaning
  simpa [attached] using h.cleaning (by simpa using cleaning)

theorem State.Serves.room_taken (h : s.Serves c) :
    (s.work c.port).owed = 0 ∧ (s.work c.port).setAside = true := by
  have room := h.room
  rw [ofEpoch_one h.present] at room
  cases hs : (s.work c.port).setAside with
  | false => simp [hs] at room
  | true => exact ⟨by simpa [hs] using room, rfl⟩

/-- No other command of the port is presented beside one that is served. -/
theorem State.Serves.not_presented (h : s.Serves c) : (s.work c.port).presented = false := by
  by_contra presented
  obtain ⟨_, free, _⟩ := (h.law.ports _).presented (by simpa using presented)
  simp [h.room_taken.2] at free

theorem State.Serves.quiet (h : s.Serves c) (k : Quiet s t) (table : t.cueTable = s.cueTable) : t.Serves c :=
  ⟨h.toOwes.quiet k table, by rw [k.work]; exact h.present⟩

theorem takeHead_work (p q : Port) (s : State) :
    (takeHead p s).work q = if q = p then (s.work p).taken else s.work q := by
  unfold State.work
  by_cases h : q = p
  · subst h
    simp [PortUnit.setEntryAside, Arbiter.without, PortWork.taken]
  · simp [h, takeHead_port, Arbiter.without, look_put]

theorem answer_work (c : Ticket) (st : Status) (b : List Byte) (q : Port) (s : State) :
    (answer c st b s).work q = if q = c.port then (s.work c.port).answered c else s.work q := by
  unfold State.work
  by_cases h : q = c.port
  · simp [h, answer_port, PortUnit.produce, PortWork.answered]
  · simp [h, answer_port]

theorem State.Owes.answer (h : s.Owes c) (st : Status) (b : List Byte) : (answer c st b s).Work :=
  h.law.of_port (.of_same rfl rfl rfl rfl) (answer_work c st b · s) ((h.law.ports _).answered rfl h.epoch h.room)
    (fun _ _ _ _ may => may.of_same rfl rfl rfl rfl rfl rfl) rfl

/-- A head command can be taken only when none of its port is in progress, so that the port's one reply is its. -/
theorem serves_takeHead (h : s.Work) (free : (s.port p).setAside = false) (r : Request) :
    (takeHead p s).Serves (s.ticket p r) := by
  have quiet := (h.ports p).owed
  have room : (s.work p).setAside = false := free
  rw [room] at quiet
  have here : (takeHead p s).work p = (s.work p).taken := by rw [takeHead_work, if_pos rfl]
  refine ⟨⟨h.of_port (.of_same rfl rfl rfl rfl) (takeHead_work p · s) ((h.ports p).taken free)
    (fun _ _ _ _ may => may.of_same rfl rfl rfl rfl rfl rfl) rfl, ?_, ?_⟩, ?_⟩
  · rw [ticket_port, here]; exact Nat.le_refl _
  · rw [ticket_port, here]
    have one : ofEpoch (s.work p).taken.epoch [s.ticket p r] = 1 := ofEpoch_one rfl
    rw [one]
    show (s.work p).owed + 1 ≤ 1
    simpa using quiet
  · rw [ticket_port, here]; rfl

theorem setAside_of_head {r : Request} (h : s.head p = some r) : (s.port p).setAside = false := by
  unfold State.head at h
  dsimp only at h
  split at h
  · cases h
  · next free =>
    simp only [Bool.or_eq_true, not_or, Bool.not_eq_true] at free
    exact free.1

theorem presented_of_granted {k : CommandKind} {r : Request} (h : s.granted k p = some r) :
    look s.arbiter.presented p = true := by
  unfold State.granted at h
  split at h
  · split at h
    · next cond =>
      simp only [Bool.and_eq_true] at cond
      exact cond.1.1.2
    · cases h
  · cases h

/-- What a direct command does, it does to a state in which it is served. -/
theorem work_of_takeDirect {k : CommandKind} {effect : Ticket → List Byte → State → State}
    (e : takeDirect k p s effect = .next t) (h : s.Work) (he : ∀ c b u, u.Serves c → (effect c b u).Work) : t.Work :=
  of_takeDirect (P := State.Work) e h fun r takes => he _ _ _ (serves_takeHead h (setAside_of_head takes.2.1) r)

/-- The same of a granted command, whose port is ATTACHED. -/
theorem work_of_takeGranted {k : CommandKind} {effect : Ticket → List Byte → State → State} {l : ListClass}
    (e : takeGranted k p s effect = .next t) (hc : listClass k = some l) (h : s.Work)
    (he : ∀ c b u, u.Serves c → (u.work c.port).state = .attached → u.cueTable = s.cueTable → (effect c b u).Work) :
    t.Work := by
  refine of_takeGranted (P := State.Work) e hc h fun r grants => ?_
  obtain ⟨attached, free, _⟩ := (h.ports p).presented (presented_of_granted grants.2)
  refine he _ _ _ (serves_takeHead (h.quiet (moveSwitches_quiet s l p) (.refl _)) free r) ?_ rfl
  rw [ticket_port, afterGrant, takeHead_work, if_pos rfl, (moveSwitches_quiet s l p).work]
  exact attached

theorem work_of_whenLive {event : State → State} (e : whenLive s event = .next t) (h : s.Work)
    (he : (event s).Work) : t.Work := of_whenLive e h he

end Owing

end Sys2Proof.Machine
end

section
/-! PROOFS. The law of work in progress at the commands of the time base, the output unit, the firing engine and the
port units: most change nothing that it reads. -/

namespace Sys2Proof.Machine

/-! ### Time, inputs and outputs (R2, R94, R99, R107) -/

section Outputs

variable {s t : State}

theorem execDeviceReset_work {cause : ResetCause} (h : s.Work) (e : execDeviceReset cause s = .next t) : t.Work := by
  rcases execDeviceReset_cases e with rfl | rfl
  · have empty (i : SlotId) : (s.enterReset cause).cueTable.cue i = none := reset_cue i
    have work (p : Port) : (s.enterReset cause).work p =
        { state := .detached, cleanup := false, setAside := false, epoch := 0, produced := [], presented := false
          purges := [], release := none, late := [], detaching := none, lapsing := none, detachDone := []
          lapseDone := false, waiting := [], cleanupWaits := false } := by
      simp [State.work, State.enterReset, State.port, State.reset, PortUnit.reset, Arbiter.reset, ClaimUnit.reset,
        Session.reset, ticketsFor]
    refine ⟨fun p => ?_, fun i c hc => ?_, fun g i c _ hc => ?_, fun _ _ => empty, fun p m => ?_, fun busy => ?_⟩
    · rw [work]
      refine ⟨?_, ?_, ?_, ?_, ?_, ?_, ?_, ?_, ?_, ?_, ?_, ?_⟩ <;>
        simp [PortWork.cleanings, PortWork.owed]
    · simp [empty] at hc
    · simp [empty] at hc
    · simp [work] at m
    · exact absurd rfl busy
  · exact h

theorem execResetEnd_work (h : s.Work) (e : execResetEnd s = .next t) : t.Work := by
  unfold execResetEnd at e
  cases e
  have free := setInputs_quiet s { s.inputs with resetHeld := false }
  split
  · dsimp only
    split
    · exact h.quiet (free.trans (tripEntry_quiet _ _)) (by rw [tripEntry_cueTable]; exact .refl _)
    · exact h.quiet free (.refl _)
  · exact h

theorem execTbStep_work (h : s.Work) (e : execTbStep s = .next t) : t.Work := by
  rcases execTbStep_cases e with ⟨_, rfl⟩ | rfl
  · exact h.quiet (setTimeBase_quiet s _) (.refl _)
  · exact h

theorem execRefclkPeriodEnd_work {pins : InputSample} (h : s.Work) (e : execRefclkPeriodEnd pins s = .next t) :
    t.Work := by
  unfold execRefclkPeriodEnd at e
  cases e
  split
  · exact h.quiet ((setTimeBase_quiet s _).trans (setInputs_quiet _ _)) (.refl _)
  · exact h

theorem execFaultLow_work (h : s.Work) (e : execFaultLow s = .next t) : t.Work := by
  have taken : Quiet s (takeFaultEdge s) := setInputs_quiet s _
  refine work_of_whenLive e h ?_
  split
  · split
    · exact h.quiet (taken.trans (tripEntry_quiet _ _)) (by rw [tripEntry_cueTable]; exact .refl _)
    · exact h.quiet taken (.refl _)
  · exact h

theorem execFaultHigh_work (h : s.Work) (e : execFaultHigh s = .next t) : t.Work := by
  refine work_of_whenLive e h ?_
  split
  · exact h.quiet (setInputs_quiet s _) (.refl _)
  · exact h

theorem execPulseEndExpiry_work {l : Line} (h : s.Work) (e : execPulseEndExpiry l s = .next t) : t.Work := by
  refine work_of_whenLive e h ?_
  split
  · exact h.quiet (setOutput_quiet_of_steady (OutputUnit.deactivate_steady _ _ l)) (.refl _)
  · exact h

theorem execHoldoffExpiry_work {g : Group} (h : s.Work) (e : execHoldoffExpiry g s = .next t) : t.Work := by
  refine work_of_whenLive e h ?_
  split
  · split
    · exact h.quiet (setOutput_quiet_of_steady (OutputUnit.open_steady _ _ g)) (.refl _)
    · exact h
  · exact h

theorem execTrip_work {p : Port} (h : s.Work) (e : execTrip p s = .next t) : t.Work := by
  refine work_of_takeDirect e h fun c b u serves => ?_
  split
  · exact (serves.quiet (tripEntry_quiet u _) (tripEntry_cueTable _ u)).answer _ _
  · exact serves.answer _ _

theorem execClearTrip_work {p : Port} (h : s.Work) (e : execClearTrip p s = .next t) : t.Work := by
  refine work_of_takeDirect e h fun c b u serves => ?_
  have normal : Quiet u (u.setOutput { u.output with trip := .normal }) := setOutput_quiet fun _ => rfl
  split
  · exact serves.answer _ _
  · split
    · exact serves.answer _ _
    · exact (serves.quiet (normal.trans (postAll_quiet _ _)) (by simp)).answer _ _

end Outputs

/-! ### The firing engine (R43 to R63, R80 to R83) -/

section Firing

variable (i : SlotId) (c : Cue) (s : State)

theorem postMissed_quiet : Quiet s (postMissed i c s) := by
  unfold postMissed
  split
  · exact post_quiet s _ _
  · exact .refl s

theorem retire_quiet : Quiet s (retire i c s) := by
  unfold retire
  dsimp only
  split
  · exact (post_quiet s _ _).trans (setCueTable_quiet _ _)
  · exact setCueTable_quiet s _

theorem catchUpSkip_quiet {goOn : Cue → State → State} (h : ∀ d u, Quiet u (goOn d u)) :
    Quiet s (catchUpSkip i c goOn s) := by
  unfold catchUpSkip
  dsimp only
  split
  · exact (postMissed_quiet i c s).trans (retire_quiet i _ _)
  · exact (postMissed_quiet i c s).trans (h _ _)

theorem continueCue_quiet : Quiet s (continueCue i c s) := by
  have enters (d : Cue) (u : State) : Quiet u (enterPending i d u) := setCueTable_quiet u _
  unfold continueCue advance
  dsimp only
  split
  · exact retire_quiet i _ s
  · split
    · exact enters _ s
    · split
      · exact catchUpSkip_quiet i _ s enters
      · exact enters _ s

theorem shiftCue_quiet (shift : Triple) : Quiet s (shiftCue i c shift s) := by
  have stores (d : Cue) (u : State) : Quiet u (storeCue i d u) := setCueTable_quiet u _
  have replaces (d : Cue) (u : State) : Quiet u (replacePending i d u) := setCueTable_quiet u _
  unfold shiftCue
  dsimp only
  split
  · exact stores _ s
  · split
    · exact replaces _ s
    · split
      · exact (stores c s).trans (catchUpSkip_quiet i _ _ replaces)
      · exact replaces _ s
  · split
    · exact stores _ s
    · split
      · exact (stores c s).trans (catchUpSkip_quiet i _ _ stores)
      · exact stores _ s

theorem takeAnswer_quiet (a : ApplyAnswer) : Quiet s (takeAnswer i c a s) := by
  cases a with
  | applied =>
    unfold takeAnswer
    dsimp only
    split
    · exact (post_quiet s _ _).trans (continueCue_quiet i _ _)
    · exact continueCue_quiet i _ s
  | refused g => exact (post_quiet s _ _).trans (continueCue_quiet i _ _)
  | deferred g => exact setCueTable_quiet s _

theorem occur_quiet : Quiet s (occur i c s) := by
  unfold occur
  split
  · exact setCueTable_quiet s _
  · split
    · exact (postMissed_quiet i c s).trans (continueCue_quiet i _ _)
    · exact (setOutput_quiet_of_steady (OutputUnit.apply_steady _ _ _ _ _)).trans (takeAnswer_quiet i c _ _)

theorem applyMember_quiet : Quiet s (applyMember s i) := by
  unfold applyMember
  split
  · exact .refl s
  · split
    · exact setCueTable_quiet s _
    · dsimp only
      split
      · exact setCueTable_quiet s _
      · exact shiftCue_quiet i _ s _

theorem applyMembers_quiet (is : List SlotId) : Quiet s (is.foldl applyMember s) := by
  induction is generalizing s with
  | nil => exact .refl s
  | cons i rest ih => exact (applyMember_quiet i s).trans (ih _)

theorem applySet_quiet (k : SetId) (owner : Port) (n : Nat) : Quiet s (applySet k owner n s) :=
  ((applyMembers_quiet s _).trans (setCueTable_quiet _ _)).trans (post_quiet _ _ _)

variable {s} {t : State}

/-- A deferred cue joins the deferred list of one group. -/
theorem CueTable.mem_defer {ct : CueTable} {now : Time} {g k : Group} {j : SlotId}
    (h : j ∈ look (ct.defer now i c g).deferred k) : (j = i ∧ k = g) ∨ j ∈ look ct.deferred k := by
  rw [(ct.perm_defer now i c g k).mem_iff] at h
  split at h
  · next same =>
    rcases List.mem_cons.1 h with here | there
    · exact .inl ⟨here, same⟩
    · exact .inr (same ▸ there)
  · exact .inr h

/-- A cue taken off the pending list may stand on the deferred list of its line's group. -/
theorem work_of_defer {g : Group} {rest : List SlotId} (h : s.Work) (q : Quiet s t)
    (stands : s.cueTable.cue i = some c) (member : (s.output.line c.line).group = some g)
    (table : t.cueTable = ({ s.cueTable with pendingList := rest } : CueTable).defer s.now i c g) : t.Work := by
  have slots (j : SlotId) : t.cueTable.cue j =
      if j = i then some { c with state := .deferred, effDue := none } else s.cueTable.cue j := by
    rw [table]
    exact CueTable.defer_cue _ s.now i j c g
  have was (j : SlotId) (d : Cue) (hd : t.cueTable.cue j = some d) :
      ∃ c, s.cueTable.cue j = some c ∧ d.owner = c.owner ∧ d.line = c.line := by
    rw [slots] at hd
    split at hd
    · next same => cases hd; exact ⟨c, same ▸ stands, rfl, rfl⟩
    · exact ⟨d, hd, rfl, rfl⟩
  have fewer : s.cueTable.Thins { t.cueTable with deferred := s.cueTable.deferred } := ⟨was, fun _ _ => id⟩
  have thinned : (t.setCueTable { t.cueTable with deferred := s.cueTable.deferred }).Work :=
    h.quiet (q.trans (setCueTable_quiet t _)) fewer
  refine ⟨thinned.ports, thinned.owners, fun k j d m hd => ?_,
    ⟨thinned.halts.setup, thinned.halts.asked, thinned.halts.halting⟩⟩
  rw [table] at m
  rcases CueTable.mem_defer i c m with ⟨rfl, rfl⟩ | there
  · rw [slots, if_pos rfl] at hd
    cases hd
    exact (q.groups _).trans member
  · exact thinned.groups k j d there hd

theorem execOccurrence_quiet (e : execOccurrence s = .next t) : Quiet s t := by
  refine of_whenLive (P := Quiet s) e (.refl s) ?_
  split
  · exact (setCueTable_quiet s _).trans (occur_quiet _ _ _)
  · exact .refl s

theorem execOccurrence_work (h : s.Work) (e : execOccurrence s = .next t) : t.Work := by
  have q := execOccurrence_quiet e
  rcases execOccurrence_change e with moves | ⟨i, rest, c, g, _, stands, member, table⟩
  · exact h.quiet q moves.thins
  · exact work_of_defer i c h q stands member table

theorem execCommitTimeExpiry_work {k : SetId} (h : s.Work) (e : execCommitTimeExpiry k s = .next t) : t.Work := by
  refine h.quiet ?_ (execCommitTimeExpiry_moves e).thins
  refine of_whenLive (P := Quiet s) e (.refl s) ?_
  split
  · split
    · exact .refl s
    · split
      · exact applySet_quiet s k _ _
      · exact setCueTable_quiet s _
  · exact .refl s
  · exact .refl s

theorem execOpeningNotice_work {g : Group} (h : s.Work) (e : execOpeningNotice g s = .next t) : t.Work := by
  refine h.quiet ?_ (execOpeningNotice_moves e).thins
  refine of_whenLive (P := Quiet s) e (.refl s) ?_
  split
  · have noticed : Quiet s (s.setOutput { s.output with notices := s.output.notices.erase g }) :=
      setOutput_quiet fun _ => rfl
    exact noticed.trans (setCueTable_quiet _ _)
  · exact .refl s

end Firing

/-! ### The port units (chapter 10) -/

section PortUnits

variable {s t : State} {p : Port}

/-- A presented request is withdrawn from its leaf (R139). -/
theorem withdraw_work (h : s.Work) (p : Port) : (withdraw p s).Work := by
  have here (q : Port) : (withdraw p s).work q =
      if q = p then { s.work p with presented := false } else s.work q := by
    unfold State.work
    by_cases same : q = p
    · subst same; simp [withdraw, State.port]
    · simp [withdraw, State.port, look_put, same]
  exact h.of_port (.of_same rfl rfl rfl rfl) here { h.ports p with presented := fun m => by cases m }
    (fun _ _ _ _ may => may.of_same rfl rfl rfl rfl rfl rfl) rfl

theorem setDrop_quiet (p : Port) (d : DropReason) (s : State) : Quiet s (setDrop p d s) :=
  changePort_quiet ⟨rfl, rfl, rfl, rfl, rfl⟩

theorem reloadLease_quiet (p : Port) (s : State) : Quiet s (reloadLease p s) := by
  unfold reloadLease
  split
  · exact loadLease_quiet s p
  · exact .refl s

theorem duplicate_work (h : s.Work) (a : LastAccepted) : (duplicate p a s).Work := by
  have copied : (s.changePort p PortUnit.copyReply).Work :=
    h.quiet (changePort_quiet ⟨rfl, rfl, rfl, rfl, rfl⟩) (.refl _)
  unfold duplicate
  split
  · exact h.quiet (setDrop_quiet p _ s) (.refl _)
  · split
    · unfold withdrawIfFull
      split
      · exact copied
      · exact withdraw_work copied p
    · exact h.quiet (setDrop_quiet p _ s) (.refl _)

theorem queueRequest_work (h : s.Work) (r : Received) : (queueRequest p r s).Work := by
  unfold queueRequest
  split
  · exact h.quiet (changePort_quiet ⟨rfl, rfl, rfl, rfl, rfl⟩) (.refl _)
  · exact h.quiet (setDrop_quiet p _ s) (.refl _)

theorem takeBytes_work (h : s.Work) (bytes : List Byte) : (takeBytes p bytes s).Work := by
  have loaded : (reloadLease p s).Work :=
    h.quiet (reloadLease_quiet p s) (by unfold reloadLease; split <;> exact .refl _)
  unfold takeBytes
  split
  · exact h
  · split
    · exact h.quiet (setDrop_quiet p _ s) (.refl _)
    · unfold acceptRequest
      dsimp only
      split
      · exact loaded
      · split
        · exact duplicate_work loaded _
        · exact queueRequest_work loaded _

theorem execFrameStart_work (h : s.Work) (e : execFrameStart p s = .next t) : t.Work := by
  refine work_of_whenLive e h ?_
  split
  · exact h.quiet ((setInputs_quiet s _).trans (changePort_quiet ⟨rfl, rfl, rfl, rfl, rfl⟩)) (.refl _)
  · exact h

theorem execFrameEnd_work {sdi : List Bool} (h : s.Work) (e : execFrameEnd p sdi s = .next t) : t.Work := by
  refine work_of_whenLive e h ?_
  have taken : Quiet s (takeSelEdge p s) := setInputs_quiet s _
  split
  · split
    · exact takeBytes_work (h.quiet (taken.trans (changePort_quiet ⟨rfl, rfl, rfl, rfl, rfl⟩)) (.refl _)) _
    · exact h.quiet taken (.refl _)
  · exact h

theorem execEventPosted_work (h : s.Work) (e : execEventPosted p s = .next t) : t.Work := by
  have same (u : PortUnit) (r : EventRecord) (rest : List EventRecord) :
      u.SameWork { u.takeRecord r with posted := rest } := by
    unfold PortUnit.takeRecord
    split
    · split <;> exact ⟨rfl, rfl, rfl, rfl, rfl⟩
    · exact ⟨rfl, rfl, rfl, rfl, rfl⟩
    · exact ⟨rfl, rfl, rfl, rfl, rfl⟩
  refine work_of_whenLive e h ?_
  split
  · exact h
  · exact h.quiet (changePort_quiet (same _ _ _)) (.refl _)

/-- The head of a port's queue can be presented when no command of the port is in progress. -/
theorem presentable_free (h : s.presentable p = true) : s.attached p = true ∧ (s.port p).setAside = false
    ∧ look s.arbiter.purges p = [] := by
  unfold State.presentable at h
  split at h
  · next r head =>
    split at h
    · next k _ =>
      simp only [Bool.and_eq_true, List.isEmpty_iff] at h
      obtain ⟨⟨⟨listed, passes⟩, _⟩, quiet⟩ := h
      have attached : s.attached p = true := by
        unfold State.passes at passes
        cases k <;> simp_all [listClass, usableUnattached]
      exact ⟨attached, setAside_of_head head, quiet⟩
    · cases h
  · cases h

theorem execPresentRequest_work (h : s.Work) (e : execPresentRequest p s = .next t) : t.Work := by
  refine work_of_whenLive e h ?_
  split
  · next able =>
    obtain ⟨attached, free, quiet⟩ := presentable_free able
    have here (q : Port) : (s.setArbiter { s.arbiter with presented := put s.arbiter.presented p true }).work q =
        if q = p then { s.work p with presented := true } else s.work q := by
      unfold State.work
      by_cases same : q = p
      · subst same; simp
      · simp [look_put, same]
    exact h.of_port (.of_same rfl rfl rfl rfl) here
      { h.ports p with presented := fun _ => ⟨beq_iff_eq.1 attached, free, quiet⟩ }
      (fun _ _ _ _ may => may.of_same rfl rfl rfl rfl rfl rfl) rfl
  · exact h

/-- What the law reads of a port whose unit has changed. -/
def PortWork.ofUnit (w : PortWork) (u : PortUnit) : PortWork :=
  { w with
    state := u.state, cleanup := u.cleanup, setAside := u.setAside, epoch := u.epoch, produced := u.produced.map (·.1) }

theorem changePort_work (p q : Port) (f : PortUnit → PortUnit) (s : State) :
    (s.changePort p f).work q = if q = p then (s.work p).ofUnit (f (s.port p)) else s.work q := by
  unfold State.work
  by_cases same : q = p
  · subst same; simp [PortWork.ofUnit]
  · simp [changePort_port, same]

/-- The oldest reply on its way is discarded (R185). -/
theorem PortWork.Lawful.flushed {w : PortWork} {c : Ticket} {ts : List Ticket} (h : w.Lawful p)
    (first : w.produced = c :: ts) : ({ w with produced := ts } : PortWork).Lawful p :=
  { h with
    owed := by
      have owed := h.owed
      unfold PortWork.owed at owed ⊢
      rw [first, ofEpoch_cons] at owed
      dsimp only
      omega
    produced := fun t m => h.produced t (first ▸ List.mem_cons_of_mem c m) }

/-- The reply that the port's command in progress is owed arrives (R184). -/
theorem PortWork.Lawful.received {w : PortWork} {c : Ticket} {ts : List Ticket} (h : w.Lawful p)
    (first : w.produced = c :: ts) (present : c.epoch = w.epoch) :
    ({ w with produced := ts, setAside := false } : PortWork).Lawful p :=
  { h.flushed first with
    presented := fun m => by
      obtain ⟨attached, _, quiet⟩ := h.presented m
      exact ⟨attached, rfl, quiet⟩
    owed := by
      have owed := h.owed.trans (Bool.toNat_le w.setAside)
      unfold PortWork.owed at owed ⊢
      rw [first, ofEpoch_cons, ofEpoch_one present] at owed
      dsimp only [Bool.toNat_false]
      omega }

theorem execReplyArrival_work (h : s.Work) (e : execReplyArrival p s = .next t) : t.Work := by
  refine work_of_whenLive e h ?_
  split
  · exact h
  · next c r rest first =>
    have queue : (s.work p).produced = c :: rest.map (·.1) := by simp [State.work, first]
    obtain ⟨rfl, _⟩ := (h.ports p).produced c (by simp [queue])
    split
    · exact h.of_port (.of_same rfl rfl rfl rfl) (changePort_work c.port · _ s) ((h.ports _).flushed queue)
        (fun _ _ _ _ may => may.of_same rfl rfl rfl rfl rfl rfl) rfl
    · next present =>
      split
      · have present : c.epoch = (s.work c.port).epoch := by simpa [State.current, State.work] using present
        exact h.of_port (.of_same rfl rfl rfl rfl) (changePort_work c.port · _ s) ((h.ports _).received queue present)
          (fun _ _ _ _ may => may.of_same rfl rfl rfl rfl rfl rfl) rfl
      · exact h

theorem execBadKind_work (h : s.Work) (e : execBadKind p s = .next t) : t.Work := by
  refine work_of_whenLive e h ?_
  split
  · next r head =>
    split
    · exact (serves_takeHead h (setAside_of_head head) r).answer _ _
    · exact h
  · exact h

theorem execPortUnitNotAttached_work (h : s.Work) (e : execPortUnitNotAttached p s = .next t) : t.Work := by
  refine work_of_whenLive e h ?_
  split
  · next r head =>
    split
    · exact (serves_takeHead h (setAside_of_head head) r).answer _ _
    · exact h
  · exact h

theorem execReadTime_work (h : s.Work) (e : execReadTime p s = .next t) : t.Work :=
  work_of_takeDirect e h fun _ _ _ serves => serves.answer _ _

theorem execReadEvents_work (h : s.Work) (e : execReadEvents p s = .next t) : t.Work := by
  refine work_of_takeDirect e h fun c b u serves => ?_
  unfold readEvents
  split <;> exact serves.answer _ _

theorem execAckEvents_work (h : s.Work) (e : execAckEvents p s = .next t) : t.Work := by
  refine work_of_takeDirect e h fun c b u serves => ?_
  unfold ackEvents
  split
  · exact serves.answer _ _
  · exact (serves.quiet (changePort_quiet ⟨rfl, rfl, rfl, rfl, rfl⟩) rfl).answer _ _

end PortUnits

end Sys2Proof.Machine
end

section
/-! PROOFS. The law of work in progress at the commands of the claim unit (chapter 7). -/

namespace Sys2Proof.Machine

/-! ### What the claim unit's work does to the law -/

namespace PortWork.Lawful

variable {w : PortWork} {p : Port} {j k : ReleaseJob} {c : Ticket}

/-- A RELEASE of the port begins at the claim unit. -/
theorem released (h : w.Lawful p) (attached : w.state = .attached) (port : k.ticket.port = p)
    (present : k.ticket.epoch = w.epoch) (done : w.owed = 0) (taken : w.setAside = true) :
    ({ w with release := some k } : PortWork).Lawful p :=
  have clean := h.clean_of_attached attached
  have steps := h.cleanings
  { h with
    lapsePast := fun m => by
      have : 0 < w.cleanings := by
        unfold PortWork.cleanings
        rcases m with m | m <;> simp only at m <;> simp [m]
      simp [clean] at steps
      omega
    owed := by
      unfold PortWork.owed at done ⊢
      simp only [Option.map_some, Option.toList_some, ofEpoch_one present, taken, Bool.toNat_true]
      omega
    release := fun j e => by cases e; exact ⟨port, .inl ⟨attached, present⟩⟩ }

/-- A RELEASE moves on to another stage. -/
theorem release_moved (h : w.Lawful p) (hj : w.release = some j) (same : k.ticket = j.ticket) :
    ({ w with release := some k } : PortWork).Lawful p :=
  { h with
    lapsePast := fun m => by simp [(h.lapsePast m).2] at hj
    owed := by
      have owed := h.owed
      unfold PortWork.owed at owed ⊢
      simpa [hj, same] using owed
    release := fun i e => by cases e; exact same ▸ h.release j hj }

/-- A RELEASE is over; a reply to its ticket is not owed by it any more. -/
theorem release_over (h : w.Lawful p) : ({ w with release := none } : PortWork).Lawful p :=
  { h with
    lapsePast := fun m => ⟨(h.lapsePast m).1, rfl⟩
    owed := by
      have owed := h.owed
      unfold PortWork.owed at owed ⊢
      simp only [Option.map_none, Option.toList_none, ofEpoch_nil]
      omega
    release := fun i e => by cases e }

/-- Late RELEASEs with the same tickets, or fewer. -/
theorem late_moved {js : List ReleaseJob} (h : w.Lawful p)
    (hj : ∀ k, k ∈ js → ∃ j, j ∈ w.late ∧ k.ticket = j.ticket) : ({ w with late := js } : PortWork).Lawful p :=
  { h with
    late := fun k m => by
      obtain ⟨j, hm, same⟩ := hj k m
      exact same ▸ h.late j hm }

end PortWork.Lawful

/-! ### Claims (R120 to R122, R134) -/

section Claims

variable {s t : State} {p : Port}

/-- A claim record whose line bears no cue, or that keeps its holder. -/
theorem setRecord_still {l : Line} {r : ClaimRecord}
    (h : r.held = (s.claims.record l).held ∨ ∀ i c, s.cueTable.cue i = some c → c.line ≠ l) :
    Still s (s.setClaims (s.claims.setRecord l r)) := by
  refine ⟨fun _ => rfl, ⟨.refl _, fun i c hc => ?_, fun _ _ _ => rfl⟩, rfl, rfl, rfl⟩
  have holder : (s.claims.setRecord l r).holder c.line =
      if c.line = l then r.held.map (·.holder) else s.claims.holder c.line := by
    unfold ClaimUnit.holder ClaimUnit.setRecord
    rw [look_put]
    split <;> rfl
  rw [setClaims_claims, holder]
  split
  · next here =>
    rcases h with same | bare
    · rw [same, here]; rfl
    · exact absurd here (bare i c hc)
  · rfl

/-- Work of the claim unit that leaves the claim records and a halt. -/
theorem setClaims_aside {u : ClaimUnit} (hr : u.records = s.claims.records) (hh : u.halt = s.claims.halt) :
    Aside s (s.setClaims u) :=
  ⟨⟨.refl _, fun i c _ => by simp [ClaimUnit.holder, hr], fun _ _ _ => rfl⟩, rfl, rfl, hh⟩

theorem claimLine_work {c : Ticket} {l : Line} {wait : Bool} (h : s.Serves c) : (claimLine c l wait s).Work := by
  unfold claimLine
  dsimp only
  split
  · next free =>
    refine (h.toOwes.still (setRecord_still (.inr fun i d hd here => ?_))).answer _ _
    have holds := (h.law.owners i d hd).1
    rw [here] at holds
    unfold ClaimUnit.record at free
    simp [ClaimUnit.holder, free] at holds
  · iterate 3
      split
      · exact h.answer _ _
    have waits : Still s (s.setClaims (s.claims.setRecord l
        { s.claims.record l with waiters := (s.claims.record l).waiters ++ [c.port] })) := setRecord_still (.inl rfl)
    exact (h.toOwes.still waits).answer _ _

theorem execClaim_work (h : s.Work) (e : execClaim p s = .next t) : t.Work := by
  refine work_of_takeDirect e h fun c b u serves => ?_
  unfold claim
  iterate 2
    split
    · exact serves.answer _ _
  split
  · exact claimLine_work serves
  · exact serves.answer _ _

theorem execQueryLine_work (h : s.Work) (e : execQueryLine p s = .next t) : t.Work := by
  refine work_of_takeDirect e h fun c b u serves => ?_
  unfold queryLine
  split
  · exact serves.answer _ _
  · split <;> exact serves.answer _ _

end Claims

/-! ### RELEASE (R125 to R128) -/

section Releases

variable {s t : State} {p : Port} {j : ReleaseJob}

theorem setRelease_work (k : Option ReleaseJob) (s : State) (q : Port) :
    (s.setClaims (s.claims.setRelease p k)).work q = if q = p then { s.work p with release := k } else s.work q := by
  unfold State.work ClaimUnit.setRelease
  by_cases same : q = p
  · subst same; simp
  · simp [look_put, same]

theorem setLate_work (js : List ReleaseJob) (s : State) (q : Port) :
    (s.setClaims { s.claims with late := put s.claims.late p js }).work q =
      if q = p then { s.work p with late := js } else s.work q := by
  unfold State.work
  by_cases same : q = p
  · subst same; simp
  · simp [look_put, same]

/-- A RELEASE begins for a port that has no cue left on its line. -/
theorem beginRelease_work {c : Ticket} (h : s.Serves c) (attached : (s.work c.port).state = .attached) {l : Line}
    {st : ReleaseStage} (bare : ∀ i d, s.cueTable.cue i = some d → d.owner = c.port → d.line ≠ l) :
    (s.setClaims (s.claims.setRelease c.port (some { ticket := c, line := l, stage := st }))).Work := by
  obtain ⟨done, taken⟩ := h.room_taken
  refine h.law.of_port (setClaims_aside rfl rfl) (setRelease_work _ s)
    ((h.law.ports _).released attached rfl h.present done taken) (fun i d hd o may => ?_) rfl
  exact ⟨may.present, may.detaching, may.detachDone, fun k e => by cases e; exact (bare i d hd o).symm⟩

/-- A port's RELEASE that an event takes is its present one or a late one. -/
theorem served_cases {u : ClaimUnit} {st : ReleaseStage} (h : u.served p st = some j) :
    look u.releases p = some j ∨ j ∈ look u.late p := by
  unfold ClaimUnit.served at h
  rcases Option.or_eq_some_iff.1 h with present | ⟨_, late⟩
  · exact .inl (Option.filter_eq_some_iff.1 present).1
  · exact .inr (List.mem_of_find?_eq_some late)

theorem mem_of_mem_replace {α : Type} [BEq α] {a b x : α} {l : List α} (h : x ∈ l.replace a b) : x = b ∨ x ∈ l := by
  induction l with
  | nil => cases h
  | cons y ys ih =>
    rw [List.replace_cons] at h
    split at h
    · exact (List.mem_cons.1 h).imp_right (List.mem_cons_of_mem y)
    · rcases List.mem_cons.1 h with rfl | m
      · exact .inr List.mem_cons_self
      · exact (ih m).imp_right (List.mem_cons_of_mem y)

/-- A RELEASE that moves on to another stage of its work. -/
theorem moveRelease_work (h : s.Work) (hj : look s.claims.releases p = some j ∨ j ∈ look s.claims.late p)
    {k : ReleaseJob} (ticket : k.ticket = j.ticket) (line : k.line = j.line) :
    (s.setClaims (s.claims.moveRelease p j (some k))).Work := by
  unfold ClaimUnit.moveRelease
  split
  · next present =>
    refine h.of_port (setClaims_aside rfl rfl) (setRelease_work _ s) ((h.ports p).release_moved present ticket)
      (fun i d hd o may => ?_) rfl
    exact ⟨may.present, may.detaching, may.detachDone, fun i e => by cases e; rw [line]; exact may.release j present⟩
  · next other =>
    refine h.of_port (setClaims_aside rfl rfl) (setLate_work _ s) ((h.ports p).late_moved fun i m => ?_)
      (fun _ _ _ _ may => may.of_same rfl rfl rfl rfl rfl rfl) rfl
    rcases mem_of_mem_replace m with rfl | m
    · exact ⟨j, hj.resolve_left other, ticket⟩
    · exact ⟨i, m, rfl⟩

/-- A RELEASE that is over, and its reply can be produced. -/
theorem overRelease_owes (h : s.Work) (hj : look s.claims.releases p = some j ∨ j ∈ look s.claims.late p) :
    (s.setClaims (s.claims.moveRelease p j none)).Owes j.ticket := by
  unfold ClaimUnit.moveRelease
  split
  · next present =>
    obtain ⟨rfl, state⟩ := (h.ports p).release j present
    have law : (s.setClaims (s.claims.setRelease j.ticket.port none)).Work :=
      h.of_port (setClaims_aside rfl rfl) (setRelease_work _ s) (h.ports _).release_over
        (fun _ _ _ _ may => ⟨may.present, may.detaching, may.detachDone, fun k e => by cases e⟩) rfl
    have owed := (h.ports j.ticket.port).owed
    refine ⟨law, ?_, ?_⟩
    · rw [setRelease_work, if_pos rfl]
      exact state.elim (fun now => now.2.le) fun past => past.2.le
    · rw [setRelease_work, if_pos rfl]
      have release : (s.work j.ticket.port).release = some j := present
      unfold PortWork.owed at owed ⊢
      simp only [release, Option.map_some, Option.toList_some, Option.map_none, Option.toList_none,
        ofEpoch_nil] at owed ⊢
      omega
  · next other =>
    obtain ⟨rfl, past⟩ := (h.ports p).late j (hj.resolve_left other)
    have law : (s.setClaims { s.claims with
        late := change s.claims.late j.ticket.port (fun js => js.erase j) }).Work :=
      h.of_port (setClaims_aside rfl rfl) (setLate_work _ s)
        ((h.ports _).late_moved fun i m => ⟨i, List.mem_of_mem_erase m, rfl⟩)
        (fun _ _ _ _ may => may.of_same rfl rfl rfl rfl rfl rfl) rfl
    refine ⟨law, ?_, ?_⟩
    · rw [change, setLate_work, if_pos rfl]
      exact past.le
    · rw [change, setLate_work, if_pos rfl]
      exact (congrArg (_ + ·) (ofEpoch_past past)).le.trans (h.ports j.ticket.port).owed

theorem execRelease_work (h : s.Work) (e : execRelease p s = .next t) : t.Work := by
  refine work_of_takeGranted e rfl h fun c b u serves attached _ => ?_
  unfold releaseLine
  iterate 2
    split
    · exact serves.answer _ _
  next l _ =>
  split
  · have purged : Still u (u.setCueTable (u.cueTable.linePurge c.port l)) :=
      (setCueTable_quiet u _).still (u.cueTable.purge_moves u.now _).thins
    have serves' : (u.setCueTable (u.cueTable.linePurge c.port l)).Serves c :=
      ⟨serves.toOwes.still purged, serves.present⟩
    refine beginRelease_work serves' attached fun i d hd owner line => ?_
    have left : d ∈ (u.cueTable.purge _).cue i := hd
    rw [CueTable.purge_cue] at left
    simpa [owner, line] using (Option.mem_filter_iff.1 left).2
  · next other =>
    refine beginRelease_work serves attached fun i d hd owner line => other ?_
    rw [← line, ← owner]
    exact (serves.law.owners i d hd).1

theorem decideRelease_work (h : s.Work) (hj : look s.claims.releases p = some j ∨ j ∈ look s.claims.late p) :
    (decideRelease p j s).Work := by
  unfold decideRelease
  dsimp only
  split
  · exact moveRelease_work h hj rfl rfl
  · split
    · have left : Still s (s.setClaims (s.claims.setRecord j.line { s.claims.record j.line with
          waiters := (s.claims.record j.line).waiters.filter (fun q => q != p) })) := setRecord_still (.inl rfl)
      exact (overRelease_owes (h.still left) hj).answer _ _
    · exact (overRelease_owes h hj).answer _ _

theorem execReleaseAtClaimUnit_work (h : s.Work) (e : execReleaseAtClaimUnit p s = .next t) : t.Work := by
  refine work_of_whenLive e h ?_
  split
  · next j served => exact decideRelease_work h (served_cases served)
  · exact h

/-- A transfer by a port that has no cue on the line changes nothing the law reads (R126, R131). -/
theorem transferLine_still {l : Line} (h : s.Work)
    (bare : ∀ i c, s.cueTable.cue i = some c → c.line = l → c.owner ≠ p) : Still s (transferLine p l s) := by
  unfold transferLine
  split
  · next holds =>
    have free : Still s (s.setClaims (s.claims.setRecord l
        ((s.claims.record l).transferred s.session.phase s.now))) := by
      refine setRecord_still (.inr fun i c hc here => bare i c hc here ?_)
      have owner := (h.owners i c hc).1
      rw [here, holds] at owner
      exact (Option.some.inj owner).symm
    dsimp only
    split
    · exact free.trans ((post_quiet _ _ _).still (by rw [post_cueTable]; exact .refl _))
    · exact free
  · exact (Quiet.refl s).still (.refl _)

theorem finishRelease_work (h : s.Work) (hj : look s.claims.releases p = some j ∨ j ∈ look s.claims.late p) :
    (finishRelease p j s).Work := by
  have given : Still s (if s.mayTransfer p j then transferLine p j.line s else s) := by
    split
    · next may =>
      refine transferLine_still h fun i c hc here owner => ?_
      rcases (mayTransfer_iff s p j).1 may with present | bare
      · exact (owner ▸ (h.owners i c hc).2.release) j present here.symm
      · exact bare i c hc here owner
    · exact (Quiet.refl s).still (.refl _)
  have releases : look (if s.mayTransfer p j then transferLine p j.line s else s).claims.releases p
      = look s.claims.releases p := congrArg PortWork.release (given.work p)
  have late : look (if s.mayTransfer p j then transferLine p j.line s else s).claims.late p
      = look s.claims.late p := congrArg PortWork.late (given.work p)
  rw [← releases, ← late] at hj
  exact (overRelease_owes (h.still given) hj).answer _ _

end Releases

/-! ### Port releases (R130, R131) -/

section Departures

variable {s t : State} {p : Port} {why : Departure} {d : PortRelease}

namespace PortWork

variable {w : PortWork}

/-- The port release of the port for a reason. -/
def departure (w : PortWork) : Departure → Option PortRelease
  | .detach => w.detaching
  | .lapse => w.lapsing

/-- The work of a port whose port release has come to another stage. -/
def departing (w : PortWork) (why : Departure) (d : PortRelease) : PortWork :=
  match why with
  | .detach => { w with detaching := some d }
  | .lapse => { w with lapsing := some d }

/-- The work of a port whose port release is complete. -/
def departed (w : PortWork) (why : Departure) (owes : Option Ticket) : PortWork :=
  match why with
  | .detach => { w with detaching := none, detachDone := w.detachDone ++ owes.toList }
  | .lapse => { w with lapsing := none, lapseDone := true, release := none, late := w.late ++ w.release.toList }

/-- A lapse cleanup that has its port release has no other step, and its port is LAPSED. -/
theorem Lawful.lapsing_alone (h : w.Lawful p) (hd : w.lapsing = some d) : w.cleanup = true
    ∧ w.purges.count .lapse = 0 ∧ w.lapseDone = false ∧ w.cleanupWaits = false := by
  have steps := h.cleanings
  unfold PortWork.cleanings at steps
  rw [hd] at steps
  cases hc : w.cleanup <;> cases hl : w.lapseDone <;> cases hw : w.cleanupWaits <;> simp [hc, hl, hw] at steps ⊢
  simpa using steps

/-- A port that gives its lines up owns no cue (R38, R40). -/
theorem Lawful.not_mayOwn (h : w.Lawful p) (hd : w.departure why = some d) (l : Line) : ¬ w.MayOwn l := by
  intro may
  cases why with
  | detach => simp [departure, may.detaching] at hd
  | lapse =>
    obtain ⟨cleaning, asked, _⟩ := h.lapsing_alone hd
    rcases may.present with attached | m
    · simp [h.clean_of_attached attached] at cleaning
    · exact absurd (List.count_pos_iff.2 m) (by omega)

theorem Lawful.departing (h : w.Lawful p) (hd : w.departure why = some d) {d' : PortRelease} (owes : d'.owes = d.owes)
    (alone : why = .lapse → w.detaching = none) : (w.departing why d').Lawful p := by
  cases why with
  | detach =>
    have hd : w.detaching = some d := hd
    exact { h with
      lapseStarted := fun j hj started => by simp [h.lapseStarted j hj started] at hd
      lapsePast := fun m => by simp [(h.lapsePast m).1] at hd
      owed := by
        have owed := h.owed
        unfold PortWork.owed at owed ⊢
        simpa [PortWork.departing, hd, owes] using owed
      detaching := fun e he => by cases he; rw [owes]; exact h.detaching d hd }
  | lapse =>
    have hd : w.lapsing = some d := hd
    exact { h with
      cleanings := by
        have steps := h.cleanings
        unfold PortWork.cleanings at steps ⊢
        simpa [PortWork.departing, hd] using steps
      lapseStarted := fun _ _ _ => alone rfl }

theorem Lawful.departed (h : w.Lawful p) (hd : w.departure why = some d) (alone : why = .lapse → w.detaching = none) :
    (w.departed why d.owes).Lawful p := by
  cases why with
  | detach =>
    have hd : w.detaching = some d := hd
    exact { h with
      lapseStarted := fun _ _ _ => rfl
      lapsePast := fun m => ⟨rfl, (h.lapsePast m).2⟩
      owed := by
        have owed := h.owed
        unfold PortWork.owed at owed ⊢
        simp only [PortWork.departed, hd, Option.bind_some, Option.bind_none, Option.toList_none, ofEpoch_nil,
          ofEpoch_append] at owed ⊢
        omega
      detachDone := fun t m => by
        rcases List.mem_append.1 m with m | m
        · exact h.detachDone t m
        · exact (h.detaching d hd).1 t (Option.mem_toList.1 m)
      detaching := fun e he => by cases he }
  | lapse =>
    have hd : w.lapsing = some d := hd
    obtain ⟨cleaning, asked, _, waits⟩ := h.lapsing_alone hd
    exact { h with
      cleanings := by
        have steps := h.cleanings
        unfold PortWork.cleanings at steps ⊢
        simp [PortWork.departed, cleaning, asked, waits]
      lapseStarted := fun j hj => by cases hj
      lapsePast := fun _ => ⟨alone rfl, rfl⟩
      owed := by
        have owed := h.owed
        unfold PortWork.owed at owed ⊢
        simp only [PortWork.departed, Option.map_none, Option.toList_none, ofEpoch_nil]
        omega
      release := fun j hj => by cases hj
      late := fun j m => by
        rcases List.mem_append.1 m with m | m
        · exact h.late j m
        · obtain ⟨port, state⟩ := h.release j (Option.mem_toList.1 m)
          refine ⟨port, ?_⟩
          rcases state with ⟨attached, _⟩ | ⟨_, past⟩
          · simp [h.clean_of_attached attached] at cleaning
          · exact past }

end PortWork

theorem departure_work (s : State) : (s.work p).departure why = s.claims.departure p why := by cases why <;> rfl

theorem setDeparture_work (s : State) (q : Port) : (s.setClaims (s.claims.setDeparture p why (some d))).work q =
    if q = p then (s.work p).departing why d else s.work q := by
  unfold State.work
  by_cases same : q = p
  · subst same; cases why <;> simp [ClaimUnit.setDeparture, PortWork.departing]
  · cases why <;> simp [ClaimUnit.setDeparture, look_put, same]

theorem notified_work (owes : Option Ticket) (s : State) (q : Port) :
    (s.setClaims (s.claims.notified p why owes)).work q =
      if q = p then (s.work p).departed why owes else s.work q := by
  unfold State.work
  by_cases same : q = p
  · subst same; cases why <;> simp [ClaimUnit.notified, PortWork.departed]
  · cases why <;> simp [ClaimUnit.notified, look_put, same]

/-- A port release that comes to another stage. -/
theorem setDeparture_keepsWork (h : s.Work) (hd : s.claims.departure p why = some d) {d' : PortRelease}
    (owes : d'.owes = d.owes) (alone : why = .lapse → look s.claims.detaching p = none) :
    (s.setClaims (s.claims.setDeparture p why (some d'))).Work := by
  rw [← departure_work] at hd
  refine h.of_port (setClaims_aside ?_ ?_) (setDeparture_work s) ((h.ports p).departing hd owes alone)
    (fun i c _ _ may => absurd may ((h.ports p).not_mayOwn hd c.line)) ?_ <;> cases why <;> rfl

/-- A port release goes on with the lines left, or completes. -/
theorem proceed_work (h : s.Work) (hd : s.claims.departure p why = some d)
    (alone : why = .lapse → look s.claims.detaching p = none) (lines : List Line) :
    (s.setClaims (s.claims.proceed p why d.owes lines)).Work := by
  unfold ClaimUnit.proceed
  split
  · rw [complete_notified]
    rw [← departure_work] at hd
    refine h.of_port (setClaims_aside ?_ ?_) (notified_work _ s) ((h.ports p).departed hd alone)
      (fun i c _ _ may => absurd may ((h.ports p).not_mayOwn hd c.line)) ?_ <;> cases why <;> rfl
  · exact setDeparture_keepsWork h hd rfl alone

theorem execPortReleaseStart_work (h : s.Work) (e : execPortReleaseStart p why s = .next t) : t.Work := by
  refine work_of_whenLive e h ?_
  split
  · next d hd =>
    split
    · next starts =>
      have left : Still s (s.setClaims (s.claims.forgetWaiter p)) := by
        refine ⟨fun _ => rfl, ⟨.refl _, fun i c _ => ?_, fun _ _ _ => rfl⟩, rfl, rfl, rfl⟩
        simp [ClaimUnit.holder, ClaimUnit.forgetWaiter]
      have hd' : (s.setClaims (s.claims.forgetWaiter p)).claims.departure p why = some d := by
        cases why <;> exact hd
      refine proceed_work (h.still left) hd' (fun lapse => ?_) _
      subst lapse
      simp only [ClaimUnit.mayStart, Bool.and_eq_true, Option.isNone_iff_eq_none] at starts
      exact starts.2.1.1
    · exact h
  · exact h

end Departures

/-! ### Drives and transfers (R90, R126, R131, R132) -/

section Handovers

variable {s t : State} {p : Port}

/-- A port release that has started leaves no DETACH beside a lapse. -/
theorem alone_of_giving {why : Departure} {d : PortRelease} (h : s.Work) (hd : s.claims.departure p why = some d)
    (started : d.stage ≠ .notStarted) (lapse : why = .lapse) : look s.claims.detaching p = none := by
  subst lapse
  exact (h.ports p).lapseStarted d hd started

/-- A halt whose purge has been made goes on, with no cue left that a line's holder could own. -/
theorem haltStage_work (h : s.Work) (busy : s.claims.halt ≠ .idle) (rs : Vector ClaimRecord 16) (x : HaltRelease) :
    (s.setClaims { s.claims with records := rs, halt := x }).Work := by
  obtain ⟨setup, cleanup, empty, quiet⟩ := h.halts.halting busy
  exact h.of_cues (.of_none (.refl _) empty) h.ports (fun _ _ _ may => may)
    ⟨h.halts.setup, h.halts.asked, fun _ => ⟨setup, cleanup, empty, quiet⟩⟩

theorem execSafeLevelDrive_work {hand : Handover} (h : s.Work) (e : execSafeLevelDrive hand s = .next t) : t.Work := by
  refine work_of_whenLive e h ?_
  have driven (l : Line) : (driveLine l s).Work :=
    h.quiet (driveLine_quiet s l) (by rw [driveLine_cueTable]; exact .refl _)
  have all : (driveEvery s).Work := h.quiet (driveEvery_quiet s) (by rw [driveEvery_cueTable]; exact .refl _)
  cases hand with
  | release p =>
    dsimp only
    split
    · next j served => exact moveRelease_work (driven j.line) (served_cases served) rfl rfl
    · exact h
  | departure p why =>
    dsimp only
    split
    · next owes l rest hd =>
      exact setDeparture_keepsWork (driven l) hd rfl (alone_of_giving (driven l) hd (by simp))
    · exact h
  | halt =>
    dsimp only
    split
    · next drive =>
      exact haltStage_work all (by rw [driveEvery_claims, drive]; simp) (driveEvery s).claims.records .release
    · exact h

theorem execClaimTransfer_work {hand : Handover} (h : s.Work) (e : execClaimTransfer hand s = .next t) : t.Work := by
  refine work_of_whenLive e h ?_
  cases hand with
  | release p =>
    dsimp only
    split
    · next j served => exact finishRelease_work h (served_cases served)
    · exact h
  | departure p why =>
    dsimp only
    split
    · next owes l rest hd =>
      have given : Still s (transferLine p l s) := transferLine_still h fun i c hc _ owner =>
        (h.ports p).not_mayOwn ((departure_work s).trans hd) c.line (owner ▸ (h.owners i c hc).2)
      have hd' : (transferLine p l s).claims.departure p why =
          some { owes := owes, stage := .giving (l :: rest) true } := by
        rw [← departure_work, given.work, departure_work, hd]
      exact proceed_work (h.still given) hd' (alone_of_giving (h.still given) hd' (by simp)) rest
    · exact h
  | halt => exact h

theorem execHaltRelease_work (h : s.Work) (e : execHaltRelease s = .next t) : t.Work := by
  refine work_of_whenLive e h ?_
  split
  · next release => exact haltStage_work h (by rw [release]; simp) _ .notice
  · exact h

end Handovers

end Sys2Proof.Machine
end

section
/-! PROOFS. The law of work in progress at the commands of the session unit (chapter 9), at the purges of DETACH, lapse
and halt, and at ADD_CUE. -/

namespace Sys2Proof.Machine

/-! ### The phase (R160, R163, R166) -/

section Phases

variable {s t : State} {p : Port} {c : Ticket}

/-- In RUN no halt is on its way. -/
theorem State.Work.run (h : s.Work) (run : s.session.phase = .run) :
    (∀ q, .halt ∉ (s.work q).purges) ∧ s.claims.halt = .idle := by
  refine ⟨fun q m => ?_, ?_⟩
  · simpa [run] using (h.halts.asked q m).1
  · by_contra busy
    simpa [run] using (h.halts.halting busy).1

/-- Outside a halt there is none on its way either. -/
theorem State.Work.no_halt (h : s.Work) (done : s.session.haltCleanup = false) :
    (∀ q, .halt ∉ (s.work q).purges) ∧ s.claims.halt = .idle := by
  refine ⟨fun q m => ?_, ?_⟩
  · simpa [done] using (h.halts.asked q m).2.1
  · by_contra busy
    simpa [done] using (h.halts.halting busy).2.1

/-- Another phase while no halt is on its way, where SETUP finds the table empty. -/
theorem setPhase_work (h : s.Work) (quiet : (∀ q, .halt ∉ (s.work q).purges) ∧ s.claims.halt = .idle) (x : Phase)
    (empty : x = .setup → ∀ i, s.cueTable.cue i = none) : (s.setSession { s.session with phase := x }).Work :=
  h.of_cues (.of_same rfl rfl rfl) h.ports (fun _ _ _ may => may)
    ⟨fun setup _ => empty setup, fun q m => absurd m (quiet.1 q), fun busy => absurd quiet.2 busy⟩

theorem phaseCheck_works (s : State) (q : Port) : (phaseCheck s).work q = s.work q := by
  unfold phaseCheck
  split
  · rw [(postAll_quiet _ _).work]
    rfl
  · rfl

theorem phaseCheck_work (h : s.Work) : (phaseCheck s).Work := by
  unfold phaseCheck
  split
  · next agreed =>
    simp only [State.agreed, Bool.and_eq_true, Bool.not_eq_true'] at agreed
    exact (setPhase_work h (h.no_halt agreed.1.1.2) .run (fun e => by cases e)).quiet (postAll_quiet _ _)
      (by rw [postAll_cueTable]; exact .refl _)
  · exact h

theorem State.Owes.phaseCheck (h : s.Owes c) : (phaseCheck s).Owes c :=
  h.of_work (phaseCheck_work h.law) (phaseCheck_works s _)

/-- With no port ATTACHED and no lapse cleanup pending, no port can own a cue (R45). -/
theorem empty_of_left (h : s.Work) (left : s.attachedPorts = []) (clean : ∀ p, (s.port p).cleanup = false)
    (i : SlotId) : s.cueTable.cue i = none := by
  by_contra stands
  obtain ⟨d, hd⟩ := Option.ne_none_iff_exists'.1 stands
  rcases (h.owners i d hd).2.present with attached | asked
  · have here : d.owner ∈ s.attachedPorts := by
      simp only [State.attachedPorts, List.mem_filter, mem_indices, true_and]
      exact beq_iff_eq.2 attached
    simp [left] at here
  · have steps := (h.ports d.owner).cleanings
    have one := List.count_pos_iff.2 asked
    have clean : (s.work d.owner).cleanup = false := clean d.owner
    rw [clean] at steps
    unfold PortWork.cleanings at steps
    simp at steps
    omega

theorem emptyRunCheck_works (s : State) (q : Port) : (emptyRunCheck s).work q = s.work q := by
  rcases emptyRunCheck_cases s with e | e <;> rw [e]
  rw [(driveEvery_quiet _).work]
  rfl

theorem emptyRunCheck_work (h : s.Work) : (emptyRunCheck s).Work := by
  unfold emptyRunCheck
  split
  · next checked =>
    simp only [Bool.and_eq_true, beq_iff_eq, List.isEmpty_iff, List.all_eq_true, mem_indices, true_imp_iff,
      Bool.not_eq_true'] at checked
    obtain ⟨⟨run, left⟩, clean⟩ := checked
    exact (setPhase_work h (h.run run) .setup fun _ => empty_of_left h left clean).quiet (driveEvery_quiet _)
      (by rw [driveEvery_cueTable]; exact .refl _)
  · exact h

theorem State.Owes.emptyRunCheck (h : s.Owes c) : (emptyRunCheck s).Owes c :=
  h.of_work (emptyRunCheck_work h.law) (emptyRunCheck_works s _)

/-! ### The decision of a halt (R163) -/

/-- The work of a port beside a new waiter for a halt. -/
def PortWork.besideWaiter (w : PortWork) (p : Port) (x : HaltWaiter) : PortWork :=
  { w with waiting := ticketsFor p (some x), cleanupWaits := some x == some (.lapse p) }

/-- The work of a port on whose leaf a purge request waits behind others. -/
def PortWork.asked (w : PortWork) (k : PurgeRequest) : PortWork := { w with purges := w.purges ++ [k] }

theorem requestPurge_work (p q : Port) (k : PurgeRequest) (s : State) :
    (requestPurge p k s).work q = if q = p then (s.work p).asked k else s.work q := by
  unfold State.work
  by_cases same : q = p
  · subst same; simp [PortWork.asked, requestPurge]
  · simp [requestPurge, look_change, same]

theorem decideHalt_works (x : HaltWaiter) (q : Port) (s : State) : (decideHalt p x s).work q =
    if q = p then ((s.work q).besideWaiter q x).asked .halt else (s.work q).besideWaiter q x := by
  unfold decideHalt
  rw [requestPurge_work, (driveEvery_quiet _).work, (driveEvery_quiet _).work]
  split
  · next same => subst same; rfl
  · rfl

theorem PortWork.Lawful.asked_halt {w : PortWork} (h : w.Lawful p) (free : w.presented = false) :
    (w.asked .halt).Lawful p :=
  { h with
    cleanings := by
      have steps := h.cleanings
      unfold PortWork.cleanings at steps ⊢
      simpa [PortWork.asked] using steps
    presented := fun m => by simp [PortWork.asked, free] at m }

/-- A halt is decided in RUN, on the leaf of a port that presents no request. -/
theorem decideHalt_work {x : HaltWaiter} (h : s.Work) (run : s.session.phase = .run)
    (free : (s.work p).presented = false) (lawful : ∀ q, ((s.work q).besideWaiter q x).Lawful q) :
    (decideHalt p x s).Work := by
  obtain ⟨quiet, idle⟩ := h.run run
  have asks (q : Port) (m : .halt ∈ ((decideHalt p x s).work q).purges) : q = p := by
    rw [decideHalt_works] at m
    split at m
    · next same => exact same
    · exact absurd m (quiet q)
  have stays : CuesStay s (decideHalt p x s) :=
    ⟨by rw [decideHalt_cueTable]; exact .refl _, by simp, fun i d _ => by
      rw [decideHalt_output]
      exact ((OutputUnit.driveAll_steady _ _).lines _).group⟩
  refine h.of_cues stays (fun q => ?_) (fun i d _ may => ?_) ⟨fun _ done => ?_, fun q m => ?_, fun busy => ?_⟩
  · rw [decideHalt_works]
    split
    · next same => exact (lawful q).asked_halt (same ▸ free)
    · exact lawful q
  · rw [decideHalt_works]
    split
    · exact ⟨may.present.imp_right fun m => List.mem_append_left _ m, may.detaching, may.detachDone, may.release⟩
    · exact ⟨may.present, may.detaching, may.detachDone, may.release⟩
  · simp at done
  · have here := asks q m
    refine ⟨by simp, by simp, ?_, fun r m => (asks r m).trans here.symm⟩
    rw [decideHalt_works, if_pos here]
    show ((s.work q).purges ++ [PurgeRequest.halt]).count .halt = 1
    rw [List.count_append, List.count_eq_zero.2 (quiet q)]
    rfl
  · rw [decideHalt_claims] at busy
    exact absurd idle busy

/-- The reply that waits for a halt is the one its port is owed. -/
theorem State.Owes.beside (h : s.Owes c) {x : HaltWaiter}
    (hx : ∀ q, ticketsFor q (some x) = if c.port = q then [c] else [])
    (hl : ∀ q, x ≠ .lapse q) (q : Port) : ((s.work q).besideWaiter q x).Lawful q := by
  have lawful := h.law.ports q
  have none : (some x == some (HaltWaiter.lapse q)) = false := by simpa using hl q
  exact { lawful with
    cleanings := by
      have steps := lawful.cleanings
      unfold PortWork.cleanings at steps ⊢
      simp only [PortWork.besideWaiter, none, Bool.toNat_false]
      omega
    lapsePast := fun m => by
      simp only [PortWork.besideWaiter, none, Bool.false_eq_true, or_false] at m
      exact lawful.lapsePast (.inl m)
    owed := by
      have owed := lawful.owed
      unfold PortWork.owed at owed ⊢
      simp only [PortWork.besideWaiter, hx]
      split
      · next here =>
        subst here
        have room := h.room
        unfold PortWork.owed at room
        omega
      · rw [ofEpoch_nil]
        omega
    waiting := fun t m => by
      simp only [PortWork.besideWaiter, hx] at m
      split at m
      · next here =>
        cases List.mem_singleton.1 m
        exact ⟨here, here ▸ h.epoch⟩
      · cases m }

/-! ### The end of a lapse cleanup (R169) -/

/-- A port's lapse cleanup is over once nothing of it stands. -/
theorem clearCleanup_work (h : s.Work) (steps : (s.work p).cleanings = 0) (detaching : (s.work p).detaching = none)
    (release : (s.work p).release = none) : (clearCleanup p s).Work := by
  have lawful := h.ports p
  refine h.of_port (.of_same rfl rfl rfl rfl) (changePort_work p · _ s) ?_
    (fun _ _ _ _ may => may.of_same rfl rfl rfl rfl rfl rfl) rfl
  exact { lawful with
    cleaning := fun m => by cases m
    cleanings := steps.le
    detaching := fun d hd => by
      have hd : (s.work p).detaching = some d := hd
      simp [detaching] at hd
    release := fun j hj => by
      have hj : (s.work p).release = some j := hj
      simp [release] at hj }

end Phases

/-! ### ATTACH, the configuration and the votes (R149, R155 to R163) -/

section Sessions

variable {s t : State} {p : Port}

/-- A port becomes ATTACHED (R149). -/
theorem PortWork.Lawful.attaches {w : PortWork} (h : w.Lawful p) (clean : w.cleanup = false)
    (free : w.presented = false) : ({ w with state := .attached } : PortWork).Lawful p :=
  { h with
    cleaning := fun m => by simp [clean] at m
    presented := fun m => by simp [free] at m
    detaching := fun d hd => (h.detaching d hd).imp_right (Or.imp_left fun present => ⟨rfl, present.2⟩)
    release := fun j hj => (h.release j hj).imp_right (Or.imp_left fun present => ⟨rfl, present.2⟩) }

theorem attach_owes {c : Ticket} (h : s.Serves c) (clean : (s.work c.port).cleanup = false) :
    (loadLease c.port ((s.changePort c.port PortUnit.attach).setSession (s.session.forget c.port))).Owes c := by
  have here (q : Port) : (s.changePort c.port PortUnit.attach).work q =
      if q = c.port then { s.work c.port with state := .attached } else s.work q := changePort_work c.port q _ s
  have law : (s.changePort c.port PortUnit.attach).Work :=
    h.law.of_port (.of_same rfl rfl rfl rfl) here ((h.law.ports _).attaches clean h.not_presented)
      (fun _ _ _ _ may => ⟨.inl rfl, may.detaching, may.detachDone, may.release⟩) rfl
  have owes : (s.changePort c.port PortUnit.attach).Owes c := by
    refine ⟨law, ?_, ?_⟩
    · rw [here, if_pos rfl]; exact h.epoch
    · rw [here, if_pos rfl]; exact h.room
  exact (owes.quiet (forget_quiet _ c.port) rfl).quiet (loadLease_quiet _ c.port) rfl

theorem execAttach_work (h : s.Work) (e : execAttach p s = .next t) : t.Work := by
  refine work_of_takeDirect e h fun c b u serves => ?_
  have clean (away : (u.work c.port).state ≠ .lapsed) : (u.work c.port).cleanup = false := by
    by_contra cleaning
    exact away ((serves.law.ports _).cleaning (by simpa using cleaning))
  unfold attach
  split
  · exact serves.answer _ _
  · exact serves.answer _ _
  · next detached => exact (attach_owes serves (clean (by simp [State.work, detached]))).answer _ _
  · next done => exact (attach_owes serves done).answer _ _

/-- Outside a halt a configuration is written in SETUP, where no cue is in the table. -/
theorem configure_still (w : ConfigWrite) (h : s.Work) (setup : s.session.phase = .setup)
    (done : s.session.haltCleanup = false) : Still s (configure w s) := by
  have session : (s.session.configure w).phase = s.session.phase
      ∧ (s.session.configure w).haltCleanup = s.session.haltCleanup
      ∧ (s.session.configure w).haltWaiter = s.session.haltWaiter := by
    cases w <;> exact ⟨rfl, rfl, rfl⟩
  obtain ⟨phase, cleanup, waiter⟩ := session
  have stored := (setSession_quiet phase cleanup waiter).trans (setTimeBase_quiet _ (s.timeBase.configure w))
  refine (stored.still (.refl _)).trans
    ⟨fun _ => rfl, ⟨.of_none (.refl _) (h.halts.setup setup done), ?_, ?_, ?_⟩⟩ <;> rfl

theorem execWriteConfig_work (h : s.Work) (e : execWriteConfig p s = .next t) : t.Work := by
  refine work_of_takeDirect e h fun c b u serves => ?_
  unfold writeConfig
  split
  · exact serves.answer _ _
  · next setup =>
    split
    · exact serves.answer _ _
    · next done =>
      split
      · exact serves.answer _ _
      · split
        · exact serves.answer _ _
        · exact serves.answer _ _
        · split
          · exact serves.answer _ _
          · next w _ =>
            have setup : u.session.phase = .setup := by cases hp : u.session.phase <;> simp_all
            exact (serves.toOwes.still (configure_still w serves.law setup (by simpa using done))).answer _ _

theorem execReadConfig_work (h : s.Work) (e : execReadConfig p s = .next t) : t.Work := by
  refine work_of_takeDirect e h fun c b u serves => ?_
  unfold readConfig
  split
  · exact serves.answer _ _
  · split <;> exact serves.answer _ _

theorem execConfirm_work (h : s.Work) (e : execConfirm p s = .next t) : t.Work := by
  refine work_of_takeDirect e h fun c b u serves => ?_
  unfold confirm
  iterate 5
    split
    · exact serves.answer _ _
  have recorded : Quiet u (u.setSession { u.session with confirmed := put u.session.confirmed c.port true }) :=
    setSession_quiet rfl rfl rfl
  exact (serves.toOwes.quiet recorded rfl).phaseCheck.answer _ _

theorem execHaltVote_work (h : s.Work) (e : execHaltVote p s = .next t) : t.Work := by
  refine work_of_takeDirect e h fun c b u serves => ?_
  have recorded : Quiet u (u.setSession { u.session with voted := put u.session.voted c.port true }) :=
    setSession_quiet rfl rfl rfl
  have voted := serves.quiet recorded rfl
  unfold haltVote
  split
  · exact serves.answer _ _
  · dsimp only
    split
    · next decided =>
      simp only [State.decidesHalt, Bool.and_eq_true, beq_iff_eq] at decided
      exact decideHalt_work voted.law decided.1.1 voted.not_presented
        (voted.toOwes.beside (fun _ => rfl) (fun _ => by simp))
    · exact voted.answer _ _

end Sessions

/-! ### The completion of a DETACH (R151, R152, R165) -/

section Detaching

variable {s t : State} {p : Port} {c : Ticket}

/-- The completion notice of a DETACH is taken. -/
theorem PortWork.Lawful.noticed {w : PortWork} {ts : List Ticket} (h : w.Lawful p) (first : w.detachDone = c :: ts) :
    ({ w with detachDone := ts } : PortWork).Lawful p :=
  { h with
    owed := by
      have owed := h.owed
      unfold PortWork.owed at owed ⊢
      rw [first, ofEpoch_cons] at owed
      dsimp only
      omega
    detachDone := fun t m => h.detachDone t (first ▸ List.mem_cons_of_mem c m) }

/-- A port whose last reply is its DETACH's becomes DETACHED (R151). -/
theorem PortWork.Lawful.leaves {w : PortWork} (h : w.Lawful p) (clean : w.cleanup = false) (done : w.owed = 0)
    (free : w.presented = false) : ({ w with state := .detached } : PortWork).Lawful p :=
  have idle := h.idle done clean
  { h with
    cleaning := fun m => by simp [clean] at m
    presented := fun m => by simp [free] at m
    detaching := fun d hd => by simp [idle.1] at hd
    release := fun j hj => by simp [idle.2.1] at hj }

theorem departureCheck_work (h : s.Owes c) (free : (s.work c.port).presented = false) : (departureCheck c s).Work := by
  unfold departureCheck
  split
  · exact h.phaseCheck.answer _ _
  · split
    · exact h.emptyRunCheck.answer _ _
    · split
      · next decided =>
        simp only [State.decidesHalt, Bool.and_eq_true, beq_iff_eq] at decided
        exact decideHalt_work h.law decided.1.1 free (h.beside (fun _ => rfl) (fun _ => by simp))
      · exact h.answer _ _

theorem completeDetach_work (h : s.Owes c)
    (bare : c.epoch = (s.work c.port).epoch → ∀ i d, s.cueTable.cue i = some d → d.owner ≠ c.port) :
    (completeDetach c s).Work := by
  have away (u : State) (hu : u.Work) (state : (u.work c.port).state ≠ .attached) :
      (u.work c.port).presented = false := by
    by_contra presented
    exact state ((hu.ports _).presented (by simpa using presented)).1
  unfold completeDetach
  dsimp only
  split
  · next lapsed =>
    have forgotten := h.quiet (forget_quiet s c.port) rfl
    refine departureCheck_work forgotten (away _ forgotten.law ?_)
    simp [State.work, lapsed]
  · next here =>
    split
    · next present =>
      have present : c.epoch = (s.work c.port).epoch := by simpa [State.current, State.work] using present
      have serves : s.Serves c := ⟨h, present⟩
      have clean : (s.work c.port).cleanup = false := by
        by_contra cleaning
        exact here ((h.law.ports _).cleaning (by simpa using cleaning))
      have left (q : Port) : (s.changePort c.port PortUnit.leave).work q =
          if q = c.port then { s.work c.port with state := .detached } else s.work q := changePort_work c.port q _ s
      have law : (s.changePort c.port PortUnit.leave).Work :=
        h.law.of_port (.of_same rfl rfl rfl rfl) left
          ((h.law.ports _).leaves clean serves.room_taken.1 serves.not_presented)
          (fun i d hd owner _ => absurd owner (bare present i d hd)) rfl
      have owes : (s.changePort c.port PortUnit.leave).Owes c := by
        refine ⟨law, ?_, ?_⟩
        · rw [left, if_pos rfl]; exact h.epoch
        · rw [left, if_pos rfl]; exact h.room
      have forgotten := owes.quiet (forget_quiet _ c.port) rfl
      refine departureCheck_work forgotten (away _ forgotten.law ?_)
      show ((s.changePort c.port PortUnit.leave).work c.port).state ≠ .attached
      rw [left, if_pos rfl]
      simp
    · exact h.answer _ _

theorem execDetachCompletion_work (h : s.Work) (e : execDetachCompletion p s = .next t) : t.Work := by
  refine work_of_whenLive e h ?_
  split
  · next c rest first =>
    have first : (s.work p).detachDone = c :: rest := first
    have notice : c ∈ (s.work p).detachDone := by simp [first]
    obtain ⟨rfl, epoch⟩ := (h.ports p).detachDone c notice
    have here (q : Port) : (s.setClaims { s.claims with detachDone := put s.claims.detachDone c.port rest }).work q =
        if q = c.port then { s.work c.port with detachDone := rest } else s.work q := by
      unfold State.work
      by_cases same : q = c.port
      · subst same; simp
      · simp [look_put, same]
    have law : (s.setClaims { s.claims with detachDone := put s.claims.detachDone c.port rest }).Work :=
      h.of_port (setClaims_aside rfl rfl) here ((h.ports _).noticed first)
        (fun _ _ _ _ may => ⟨may.present, may.detaching, fun t m => may.detachDone t (first ▸ List.mem_cons_of_mem c m),
          may.release⟩) rfl
    have owes : (s.setClaims { s.claims with detachDone := put s.claims.detachDone c.port rest }).Owes c := by
      refine ⟨law, ?_, ?_⟩
      · rw [here, if_pos rfl]; exact epoch
      · rw [here, if_pos rfl]
        have owed := (h.ports c.port).owed
        unfold PortWork.owed at owed ⊢
        rw [first, ofEpoch_cons] at owed
        dsimp only
        omega
    refine completeDetach_work owes fun present i d hd owner => ?_
    rw [here, if_pos rfl] at present
    exact (owner ▸ (h.owners i d hd).2.detachDone) c notice present
  · exact h

end Detaching

/-! ### The completion of a halt and of a lapse cleanup (R163, R169) -/

section Completions

variable {s t : State} {p : Port}

/-- The work of a port when a halt is over. -/
def PortWork.pastHalt (w : PortWork) : PortWork := { w with waiting := [], cleanupWaits := false }

theorem PortWork.Lawful.pastHalt {w : PortWork} (h : w.Lawful p) : w.pastHalt.Lawful p :=
  { h with
    cleanings := by
      have steps := h.cleanings
      unfold PortWork.cleanings at steps ⊢
      simp only [PortWork.pastHalt, Bool.toNat_false]
      omega
    lapsePast := fun m => h.lapsePast (m.imp_right fun waits => by cases waits)
    owed := by
      have owed := h.owed
      unfold PortWork.owed at owed ⊢
      simp only [PortWork.pastHalt, ofEpoch_nil]
      omega
    waiting := fun t m => by cases m }

/-- The halt has released every line, and what waits for it is taken off (R163). -/
theorem afterHalt_work (h : s.Work) (notice : s.claims.halt = .notice) :
    ((s.setClaims { s.claims with halt := .idle }).setSession s.session.afterHalt).Work := by
  obtain ⟨_, _, empty, quiet⟩ := h.halts.halting (by simp [notice])
  refine h.of_cues (.of_none (.refl _) empty) (fun q => (h.ports q).pastHalt)
    (fun _ _ _ may => ⟨may.present, may.detaching, may.detachDone, may.release⟩) ⟨fun _ _ => empty, fun q m => ?_, ?_⟩
  · exact absurd m (quiet q)
  · exact fun busy => absurd rfl busy

/-- A reply that waited for the halt can be produced. -/
theorem afterHalt_owes {c : Ticket} (h : s.Work) (notice : s.claims.halt = .notice)
    (waits : ticketsFor c.port s.session.haltWaiter = [c]) :
    ((s.setClaims { s.claims with halt := .idle }).setSession s.session.afterHalt).Owes c := by
  have waits : (s.work c.port).waiting = [c] := waits
  have owed := (h.ports c.port).owed
  refine ⟨afterHalt_work h notice, ((h.ports c.port).waiting c (by simp [waits])).2, ?_⟩
  show (s.work c.port).pastHalt.owed + ofEpoch (s.work c.port).epoch [c] ≤ (s.work c.port).setAside.toNat
  unfold PortWork.owed at owed ⊢
  simp only [waits, PortWork.pastHalt, ofEpoch_nil] at owed ⊢
  omega

theorem execHaltCompletion_work (h : s.Work) (e : execHaltCompletion s = .next t) : t.Work := by
  refine work_of_whenLive e h ?_
  split
  · next notice =>
    have told (u : State) := postAll_quiet u (phaseRecord .setup s.session.version s.now)
    have law := (afterHalt_work h notice).quiet (told _) (by rw [postAll_cueTable]; exact .refl _)
    unfold resumeWaiter
    split
    · next c _ waits =>
      exact ((afterHalt_owes h notice (by simp [ticketsFor, waits])).quiet (told _) (by simp)).answer _ _
    · next c waits =>
      exact ((afterHalt_owes h notice (by simp [ticketsFor, waits])).quiet (told _) (by simp)).answer _ _
    · next p waits =>
      have waits : (s.work p).cleanupWaits = true := cleanupWaits_iff.2 waits
      obtain ⟨detaching, release⟩ := (h.ports p).lapsePast (.inr waits)
      refine clearCleanup_work law ?_ ?_ ?_
      · rw [(told _).work]
        show (s.work p).pastHalt.cleanings = 0
        have steps := (h.ports p).cleanings.trans (Bool.toNat_le _)
        unfold PortWork.cleanings at steps ⊢
        simp only [waits, PortWork.pastHalt, Bool.toNat_true, Bool.toNat_false] at steps ⊢
        omega
      · rw [(told _).work]; exact detaching
      · rw [(told _).work]; exact release
    · exact law
  · exact h

/-- The notice of a lapse cleanup is taken: nothing of it stands any more. -/
theorem takeLapseNotice_work (h : s.Work) (done : look s.claims.lapseDone p = true) :
    let u := s.setClaims { s.claims with lapseDone := put s.claims.lapseDone p false }
    u.Work ∧ (u.work p).cleanings = 0 ∧ (u.work p).detaching = none ∧ (u.work p).release = none
      ∧ (u.work p).cleanup = true := by
  intro u
  have here (q : Port) : u.work q = if q = p then { s.work p with lapseDone := false } else s.work q := by
    unfold State.work
    by_cases same : q = p
    · subst same; simp [u]
    · simp [u, look_put, same]
  have done : (s.work p).lapseDone = true := done
  obtain ⟨detaching, release⟩ := (h.ports p).lapsePast (.inl done)
  have steps := (h.ports p).cleanings
  have cleaning : (s.work p).cleanup = true := by
    by_contra clean
    rw [Bool.eq_false_iff.2 clean] at steps
    unfold PortWork.cleanings at steps
    simp [done] at steps
  have none : ({ s.work p with lapseDone := false } : PortWork).cleanings = 0 := by
    unfold PortWork.cleanings at steps ⊢
    simp only [done, cleaning, Bool.toNat_true, Bool.toNat_false] at steps ⊢
    omega
  have lawful : ({ s.work p with lapseDone := false } : PortWork).Lawful p :=
    { h.ports p with cleanings := none.trans_le (Nat.zero_le _), lapsePast := fun _ => ⟨detaching, release⟩ }
  refine ⟨h.of_port (setClaims_aside rfl rfl) here lawful (fun _ _ _ _ may => may.of_same rfl rfl rfl rfl rfl rfl) rfl,
    ?_, ?_, ?_, ?_⟩ <;> rw [here, if_pos rfl]
  · exact none
  · exact detaching
  · exact release
  · exact cleaning

/-- A lapse cleanup that decides a halt waits for it (R165). -/
theorem PortWork.Lawful.beside_lapse {w : PortWork} {q : Port} (h : w.Lawful q)
    (last : p = q → w.cleanings = 0 ∧ w.detaching = none ∧ w.release = none ∧ w.cleanup = true) :
    (w.besideWaiter q (.lapse p)).Lawful q := by
  have waits : (w.besideWaiter q (.lapse p)).cleanupWaits = decide (p = q) := by
    rw [Bool.eq_iff_iff]
    simp [PortWork.besideWaiter]
  exact { h with
    cleanings := by
      have steps := h.cleanings
      unfold PortWork.cleanings at steps last ⊢
      rw [waits]
      simp only [PortWork.besideWaiter]
      by_cases same : p = q
      · obtain ⟨none, _, _, cleaning⟩ := last same
        simp only [same, cleaning, decide_true, Bool.toNat_true]
        omega
      · simp only [same, decide_false, Bool.toNat_false]
        omega
    lapsePast := fun m => by
      rw [waits, decide_eq_true_eq] at m
      rcases m with done | same
      · exact h.lapsePast (.inl done)
      · obtain ⟨_, detaching, release, _⟩ := last same
        exact ⟨detaching, release⟩
    owed := by
      have owed := h.owed
      unfold PortWork.owed at owed ⊢
      simp only [PortWork.besideWaiter, ticketsFor, ofEpoch_nil]
      omega
    waiting := fun t m => by cases m }

theorem execLapseCleanupCompletion_work (h : s.Work) (e : execLapseCleanupCompletion p s = .next t) : t.Work := by
  refine work_of_whenLive e h ?_
  split
  · next done =>
    obtain ⟨law, steps, detaching, release, cleaning⟩ := takeLapseNotice_work h done
    have cleared := clearCleanup_work law steps detaching release
    unfold completeCleanup
    split
    · exact phaseCheck_work cleared
    · split
      · exact emptyRunCheck_work cleared
      · split
        · next decided =>
          simp only [State.decidesHalt, Bool.and_eq_true, beq_iff_eq] at decided
          refine decideHalt_work law decided.1.1 ?_ fun q => (law.ports q).beside_lapse fun same => ?_
          · by_contra presented
            have attached := ((law.ports p).presented (by simpa using presented)).1
            simp [(law.ports p).clean_of_attached attached] at cleaning
          · subst same
            exact ⟨steps, detaching, release, cleaning⟩
        · exact cleared
  · exact h

/-! ### Lapse (R168, R185) -/

/-- The work of a port that lapses. -/
def PortWork.lapsed (w : PortWork) : PortWork :=
  { w with
    state := .lapsed, cleanup := true, setAside := false, epoch := w.epoch + 1, presented := false
    purges := w.purges ++ [.lapse] }

theorem PortWork.Lawful.lapsed {w : PortWork} (h : w.Lawful p) (attached : w.state = .attached) :
    w.lapsed.Lawful p := by
  have clean := h.clean_of_attached attached
  have steps : w.cleanings = 0 := by
    have steps := h.cleanings
    rw [clean] at steps
    exact Nat.le_zero.1 steps
  have past {t : Ticket} (now : t.epoch ≤ w.epoch) : t.epoch < w.epoch + 1 := Nat.lt_succ_of_le now
  unfold PortWork.cleanings at steps
  refine ⟨fun _ => rfl, ?_, fun j hj _ => ?_, fun m => ?_, (fun m => by cases m), ?_, fun t m => ?_, fun t m => ?_,
    fun t m => ?_, fun d hd => ?_, fun j hj => ?_, fun j m => ?_⟩
  · unfold PortWork.cleanings
    simp only [PortWork.lapsed, List.count_append, List.count_singleton_self, Bool.toNat_true]
    omega
  · have hj : w.lapsing = some j := hj
    simp [hj] at steps
  · have m : w.lapseDone = true ∨ w.cleanupWaits = true := m
    rcases m with m | m <;> simp [m] at steps
  · have none {ts : List Ticket} (hts : ∀ t, t ∈ ts → t.epoch ≤ w.epoch) : ofEpoch (w.epoch + 1) ts = 0 :=
      ofEpoch_none fun t m => past (hts t m)
    have release : ofEpoch (w.epoch + 1) (w.release.map (·.ticket)).toList = 0 := none fun t m => by
      obtain ⟨j, hj, rfl⟩ := Option.map_eq_some_iff.1 (Option.mem_toList.1 m)
      exact (h.release j hj).2.elim (fun now => now.2.le) fun old => old.2.le
    have detaching : ofEpoch (w.epoch + 1) (w.detaching.bind (·.owes)).toList = 0 := none fun t m => by
      obtain ⟨d, hd, owes⟩ := Option.bind_eq_some_iff.1 (Option.mem_toList.1 m)
      exact ((h.detaching d hd).1 t owes).2
    unfold PortWork.owed
    simp only [PortWork.lapsed, release, detaching, none fun t m => (h.produced t m).2,
      none fun t m => (h.detachDone t m).2, none fun t m => (h.waiting t m).2, Nat.add_zero, Nat.zero_le]
  · exact ⟨(h.produced t m).1, (past (h.produced t m).2).le⟩
  · exact ⟨(h.waiting t m).1, (past (h.waiting t m).2).le⟩
  · exact ⟨(h.detachDone t m).1, (past (h.detachDone t m).2).le⟩
  · exact ⟨fun t ht => ⟨((h.detaching d hd).1 t ht).1, (past ((h.detaching d hd).1 t ht).2).le⟩, .inr rfl⟩
  · refine ⟨(h.release j hj).1, .inr ⟨rfl, past ?_⟩⟩
    exact (h.release j hj).2.elim (fun now => now.2.le) fun old => old.2.le
  · exact ⟨(h.late j m).1, past (h.late j m).2.le⟩

theorem lapsePort_work (h : s.Work) (attached : (s.work p).state = .attached) : (lapsePort p s).Work := by
  have here (q : Port) : (lapsePort p s).work q = if q = p then (s.work p).lapsed else s.work q := by
    unfold lapsePort
    rw [requestPurge_work, (postAll_quiet _ _).work, (postAll_quiet _ _).work]
    unfold State.work
    by_cases same : q = p
    · subst same
      simp [withdraw, PortUnit.lapse, PortWork.lapsed, PortWork.asked, Session.forget]
    · simp [withdraw, Session.forget, changePort_port, look_put, same]
  have stays : Aside s (lapsePort p s) := by
    unfold lapsePort
    exact ⟨⟨by simp; exact .refl _, by simp [withdraw], by simp [withdraw]⟩, by simp [withdraw, Session.forget],
      by simp [withdraw, Session.forget], by simp [withdraw]⟩
  refine h.of_port stays here ((h.ports p).lapsed attached) (fun i c _ _ may => ?_) ?_
  · exact ⟨.inr (by simp [PortWork.lapsed]), may.detaching,
      fun t m => (Nat.lt_succ_of_le ((h.ports p).detachDone t m).2).ne, may.release⟩
  · show ((s.work p).purges ++ [PurgeRequest.lapse]).count .halt = _
    simp

theorem execLapse_work (h : s.Work) (e : execLapse p s = .next t) : t.Work := by
  refine work_of_whenLive e h ?_
  split
  · next due =>
    simp only [State.leaseOver, Bool.and_eq_true, beq_iff_eq] at due
    exact lapsePort_work h (beq_iff_eq.1 due.1)
  · exact h

end Completions

/-! ### The purges (R38 to R41, R138, R151) -/

section Purges

variable {s t : State} {p : Port}

/-- A DETACH begins for a port that has no cue left (R151). -/
theorem PortWork.Lawful.detaches {w : PortWork} {c : Ticket} (h : w.Lawful c.port) (attached : w.state = .attached)
    (present : c.epoch = w.epoch) (done : w.owed = 0) (taken : w.setAside = true) :
    (w.departing .detach { owes := some c, stage := .notStarted }).Lawful c.port :=
  have clean := h.clean_of_attached attached
  have steps := h.cleanings
  { h with
    lapseStarted := fun j hj _ => by
      have hj : w.lapsing = some j := hj
      simp [(h.lapsing_alone hj).1] at clean
    lapsePast := fun m => by
      have m : w.lapseDone = true ∨ w.cleanupWaits = true := m
      unfold PortWork.cleanings at steps
      rcases m with m | m <;> simp [m, clean] at steps
    owed := by
      have idle := h.idle done clean
      unfold PortWork.owed at done ⊢
      simp only [PortWork.departing, Option.bind_some, Option.toList_some, ofEpoch_one present, taken, Bool.toNat_true]
      omega
    detaching := fun d hd => by
      cases hd
      refine ⟨fun t ht => ?_, .inl ⟨attached, c, rfl, present⟩⟩
      cases ht
      exact ⟨rfl, present.le⟩ }

/-- The port purge leaves no cue of the port (R40). -/
theorem portPurge_bare {ct : CueTable} {i : SlotId} {c : Cue} (h : (ct.portPurge p).cue i = some c) : c.owner ≠ p := by
  intro owner
  have left : c ∈ (ct.purge _).cue i := h
  rw [CueTable.purge_cue] at left
  simpa [owner] using (Option.mem_filter_iff.1 left).2

theorem execDetach_work (h : s.Work) (e : execDetach p s = .next t) : t.Work := by
  refine work_of_takeGranted e rfl h fun c b u serves attached _ => ?_
  obtain ⟨done, taken⟩ := serves.room_taken
  have purged : Still u (u.setCueTable (u.cueTable.portPurge c.port)) :=
    (setCueTable_quiet u _).still (u.cueTable.portPurge_moves u.now _).thins
  exact (serves.law.still purged).of_port (setClaims_aside rfl rfl) (setDeparture_work (why := .detach) _)
    ((serves.law.ports _).detaches attached serves.present done taken)
    (fun i d hd owner _ => absurd owner (portPurge_bare hd)) rfl

/-- The first purge request of a leaf is taken off it. -/
theorem grantPurge_work (p q : Port) (s : State) : (grantPurge p s).work q =
    if q = p then { s.work p with purges := (s.work p).purges.tail } else s.work q := by
  unfold State.work
  by_cases same : q = p
  · subst same; simp [grantPurge, moveSwitches]
  · simp [grantPurge, moveSwitches, look_change, same]

theorem purges_of_granted {k : PurgeRequest} (h : s.purgeGranted p k = true) :
    (s.work p).purges = k :: (s.work p).purges.tail := by
  simp only [State.purgeGranted, State.firstPurge, Bool.and_eq_true, beq_iff_eq] at h
  exact (List.eq_cons_of_mem_head? (Option.mem_def.2 h.2))

/-- The purge of a lapse is made and its port release begins (R40, R169). -/
theorem PortWork.Lawful.cleans {w : PortWork} {ks : List PurgeRequest} (h : w.Lawful p)
    (first : w.purges = .lapse :: ks) :
    (({ w with purges := ks } : PortWork).departing .lapse { owes := none, stage := .notStarted }).Lawful p := by
  have steps := h.cleanings
  unfold PortWork.cleanings at steps
  rw [first, List.count_cons_self] at steps
  have bound := steps.trans (Bool.toNat_le _)
  have none : w.lapsing = none := by
    cases hl : w.lapsing with
    | none => rfl
    | some j =>
      simp only [hl, Option.toList_some, List.length_singleton] at bound
      omega
  exact { h with
    cleanings := by
      unfold PortWork.cleanings
      simp only [none, Option.toList_none, List.length_nil] at steps
      simp only [PortWork.departing, Option.toList_some, List.length_singleton]
      omega
    lapseStarted := fun j hj started => by cases hj; exact absurd rfl started
    presented := fun m => by simpa [first] using (h.presented m).2.2 }

theorem execLapsePurge_work (h : s.Work) (e : execLapsePurge p s = .next t) : t.Work := by
  refine work_of_whenLive e h ?_
  split
  · next granted =>
    have first := purges_of_granted granted
    have table : s.cueTable.Thins (s.cueTable.portPurge p) := (s.cueTable.portPurge_moves s.now p).thins
    have stays : Aside s (purgePort p .lapse none (grantPurge p s)) :=
      ⟨⟨table, fun _ _ _ => rfl, fun _ _ _ => rfl⟩, rfl, rfl, rfl⟩
    have here (q : Port) : (purgePort p .lapse none (grantPurge p s)).work q = if q = p then
        ({ s.work p with purges := (s.work p).purges.tail } : PortWork).departing .lapse
          { owes := none, stage := .notStarted } else s.work q := by
      have purged := setDeparture_work (why := .lapse) (p := p) (d := { owes := none, stage := .notStarted })
        ((grantPurge p s).setCueTable (s.cueTable.portPurge p)) q
      refine purged.trans ?_
      rw [(setCueTable_quiet (grantPurge p s) _).work, (setCueTable_quiet (grantPurge p s) _).work, grantPurge_work,
        grantPurge_work, if_pos rfl]
      split <;> rfl
    refine h.of_port stays here ((h.ports p).cleans first) (fun i d hd owner _ => absurd owner (portPurge_bare hd)) ?_
    show (s.work p).purges.tail.count .halt = (s.work p).purges.count .halt
    conv_rhs => rw [first]
    simp
  · exact h

theorem haltPurge_empty (ct : CueTable) (i : SlotId) : ct.haltPurge.cue i = none := by
  show (ct.purge _).cue i = none
  rw [CueTable.purge_cue]
  simp

/-- The purge of a halt is made (R41): one leaf had asked for it, and no cue is left. -/
theorem purgeForHalt_work (h : s.Work) (granted : s.purgeGranted p .halt = true) :
    (purgeForHalt (grantPurge p s)).Work := by
  have first := purges_of_granted granted
  obtain ⟨setup, cleanup, once, only⟩ := h.halts.asked p (by rw [first]; exact List.mem_cons_self)
  have here (q : Port) : (purgeForHalt (grantPurge p s)).work q =
      if q = p then { s.work p with purges := (s.work p).purges.tail } else s.work q := grantPurge_work p q s
  have quiet (q : Port) : .halt ∉ ((purgeForHalt (grantPurge p s)).work q).purges := by
    rw [here]
    split
    · rw [first, List.count_cons_self] at once
      exact List.count_eq_zero.1 (Nat.succ.inj once)
    · next other => exact fun m => other (only q m)
  have empty := haltPurge_empty s.cueTable
  refine h.of_cues (.of_none (s.cueTable.haltPurge_moves s.now).thins empty) (fun q => ?_) (fun i d hd => ?_)
    ⟨fun _ _ => empty, fun q m => absurd m (quiet q), fun _ => ⟨setup, cleanup, empty, quiet⟩⟩
  · rw [here]
    split
    · next same =>
      subst same
      have lawful := h.ports q
      exact { lawful with
        cleanings := by
          have steps := lawful.cleanings
          unfold PortWork.cleanings at steps ⊢
          rw [first] at steps
          simpa using steps
        presented := fun m => by
          have none := (lawful.presented m).2.2
          rw [first] at none
          cases none }
    · exact h.ports q
  · have hd : s.cueTable.haltPurge.cue i = some d := hd
    simp [empty] at hd

theorem execHaltPurge_work (h : s.Work) (e : execHaltPurge s = .next t) : t.Work := by
  refine work_of_whenLive e h ?_
  split
  · next p leaf => exact purgeForHalt_work h (List.find?_some (p := fun p => s.purgeGranted p .halt) leaf)
  · exact h

end Purges

/-! ### List-class commands (chapters 2 and 4) -/

section Listing

variable {s t : State} {p : Port}

theorem AnswersMoving.work {c : Ticket} (h : s.Owes c) (a : AnswersMoving c s t) : t.Work := by
  obtain ⟨st, b, ct, moves, rfl⟩ := a
  exact (h.still ((setCueTable_quiet s ct).still moves.thins)).answer st b

/-- A granted command that is answered and at most moves the table. -/
theorem work_of_answers {k : CommandKind} {effect : Ticket → List Byte → State → State} {l : ListClass} (h : s.Work)
    (e : takeGranted k p s effect = .next t) (hc : listClass k = some l)
    (ha : ∀ c b u, AnswersMoving c u (effect c b u)) : t.Work :=
  work_of_takeGranted e hc h fun c b u serves _ _ => (ha c b u).work serves.toOwes

/-- A new cue of a port that may own one on a line it holds (R18, R32). -/
theorem enter_work {c : Cue} {i : SlotId} (h : s.Work) (listed : s.cueTable.Listed) (run : s.session.phase = .run)
    (free : s.cueTable.cue i = none) (holds : s.claims.holder c.line = some c.owner)
    (may : (s.work c.owner).MayOwn c.line) : (s.setCueTable (s.cueTable.enter s.now i c)).Work := by
  obtain ⟨quiet, idle⟩ := h.run run
  have slots (j : SlotId) : (s.cueTable.enter s.now i c).cue j =
      if j = i then some { c with state := .pending, entry := s.cueTable.nextEntry } else s.cueTable.cue j :=
    CueTable.enter_cue _ _ _ _ _
  refine ⟨h.ports, fun j d hd => ?_, fun g j d m hd => ?_, fun setup => ?_, fun q m => absurd m (quiet q),
    fun busy => absurd idle busy⟩
  · rw [setCueTable_cueTable, slots] at hd
    split at hd
    · cases hd; exact ⟨holds, may⟩
    · exact h.owners j d hd
  · rw [setCueTable_cueTable, slots] at hd
    split at hd
    · next here => exact absurd m (here ▸ (listed.not_listed free).2 g)
    · exact h.groups g j d m hd
  · have setup : s.session.phase = .setup := setup
    simp [run] at setup

/-- A port whose command is served, and whose run of commands is owed nothing else, may own a cue on any line. -/
theorem State.Serves.mayOwn {c : Ticket} (h : s.Serves c) (attached : (s.work c.port).state = .attached) (l : Line) :
    (s.work c.port).MayOwn l := by
  have lawful := h.law.ports c.port
  obtain ⟨detaching, release, notices⟩ := lawful.idle h.room_taken.1 (lawful.clean_of_attached attached)
  exact ⟨.inl attached, detaching, notices, fun j hj => by simp [release] at hj⟩

theorem execAddCue_work (listed : s.cueTable.Listed) (h : s.Work) (e : execAddCue p s = .next t) : t.Work := by
  refine work_of_takeGranted e rfl h fun c b u serves attached table => ?_
  rcases addCue_cases c b u with ⟨st, refused⟩ | ⟨q, i, b', run, holds, free, _, enters⟩
  · rw [refused]; exact serves.answer _ _
  · rw [enters]
    have law := enter_work (c := q.cue c.port u.now) serves.law (table ▸ listed) run free holds
      (serves.mayOwn attached q.line)
    exact (serves.toOwes.of_work law rfl).answer _ _

end Listing

/-! ### Every command -/

/-- Every command keeps the law of work in progress. -/
theorem exec_work {c : Instr} {s t : State} (listed : s.cueTable.Listed) (h : s.Work) (e : exec c s = .next t) :
    t.Work := by
  cases c with
  | deviceReset cause => exact execDeviceReset_work h e
  | resetEnd => exact execResetEnd_work h e
  | tbStep => exact execTbStep_work h e
  | faultLow => exact execFaultLow_work h e
  | faultHigh => exact execFaultHigh_work h e
  | frameStart p => exact execFrameStart_work h e
  | frameEnd p sdi => exact execFrameEnd_work h e
  | presentRequest p => exact execPresentRequest_work h e
  | replyArrival p => exact execReplyArrival_work h e
  | eventPosted p => exact execEventPosted_work h e
  | badKind p => exact execBadKind_work h e
  | readTime p => exact execReadTime_work h e
  | readEvents p => exact execReadEvents_work h e
  | ackEvents p => exact execAckEvents_work h e
  | attach p => exact execAttach_work h e
  | writeConfig p => exact execWriteConfig_work h e
  | readConfig p => exact execReadConfig_work h e
  | confirm p => exact execConfirm_work h e
  | haltVote p => exact execHaltVote_work h e
  | claim p => exact execClaim_work h e
  | queryLine p => exact execQueryLine_work h e
  | trip p => exact execTrip_work h e
  | clearTrip p => exact execClearTrip_work h e
  | addCue p => exact execAddCue_work listed h e
  | cancelCue p => exact work_of_answers h e rfl cancelCue_answers
  | queryCue p => exact work_of_answers h e rfl queryCue_answers
  | stage p => exact work_of_answers h e rfl stageCue_answers
  | unstage p => exact work_of_answers h e rfl unstageCue_answers
  | openSet p => exact work_of_answers h e rfl openSet_answers
  | commitSet p => exact work_of_answers h e rfl commitSet_answers
  | abandonSet p => exact work_of_answers h e rfl abandonSet_answers
  | release p => exact execRelease_work h e
  | releaseAtClaimUnit p => exact execReleaseAtClaimUnit_work h e
  | detach p => exact execDetach_work h e
  | lapsePurge p => exact execLapsePurge_work h e
  | haltPurge => exact execHaltPurge_work h e
  | safeLevelDrive hand => exact execSafeLevelDrive_work h e
  | claimTransfer hand => exact execClaimTransfer_work h e
  | portReleaseStart p why => exact execPortReleaseStart_work h e
  | haltRelease => exact execHaltRelease_work h e
  | detachCompletion p => exact execDetachCompletion_work h e
  | haltCompletion => exact execHaltCompletion_work h e
  | lapse p => exact execLapse_work h e
  | lapseCleanupCompletion p => exact execLapseCleanupCompletion_work h e
  | occurrence => exact execOccurrence_work h e
  | commitTimeExpiry k => exact execCommitTimeExpiry_work h e
  | openingNotice g => exact execOpeningNotice_work h e
  | pulseEndExpiry l => exact execPulseEndExpiry_work h e
  | holdoffExpiry g => exact execHoldoffExpiry_work h e
  | refclkPeriodEnd pins => exact execRefclkPeriodEnd_work h e
  | portUnitNotAttached p => exact execPortUnitNotAttached_work h e

/-- Settles O60: every command keeps the law of work in progress in its form by ports, and a step is a command on a
shorter queue. -/
theorem ownersHoldTheirLines : Obligations.OwnersHoldTheirLines := by
  intro s t listed h e
  rw [workLaw_iff] at h ⊢
  exact (step_of_exec (law := fun u => u.cueTable.Listed ∧ u.Work)
    (fun _ _ law e => ⟨exec_listed law.1 e, exec_work law.1 law.2 e⟩)
    (fun rest law => ⟨law.1, law.2.quiet (withPending_quiet s rest) (.refl _)⟩) ⟨listed, h⟩ e).2

end Sys2Proof.Machine
end

section
/-! PROOFS. ADD_CUE (R26 to R33, R193, R195): how its body is read, which check refuses it, and what it does when all
pass. -/

namespace Sys2Proof.Machine

/-! ### Bytes and codes (R15, R193) -/

section Codes

theorem toNat_append_byte {w : Nat} (x : BitVec w) (y : Byte) : (x ++ y).toNat = 256 * x.toNat + y.toNat := by
  rw [BitVec.toNat_append, ← Nat.shiftLeft_add_eq_or_of_lt y.isLt, Nat.shiftLeft_eq]
  omega

theorem mostSignificantFirst (b : List Byte) (i : Nat) : MostSignificantFirst b i :=
  ⟨toNat_append_byte _ _, toNat_append_byte _ _, toNat_append_byte _ _⟩

/-- The two bytes of a half, the first the most significant. -/
theorem halfBytes_append (x y : Byte) : halfBytes (x ++ y) = [x, y] := by
  have bound := y.isLt
  have high : (x ++ y).extractLsb' 8 8 = x := BitVec.eq_of_toNat_eq (by
    rw [BitVec.extractLsb'_toNat, toNat_append_byte, Nat.shiftRight_eq_div_pow]
    omega)
  have low : (x ++ y).extractLsb' 0 8 = y := BitVec.eq_of_toNat_eq (by
    rw [BitVec.extractLsb'_toNat, toNat_append_byte, Nat.shiftRight_eq_div_pow]
    omega)
  exact congrArg₂ (fun u v => [u, v]) high low

theorem indexOf_eq_some {n : Nat} {b : Byte} {i : Fin n} : indexOf n b = some i ↔ b.toNat = i.val := by
  unfold indexOf
  split
  · simp [Fin.ext_iff]
  · next out => exact ⟨fun h => by simp at h, fun h => absurd i.isLt (by omega)⟩

theorem indexOf_eq_none {n : Nat} {b : Byte} : indexOf n b = none ↔ n ≤ b.toNat := by
  unfold indexOf
  split <;> simp_all

theorem actionOf_coded {b : Byte} {a : Action} (h : actionOf b = some a) : a.Coded b := by
  unfold actionOf at h
  unfold Action.Coded
  split at h
  · next e => cases h; simp [e]
  · split at h
    · next e => cases h; simp [e]
    · split at h
      · next e => cases h; simp [e]
      · split at h
        · next e => cases h; simp [e]
        · cases h

theorem actionOf_eq_none {b : Byte} : actionOf b = none ↔ 4 ≤ b.toNat := by
  have other (n : Nat) (small : n < 256) (h : ¬ b = BitVec.ofNat 8 n) : b.toNat ≠ n := fun e =>
    h (BitVec.eq_of_toNat_eq (by rw [BitVec.toNat_ofNat, e, Nat.mod_eq_of_lt small]))
  unfold actionOf
  split
  · next e => subst e; decide
  · next set =>
    split
    · next e => subst e; decide
    · next clear =>
      split
      · next e => subst e; decide
      · next toggle =>
        split
        · next e => subst e; decide
        · next pulse =>
          have set := other 0 (by decide) set
          have clear := other 1 (by decide) clear
          have toggle := other 2 (by decide) toggle
          have pulse := other 3 (by decide) pulse
          simp only [true_iff]
          omega

/-- Only PULSE has the code 3 (R193). -/
theorem Action.Coded.pulse_iff {a : Action} {b : Byte} (h : a.Coded b) : a = .pulse ↔ b = 3 := by
  rcases h with ⟨rfl, rfl⟩ | ⟨rfl, rfl⟩ | ⟨rfl, rfl⟩ | ⟨rfl, rfl⟩ <;> decide

theorem choiceOf_eq_some {α : Type} {hi lo : Bool} {zero one x : α} :
    choiceOf hi lo zero one = some x ↔ hi = false ∧ x = if lo then one else zero := by
  cases hi <;> simp [choiceOf, eq_comm]

end Codes

/-! ### The body of ADD_CUE (R28, R195) -/

section Body

variable {b : List Byte} {q : CueRequest}

theorem parseAddCue_readFrom (h : parseAddCue b = some q) : q.ReadFrom b := by
  unfold parseAddCue at h
  dsimp only at h
  split at h
  · next line action notify miss hl ha hn hm =>
    rw [Option.ite_none_left_eq_some, Option.some.injEq] at h
    obtain ⟨_, rfl⟩ := h
    obtain ⟨_, notify⟩ := choiceOf_eq_some.1 hn
    obtain ⟨_, miss⟩ := choiceOf_eq_some.1 hm
    refine ⟨?_, actionOf_coded ha, rfl, rfl, rfl, rfl, rfl, ?_, miss⟩
    · rw [← indexOf_eq_some.1 hl, BitVec.ofNat_toNat, BitVec.setWidth_eq]
    · rw [notify]
      cases (byteAt b 2).getLsbD 2 <;> rfl
  · cases h

/-- A width does not fit its action: it is there without PULSE, or missing with it, or 0 (R28). -/
theorem widthFits_eq_false {a : Action} {marked : Bool} {w : Half} :
    widthFits a (if marked then some w else none) = false ↔
      (a = .pulse ∧ ¬ marked = true) ∨ (a ≠ .pulse ∧ marked = true) ∨ (marked = true ∧ w = 0) := by
  cases marked <;> cases a <;> simp [widthFits]

/-- The reading refuses exactly the bodies that violate a row of R28 or a code of R195. -/
theorem parseAddCue_eq_none : parseAddCue b = none ↔ AddCueUnfit b := by
  unfold parseAddCue AddCueUnfit
  dsimp only
  split
  · next line action notify miss hl ha hn hm =>
    have line : ¬ 16 ≤ (byteAt b 0).toNat := fun h => by simp [indexOf_eq_none.2 h] at hl
    have coded : ¬ 4 ≤ (byteAt b 1).toNat := fun h => by simp [actionOf_eq_none.2 h] at ha
    obtain ⟨notify, _⟩ := choiceOf_eq_some.1 hn
    obtain ⟨miss, _⟩ := choiceOf_eq_some.1 hm
    have pulse := (actionOf_coded ha).pulse_iff
    rw [ite_eq_left_iff]
    simp only [reduceCtorEq, imp_false, not_not, Bool.or_eq_true, Bool.not_eq_true',
      widthFits_eq_false, pulse, bodyLength, line, coded, notify, miss, Bool.false_eq_true, or_false, false_or]
    cases (byteAt b 2).getLsbD 6 <;> cases (byteAt b 2).getLsbD 5 <;> cases (byteAt b 2).getLsbD 4 <;> simp
    all_goals grind
  · next all =>
    simp only [true_iff]
    by_contra fit
    simp only [not_or, Bool.not_eq_true] at fit
    obtain ⟨_, line, coded, _, _, _, _, _, _, notify, miss⟩ := fit
    cases hl : indexOf 16 (byteAt b 0) with
    | none => exact line (indexOf_eq_none.1 hl)
    | some l =>
      cases ha : actionOf (byteAt b 1) with
      | none => exact coded (actionOf_eq_none.1 ha)
      | some a => exact all l a _ _ hl ha (choiceOf_eq_some.2 ⟨notify, rfl⟩) (choiceOf_eq_some.2 ⟨miss, rfl⟩)

theorem length_of_parse (h : parseAddCue b = some q) : 14 ≤ b.length := by
  by_contra short
  have none := parseAddCue_eq_none.2 (Or.inl (Nat.lt_of_not_le short) : AddCueUnfit b)
  simp [h] at none

end Body

/-! ### The checks (R26 to R31) -/

section Checks

variable {s : State} {p : Port} {k : CommandKind} {r : Request} {cl : ListClass}

/-- A granted command that is answered and does nothing else. -/
theorem grantedOnly_answer (s : State) (c : ListClass) (p : Port) (r : Request) (st : Status) (body : List Byte) :
    GrantedOnly s (answer (s.ticket p r) st body (afterGrant c p s)) c p r st body := by
  refine ⟨⟨rfl, fun b hb => ?_⟩, rfl, ?_⟩
  · cases b <;> simp_all [Block.same]
  · simp [State.portsAnswering]

theorem grantedOnly_of_grants {effect : Ticket → List Byte → State → State} {st : Status} {body : List Byte}
    (h : s.Grants p k r) (hc : listClass k = some cl)
    (he : effect (s.ticket p r) r.body (afterGrant cl p s) = answer (s.ticket p r) st body (afterGrant cl p s)) :
    ∃ t, takeGranted k p s effect = .next t ∧ GrantedOnly s t cl p r st body :=
  ⟨_, takeGranted_of_grants h hc effect, he ▸ grantedOnly_answer s cl p r st body⟩

/-- A granted command that is answered and beside that changes the table. -/
theorem changesOnly_answerTable (s : State) (c : ListClass) (p : Port) (r : Request) (st : Status) (body : List Byte)
    (ct : CueTable) :
    let t := answer (s.ticket p r) st body ((afterGrant c p s).setCueTable ct)
    ChangesOnly [.cueTable, .arbiter, .ports] s t ∧ t.arbiter = s.arbiter.afterGrant c p
      ∧ t.ports = s.portsAnswering p r st body := by
  refine ⟨⟨rfl, fun b hb => ?_⟩, rfl, ?_⟩
  · cases b <;> simp_all [Block.same]
  · simp [State.portsAnswering]

theorem listCheck_setup (h : s.session.phase = .setup) (b : List Byte) : listCheck s p k b = some .wrongPhase := by
  simp [listCheck, h]

theorem listCheck_away (h : s.session.phase = .run) (ha : s.attached p = false) (b : List Byte) :
    listCheck s p k b = some .notAttached := by
  simp [listCheck, h, ha]

theorem listCheck_short {b : List Byte} (h : s.session.phase = .run) (ha : s.attached p = true)
    (hb : b.length < bodyLength k) : listCheck s p k b = some .badField := by
  simp [listCheck, h, ha, hb]

theorem listCheck_passes {b : List Byte} (h : s.session.phase = .run) (ha : s.attached p = true)
    (hb : bodyLength k ≤ b.length) : listCheck s p k b = none := by
  simp [listCheck, h, ha, Nat.not_lt.2 hb]

end Checks

/-! ### ADD_CUE admitted and refused (R27 to R33) -/

section Adding

variable {s : State} {p : Port} {r : Request} {q : CueRequest} {c : Ticket} {b : List Byte} {st : Status}

theorem addCue_of_listCheck (h : listCheck s c.port .addCue b = some st) : addCue c b s = answer c st [] s := by
  simp [addCue, h]

theorem addCue_of_unfit (h : listCheck s c.port .addCue b = none) (hb : parseAddCue b = none) :
    addCue c b s = answer c .badField [] s := by
  simp [addCue, h, hb]

theorem addCue_of_refused (h : listCheck s c.port .addCue b = none) (hb : parseAddCue b = some q)
    (hq : refuseCue s c.port q = some st) : addCue c b s = answer c st [] s := by
  simp [addCue, h, hb, hq]

theorem addCue_of_full (h : listCheck s c.port .addCue b = none) (hb : parseAddCue b = some q)
    (hq : refuseCue s c.port q = none) (hf : s.cueTable.lowestFree = none) : addCue c b s = answer c .noSlot [] s := by
  simp [addCue, h, hb, hq, hf]

theorem addCue_of_free {i : SlotId} (h : listCheck s c.port .addCue b = none) (hb : parseAddCue b = some q)
    (hq : refuseCue s c.port q = none) (hf : s.cueTable.lowestFree = some i) :
    addCue c b s = answer c .ok (halfBytes (s.cueTable.handle i) ++ timeBytes (q.cue c.port s.now).gridDue)
      (s.setCueTable (s.cueTable.enter s.now i (q.cue c.port s.now))) := by
  simp [addCue, h, hb, hq, hf]

/-- The third to fifth check: the claim, the due and the quota (R29 to R31). -/
theorem refuseCue_of_fails (why : s.claims.holder q.line ≠ some p ∧ st = .notOwner
      ∨ s.claims.holder q.line = some p ∧ q.immediate = false ∧ isAhead s.now q.due = false ∧ st = .late
      ∨ s.claims.holder q.line = some p ∧ (q.immediate = true ∨ isAhead s.now q.due = true)
          ∧ (look s.session.quota p).toNat ≤ s.cueTable.occupied p ∧ st = .quota) : refuseCue s p q = some st := by
  rcases why with ⟨other, rfl⟩ | ⟨holds, later, past, rfl⟩ | ⟨holds, due, full, rfl⟩
  · simp [refuseCue, other]
  · simp [refuseCue, holds, later, past]
  · rcases due with due | due <;> simp [refuseCue, holds, due, full]

theorem refuseCue_passes (holds : s.claims.holder q.line = some p)
    (due : q.immediate = true ∨ isAhead s.now q.due = true)
    (room : s.cueTable.occupied p < (look s.session.quota p).toNat) : refuseCue s p q = none := by
  rcases due with due | due <;> simp [refuseCue, holds, due, room]

theorem lowestFree_eq_some {ct : CueTable} {i : SlotId} (free : ct.cue i = none)
    (least : ∀ j, j < i → (ct.cue j).isSome = true) : ct.lowestFree = some i := by
  unfold CueTable.lowestFree
  rw [List.find?_eq_some_iff_getElem]
  refine ⟨by simp [free], i.val, by simp [indices], by simp [indices], fun j hj => ?_⟩
  have taken := least ⟨j, hj.trans i.isLt⟩ hj
  simpa [indices, Option.isSome_iff_ne_none] using taken

theorem lowestFree_eq_none {ct : CueTable} (full : ∀ i, (ct.cue i).isSome = true) : ct.lowestFree = none := by
  unfold CueTable.lowestFree
  rw [List.find?_eq_none]
  intro i _
  simpa [Option.isSome_iff_ne_none] using full i

/-- A new cue in a FREE slot counts once among the cues with its properties. -/
theorem length_slotsWith_of_new {ct ct' : CueTable} {i : SlotId} {d : Cue} (free : ct.cue i = none)
    (slots : ∀ j, ct'.cue j = if j = i then some d else ct.cue j) (has : Cue → Bool) :
    (ct'.slotsWith has).length = (ct.slotsWith has).length + if has d then 1 else 0 := by
  have out : i ∉ ct.slotsWith has := by simp [CueTable.mem_slotsWith, free]
  have listed (j : SlotId) : j ∈ ct'.slotsWith has ↔ (j = i ∧ has d = true) ∨ j ∈ ct.slotsWith has := by
    simp only [CueTable.mem_slotsWith, slots]
    by_cases same : j = i
    · simp [same, free]
    · simp [same]
  split
  · next counts =>
    have perm : (ct'.slotsWith has).Perm (i :: ct.slotsWith has) :=
      (List.perm_ext_iff_of_nodup (CueTable.nodup_slotsWith _ _)
        (List.nodup_cons.2 ⟨out, CueTable.nodup_slotsWith _ _⟩)).2 fun j => by simp [listed, counts]
    simpa using perm.length_eq
  · next counts =>
    have perm : (ct'.slotsWith has).Perm (ct.slotsWith has) :=
      (List.perm_ext_iff_of_nodup (CueTable.nodup_slotsWith _ _) (CueTable.nodup_slotsWith _ _)).2 fun j => by
        simp [listed, counts]
    simpa using perm.length_eq

/-- Settles O25: when all checks pass, the cue enters the lowest FREE slot, and its handle and grid due are the
reply. -/
theorem addCueAdmits : Obligations.AddCueAdmits := by
  refine ⟨fun b q => parseAddCue_readFrom, mostSignificantFirst,
    fun p r q i s grants run attached parsed holds due room free least => ?_⟩
  have checked : listCheck (afterGrant .normal p s) (s.ticket p r).port .addCue r.body = none :=
    listCheck_passes run (by simpa using attached) (length_of_parse parsed)
  have passes : refuseCue (afterGrant .normal p s) (s.ticket p r).port q = none := refuseCue_passes holds due room
  have effect := addCue_of_free checked parsed passes (lowestFree_eq_some free least)
  have slots := fun j => CueTable.enter_cue s.cueTable s.now i j (q.cue p s.now)
  obtain ⟨only, arbiter, ports⟩ := changesOnly_answerTable s .normal p r .ok
    (halfBytes (s.cueTable.handle i) ++ timeBytes (q.cue p s.now).gridDue)
    (s.cueTable.enter s.now i (q.cue p s.now))
  refine ⟨_, (takeGranted_of_grants grants rfl addCue).trans (congrArg _ effect), only, arbiter, ?_, slots,
    CueTable.perm_enter _ _ _ _, rfl, fun j => CueTable.enter_gen _ _ _ _ _, rfl, rfl, fun o => ?_⟩
  · refine ports.trans ?_
    rw [CueTable.handle, handleCode, halfBytes_append]
    rfl
  · refine (length_slotsWith_of_new free slots _).trans ?_
    have owner : ((q.cue p s.now).owner == o) = true ↔ o = p := by
      rw [beq_iff_eq]
      exact eq_comm
    exact congrArg (_ + ·) (if_congr owner rfl rfl)

/-- Settles O26: the first check that fails gives the status, and the grant with its answer is all that happens. -/
theorem addCueRefusals : Obligations.AddCueRefusals := by
  refine ⟨fun b => ⟨parseAddCue_eq_none, fun q => parseAddCue_readFrom⟩, fun p r st s grants why => ?_⟩
  refine grantedOnly_of_grants (effect := addCue) grants rfl ?_
  have there : s.attached p = true → (afterGrant .normal p s).attached p = true := fun h => by simpa using h
  rcases why with ⟨setup, rfl⟩ | ⟨run, away, rfl⟩ | ⟨run, attached, unfit, rfl⟩ | ⟨q, run, attached, parsed, why⟩
  · exact addCue_of_listCheck (listCheck_setup (s := afterGrant .normal p s) setup _)
  · exact addCue_of_listCheck (listCheck_away (s := afterGrant .normal p s) run (by simpa using away) _)
  · by_cases short : r.body.length < 14
    · exact addCue_of_listCheck (listCheck_short run (there attached) short)
    · exact addCue_of_unfit (listCheck_passes run (there attached) (Nat.not_lt.1 short)) (parseAddCue_eq_none.2 unfit)
  · have checked : listCheck (afterGrant .normal p s) (s.ticket p r).port .addCue r.body = none :=
      listCheck_passes run (there attached) (length_of_parse parsed)
    rcases why with notOwner | late | quota | ⟨holds, due, room, full, rfl⟩
    · exact addCue_of_refused checked parsed (refuseCue_of_fails (.inl notOwner))
    · exact addCue_of_refused checked parsed (refuseCue_of_fails (.inr (.inl late)))
    · exact addCue_of_refused checked parsed (refuseCue_of_fails (.inr (.inr quota)))
    · exact addCue_of_full checked parsed (refuseCue_passes holds due room) (lowestFree_eq_none full)

end Adding

end Sys2Proof.Machine
end

section
/-! PROOFS. CANCEL_CUE and QUERY_CUE (R34, R35, R37, R197): what the owner's cue, another port's cue and a dead handle
give, and the bytes of the report. -/

namespace Sys2Proof.Machine

/-! ### The checks that come first (R26, R34, R194) -/

section Checks

variable {s : State} {p : Port} {k : CommandKind} {r : Request} {cl : ListClass}
  {effect : Ticket → List Byte → State → State}

/-- A list-class command that begins with the common checks is refused by the first that fails. -/
theorem checksFirst_of_listCheck {c : Instr} (hg : grantedCommand k p = some c) (hc : listClass k = some cl)
    (he : exec c s = takeGranted k p s effect)
    (checks : ∀ t b u st, listCheck u t.port k b = some st → effect t b u = answer t st [] u) :
    s.ChecksFirst k p r (bodyLength k) := by
  intro grants
  have refused {st : Status} (h : listCheck (afterGrant cl p s) p k r.body = some st) : s.Refused k p r st := by
    obtain ⟨t, taken, only⟩ := grantedOnly_of_grants grants hc (checks (s.ticket p r) r.body (afterGrant cl p s) st h)
    exact ⟨c, cl, t, hg, hc, he.trans taken, only⟩
  refine ⟨fun setup => ?_, fun run away => ?_, fun run attached short => ?_⟩
  · exact refused (listCheck_setup (s := afterGrant cl p s) setup _)
  · exact refused (listCheck_away (s := afterGrant cl p s) run (by simpa using away) _)
  · exact refused (listCheck_short (s := afterGrant cl p s) run (by simpa using attached) short)

/-- A live handle's bytes are its slot and generation (R15). -/
theorem live_handle {ct : CueTable} {slot gen : Byte} {i : SlotId} {c : Cue} (h : ct.live slot gen = some (i, c)) :
    byteAt (halfBytes (ct.handle i)) 0 = slot ∧ byteAt (halfBytes (ct.handle i)) 1 = gen := by
  unfold CueTable.live at h
  split at h
  · next j hj =>
    split at h
    · split at h
      · next same =>
        cases h
        rw [CueTable.handle, handleCode, halfBytes_append, same, ← indexOf_eq_some.1 hj, BitVec.ofNat_toNat,
          BitVec.setWidth_eq]
        exact ⟨rfl, rfl⟩
      · cases h
    · cases h
  · cases h

variable {t : Ticket} {b : List Byte} {i : SlotId} {c : Cue} {own : SlotId → Cue → State}

theorem onOwnedCue_of_owner (h : s.cueTable.live (byteAt b 0) (byteAt b 1) = some (i, c)) (ho : c.owner = t.port) :
    onOwnedCue t b s own = own i c := by
  simp [onOwnedCue, h, ho]

theorem onOwnedCue_of_other (h : s.cueTable.live (byteAt b 0) (byteAt b 1) = some (i, c)) (ho : c.owner ≠ t.port) :
    onOwnedCue t b s own = answer t .notOwner [] s := by
  simp [onOwnedCue, h, ho]

theorem onOwnedCue_of_dead (h : s.cueTable.live (byteAt b 0) (byteAt b 1) = none) :
    onOwnedCue t b s own = answer t .badHandle [] s := by
  simp [onOwnedCue, h]

end Checks

/-! ### The report (R197) -/

section Report

theorem halfAt_of_bytes {b : List Byte} {n : Nat} {x : Half} (hi : byteAt b n = x.extractLsb' 8 8)
    (lo : byteAt b (n + 1) = x.extractLsb' 0 8) : halfAt b n = x := by
  apply BitVec.eq_of_toNat_eq
  have bound := x.isLt
  rw [halfAt, toNat_append_byte, hi, lo]
  simp only [BitVec.extractLsb'_toNat, Nat.shiftRight_eq_div_pow]
  omega

theorem tripleAt_of_bytes {b : List Byte} {n : Nat} {x : Triple} (hi : byteAt b n = x.extractLsb' 16 8)
    (mid : byteAt b (n + 1) = x.extractLsb' 8 8) (lo : byteAt b (n + 2) = x.extractLsb' 0 8) : tripleAt b n = x := by
  apply BitVec.eq_of_toNat_eq
  have bound := x.isLt
  rw [tripleAt, toNat_append_byte, toNat_append_byte, hi, mid, lo]
  simp only [BitVec.extractLsb'_toNat, Nat.shiftRight_eq_div_pow]
  omega

theorem timeAt_of_bytes {b : List Byte} {n : Nat} {x : Time} (hi : byteAt b n = x.extractLsb' 24 8)
    (high : byteAt b (n + 1) = x.extractLsb' 16 8) (low : byteAt b (n + 2) = x.extractLsb' 8 8)
    (lo : byteAt b (n + 3) = x.extractLsb' 0 8) : timeAt b n = x := by
  apply BitVec.eq_of_toNat_eq
  have bound := x.isLt
  rw [timeAt, toNat_append_byte, toNat_append_byte, toNat_append_byte, hi, high, low, lo]
  simp only [BitVec.extractLsb'_toNat, Nat.shiftRight_eq_div_pow]
  omega

variable (handle : Half) (c : Cue) (d : StagedRecord)

/-- The bits of the presence byte, of the options byte and of a record's presence byte do not overlap. -/
theorem cuePresence_eq : cuePresence c = (if c.staged.isSome then 0x40 else 0) + (if c.set.isSome then 0x20 else 0)
    + (if c.effDue.isSome then 0x10 else 0) + (if c.width.isSome then 4 else 0)
    + (if c.period.isSome then 2 else 0) + (if c.remaining.isSome then 1 else 0) := by
  unfold cuePresence presenceBit
  cases c.staged.isSome <;> cases c.set.isSome <;> cases c.effDue.isSome <;> cases c.width.isSome <;>
    cases c.period.isSome <;> cases c.remaining.isSome <;> rfl

theorem optionsByte_eq : optionsByte c = (if c.width.isSome then 0x40 else 0) + (if c.period.isSome then 0x20 else 0)
    + (if c.remaining.isSome then 0x10 else 0) + (if c.notify then 4 else 0)
    + (if c.missPolicy = .fireLate then 1 else 0) := by
  unfold optionsByte
  cases c.width.isSome <;> cases c.period.isSome <;> cases c.remaining.isSome <;> cases c.notify <;>
    cases c.missPolicy <;> rfl

theorem recordPresence_eq : presenceBit d.action.isSome 0x10 ||| presenceBit d.width.isSome 0x08
      ||| presenceBit d.period.isSome 0x04 ||| presenceBit d.remaining.isSome 0x02 ||| presenceBit d.shift.isSome 0x01
    = (if d.action.isSome then 0x10 else 0) + (if d.width.isSome then 8 else 0) + (if d.period.isSome then 4 else 0)
      + (if d.remaining.isSome then 2 else 0) + (if d.shift.isSome then 1 else 0) := by
  unfold presenceBit
  cases d.action.isSome <;> cases d.width.isSome <;> cases d.period.isSome <;> cases d.remaining.isSome <;>
    cases d.shift.isSome <;> rfl

theorem stagedBytes_action : byteAt (stagedBytes (some d)) 1 = match d.action with
    | some a => actionCode a
    | none => 0 := by
  show (d.action.map actionCode).getD 0 = _
  cases d.action <;> rfl

theorem stagedBytes_length (r : Option StagedRecord) : (stagedBytes r).length = 12 := by cases r <;> rfl

/-- The report's last twelve bytes are those of the staged record. -/
theorem byteAt_cueReport_staged (n : Nat) :
    byteAt (cueReport handle c) (25 + n) = byteAt (stagedBytes c.staged) n := by
  unfold byteAt cueReport
  rw [List.getD_append_right _ _ _ _ (by exact Nat.le_add_right 25 n)]
  congr 1
  exact Nat.add_sub_cancel_left 25 n

theorem cueReport_length : (cueReport handle c).length = 37 := by
  unfold cueReport
  rw [List.length_append, stagedBytes_length]
  rfl

theorem byteAt_stagedBytes_none (n : Nat) : byteAt (stagedBytes none) n = 0 := by
  unfold byteAt stagedBytes
  rw [List.getD_eq_getElem?_getD, List.getElem?_replicate]
  split <;> rfl

/-! The fields of the report, each where R197 places it. -/

theorem cueReport_slot : byteAt (cueReport handle c) 0 = byteAt (halfBytes handle) 0 := rfl

theorem cueReport_gen : byteAt (cueReport handle c) 1 = byteAt (halfBytes handle) 1 := rfl

theorem cueReport_line : byteAt (cueReport handle c) 2 = lineCode c.line := rfl

theorem cueReport_action : byteAt (cueReport handle c) 3 = actionCode c.action := rfl

theorem cueReport_state : byteAt (cueReport handle c) 4 = if c.state = .pending then 1 else 2 := by
  show slotStateCode c.state = _
  cases c.state <;> rfl

theorem cueReport_presence : byteAt (cueReport handle c) 5 = cuePresence c := rfl

theorem cueReport_width : halfAt (cueReport handle c) 6 = c.width.getD 0 := halfAt_of_bytes rfl rfl

theorem cueReport_gridDue : timeAt (cueReport handle c) 8 = c.gridDue := timeAt_of_bytes rfl rfl rfl rfl

theorem cueReport_effDue : timeAt (cueReport handle c) 12 = c.effDue.getD 0 := timeAt_of_bytes rfl rfl rfl rfl

theorem cueReport_period : tripleAt (cueReport handle c) 16 = c.period.getD 0 := tripleAt_of_bytes rfl rfl rfl

theorem cueReport_remaining : halfAt (cueReport handle c) 19 = c.remaining.getD 0 := halfAt_of_bytes rfl rfl

theorem cueReport_options : byteAt (cueReport handle c) 21 = optionsByte c := rfl

theorem cueReport_missed : halfAt (cueReport handle c) 22 = c.missed := halfAt_of_bytes rfl rfl

theorem cueReport_set : byteAt (cueReport handle c) 24 = match c.set with
    | some k => setCode k
    | none => 0 := by
  show (c.set.map setCode).getD 0 = _
  cases c.set <;> rfl

end Report

/-! ### CANCEL_CUE and QUERY_CUE completed -/

section Completed

variable {s : State} {p : Port} {r : Request} {t : Ticket} {b : List Byte} {st : Status}

theorem cancelCue_of_listCheck (u : State) (h : listCheck u t.port .cancelCue b = some st) :
    cancelCue t b u = answer t st [] u := by
  simp [cancelCue, h]

theorem queryCue_of_listCheck (u : State) (h : listCheck u t.port .queryCue b = some st) :
    queryCue t b u = answer t st [] u := by
  simp [queryCue, h]

theorem cancelCue_of_passes (u : State) (h : listCheck u t.port .cancelCue b = none) :
    cancelCue t b u = onOwnedCue t b u (fun i _ => answer t .ok [] (u.setCueTable (u.cueTable.freeSlot i))) := by
  simp [cancelCue, h]

theorem queryCue_of_passes (u : State) (h : listCheck u t.port .queryCue b = none) :
    queryCue t b u = onOwnedCue t b u (fun i c => answer t .ok (cueReport (u.cueTable.handle i) c) u) := by
  simp [queryCue, h]

end Completed

/-- Settles O27: after the common checks the handle decides; the owner's cue is freed or reported. -/
theorem cancelAndQueryCue : Obligations.CancelAndQueryCue := by
  refine ⟨fun p r s =>
    ⟨checksFirst_of_listCheck (effect := cancelCue) rfl rfl rfl fun _ _ u _ => cancelCue_of_listCheck u,
      checksFirst_of_listCheck (effect := queryCue) rfl rfl rfl fun _ _ u _ => queryCue_of_listCheck u⟩,
    fun p r s run attached long => ?_⟩
  have cancels : listCheck (afterGrant .urgent p s) (s.ticket p r).port .cancelCue r.body = none :=
    listCheck_passes (s := afterGrant .urgent p s) run (by simpa using attached) long
  have queries : listCheck (afterGrant .normal p s) (s.ticket p r).port .queryCue r.body = none :=
    listCheck_passes (s := afterGrant .normal p s) run (by simpa using attached) long
  refine ⟨fun i c live owner => ⟨fun grants => ?_, fun grants => ?_⟩, fun i c live other => ⟨fun grants => ?_,
    fun grants => ?_⟩, fun dead => ⟨fun grants => ?_, fun grants => ?_⟩⟩
  · obtain ⟨only, arbiter, ports⟩ := changesOnly_answerTable s .urgent p r .ok [] (s.cueTable.freeSlot i)
    have effect := (cancelCue_of_passes _ cancels).trans (onOwnedCue_of_owner live owner)
    exact ⟨_, (takeGranted_of_grants grants rfl cancelCue).trans (congrArg _ effect), only, arbiter, ports,
      slotFreed_freeSlot (live_cue live)⟩
  · have effect : queryCue (s.ticket p r) r.body (afterGrant .normal p s) =
        answer (s.ticket p r) .ok (cueReport (s.cueTable.handle i) c) (afterGrant .normal p s) :=
      (queryCue_of_passes _ queries).trans (onOwnedCue_of_owner live owner)
    obtain ⟨u, taken, only⟩ := grantedOnly_of_grants grants rfl effect
    obtain ⟨slot, gen⟩ := live_handle live
    refine ⟨u, _, taken, only, cueReport_length _ c, (cueReport_slot _ c).trans slot,
      (cueReport_gen _ c).trans gen, cueReport_line _ c, cueReport_action _ c,
      cueReport_state _ c, cueReport_width _ c, cueReport_gridDue _ c, cueReport_effDue _ c, cueReport_period _ c,
      cueReport_remaining _ c, cueReport_missed _ c, (cueReport_presence _ c).trans (cuePresence_eq c),
      (cueReport_options _ c).trans (optionsByte_eq c), cueReport_set _ c, fun none n far => ?_, fun d hd => ?_⟩
    · obtain ⟨m, rfl⟩ := Nat.exists_eq_add_of_le far
      rw [byteAt_cueReport_staged, none, byteAt_stagedBytes_none]
    · have tail (m : Nat) := (byteAt_cueReport_staged (s.cueTable.handle i) c m).trans (by rw [hd])
      exact ⟨(tail 0).trans (recordPresence_eq d), (tail 1).trans (stagedBytes_action d),
        halfAt_of_bytes (tail 2) (tail 3), tripleAt_of_bytes (tail 4) (tail 5) (tail 6),
        halfAt_of_bytes (tail 7) (tail 8), tripleAt_of_bytes (tail 9) (tail 10) (tail 11)⟩
  · exact grantedOnly_of_grants grants rfl ((cancelCue_of_passes _ cancels).trans (onOwnedCue_of_other live other))
  · exact grantedOnly_of_grants grants rfl ((queryCue_of_passes _ queries).trans (onOwnedCue_of_other live other))
  · exact grantedOnly_of_grants grants rfl ((cancelCue_of_passes _ cancels).trans (onOwnedCue_of_dead dead))
  · exact grantedOnly_of_grants grants rfl ((queryCue_of_passes _ queries).trans (onOwnedCue_of_dead dead))

end Sys2Proof.Machine
end

section
/-! PROOFS. The purges of DETACH, lapse and halt at the cue table unit (R38 to R41, R151). -/

namespace Sys2Proof.Machine

/-! ### What a purge does to the table -/

section Purging

variable {ct ct' : CueTable} {p : Port}

/-- Freeing slots that hold cues takes them off every list and changes no other place in it. -/
theorem frees_lists (ct : CueTable) (is : List SlotId) (once : is.Nodup)
    (stand : ∀ i, i ∈ is → (ct.cue i).isSome = true) :
    (is.foldl CueTable.freeSlot ct).pendingList = ct.pendingList.filter (fun j => j ∉ is)
      ∧ (∀ g, look (is.foldl CueTable.freeSlot ct).deferred g = (look ct.deferred g).filter (fun j => j ∉ is))
      ∧ (is.foldl CueTable.freeSlot ct).nextEntry = ct.nextEntry := by
  induction is generalizing ct with
  | nil => simp
  | cons i rest ih =>
    obtain ⟨out, once⟩ := List.nodup_cons.1 once
    obtain ⟨c, hc⟩ := Option.isSome_iff_exists.1 (stand i List.mem_cons_self)
    have freed := slotFreed_freeSlot hc
    obtain ⟨pending, deferred, entry⟩ := ih (ct.freeSlot i) once fun j m => by
      have other : j ≠ i := fun e => out (e ▸ m)
      rw [freed.cues, if_neg other]
      exact stand j (List.mem_cons_of_mem i m)
    have both (l : List SlotId) : (l.filter (fun j => j != i)).filter (fun j => j ∉ rest)
        = l.filter (fun j => j ∉ i :: rest) := by
      rw [List.filter_filter]
      exact List.filter_congr fun j _ => by by_cases same : j = i <;> simp [same]
    rw [List.foldl_cons]
    refine ⟨?_, fun g => ?_, entry.trans freed.entry⟩
    · rw [pending, freed.pending, both]
    · rw [deferred, freed.deferred, both]

theorem purged_purge (ct : CueTable) (gone : Cue → Bool) : Purged ct (ct.purge gone) gone := by
  obtain ⟨pending, deferred, entry⟩ := frees_lists ct (ct.slotsWith gone) (ct.nodup_slotsWith gone) fun i m => by
    obtain ⟨c, hc, _⟩ := (ct.mem_slotsWith gone i).1 m
    simp [hc]
  have left (l : List SlotId) : l.filter (fun j => j ∉ ct.slotsWith gone) = l.filter (fun j => !(ct.cue j).any gone) :=
    List.filter_congr fun j _ => by
      rw [Bool.eq_iff_iff]
      cases h : ct.cue j <;> simp [CueTable.mem_slotsWith, h]
  exact ⟨ct.purge_cue gone, ct.purge_gen gone, pending.trans (left _), fun g => (deferred g).trans (left _), entry⟩

/-- Freeing sets changes no slot and no list. -/
theorem Purged.freeSets {gone : Cue → Bool} (h : Purged ct ct' gone) (has : CommitSet → Bool) :
    Purged ct (ct'.freeSets has) gone := ⟨h.cues, h.gens, h.pending, h.deferred, h.entry⟩

theorem purged_portPurge (ct : CueTable) (p : Port) : Purged ct (ct.portPurge p) (fun c => c.owner == p) :=
  (purged_purge ct _).freeSets _

theorem purged_haltPurge (ct : CueTable) : Purged ct ct.haltPurge (fun _ => true) := (purged_purge ct _).freeSets _

/-- A purge of exact lists takes every slot off them when it frees every cue. -/
theorem Purged.lists_empty (h : Purged ct ct' (fun _ => true)) (listed : ct.Listed) :
    ct'.pendingList = [] ∧ ∀ g, look ct'.deferred g = [] := by
  refine ⟨?_, fun g => ?_⟩
  · rw [h.pending, List.filter_eq_nil_iff]
    intro i m
    obtain ⟨c, hc, _⟩ := (listed.pendingExact i).1 m
    simp [hc]
  · rw [h.deferred, List.filter_eq_nil_iff]
    intro i m
    obtain ⟨c, hc, _⟩ := listed.deferredOnly g i m
    simp [hc]

/-! ### What the port purge does to the sets (R40) -/

@[simp] theorem recount_owner? (f : Nat → Nat) (x : CommitSet) : (x.recount f).owner? = x.owner? := by cases x <;> rfl

theorem recount_eq_self {f : Nat → Nat} (h : ∀ n, f n = n) (x : CommitSet) : x.recount f = x := by
  cases x <;> simp [CommitSet.recount, h]

theorem portPurge_commitSet (ct : CueTable) (p : Port) (k : SetId) : (ct.portPurge p).commitSet k =
    if (ct.commitSet k).owner? = some p then .free else (ct.commitSet k).recount (fun n =>
      n - (ct.slotsWith (fun c => c.owner == p && c.set == some k)).length) := by
  unfold CueTable.portPurge
  rw [CueTable.freeSets_commitSet, CueTable.purge_commitSet, recount_owner?]
  simp

theorem portPurge_owner (ct : CueTable) (p : Port) (k : SetId) : ((ct.portPurge p).commitSet k).owner? =
    if (ct.commitSet k).owner? = some p then none else (ct.commitSet k).owner? := by
  rw [portPurge_commitSet]
  split
  · rfl
  · exact recount_owner? _ _

/-- Where the counts are right, another port's set keeps all its members. -/
theorem portPurge_counted (counted : ct.SetsCounted) (k : SetId) : (ct.portPurge p).commitSet k =
    if (ct.commitSet k).owner? = some p then .free else ct.commitSet k := by
  rw [portPurge_commitSet]
  split
  · rfl
  · next other =>
    have none : ct.slotsWith (fun c => c.owner == p && c.set == some k) = [] := by
      rw [List.eq_nil_iff_forall_not_mem]
      intro i m
      obtain ⟨c, hc, both⟩ := (ct.mem_slotsWith _ i).1 m
      simp only [Bool.and_eq_true, beq_iff_eq] at both
      obtain ⟨owner, set⟩ := both
      exact other (by rw [(counted.owned i c k hc set).2, owner])
    rw [none]
    exact recount_eq_self (fun n => rfl) _

end Purging

/-! ### The three commands -/

section Commands

variable {s : State} {p : Port}

theorem haltLeaf_eq_some (granted : s.purgeGranted p .halt = true) : s.haltLeaf = some p := by
  cases leaf : s.haltLeaf with
  | none =>
    have none := List.find?_eq_none.1 leaf p (mem_indices p)
    exact absurd granted none
  | some q =>
    have found : s.purgeGranted q .halt = true := List.find?_some (p := fun q => s.purgeGranted q .halt) leaf
    simp only [State.purgeGranted, Bool.and_eq_true, beq_iff_eq] at granted found
    have same := found.1.symm.trans granted.1
    cases same
    rfl

theorem purgeGranted_of_first {k : PurgeRequest} (next : s.nextGrant = some (.urgent, p))
    (first : s.firstPurge p = some k) : s.purgeGranted p k = true := by
  simp [State.purgeGranted, next, first]

/-- Settles O34: each purge frees the cues and sets that it names, and hands the work on. -/
theorem purgesComplete : Obligations.PurgesComplete := by
  intro s p live
  have free (k : SetId) : ((s.cueTable.portPurge p).commitSet k).owner? ≠ some p := by
    rw [portPurge_owner]
    split
    · simp
    · next other => exact other
  refine ⟨fun r grants => ⟨purgePort p .detach (some (s.ticket p r)) (afterGrant .urgent p s),
      takeGranted_of_grants grants rfl (fun t _ u => purgePort t.port .detach (some t) u), ?_, rfl, rfl, rfl,
      purged_portPurge _ p, free, fun k other => (portPurge_owner _ p k).trans (if_neg other), portPurge_counted⟩,
    fun next first => ⟨purgePort p .lapse none (grantPurge p s), ?_, ?_, rfl, rfl, purged_portPurge _ p, free,
      portPurge_counted⟩,
    fun next first => ⟨purgeForHalt (grantPurge p s), ?_, ?_, rfl, rfl, fun i => haltPurge_empty _ i, fun k => ?_,
      purged_haltPurge _, (purged_haltPurge _).lists_empty⟩⟩
  · exact ⟨rfl, fun b hb => by cases b <;> simp_all [Block.same, purgePort]⟩
  · refine (whenLive_of_live live _).trans ?_
    rw [purgeGranted_of_first next first]
    rfl
  · exact ⟨rfl, fun b hb => by cases b <;> simp_all [Block.same, purgePort]⟩
  · show execHaltPurge s = _
    unfold execHaltPurge
    rw [whenLive_of_live live, haltLeaf_eq_some (purgeGranted_of_first next first)]
  · exact ⟨rfl, fun b hb => by cases b <;> simp_all [Block.same, purgeForHalt]⟩
  · exact (CueTable.freeSets_commitSet _ _ k).trans (if_pos rfl)

end Commands

end Sys2Proof.Machine
end

section
/-! PROOFS. OCCURRENCE (R43 to R51): what each outcome makes of the due cue, and where continuation leaves it. -/

namespace Sys2Proof.Machine

/-! ### The due cue is taken off the pending list (R43, R45) -/

section Occurring

/-- The state without the head of its pending list. -/
def State.offList (s : State) (rest : List SlotId) : State := s.setCueTable { s.cueTable with pendingList := rest }

/-- The cue in slot `i` stands at the head of the pending list of a live part, and its due is at now (R43). -/
structure State.DueFirst (s : State) (i : SlotId) (rest : List SlotId) (c : Cue) : Prop where
  live : s.live = true
  first : s.cueTable.pendingList = i :: rest
  stands : s.cueTable.cue i = some c
  due : c.due = s.now

variable {s t : State} {i : SlotId} {rest : List SlotId} {c c' : Cue} {o : OutputUnit} {shift period : Triple}
  {missed : Half} {es : List EventRecord} {ct ct' : CueTable} {now : Time}

theorem exec_occurrence_of_due (h : s.DueFirst i rest c) :
    exec .occurrence s = .next (occur i c (s.offList rest)) := by
  have due : s.dueCue = some (i, c) := by simp [State.dueCue, h.first, h.stands, h.due]
  show execOccurrence s = _
  simp only [execOccurrence, whenLive_of_live h.live, due, h.first, List.tail_cons, State.offList]

/-- DISCARDED: the owner is not ATTACHED or the phase is SETUP (R46). -/
theorem occur_of_away (h : s.attached c.owner = false ∨ s.session.phase = .setup) :
    occur i c s = s.setCueTable (s.cueTable.freeSlot i) := by
  have away : (!s.attached c.owner || s.session.phase == .setup) = true := by
    rcases h with h | h <;> simp [h]
  simp only [occur, away, if_true]

theorem occur_of_tripped (attached : s.attached c.owner = true) (run : s.session.phase = .run)
    (trip : s.output.trip.isTripped = true) : occur i c s = suppress i c s := by
  simp [occur, attached, run, trip]

theorem occur_of_normal (attached : s.attached c.owner = true) (run : s.session.phase = .run)
    (normal : s.output.trip.isTripped = false) {a : ApplyAnswer}
    (answer : s.output.apply s.now c.line c.action c.width = (o, a)) :
    occur i c s = takeAnswer i c a (s.setOutput o) := by
  simp [occur, attached, run, normal, answer]

/-! ### The outcomes that continue (R47, R49, R50) -/

/-- An outcome that continues: the missed count it leaves the cue, the output unit after it and the records posted. -/
inductive OccurrenceOutcome (s : State) (i : SlotId) (c : Cue) : Half → OutputUnit → List EventRecord → Prop
  | suppressed (trip : s.output.trip.isTripped = true) :
    OccurrenceOutcome s i c (raiseMissed c.missed 1) s.output
      (if c.missed = 0 then [cueRecord .missed c (s.cueTable.handle i) 1 s.now] else [])
  | applied {o : OutputUnit} (normal : s.output.trip.isTripped = false)
      (answer : s.output.apply s.now c.line c.action c.width = (o, .applied)) :
    OccurrenceOutcome s i c 0 o
      (if c.notify then [cueRecord .fired c (s.cueTable.handle i) c.missed s.now] else [])
  | refused {o : OutputUnit} {g : Group} (normal : s.output.trip.isTripped = false)
      (answer : s.output.apply s.now c.line c.action c.width = (o, .refused g)) :
    OccurrenceOutcome s i c c.missed o
      [cueRecord .refused c (s.cueTable.handle i) ((groupCode g).setWidth 16) s.now]

/-- The outcome does not depend on the pending list. -/
theorem OccurrenceOutcome.offList (h : OccurrenceOutcome s i c missed o es) (rest : List SlotId) :
    OccurrenceOutcome (s.offList rest) i c missed o es := by
  cases h with
  | suppressed trip => exact .suppressed (s := s.offList rest) trip
  | applied normal answer => exact .applied (s := s.offList rest) normal answer
  | refused normal answer => exact .refused (s := s.offList rest) normal answer

theorem postCue_told (k : EventKind) (v : Half) :
    Told s (postCue k i c v s) c.owner [cueRecord k c (s.cueTable.handle i) v s.now] :=
  ⟨changesOnly_post _ _ _, portReceives_post _ _ _⟩

/-- FIRED is posted if notify asks, and nothing else changes (R49). -/
theorem postFired_told (v : Half) : Told s (if c.notify then postCue .fired i c v s else s) c.owner
    (if c.notify then [cueRecord .fired c (s.cueTable.handle i) v s.now] else []) := by
  split
  · exact postCue_told .fired v
  · exact ⟨changesOnly_refl _ s, portReceives_nil s _⟩

theorem Told.now_eq {p : Port} (h : Told s t p es) : t.now = s.now :=
  congrArg TimeBase.tb (h.only.2 .timeBase (by decide))

theorem Told.output_eq {p : Port} (h : Told s t p es) : t.output = s.output := h.only.2 .output (by decide)

/-- Each such outcome is a continuation after its records have been posted. -/
theorem occur_of_outcome (attached : s.attached c.owner = true) (run : s.session.phase = .run)
    (out : OccurrenceOutcome s i c missed o es) :
    ∃ u, occur i c s = continueCue i { c with missed := missed } u ∧ Told (s.setOutput o) u c.owner es
      ∧ u.cueTable = s.cueTable := by
  cases out with
  | suppressed trip =>
    obtain ⟨told, table, -⟩ := postMissed_spec s i c
    exact ⟨postMissed i c s, occur_of_tripped attached run trip, told, table⟩
  | applied normal answer =>
    refine ⟨_, occur_of_normal attached run normal answer, postFired_told (s := s.setOutput o) c.missed, ?_⟩
    split <;> simp [postCue]
  | refused normal answer =>
    exact ⟨_, occur_of_normal attached run normal answer, postCue_told (s := s.setOutput o) .refused _,
      by simp [postCue]⟩

/-! ### Promotion (R74) -/

/-- Promotion is what the statements say of it: none without a set-less record, and else the record applied. -/
theorem promote_of_cases (h : (c.staged = none ∨ c.set.isSome = true) ∧ c' = c ∧ shift = 0
      ∨ ∃ r, c.staged = some r ∧ c.set = none ∧ AppliedTo r c c' ∧ shift = r.shift.getD 0) :
    c.promote = (c', shift) := by
  rcases h with ⟨none, rfl, rfl⟩ | ⟨r, staged, alone, applied, rfl⟩
  · exact promote_of_none none
  · rw [promote_of_record staged alone, applyRecord_of_appliedTo applied]

/-- Promotion leaves the missed count alone and does not look at it. -/
theorem promote_missed (c : Cue) (missed : Half) :
    ({ c with missed := missed } : Cue).promote = ({ c.promote.1 with missed := missed }, c.promote.2) := by
  obtain none | ⟨r, staged, alone⟩ :
      (c.staged = none ∨ c.set.isSome = true) ∨ ∃ r, c.staged = some r ∧ c.set = none := by
    cases c.staged <;> cases c.set <;> simp
  · rw [promote_of_none none]
    exact promote_of_none none
  · rw [promote_of_record staged alone]
    exact promote_of_record staged alone

/-- Promotion leaves alone who owns the cue, its line, its dues and what it is told of. -/
theorem promote_keeps (h : c.promote = (c', shift)) :
    c'.owner = c.owner ∧ c'.line = c.line ∧ c'.notify = c.notify ∧ c'.gridDue = c.gridDue := by
  have promoted : c.promote.1 = c' := by rw [h]
  subst promoted
  unfold Cue.promote
  split <;> exact ⟨rfl, rfl, rfl, rfl⟩

/-! ### How continuation ends (R53 to R59) -/

/-- Freeing a slot does not look at the cue's missed count. -/
theorem slotFreed_missed : SlotFreed ct ct' i { c with missed := missed } ↔ SlotFreed ct ct' i c :=
  ⟨fun h => slotFreed_set h rfl, fun h => slotFreed_set h rfl⟩

theorem continued_missed : Continued ct ct' now i rest { c with missed := missed } c' shift es ↔
    Continued ct ct' now i rest c c' shift es := by
  simp only [Continued, slotFreed_missed]

/-- Without a period the cue retires (R54). -/
theorem Continued.of_oneShot (h : Continued ct ct' now i rest c c' shift es) (once : c'.period = none) :
    SlotFreed ct ct' i c
      ∧ es = if c.notify then [cueRecord .done c (ct.handle i) 0 now] else [] := by
  simpa only [Continued, once, List.nil_append, cueRecord] using h

/-- A cue with occurrences left, whose next grid due is ahead, enters the pending list again and nothing is posted
(R55). -/
theorem Continued.of_ahead (h : Continued ct ct' now i rest c c' shift es) (hp : c'.period = some period)
    (left : c'.remaining ≠ some 1)
    (ahead : isAhead now (shifted (later c'.gridDue period.toNat) shift) = true) :
    GoesOn ct ct' i rest
        { c' with remaining := c'.remaining.map (fun n => n - 1),
                  gridDue := shifted (later c'.gridDue period.toNat) shift, effDue := none }
      ∧ es = [] := by
  simpa only [Continued, hp, if_neg left, if_pos ahead] using h

theorem shifted_zero (t : Time) : shifted t 0 = t := by simp [shifted]

/-! ### OCCURRENCE, whole -/

theorem changesOnly_offList (s : State) (rest : List SlotId) (o : OutputUnit) :
    ChangesOnly [.cueTable, .output, .ports] s ((s.offList rest).setOutput o) :=
  ⟨rfl, fun b hb => by cases b <;> simp_all [Block.same, State.offList]⟩

/-- What does not differ beside a larger list of blocks. -/
theorem changesOnly_of_subset {bs cs : List Block} (h : ChangesOnly bs s t) (sub : bs ⊆ cs) : ChangesOnly cs s t :=
  ⟨h.1, fun b hb => h.2 b fun mem => hb (sub mem)⟩

/-- With the output unit as before, table and ports alone differ. -/
theorem changesOnly_of_output (h : ChangesOnly [.cueTable, .output, .ports] s t) (same : t.output = s.output) :
    ChangesOnly [.cueTable, .ports] s t :=
  ⟨h.1, fun b hb => by
    by_cases e : b = .output
    · subst e; exact same
    · exact h.2 b (by simp_all)⟩

/-- OCCURRENCE completes after every outcome that continues: the outcome's records, then continuation (R47, R49, R50,
R53). -/
theorem occurrence_continues (due : s.DueFirst i rest c) (attached : s.attached c.owner = true)
    (run : s.session.phase = .run) (out : OccurrenceOutcome s i c missed o es)
    (promoted : ({ c with missed := missed } : Cue).promote = (c', shift)) :
    ∃ t more, exec .occurrence s = .next t ∧ ChangesOnly [.cueTable, .output, .ports] s t ∧ t.output = o
      ∧ Continued s.cueTable t.cueTable s.now i rest c c' shift more
      ∧ PortReceives s t c.owner (es ++ more) := by
  obtain ⟨u, occurs, told, table⟩ := occur_of_outcome (s := s.offList rest) attached run (out.offList rest)
  obtain ⟨owner, line, notify, -⟩ := promote_keeps promoted
  obtain ⟨more, toldMore, continued⟩ := continueCue_continued (c₀ := c) (c := { c with missed := missed }) table
    due.first due.stands rfl promoted ⟨owner, line, notify⟩
  have all := told.trans toldMore
  rw [told.now_eq, continued_missed] at continued
  refine ⟨_, more, (exec_occurrence_of_due due).trans (congrArg _ occurs), ?_, all.output_eq, continued, all.told⟩
  exact changesOnly_trans (changesOnly_offList s rest o) (changesOnly_of_subset all.only (by decide))

/-- The same for a cue that goes on to a next grid due ahead of now. -/
theorem occurrence_goesOn (due : s.DueFirst i rest c) (attached : s.attached c.owner = true)
    (run : s.session.phase = .run) (out : OccurrenceOutcome s i c missed o es) (promoted : c.promote = (c', shift))
    (hp : c'.period = some period) (left : c'.remaining ≠ some 1)
    (ahead : isAhead s.now (shifted (later c.gridDue period.toNat) shift) = true) :
    ∃ t, exec .occurrence s = .next t ∧ ChangesOnly [.cueTable, .output, .ports] s t ∧ t.output = o
      ∧ GoesOn s.cueTable t.cueTable i rest
          { c' with missed := missed, remaining := c'.remaining.map (fun n => n - 1),
                    gridDue := shifted (later c.gridDue period.toNat) shift, effDue := none }
      ∧ PortReceives s t c.owner es := by
  obtain ⟨-, -, -, grid⟩ := promote_keeps promoted
  rw [← grid] at ahead ⊢
  obtain ⟨t, more, done, only, output, continued, told⟩ := occurrence_continues due attached run out
    (c' := { c' with missed := missed }) (by rw [promote_missed, promoted])
  obtain ⟨goes, rfl⟩ := continued.of_ahead hp left ahead
  exact ⟨t, done, only, output, goes, by simpa using told⟩

/-- DISCARDED frees the slot and touches the table alone (R46). -/
theorem occurrence_discards (due : s.DueFirst i rest c)
    (away : s.attached c.owner = false ∨ s.session.phase = .setup) :
    ∃ t, exec .occurrence s = .next t ∧ ChangesOnly [.cueTable] s t ∧ SlotFreed s.cueTable t.cueTable i c := by
  refine ⟨_, (exec_occurrence_of_due due).trans (congrArg _ (occur_of_away (s := s.offList rest) away)), ?_,
    slotFreed_of_taken due.first due.stands⟩
  exact ⟨rfl, fun b hb => by cases b <;> simp_all [Block.same, State.offList]⟩

end Occurring

/-! ### The statements -/

/-- Settles O18: DISCARDED by R46; SUPPRESSED as an outcome that continues and goes on. -/
theorem occurrenceWithoutLine : Obligations.OccurrenceWithoutLine := by
  intro s i rest c live first _ stands now
  have due : s.DueFirst i rest c := ⟨live, first, stands, now⟩
  refine ⟨occurrence_discards due, fun period attached run trip unstaged hp left ahead => ?_⟩
  obtain ⟨t, done, only, output, goes, told⟩ := occurrence_goesOn due attached run (.suppressed trip)
    (promote_of_none unstaged) hp left (by rwa [shifted_zero])
  rw [shifted_zero] at goes
  exact ⟨t, done, changesOnly_of_output only output, goes, told⟩

/-- Settles O19: an outcome that continues, of a cue that its continuation retires. -/
theorem occurrenceAppliedOnce : Obligations.OccurrenceAppliedOnce := by
  intro s i rest c o live first stands now attached run normal unstaged once answer
  obtain ⟨t, more, done, only, output, continued, told⟩ := occurrence_continues ⟨live, first, stands, now⟩ attached run
    (.applied normal answer) (promote_of_none (.inl unstaged))
  obtain ⟨freed, rfl⟩ := continued.of_oneShot once
  refine ⟨t, done, only, output, freed, ?_⟩
  cases notify : c.notify with
  | false => simpa [notify] using told
  | true => simpa [notify, cueRecord] using told

/-- Settles O20: the continuation of every outcome that continues, and its case of a next grid due ahead. -/
theorem occurrenceAppliedPeriodic : Obligations.OccurrenceAppliedPeriodic := by
  constructor
  · intro s i rest c c' o period shift live first _ stands now attached run normal answer staged hp left ahead
    exact occurrence_goesOn ⟨live, first, stands, now⟩ attached run (.applied normal answer) (promote_of_cases staged)
      hp left ahead
  · intro s i rest c c₁ c' o shift es live first _ stands now attached run told out staged
    have due : s.DueFirst i rest c := ⟨live, first, stands, now⟩
    rcases out with ⟨trip, rfl, rfl, rfl⟩ | ⟨normal, answer, rfl, rfl⟩ | ⟨g, normal, answer, rfl, rfl⟩
    · exact occurrence_continues due attached run (.suppressed trip) (promote_of_cases staged)
    · exact occurrence_continues due attached run (.applied normal answer) (promote_of_cases staged)
    · exact occurrence_continues due attached run (.refused normal answer) (promote_of_cases staged)

/-- Settles O21: REFUSED is an outcome that continues and goes on; DEFERRED places the cue on its group's list. -/
theorem occurrenceTurnedAway : Obligations.OccurrenceTurnedAway := by
  intro s i rest c g live first listed stands now attached run normal
  have due : s.DueFirst i rest c := ⟨live, first, stands, now⟩
  refine ⟨fun period answer unstaged hp left ahead => ?_, fun answer => ?_⟩
  · obtain ⟨t, done, only, output, goes, told⟩ := occurrence_goesOn due attached run (.refused normal answer)
      (promote_of_none (.inl unstaged)) hp left (by rwa [shifted_zero])
    rw [shifted_zero] at goes
    exact ⟨t, done, changesOnly_of_output only output, goes, told⟩
  · have occurs := occur_of_normal (s := s.offList rest) (i := i) attached run normal answer
    have filled (j : SlotId) (h : j ∈ look s.cueTable.deferred g) : ∃ d, s.cueTable.cue j = some d := by
      obtain ⟨d, hd, -⟩ := listed.deferredOnly g j h
      exact ⟨d, hd⟩
    refine ⟨_, (exec_occurrence_of_due due).trans (congrArg _ occurs), ?_,
      fun j => CueTable.defer_cue _ s.now i j c g, rfl, fun h other => ?_,
      CueTable.defer_place (s.offList rest).cueTable s.now i c g filled,
      fun j => CueTable.defer_gen _ s.now i j c g, rfl⟩
    · exact ⟨rfl, fun b hb => by cases b <;> simp_all [Block.same, State.offList, takeAnswer]⟩
    · exact (look_change _ _ _ _).trans (if_neg other)

end Sys2Proof.Machine
end

section
/-! PROOFS. The dues that skipping counts (R58) and the release of a deferred list (R62, R63). -/

namespace Sys2Proof.Machine

/-! ### Skipping (R58) -/

section Skipping

variable {c : Cue} {now : Time} {period : Triple}

theorem duesPassed_of_period (hp : c.period = some period) :
    c.duesPassed now = distance c.gridDue now / period.toNat + 1 := by
  simp [Cue.duesPassed, hp]

/-- The grid dues before the passed ones run out are not ahead of now. -/
theorem passed_not_ahead {due : Time} {m : Nat} (h : isAhead now due = false)
    (hm : m < distance due now / period.toNat + 1) : isAhead now (later due (m * period.toNat)) = false :=
  not_ahead_of_passed h ((Nat.mul_le_mul_right _ (Nat.le_of_lt_succ hm)).trans (Nat.div_mul_le_self _ _))

/-- The grid due after the passed ones is ahead of now, since a period is shorter than the window. -/
theorem next_ahead (due : Time) (h : period ≠ 0) :
    isAhead now (later due ((distance due now / period.toNat + 1) * period.toNat)) = true := by
  have positive : 0 < period.toNat := Nat.pos_of_ne_zero fun z => h (BitVec.eq_of_toNat_eq z)
  have short := period.isLt
  have below := Nat.div_mul_le_self (distance due now) period.toNat
  have above := Nat.lt_mul_div_succ (distance due now) positive
  rw [Nat.mul_comm] at above
  exact ahead_of_past above (by rw [Nat.succ_mul]; omega)

/-- Skipping counts no more dues than remain, and with the last of them the cue is over. -/
theorem skip_of_spent {k : Half} (hr : c.remaining = some k) (spent : k.toNat ≤ c.duesPassed now) :
    (c.skip now).2 = true ∧ (c.skip now).1.missed = raiseMissed c.missed k.toNat := by
  simp [Cue.skip, hr, spent]

/-- With dues left over the passed ones are counted, and the grid due is the one after them. -/
theorem skip_of_left (hp : c.period = some period) (left : ∀ k, c.remaining = some k → c.duesPassed now < k.toNat) :
    c.skip now = ({ c with
      missed := raiseMissed c.missed (c.duesPassed now)
      remaining := c.remaining.map (fun k => k - BitVec.ofNat 16 (c.duesPassed now))
      gridDue := later c.gridDue (c.duesPassed now * period.toNat) }, false) := by
  cases hr : c.remaining with
  | none => simp [Cue.skip, hp, hr]
  | some k =>
    have more := left k hr
    simp [Cue.skip, hp, hr, Nat.min_eq_right (Nat.le_of_lt more), more]

end Skipping

/-- Settles O22: `n` periods are the first number of them to pass the distance to now. -/
theorem skipCountsPassedDues : Obligations.SkipCountsPassedDues := by
  intro c now period hp nonzero passed n
  have count : c.duesPassed now = n := duesPassed_of_period hp
  refine ⟨fun m hm => passed_not_ahead passed hm, next_ahead _ nonzero, fun k hr spent => ?_, fun left => ?_⟩
  · exact skip_of_spent hr (count ▸ spent)
  · rw [← count] at left ⊢
    exact skip_of_left hp left

/-! ### Release of a deferred list (R62, R63) -/

theorem exec_openingNotice_of_sent {s : State} {g : Group} (live : s.live = true) (sent : g ∈ s.output.notices) :
    exec (.openingNotice g) s = .next ((s.setOutput { s.output with notices := s.output.notices.erase g }).setCueTable
      (s.cueTable.releaseGroup s.now g)) := by
  refine (whenLive_of_live live _).trans ?_
  rw [if_pos sent]

/-- Settles O23: the release is that of a list of distinct slots that hold cues. -/
theorem openingNoticeReleases : Obligations.OpeningNoticeReleases := by
  intro s g live sent listed
  have filled (i : SlotId) (h : i ∈ look s.cueTable.deferred g) : (s.cueTable.cue i).isSome = true := by
    obtain ⟨d, hd, -⟩ := listed.deferredOnly g i h
    simp [hd]
  obtain ⟨others, released, pending, -, gens, deferred, sets⟩ := releases_spec s.now (look s.cueTable.deferred g)
    { s.cueTable with deferred := put s.cueTable.deferred g [] } (listed.deferredOnce g) filled
  refine ⟨_, exec_openingNotice_of_sent live sent, ?_, rfl, fun h => ?_, pending, others, released, gens, sets⟩
  · exact ⟨rfl, fun b hb => by cases b <;> simp_all [Block.same]⟩
  · exact (congrArg (look · h) deferred).trans (look_put _ _ _ _)

end Sys2Proof.Machine
end

section
/-! PROOFS. The members of a set at its commit time (R81 to R83): what a member's record, once applied, and
its shift make of the table, and which records the catch-up rule posts. -/

namespace Sys2Proof.Machine

/-! ### What is left in one slot -/

/-- An operation on the cue of one slot leaves a cue there, or frees the slot: the slot stands in the lists it stood in,
or leaves them, and every other slot, every set and the next entry order are as before. -/
structure CueTable.Left (ct ct' : CueTable) (i : SlotId) (left : Option Cue) : Prop where
  cues : ∀ j, ct'.cue j = if j = i then left else ct.cue j
  gens : ∀ j, ct'.gen j = if j = i ∧ left = none then ct.gen i + 1 else ct.gen j
  sets : ∀ k, ct'.commitSet k = ct.commitSet k
  pending : ct.Listed → ct'.pendingList.Perm (ct.pendingList.filter (fun j => j != i || left.isSome))
  deferred : ∀ g, look ct'.deferred g = (look ct.deferred g).filter (fun j => j != i || left.isSome)
  entry : ct'.nextEntry = ct.nextEntry

section Leaving

variable {ct ct' : CueTable} {i : SlotId} {c₀ c d : Cue} {left : Option Cue}

theorem CueTable.left_setCue (ct : CueTable) (i : SlotId) (d : Cue) : ct.Left (ct.setCue i d) i (some d) where
  cues j := ct.setCue_cue i j d
  gens j := by simp
  sets k := rfl
  pending _ := by simp
  deferred g := by simp
  entry := rfl

/-- A PENDING cue takes its new place in the list that holds it (R22). -/
theorem CueTable.left_replace (now : Time) (stands : ct.cue i = some c) (was : c.state = .pending)
    (is : d.state = .pending) : ct.Left (ct.replace now i d) i (some d) where
  cues j := by rw [CueTable.replace_cue, ← is]
  gens j := by
    show ((ct.unlist i).place now i d).gen j = _
    simp
  sets k := rfl
  pending listed := by
    have here : i ∈ ct.pendingList := (listed.pendingExact i).2 ⟨c, stands, was⟩
    have others : ct.pendingList.filter (fun j => j != i) = ct.pendingList.erase i :=
      (listed.pendingOnce.erase_eq_filter i).symm
    have placed : (ct.replace now i d).pendingList.Perm (i :: ct.pendingList.filter (fun j => j != i)) :=
      CueTable.perm_place (ct.unlist i) now i d
    rw [others] at placed
    simpa using placed.trans (List.perm_cons_erase here).symm
  deferred g := by simp [CueTable.replace, CueTable.unlist]
  entry := rfl

/-- A cue of no set is freed (R17). -/
theorem CueTable.left_freeSlot (stands : ct.cue i = some c) (alone : c.set = none) :
    ct.Left (ct.freeSlot i) i none := by
  have freed := slotFreed_freeSlot stands
  refine ⟨freed.cues, fun j => by simp [freed.gens], fun k => by simp [freed.sets, alone], fun _ => ?_, fun g => ?_,
    freed.entry⟩
  · simp [freed.pending]
  · simp [freed.deferred]

/-- An operation on a cue that was stored with new fields before. -/
theorem CueTable.Left.of_stored (h : (ct.setCue i c).Left ct' i left) (stands : ct.cue i = some c₀)
    (reworked : c₀.Reworked c) (due : c.due = c₀.due) : ct.Left ct' i left where
  cues j := by
    rw [h.cues, CueTable.setCue_cue]
    split <;> rfl
  gens j := by simp [h.gens]
  sets := h.sets
  pending listed := h.pending ((CueTable.Move.store (now := 0) stands reworked fun _ => due).listed listed)
  deferred := h.deferred
  entry := h.entry

end Leaving

/-! ### One member (R81, R82) -/

/-- The operation leaves a member, with the record's fields in `c` already, as its shift asks, and posts the records of
the catch-up rule to its owner (R82). -/
def State.Settles (s t : State) (i : SlotId) (c : Cue) (shift : Triple) : Prop :=
  ∃ left es, ShiftLeaves c shift s.now left ∧ ShiftPosts c shift s.now (s.cueTable.handle i) es
    ∧ Told s t c.owner es ∧ s.cueTable.Left t.cueTable i left

section Member

variable {s t : State} {i : SlotId} {c₀ c d : Cue} {shift : Triple} {now : Time} {handle : Half}
  {es fs : List EventRecord} {goOn : Cue → State → State}

/-- Cue, shift and time determine the records posted. -/
theorem ShiftPosts.unique (h : ShiftPosts c shift now handle es) (k : ShiftPosts c shift now handle fs) : es = fs := by
  by_cases skips : c.SkipsBy shift now
  · exact (h.1 skips).trans (k.1 skips).symm
  · exact (h.2 skips).trans (k.2 skips).symm

theorem told_setCueTable (s : State) (ct : CueTable) (p : Port) : Told s (s.setCueTable ct) p [] :=
  ⟨changesOnly_setCueTable s ct, portReceives_of_ports (portReceives_nil s p) rfl⟩

/-- The catch-up rule under SKIP on a cue of no set: what skipping leaves of it goes on, or the slot is freed; MISSED
and DONE are posted (R58). -/
theorem catchUpSkip_left (stands : s.cueTable.cue i = some c₀) (alone : c₀.set = none)
    (goes : ∀ d u, d.state = c.state → u.cueTable = s.cueTable →
      Told u (goOn d u) c.owner [] ∧ s.cueTable.Left (goOn d u).cueTable i (some d)) :
    Told s (catchUpSkip i c goOn s) c.owner
        ((if c.missed = 0 then [cueRecord .missed c (s.cueTable.handle i) 1 s.now] else [])
          ++ (if (c.skip s.now).2 = true ∧ c.notify = true then [cueRecord .done c (s.cueTable.handle i) 0 s.now]
            else []))
      ∧ s.cueTable.Left (catchUpSkip i c goOn s).cueTable i
          (if (c.skip s.now).2 then none else some (c.skip s.now).1) := by
  obtain ⟨missed, table, now⟩ := postMissed_spec s i c
  unfold catchUpSkip
  dsimp only
  split
  · next spent =>
    obtain ⟨done, freed⟩ := retire_spec (postMissed i c s) i (c.skip s.now).1
    rw [freed, table]
    rw [table, now] at done
    refine ⟨?_, CueTable.left_freeSlot stands alone⟩
    simp only [spent, true_and]
    exact missed.trans done
  · next on =>
    obtain ⟨told, kept⟩ := goes (c.skip s.now).1 (postMissed i c s) rfl table
    refine ⟨?_, kept⟩
    simpa [on] using missed.trans told

/-- A member that the catch-up rule under SKIP meets. -/
theorem settles_of_skips (skips : c.SkipsBy shift s.now) (stands : s.cueTable.cue i = some c₀)
    (reworked : c₀.Reworked c) (due : c.due = c₀.due) (alone : c.set = none)
    (goes : ∀ d u, d.state = c.state → u.cueTable = s.cueTable.setCue i c →
      Told u (goOn d u) c.owner [] ∧ u.cueTable.Left (goOn d u).cueTable i (some d)) :
    s.Settles (catchUpSkip i { c with gridDue := shifted c.gridDue shift } goOn (storeCue i c s)) i c shift := by
  obtain ⟨told, left⟩ := catchUpSkip_left (s := storeCue i c s) (c := { c with gridDue := shifted c.gridDue shift })
    (goOn := goOn) (s.cueTable.setCue_cue_self i c) alone fun d u state table => by
      obtain ⟨told, left⟩ := goes d u state table
      exact ⟨told, table ▸ left⟩
  have handle : (storeCue i c s).cueTable.handle i = s.cueTable.handle i := by
    simp [storeCue, CueTable.handle]
  have all := (told_setCueTable s (s.cueTable.setCue i c) c.owner).trans told
  rw [handle] at all
  exact ⟨_, _, ⟨fun _ => rfl, fun not => absurd skips not⟩, ⟨fun _ => rfl, fun not => absurd skips not⟩, all,
    left.of_stored stands reworked due⟩

/-- A member that it does not meet. -/
theorem settles_of_stays {ct : CueTable} (stays : ¬ c.SkipsBy shift s.now) (left : s.cueTable.Left ct i (some d))
    (kept : d = if shift ≠ 0 ∧ c.state = .pending ∧ c.effDue = none
        ∧ isAhead s.now (shifted c.gridDue shift) = false
      then { c with gridDue := shifted c.gridDue shift }.broughtDue s.now
      else { c with gridDue := shifted c.gridDue shift }) :
    s.Settles (s.setCueTable ct) i c shift :=
  ⟨some d, [], ⟨fun skips => absurd skips stays, fun _ => congrArg some kept⟩,
    ⟨fun skips => absurd skips stays, fun _ => rfl⟩, told_setCueTable s ct c.owner, left⟩

/-- A shift settles a member whose cue has taken its record's fields, row by row of the table of R82. -/
theorem shiftCue_settles (stands : s.cueTable.cue i = some c₀) (reworked : c₀.Reworked c) (due : c.due = c₀.due)
    (alone : c.set = none) (moves : shift ≠ 0) : s.Settles (shiftCue i c shift s) i c shift := by
  have stored := s.cueTable.left_setCue i { c with gridDue := shifted c.gridDue shift }
  unfold shiftCue
  dsimp only
  split
  · next pending late =>
    exact settles_of_stays (by simp [Cue.SkipsBy, pending, late]) stored (by simp [late])
  · next pending onTime =>
    have was : c₀.state = .pending := reworked.state ▸ pending
    split
    · next ahead =>
      exact settles_of_stays (by simp [Cue.SkipsBy, ahead]) (CueTable.left_replace s.now stands was pending)
        (by simp [ahead])
    · next behind =>
      split
      · next skip =>
        refine settles_of_skips ⟨moves, .inr onTime, Bool.eq_false_iff.2 behind, skip⟩ stands reworked due alone
          fun d u state table => ⟨told_setCueTable _ _ _, ?_⟩
        have here : u.cueTable.cue i = some c := by rw [table, CueTable.setCue_cue_self]
        exact CueTable.left_replace u.now here pending (state.trans pending)
      · next late =>
        exact settles_of_stays (by simp [Cue.SkipsBy, late]) (CueTable.left_replace s.now stands was pending)
          (if_pos ⟨moves, pending, onTime, Bool.eq_false_iff.2 behind⟩).symm
  · next waits =>
    split
    · next ahead =>
      exact settles_of_stays (by simp [Cue.SkipsBy, ahead]) stored (by simp [waits])
    · next behind =>
      split
      · next skip =>
        exact settles_of_skips ⟨moves, .inl waits, Bool.eq_false_iff.2 behind, skip⟩ stands reworked due alone
          fun d u _ _ => ⟨told_setCueTable _ _ _, u.cueTable.left_setCue i d⟩
      · next late =>
        exact settles_of_stays (by simp [Cue.SkipsBy, late]) stored (by simp [waits])

/-- A member's record is applied, and its shift settles the member (R81, R82). -/
theorem applyMember_settles {r : StagedRecord} (stands : s.cueTable.cue i = some c) (staged : c.staged = some r) :
    s.Settles (applyMember s i) i (c.applyRecord r) (r.shift.getD 0) := by
  unfold applyMember
  simp only [stands, staged]
  generalize r.shift.getD 0 = shift
  split
  · next none =>
    subst none
    exact settles_of_stays (by simp [Cue.SkipsBy]) (s.cueTable.left_setCue i _)
      (by rw [if_neg (by simp), shifted_zero])
  · next moves => exact shiftCue_settles stands (Cue.reworked_applyRecord staged) rfl rfl moves

/-- A settled member has left its set. -/
theorem ShiftLeaves.alone {left : Option Cue} (h : ShiftLeaves c shift now left) (alone : c.set = none)
    (stays : left = some d) : d.set = none := by
  by_cases skips : c.SkipsBy shift now
  · have left := (h.1 skips).symm.trans stays
    split at left
    · cases left
    · cases left; exact alone
  · have left := (h.2 skips).symm.trans stays
    cases left
    split <;> exact alone

end Member

end Sys2Proof.Machine
end

section
/-! PROOFS. Every step keeps the member counts of the sets right and every member its set owner's (R76, R84). -/

namespace Sys2Proof.Machine

/-! ### Counting members -/

section Counting

variable {ct ct' : CueTable} {i : SlotId} {k : SetId} {x : Option Cue}

theorem mem_membersOf : i ∈ ct.membersOf k ↔ ∃ c, ct.cue i = some c ∧ c.set = some k := by
  simp [CueTable.membersOf, CueTable.mem_slotsWith]

theorem membersOf_eq_nil (h : ∀ j c, ct.cue j = some c → c.set ≠ some k) : ct.membersOf k = [] :=
  List.eq_nil_iff_forall_not_mem.2 fun j m => by
    obtain ⟨c, hc, hk⟩ := mem_membersOf.1 m
    exact h j c hc hk

theorem slotsWith_congr {has : Cue → Bool} (h : ∀ j, (ct'.cue j).any has = (ct.cue j).any has) :
    ct'.slotsWith has = ct.slotsWith has := by
  unfold CueTable.slotsWith
  refine List.filter_congr fun j _ => ?_
  have same := h j
  cases new : ct'.cue j <;> cases old : ct.cue j <;> simp_all

/-- A slot whose cue changes counts by its old cue before and by its new one after. -/
theorem length_slotsWith_of_one (slots : ∀ j, ct'.cue j = if j = i then x else ct.cue j) (has : Cue → Bool) :
    (ct'.slotsWith has).length + (if (ct.cue i).any has then 1 else 0)
      = (ct.slotsWith has).length + if x.any has then 1 else 0 := by
  have others (j : SlotId) (other : j ≠ i) : (ct'.cue j).any has = (ct.cue j).any has := by
    rw [slots, if_neg other]
  have here : ct'.cue i = x := by rw [slots, if_pos rfl]
  have counts (t : CueTable) : (t.slotsWith has).length = ((indices 96).erase i).countP (fun j => (t.cue j).any has)
      + if (t.cue i).any has then 1 else 0 := by
    rw [← List.countP_cons, ← (List.perm_cons_erase (mem_indices i)).countP_eq, List.countP_eq_length_filter]
    unfold CueTable.slotsWith
    congr 2
    funext j
    cases t.cue j <;> rfl
  have same : ((indices 96).erase i).countP (fun j => (ct'.cue j).any has)
      = ((indices 96).erase i).countP (fun j => (ct.cue j).any has) :=
    List.countP_congr fun j m => by
      rw [others j fun e => (nodup_indices 96).not_mem_erase (e ▸ m)]
  rw [counts ct', counts ct, same, here]
  omega

theorem recount_memberCount {c : CommitSet} {p : Port} (h : c.owner? = some p) (f : Nat → Nat) :
    (c.recount f).memberCount = f c.memberCount := by
  cases c with
  | free => cases h
  | opened => rfl
  | scheduled => rfl

end Counting

theorem CueTable.joinSet_commitSet (ct : CueTable) (c : Cue) (j : Option SetId) (k : SetId) :
    (ct.joinSet c j).commitSet k = if j = some k ∧ c.staged = none
      then (ct.commitSet k).recount (fun n => n + 1) else ct.commitSet k := by
  cases j with
  | none => rfl
  | some j =>
    cases staged : c.staged with
    | some r => simp [CueTable.joinSet, staged]
    | none =>
      simp only [CueTable.joinSet, staged, Option.isSome_none, Bool.false_eq_true, if_false, CueTable.commitSet,
        look_change]
      by_cases same : k = j
      · simp [same]
      · simp [same, Ne.symm same]

theorem CueTable.stageRecord_cue (ct : CueTable) (i : SlotId) (c : Cue) (r : StagedRecord) (j : Option SetId)
    (n : SlotId) : (ct.stageRecord i c r j).cue n
      = if n = i then some { c with staged := some r, set := j } else ct.cue n := by
  unfold CueTable.stageRecord
  rw [CueTable.setCue_cue, CueTable.joinSet_cue]

/-- A cue leaves its set and loses its record (R72). -/
theorem CueTable.unstageRecord_cue (ct : CueTable) (i : SlotId) (c : Cue) (n : SlotId) :
    ((ct.leaveSet c.set).setCue i c.unstaged).cue n = if n = i then some c.unstaged else ct.cue n := by
  rw [CueTable.setCue_cue, CueTable.leaveSet_cue]

/-! ### One slot changed -/

/-- A cue that keeps its owner, its set and, in a set, its record. -/
structure Cue.SameMember (c d : Cue) : Prop where
  owner : d.owner = c.owner
  set : d.set = c.set
  staged : c.set.isSome = true → d.staged = c.staged

section Members

variable {c d e : Cue}

theorem Cue.SameMember.refl (c : Cue) : c.SameMember c := ⟨rfl, rfl, fun _ => rfl⟩

theorem Cue.SameMember.trans (h : c.SameMember d) (k : d.SameMember e) : c.SameMember e :=
  ⟨k.owner.trans h.owner, k.set.trans h.set, fun m => (k.staged (h.set ▸ m)).trans (h.staged m)⟩

/-- Only a record of no set is promoted (R74). -/
theorem Cue.sameMember_promote (c : Cue) : c.SameMember c.promote.1 := by
  unfold Cue.promote
  split
  · next alone => exact ⟨rfl, alone.symm, fun m => by simp [alone] at m⟩
  · exact .refl c

theorem Cue.sameMember_of_eq (owner : d.owner = c.owner) (set : d.set = c.set) (staged : d.staged = c.staged) :
    c.SameMember d := ⟨owner, set, fun _ => staged⟩

theorem Cue.sameMember_advanced (c : Cue) (shift : Triple) : c.SameMember (c.decrement.advanced shift) :=
  sameMember_of_eq rfl rfl rfl

theorem Cue.sameMember_skip (c : Cue) (now : Time) : c.SameMember (c.skip now).1 := sameMember_of_eq rfl rfl rfl

theorem Cue.sameMember_broughtDue (c : Cue) (now : Time) : c.SameMember (c.broughtDue now) :=
  sameMember_of_eq rfl rfl rfl

end Members

namespace CueTable.SetsCounted

variable {ct ct' : CueTable} {i : SlotId} {x : Option Cue} {c d : Cue} {p : Port} {k : SetId}

/-- The lists and the next entry order do not matter. -/
theorem of_slots (h : ct.SetsCounted) (slots : ct'.slots = ct.slots) (sets : ct'.sets = ct.sets) :
    ct'.SetsCounted := by
  have cues (j : SlotId) : ct'.cue j = ct.cue j := by simp only [CueTable.cue, slots]
  have commits (k : SetId) : ct'.commitSet k = ct.commitSet k := by simp only [CueTable.commitSet, sets]
  refine ⟨fun k => ?_, fun j c k hc hk => ?_⟩
  · rw [commits, h.counted]
    exact congrArg List.length (slotsWith_congr fun j => by rw [cues]).symm
  · rw [commits]
    exact h.owned j c k (cues j ▸ hc) hk

/-- One slot changes what it holds, each set keeps its owner and counts the change, and the new cue, as a
member, is its set owner's. -/
theorem of_one (h : ct.SetsCounted) (slots : ∀ j, ct'.cue j = if j = i then x else ct.cue j)
    (owners : ∀ k, (ct'.commitSet k).owner? = (ct.commitSet k).owner?)
    (counts : ∀ k, (ct'.commitSet k).memberCount + (if (ct.cue i).any (fun c => c.set == some k) then 1 else 0)
      = (ct.commitSet k).memberCount + if x.any (fun c => c.set == some k) then 1 else 0)
    (own : ∀ c k, x = some c → c.set = some k →
      c.staged.isSome = true ∧ (ct.commitSet k).owner? = some c.owner) : ct'.SetsCounted where
  counted k := by
    have members := length_slotsWith_of_one slots (fun c => c.set == some k)
    have before := h.counted k
    have change := counts k
    unfold CueTable.membersOf at before ⊢
    omega
  owned j c k hc hk := by
    rw [slots] at hc
    rw [owners]
    split at hc
    · exact own c k hc hk
    · exact h.owned j c k hc hk

/-- A cue that keeps its membership is stored in its slot. -/
theorem rework (h : ct.SetsCounted) (stands : ct.cue i = some c) (same : c.SameMember d)
    (slots : ∀ j, ct'.cue j = if j = i then some d else ct.cue j) (sets : ct'.sets = ct.sets) : ct'.SetsCounted := by
  have commits (k : SetId) : ct'.commitSet k = ct.commitSet k := by simp only [CueTable.commitSet, sets]
  refine h.of_one slots (fun k => by rw [commits]) (fun k => by simp [commits, stands, same.set]) fun e k he hk => ?_
  cases he
  rw [same.set] at hk
  rw [same.staged (by simp [hk]), same.owner]
  exact h.owned i c k stands hk

/-- The set of a member is in use and counts it. -/
theorem counts_member (h : ct.SetsCounted) (stands : ct.cue i = some c) (member : c.set = some k) :
    0 < (ct.commitSet k).memberCount := by
  rw [h.counted]
  exact List.length_pos_of_mem (mem_membersOf.2 ⟨c, stands, member⟩)

/-- A cue leaves its set, which counts one fewer (R84). -/
theorem leave (h : ct.SetsCounted) (stands : ct.cue i = some c)
    (slots : ∀ j, ct'.cue j = if j = i then x else ct.cue j) (alone : ∀ d, x = some d → d.set = none)
    (sets : ∀ k, ct'.commitSet k =
      if c.set = some k then (ct.commitSet k).recount (fun n => n - 1) else ct.commitSet k) : ct'.SetsCounted := by
  have gone (k : SetId) : x.any (fun c => c.set == some k) = false := by
    cases hx : x with
    | none => rfl
    | some d => simp [alone d hx]
  refine h.of_one slots (fun k => ?_) (fun k => ?_) fun d k hd hk => ?_
  · rw [sets]
    split
    · exact recount_owner? _ _
    · rfl
  · rw [sets, gone, stands]
    by_cases member : c.set = some k
    · have owner := (h.owned i c k stands member).2
      have positive := h.counts_member stands member
      simp only [member, if_true, recount_memberCount owner, Option.any_some, beq_self_eq_true, Bool.false_eq_true,
        if_false]
      omega
    · simp [member]
  · rw [alone d hd] at hk
    cases hk

theorem freeSlot (h : ct.SetsCounted) (i : SlotId) : (ct.freeSlot i).SetsCounted := by
  cases hc : ct.cue i with
  | none => rw [ct.freeSlot_of_free i hc]; exact h
  | some c =>
    exact h.leave hc (ct.freeSlot_cue i) (fun d e => by cases e) (ct.freeSlot_commitSet i c hc)

theorem purge (h : ct.SetsCounted) (has : Cue → Bool) : (ct.purge has).SetsCounted := by
  unfold CueTable.purge
  generalize ct.slotsWith has = is
  induction is generalizing ct with
  | nil => exact h
  | cons i rest ih => exact ih (h.freeSlot i)

/-- A new cue of no set in a FREE slot (R32). -/
theorem newCue (h : ct.SetsCounted) (free : ct.cue i = none) (alone : c.set = none) (now : Time) :
    (ct.enter now i c).SetsCounted :=
  h.of_one (ct.enter_cue now i · c) (fun _ => rfl) (fun k => by simp [free, alone, CueTable.commitSet])
    fun d k e m => by cases e; exact absurd (alone.symm.trans m) (by simp)

/-- A record staged beside a cue of the set's owner; the cue joins the set when it held no record (R70, R71). -/
theorem stageRecord {r : StagedRecord} {j : Option SetId} (h : ct.SetsCounted) (stands : ct.cue i = some c)
    (named : ∀ k, j = some k → (ct.commitSet k).owner? = some c.owner) (fits : c.staged.isSome = true → c.set = j) :
    (ct.stageRecord i c r j).SetsCounted := by
  have unset : c.staged = none → c.set = none := fun absent => by
    by_contra member
    obtain ⟨k, hk⟩ := Option.ne_none_iff_exists'.1 member
    simpa [absent] using (h.owned i c k stands hk).1
  have commits (k : SetId) : (ct.stageRecord i c r j).commitSet k = if j = some k ∧ c.staged = none
      then (ct.commitSet k).recount (fun n => n + 1) else ct.commitSet k := ct.joinSet_commitSet c j k
  refine h.of_one (ct.stageRecord_cue i c r j) (fun k => ?_) (fun k => ?_) fun d k e m => by
    cases e
    exact ⟨rfl, named k m⟩
  · rw [commits]
    split
    · exact recount_owner? _ _
    · rfl
  · rw [commits, stands]
    by_cases absent : c.staged = none
    · by_cases m : j = some k
      · simp [m, absent, unset absent, recount_memberCount (named k m)]
      · simp [m, absent, unset absent]
    · simp [absent, fits (Option.isSome_iff_ne_none.2 absent)]

/-! ### Sets emptied (R40, R41, R77 to R80) -/

/-- Sets that are emptied count no members and no cue names them; the others keep their members, count and owner. -/
theorem of_sets {emptied : SetId → Prop} (h : ct.SetsCounted)
    (kept : ∀ k, ¬ emptied k → (ct'.commitSet k).memberCount = (ct.commitSet k).memberCount
      ∧ (ct'.commitSet k).owner? = (ct.commitSet k).owner?)
    (cues : ∀ j c k, ¬ emptied k → c.set = some k → (ct'.cue j = some c ↔ ct.cue j = some c))
    (empty : ∀ k, emptied k → (ct'.commitSet k).memberCount = 0 ∧ ∀ j c, ct'.cue j = some c → c.set ≠ some k) :
    ct'.SetsCounted where
  counted k := by
    by_cases e : emptied k
    · obtain ⟨zero, none⟩ := empty k e
      rw [zero, membersOf_eq_nil none, List.length_nil]
    · rw [(kept k e).1, h.counted]
      refine congrArg List.length (slotsWith_congr fun j => ?_)
      rw [Bool.eq_iff_iff, Option.any_eq_true, Option.any_eq_true]
      exact exists_congr fun c => and_congr_left fun m => (cues j c k e (by simpa using m)).symm
  owned j c k hc hk := by
    by_cases e : emptied k
    · exact absurd hk ((empty k e).2 j c hc)
    · rw [(kept k e).2]
      exact h.owned j c k ((cues j c k e hk).1 hc) hk

/-- Sets without members are freed. -/
theorem freeSets (h : ct.SetsCounted) (has : CommitSet → Bool)
    (empty : ∀ j c k, ct.cue j = some c → c.set = some k → has (ct.commitSet k) = false) :
    (ct.freeSets has).SetsCounted := by
  refine h.of_sets (emptied := fun k => has (ct.commitSet k) = true) (fun k on => ?_) (fun _ _ _ _ _ => Iff.rfl)
    fun k freed => ?_
  · rw [CueTable.freeSets_commitSet, if_neg on]
    exact ⟨rfl, rfl⟩
  · rw [CueTable.freeSets_commitSet, if_pos freed]
    exact ⟨rfl, fun j c hc m => by simp [empty j c k hc m] at freed⟩

/-- A set record is replaced by one with its count and owner. -/
theorem putSet {n : CommitSet} (h : ct.SetsCounted) (count : n.memberCount = (ct.commitSet k).memberCount)
    (owner : n.owner? = (ct.commitSet k).owner?) : (ct.putSet k n).SetsCounted := by
  refine h.of_sets (emptied := fun _ => False) (fun j _ => ?_) (fun _ _ _ _ _ => Iff.rfl) fun _ e => e.elim
  rw [CueTable.putSet_commitSet]
  split
  · next e => exact e ▸ ⟨count, owner⟩
  · exact ⟨rfl, rfl⟩

/-- A FREE set has no members (R76), so it may become any set that counts none. -/
theorem openSet {n : CommitSet} (h : ct.SetsCounted) (free : ct.commitSet k = .free) (none : n.memberCount = 0) :
    (ct.putSet k n).SetsCounted := by
  refine h.of_sets (emptied := fun j => j = k) (fun j other => ?_) (fun _ _ _ _ _ => Iff.rfl) fun j e => ?_
  · rw [CueTable.putSet_commitSet, if_neg other]
    exact ⟨rfl, rfl⟩
  · rw [CueTable.putSet_commitSet, if_pos e]
    refine ⟨none, fun i c hc m => ?_⟩
    have owner := (h.owned i c k hc (e ▸ m)).2
    rw [free] at owner
    cases owner

/-- A set is freed, and what were its members name no set afterwards. -/
theorem setFreed (h : ct.SetsCounted) (sets : ∀ j, ct'.commitSet j = if j = k then .free else ct.commitSet j)
    (others : ∀ j, j ∉ ct.membersOf k → ct'.cue j = ct.cue j)
    (members : ∀ j c, j ∈ ct.membersOf k → ct'.cue j = some c → c.set = none) : ct'.SetsCounted := by
  refine h.of_sets (emptied := fun j => j = k) (fun j other => ?_) (fun j c k' other hk => ?_) fun k' e => ?_
  · rw [sets, if_neg other]
    exact ⟨rfl, rfl⟩
  · by_cases m : j ∈ ct.membersOf k
    · refine ⟨fun hc => ?_, fun hc => ?_⟩
      · simp [members j c m hc] at hk
      · obtain ⟨d, hd, hk'⟩ := mem_membersOf.1 m
        cases hd.symm.trans hc
        exact absurd (Option.some.inj (hk.symm.trans hk')) other
    · rw [others j m]
  · rw [sets, if_pos e]
    refine ⟨rfl, fun j c hc hk => ?_⟩
    subst e
    by_cases m : j ∈ ct.membersOf k'
    · simp [members j c m hc] at hk
    · exact m (mem_membersOf.2 ⟨c, others j m ▸ hc, hk⟩)

theorem freeSetWhole (h : ct.SetsCounted) (k : SetId) : (ct.freeSetWhole k).SetsCounted := by
  refine h.setFreed (ct.freeSetWhole_commitSet k) (fun j out => ?_) fun j c m hc => ?_
  · rw [CueTable.freeSetWhole_cue]
    cases hc : ct.cue j with
    | none => rfl
    | some c =>
      have other : c.set ≠ some k := fun m => out (mem_membersOf.2 ⟨c, hc, m⟩)
      simp [other]
  · obtain ⟨d, hd, member⟩ := mem_membersOf.1 m
    rw [CueTable.freeSetWhole_cue, hd] at hc
    simp only [Option.map_some, member, if_true, Option.some.injEq] at hc
    exact hc ▸ rfl

/-- The cues of a port are gone before its sets are freed (R40). -/
theorem portPurge (h : ct.SetsCounted) (p : Port) : (ct.portPurge p).SetsCounted := by
  have purged := h.purge (fun c => c.owner == p)
  refine purged.freeSets _ fun j c k hc hk => ?_
  have left := hc
  rw [CueTable.purge_cue, Option.filter_eq_some_iff] at left
  rw [(purged.owned j c k hc hk).2]
  simpa using left.2

theorem haltPurge (h : ct.SetsCounted) : ct.haltPurge.SetsCounted :=
  (h.purge _).freeSets _ fun j c k hc _ => by simp [CueTable.purge_cue] at hc

/-- Each cue released keeps its membership (R63). -/
theorem releaseGroup (h : ct.SetsCounted) (now : Time) (g : Group) : (ct.releaseGroup now g).SetsCounted := by
  have one (ct : CueTable) (i : SlotId) (h : ct.SetsCounted) : (ct.releaseOne now i).SetsCounted := by
    unfold CueTable.releaseOne
    split
    · next c hc =>
      exact h.rework hc (d := { c.released now with state := .pending, entry := ct.nextEntry })
        (Cue.sameMember_of_eq rfl rfl rfl) (ct.enter_cue now i · _) rfl
    · exact h
  exact List.foldlRecOn _ _ (of_slots h rfl rfl) fun ct h i _ => one ct i h

end CueTable.SetsCounted

/-! ### Occurrences and commit times (R43 to R60, R80 to R83) -/

section Firing

variable {s : State} {i : SlotId} {c₀ c : Cue} {k : SetId}

theorem catchUpSkip_counted {goOn : Cue → State → State} (h : s.cueTable.SetsCounted)
    (goes : ∀ u : State, u.cueTable = s.cueTable → (goOn (c.skip s.now).1 u).cueTable.SetsCounted) :
    (catchUpSkip i c goOn s).cueTable.SetsCounted :=
  catchUpSkip_table (P := CueTable.SetsCounted) (h.freeSlot i) fun _ u table _ => goes u table

/-- A cue continued is freed, or enters the pending list again with its membership. -/
theorem continueCue_counted (h : s.cueTable.SetsCounted) (stands : s.cueTable.cue i = some c₀)
    (same : c₀.SameMember c) : (continueCue i c s).cueTable.SetsCounted := by
  have enters {d : Cue} (same : c₀.SameMember d) (u : State) (table : u.cueTable = s.cueTable) :
      (enterPending i d u).cueTable.SetsCounted := by
    unfold enterPending
    rw [setCueTable_cueTable, table]
    exact h.rework stands (d := { d with state := .pending, entry := s.cueTable.nextEntry })
      (same.trans (Cue.sameMember_of_eq rfl rfl rfl)) (s.cueTable.enter_cue u.now i · d) rfl
  have next (shift : Triple) : c₀.SameMember (c.promote.1.decrement.advanced shift) :=
    (same.trans c.sameMember_promote).trans (Cue.sameMember_advanced _ shift)
  unfold continueCue
  dsimp only
  split
  · rw [(retire_spec s i _).2]
    exact h.freeSlot i
  · unfold advance
    dsimp only
    split
    · exact enters (next c.promote.2) s rfl
    · split
      · exact catchUpSkip_counted h fun u table =>
          enters ((next c.promote.2).trans (Cue.sameMember_skip _ s.now)) u table
      · exact enters ((next c.promote.2).trans (Cue.sameMember_broughtDue _ s.now)) s rfl

theorem occur_counted (h : s.cueTable.SetsCounted) (stands : s.cueTable.cue i = some c) :
    (occur i c s).cueTable.SetsCounted := by
  have continues {u : State} {missed : Half} (table : u.cueTable = s.cueTable) :
      (continueCue i { c with missed := missed } u).cueTable.SetsCounted :=
    continueCue_counted (c₀ := c) (table ▸ h) (table ▸ stands) (Cue.sameMember_of_eq rfl rfl rfl)
  unfold occur
  split
  · exact h.freeSlot i
  · split
    · exact continues (postMissed_spec s i c).2.1
    · dsimp only
      unfold takeAnswer
      split
      · refine continues ?_
        split <;> simp [postCue]
      · exact continues (missed := c.missed) (by simp [postCue])
      · next g _ =>
        exact h.rework stands (d := { c with state := .deferred, effDue := none }) (Cue.sameMember_of_eq rfl rfl rfl)
          (CueTable.defer_cue _ _ i · c g) rfl

/-- Members whose records are applied one after another name no set afterwards; other slots and all sets are as
before. -/
theorem applyMembers_leave (is : List SlotId) (s : State) (once : is.Nodup)
    (staged : ∀ i, i ∈ is → ∃ c r, s.cueTable.cue i = some c ∧ c.staged = some r) :
    (∀ k, (is.foldl applyMember s).cueTable.commitSet k = s.cueTable.commitSet k)
      ∧ (∀ j, j ∉ is → (is.foldl applyMember s).cueTable.cue j = s.cueTable.cue j)
      ∧ ∀ j c, j ∈ is → (is.foldl applyMember s).cueTable.cue j = some c → c.set = none := by
  induction is generalizing s with
  | nil => simp
  | cons i rest ih =>
    obtain ⟨out, once⟩ := List.nodup_cons.1 once
    obtain ⟨c, r, stands, hr⟩ := staged i List.mem_cons_self
    obtain ⟨left, _, leaves, _, _, here⟩ := applyMember_settles stands hr
    have other {j : SlotId} (m : j ∈ rest) : j ≠ i := fun e => out (e ▸ m)
    obtain ⟨sets, others, members⟩ := ih (applyMember s i) once fun j m => by
      rw [here.cues, if_neg (other m)]
      exact staged j (List.mem_cons_of_mem i m)
    rw [List.foldl_cons]
    refine ⟨fun k => (sets k).trans (here.sets k), fun j m => ?_, fun j d m hd => ?_⟩
    · obtain ⟨ne, m⟩ := not_or.1 (mt List.mem_cons.2 m)
      rw [others j m, here.cues, if_neg ne]
    · by_cases e : j = i
      · rw [others j (e ▸ out), here.cues, if_pos e] at hd
        exact leaves.alone rfl hd
      · exact members j d ((List.mem_cons.1 m).resolve_left e) hd

theorem applySet_counted (h : s.cueTable.SetsCounted) (owner : Port) (n : Nat) :
    (applySet k owner n s).cueTable.SetsCounted := by
  obtain ⟨sets, others, members⟩ := applyMembers_leave (s.cueTable.membersOf k) s (s.cueTable.nodup_slotsWith _)
    fun i m => by
      obtain ⟨c, hc, hk⟩ := mem_membersOf.1 m
      obtain ⟨r, hr⟩ := Option.isSome_iff_exists.1 (h.owned i c k hc hk).1
      exact ⟨c, r, hc, hr⟩
  unfold applySet
  rw [post_cueTable, setCueTable_cueTable]
  refine h.setFreed (k := k) (fun j => ?_) others members
  rw [CueTable.putSet_commitSet, sets]

end Firing

/-! ### List-class commands (chapters 2 and 4) -/

section Listing

variable {s u : State} {t : Ticket} {b : List Byte}

/-- A command on the owner's cue keeps a law of the table if its effect on a cue of the requester does. -/
theorem onOwnedCue_counted {effect : SlotId → Cue → State} (h : u.cueTable.SetsCounted)
    (on : ∀ i c, u.cueTable.cue i = some c → c.owner = t.port → (effect i c).cueTable.SetsCounted) :
    (onOwnedCue t b u effect).cueTable.SetsCounted := by
  unfold onOwnedCue
  split
  · exact h
  · next i c live =>
    split
    · next owner => exact on i c (live_cue live) owner
    · exact h

theorem addCue_counted (h : u.cueTable.SetsCounted) : (addCue t b u).cueTable.SetsCounted := by
  rcases addCue_cases t b u with ⟨st, refused⟩ | ⟨q, i, b', _, _, free, _, enters⟩
  · rw [refused]; exact h
  · rw [enters]; exact h.newCue free rfl u.now

theorem cancelCue_counted (h : u.cueTable.SetsCounted) : (cancelCue t b u).cueTable.SetsCounted := by
  unfold cancelCue
  split
  · exact h
  · exact onOwnedCue_counted h fun i c _ _ => h.freeSlot i

/-- A set that STAGE does not refuse is the requester's (R70). -/
theorem owner_of_not_refused {ct : CueTable} {p : Port} {j : Option SetId} (h : ct.refuseSet p j = none) (k : SetId)
    (named : j = some k) : (ct.commitSet k).owner? = some p := by
  subst named
  unfold CueTable.refuseSet at h
  dsimp only at h
  split at h
  · cases h
  · next o n hk =>
    split at h
    · next own => rw [hk, ← own]; rfl
    · cases h
  · split at h <;> cases h

theorem stageCue_counted (h : u.cueTable.SetsCounted) : (stageCue t b u).cueTable.SetsCounted := by
  unfold stageCue
  split
  · exact h
  · refine onOwnedCue_counted h fun i c stands owner => ?_
    split
    · exact h
    · next r j _ =>
      split
      · exact h
      · next passes =>
        split
        · exact h
        · next fits =>
          refine h.stageRecord stands (fun k named => owner ▸ owner_of_not_refused passes k named) fun staged => ?_
          simpa [Cue.conflicts, staged] using fits

theorem unstageCue_counted (h : u.cueTable.SetsCounted) : (unstageCue t b u).cueTable.SetsCounted := by
  unfold unstageCue
  split
  · exact h
  · refine onOwnedCue_counted h fun i c stands _ => ?_
    split
    · exact h.leave (ct' := (u.cueTable.leaveSet c.set).setCue i c.unstaged) (x := some c.unstaged) stands
        (u.cueTable.unstageRecord_cue i c) (fun d e => by cases e; rfl) (u.cueTable.leaveSet_commitSet c.set)
    · exact h

theorem lowestFreeSet_free {ct : CueTable} {k : SetId} (h : ct.lowestFreeSet = some k) : ct.commitSet k = .free := by
  simpa using List.find?_some h

theorem openSet_counted (h : u.cueTable.SetsCounted) : (openSet t b u).cueTable.SetsCounted := by
  unfold openSet
  split
  · exact h
  · split
    · exact h
    · next k free => exact h.openSet (lowestFreeSet_free free) rfl

theorem commitSet_counted (h : u.cueTable.SetsCounted) : (commitSet t b u).cueTable.SetsCounted := by
  unfold commitSet
  iterate 2
    split
    · exact h
  split
  · exact h
  · exact h
  · next o n opened =>
    iterate 2
      split
      · exact h
    exact h.putSet (by rw [opened]; rfl) (by rw [opened]; rfl)

theorem abandonSet_counted (h : u.cueTable.SetsCounted) : (abandonSet t b u).cueTable.SetsCounted := by
  unfold abandonSet
  iterate 4
    split
    · exact h
  exact h.freeSetWhole _

theorem releaseLine_counted (h : u.cueTable.SetsCounted) : (releaseLine t b u).cueTable.SetsCounted := by
  unfold releaseLine
  iterate 2
    split
    · exact h
  split
  · exact h.purge _
  · exact h

end Listing

/-! ### Every command -/

section Commands

variable {s t : State} {p : Port}

theorem counted_of_takeGranted {k : CommandKind} {cl : ListClass} {effect : Ticket → List Byte → State → State}
    (e : takeGranted k p s effect = .next t) (hc : listClass k = some cl) (h : s.cueTable.SetsCounted)
    (keeps : ∀ c b u, u.cueTable.SetsCounted → (effect c b u).cueTable.SetsCounted) : t.cueTable.SetsCounted :=
  of_takeGranted (P := fun u => u.cueTable.SetsCounted) e hc h fun _ _ => keeps _ _ _ h

theorem counted_of_whenLive {event : State → State} (e : whenLive s event = .next t) (h : s.cueTable.SetsCounted)
    (keeps : (event s).cueTable.SetsCounted) : t.cueTable.SetsCounted :=
  of_whenLive (P := fun u => u.cueTable.SetsCounted) e h keeps

theorem counted_reset : CueTable.reset.SetsCounted where
  counted k := by
    rw [membersOf_eq_nil fun i c hc => by simp at hc]
    simp [CueTable.reset, CueTable.commitSet, CommitSet.memberCount]
  owned i c k hc _ := by simp at hc

theorem execOccurrence_counted (h : s.cueTable.SetsCounted) (e : execOccurrence s = .next t) :
    t.cueTable.SetsCounted := by
  refine counted_of_whenLive e h ?_
  split
  · next i c due =>
    have stands := dueCue_cue due
    exact occur_counted (h.of_slots rfl rfl) stands
  · exact h

theorem execCommitTimeExpiry_counted {k : SetId} (h : s.cueTable.SetsCounted)
    (e : execCommitTimeExpiry k s = .next t) : t.cueTable.SetsCounted := by
  refine counted_of_whenLive e h ?_
  split
  · split
    · exact h
    · split
      · exact applySet_counted h _ _
      · exact h.freeSetWhole k
  · exact h
  · exact h

theorem execOpeningNotice_counted {g : Group} (h : s.cueTable.SetsCounted) (e : execOpeningNotice g s = .next t) :
    t.cueTable.SetsCounted := by
  refine counted_of_whenLive e h ?_
  split
  · exact h.releaseGroup s.now g
  · exact h

theorem execLapsePurge_counted (h : s.cueTable.SetsCounted) (e : execLapsePurge p s = .next t) :
    t.cueTable.SetsCounted := by
  refine counted_of_whenLive e h ?_
  split
  · exact h.portPurge p
  · exact h

theorem execHaltPurge_counted (h : s.cueTable.SetsCounted) (e : execHaltPurge s = .next t) :
    t.cueTable.SetsCounted := by
  refine counted_of_whenLive e h ?_
  split
  · exact h.haltPurge
  · exact h

/-- Every command keeps the counts: most leave the table alone. -/
theorem exec_counted {c : Instr} (h : s.cueTable.SetsCounted) (e : exec c s = .next t) : t.cueTable.SetsCounted := by
  cases hc : c.changesTable with
  | false => rw [exec_cueTable hc e]; exact h
  | true =>
    cases c with
    | deviceReset cause =>
      rcases execDeviceReset_cases e with rfl | rfl
      · exact counted_reset
      · exact h
    | addCue p => exact counted_of_takeGranted e rfl h fun _ _ _ => addCue_counted
    | cancelCue p => exact counted_of_takeGranted e rfl h fun _ _ _ => cancelCue_counted
    | stage p => exact counted_of_takeGranted e rfl h fun _ _ _ => stageCue_counted
    | unstage p => exact counted_of_takeGranted e rfl h fun _ _ _ => unstageCue_counted
    | openSet p => exact counted_of_takeGranted e rfl h fun _ _ _ => openSet_counted
    | commitSet p => exact counted_of_takeGranted e rfl h fun _ _ _ => commitSet_counted
    | abandonSet p => exact counted_of_takeGranted e rfl h fun _ _ _ => abandonSet_counted
    | release p => exact counted_of_takeGranted e rfl h fun _ _ _ => releaseLine_counted
    | detach p =>
      exact counted_of_takeGranted (effect := fun c _ u => purgePort c.port .detach (some c) u) e rfl h
        fun c _ _ k => k.portPurge c.port
    | lapsePurge p => exact execLapsePurge_counted h e
    | haltPurge => exact execHaltPurge_counted h e
    | occurrence => exact execOccurrence_counted h e
    | commitTimeExpiry k => exact execCommitTimeExpiry_counted h e
    | openingNotice g => exact execOpeningNotice_counted h e
    | _ => cases hc

/-- Settles O31: a command changes one slot with its set's count, or empties a set whole. -/
theorem setMembersKept : Obligations.SetMembersKept := fun _ _ h e =>
  step_of_exec (law := fun u => u.cueTable.SetsCounted) (fun _ _ h e => exec_counted h e) (fun _ h => h) h e

end Commands

end Sys2Proof.Machine
end

section
/-! PROOFS. COMMIT_TIME_EXPIRY (R80 to R83): the set freed unapplied, and the set applied, with or without shifts. -/

namespace Sys2Proof.Machine

/-! ### Members settled in turn (R83) -/

/-- Operations on the cues of several slots have left cues there or freed the slots: the lists lose exactly the slots
freed, and every other slot, every set and the next entry order are as before. -/
structure CueTable.AllLeft (ct ct' : CueTable) (is : List SlotId) : Prop where
  others : ∀ j, j ∉ is → ct'.cue j = ct.cue j
  gens : ∀ j, ct'.gen j = if j ∈ is ∧ ct'.cue j = none then ct.gen j + 1 else ct.gen j
  sets : ∀ k, ct'.commitSet k = ct.commitSet k
  pending : ct'.pendingList.Perm (ct.pendingList.filter (fun j => (ct'.cue j).isSome))
  deferred : ∀ g, look ct'.deferred g = (look ct.deferred g).filter (fun j => (ct'.cue j).isSome)
  entry : ct'.nextEntry = ct.nextEntry

section Settling

variable {ct ct' mid : CueTable} {i : SlotId} {is rest : List SlotId} {left : Option Cue}

theorem CueTable.AllLeft.nil (listed : ct.Listed) : ct.AllLeft ct [] where
  others _ _ := rfl
  gens j := by simp
  sets _ := rfl
  pending := by
    rw [List.filter_eq_self.2 fun j m => ?_]
    obtain ⟨d, hd⟩ := listed.full m
    simp [hd]
  deferred g := by
    rw [List.filter_eq_self.2 fun j m => ?_]
    obtain ⟨d, hd, _⟩ := listed.deferredOnly g j m
    simp [hd]
  entry := rfl

/-- One slot and then others. -/
theorem CueTable.AllLeft.cons (listed : ct.Listed) (one : ct.Left mid i left) (more : mid.AllLeft ct' rest)
    (out : i ∉ rest) : ct.AllLeft ct' (i :: rest) := by
  have here : ct'.cue i = left := by rw [more.others i out, one.cues, if_pos rfl]
  have both (l : List SlotId) : (l.filter (fun j => j != i || left.isSome)).filter (fun j => (ct'.cue j).isSome)
      = l.filter (fun j => (ct'.cue j).isSome) := by
    rw [List.filter_filter]
    exact List.filter_congr fun j _ => by by_cases e : j = i <;> simp [e, here]
  refine ⟨fun j m => ?_, fun j => ?_, fun k => (more.sets k).trans (one.sets k), ?_, fun g => ?_,
    more.entry.trans one.entry⟩
  · obtain ⟨other, m⟩ := not_or.1 (mt List.mem_cons.2 m)
    rw [more.others j m, one.cues, if_neg other]
  · rw [more.gens, one.gens]
    by_cases e : j = i
    · subst e
      simp [out, here]
    · simp [e]
  · refine more.pending.trans ?_
    rw [← both ct.pendingList]
    exact (one.pending listed).filter _
  · rw [more.deferred, one.deferred, both]

/-- What an applying expiry is to make of the member in a slot: the cue with the record's fields, the shift, and the
records of the catch-up rule (R81 to R83). -/
def State.Asks (s : State) (owner : Port) (i : SlotId) (c' : Cue) (shift : Triple) (posts : List EventRecord) : Prop :=
  ∃ c r, s.cueTable.cue i = some c ∧ c.owner = owner ∧ c.staged = some r ∧ AppliedTo r c c' ∧ shift = r.shift.getD 0
    ∧ ShiftPosts c' shift s.now (s.cueTable.handle i) posts

variable {s t : State} {owner : Port} {c' : Cue} {shift : Triple} {posts : List EventRecord}

/-- A member is settled as asked. -/
theorem applyMember_of_asks (h : s.Asks owner i c' shift posts) : ∃ left, ShiftLeaves c' shift s.now left
    ∧ Told s (applyMember s i) owner posts ∧ s.cueTable.Left (applyMember s i).cueTable i left := by
  obtain ⟨c, r, stands, rfl, staged, applied, rfl, told⟩ := h
  obtain rfl := applyRecord_of_appliedTo applied
  obtain ⟨left, es, leaves, posted, all, kept⟩ := applyMember_settles stands staged
  exact ⟨left, leaves, posted.unique told ▸ all, kept⟩

/-- What is asked of another slot stays. -/
theorem State.Asks.of_left {j : SlotId} (h : s.Asks owner j c' shift posts) (one : s.cueTable.Left t.cueTable i left)
    (other : j ≠ i) (now : t.now = s.now) : t.Asks owner j c' shift posts := by
  obtain ⟨c, r, stands, own, staged, applied, moves, told⟩ := h
  refine ⟨c, r, ?_, own, staged, applied, moves, ?_⟩
  · rw [one.cues, if_neg other, stands]
  · rw [now, CueTable.handle, one.gens, if_neg (fun both => other both.1)]
    exact told

/-- The members one after another, each settled as asked. -/
theorem applyMembers_of_asks (is : List SlotId) (s : State) (owner : Port) (applied : SlotId → Cue)
    (shift : SlotId → Triple) (posts : SlotId → List EventRecord) (once : is.Nodup) (listed : s.cueTable.Listed)
    (asks : ∀ i, i ∈ is → s.Asks owner i (applied i) (shift i) (posts i)) :
    Told s (is.foldl applyMember s) owner (is.flatMap posts)
      ∧ s.cueTable.AllLeft (is.foldl applyMember s).cueTable is
      ∧ ∀ i, i ∈ is → ShiftLeaves (applied i) (shift i) s.now ((is.foldl applyMember s).cueTable.cue i) := by
  induction is generalizing s with
  | nil => exact ⟨⟨changesOnly_refl _ s, portReceives_nil s owner⟩, .nil listed, by simp⟩
  | cons i rest ih =>
    obtain ⟨out, once⟩ := List.nodup_cons.1 once
    obtain ⟨left, leaves, told, one⟩ := applyMember_of_asks (asks i List.mem_cons_self)
    have listed' : (applyMember s i).cueTable.Listed :=
      (applyMember_moves i s).keep (fun _ _ move => move.listed) listed
    obtain ⟨toldMore, more, leavesMore⟩ := ih (applyMember s i) once listed' fun j m =>
      (asks j (List.mem_cons_of_mem i m)).of_left one (fun e => out (e ▸ m)) told.now_eq
    rw [told.now_eq] at leavesMore
    rw [List.foldl_cons, List.flatMap_cons]
    refine ⟨told.trans toldMore, .cons listed one more out, fun j m => ?_⟩
    rcases List.mem_cons.1 m with rfl | m
    · rw [more.others j out, one.cues, if_pos rfl]
      exact leaves
    · exact leavesMore j m

end Settling

/-! ### COMMIT_TIME_EXPIRY, whole -/

section Expiring

variable {s : State} {k : SetId} {owner : Port} {n : Nat}

theorem exec_commitTimeExpiry_of_away (live : s.live = true) (set : s.cueTable.commitSet k = .scheduled owner n s.now)
    (away : ¬ (s.session.phase = .run ∧ s.attached owner = true)) :
    exec (.commitTimeExpiry k) s = .next (s.setCueTable (s.cueTable.freeSetWhole k)) := by
  show execCommitTimeExpiry k s = _
  simp [execCommitTimeExpiry, whenLive_of_live live, set, away]

theorem exec_commitTimeExpiry_of_applies (live : s.live = true)
    (set : s.cueTable.commitSet k = .scheduled owner n s.now) (run : s.session.phase = .run)
    (attached : s.attached owner = true) : exec (.commitTimeExpiry k) s = .next (applySet k owner n s) := by
  show execCommitTimeExpiry k s = _
  simp [execCommitTimeExpiry, whenLive_of_live live, set, run, attached]

/-- After its members the set is FREE, and SET_APPLIED follows the members' records (R83). -/
theorem applySet_told {es : List EventRecord}
    (members : Told s ((s.cueTable.membersOf k).foldl applyMember s) owner es) :
    Told s (applySet k owner n s) owner (es ++ [setAppliedRecord k n s.now]) :=
  members.trans ((told_setCueTable _ _ owner).trans ⟨changesOnly_post _ _ _, portReceives_post _ _ _⟩)

theorem applySet_cueTable : (applySet k owner n s).cueTable
    = (((s.cueTable.membersOf k).foldl applyMember s).cueTable.putSet k .free) := by
  simp [applySet]

end Expiring

/-- Settles O24: the set is freed whole, or its members are settled one after another before it is freed. -/
theorem commitTimeExpiryCompletes : Obligations.CommitTimeExpiryCompletes := by
  intro s k owner n live set
  have once := s.cueTable.nodup_slotsWith (fun c => c.set == some k)
  refine ⟨fun away => ?_, fun run attached still => ?_, fun applied shift posts run attached listed counted asks => ?_⟩
  · refine ⟨_, exec_commitTimeExpiry_of_away live set away, ?_, s.cueTable.freeSetWhole_cue k,
      s.cueTable.freeSetWhole_commitSet k, s.cueTable.freeSetWhole_pendingList k, s.cueTable.freeSetWhole_deferred k,
      s.cueTable.freeSetWhole_gen k⟩
    exact ⟨rfl, fun b hb => by cases b <;> simp_all [Block.same]⟩
  · obtain ⟨ct, members, others, taken, gens, pending, deferred, sets, -⟩ :=
      applyMembers_spec (s.cueTable.membersOf k) s once fun i m => by
        obtain ⟨c, hc, hk⟩ := mem_membersOf.1 m
        obtain ⟨r, staged, none⟩ := still i c hc hk
        exact ⟨c, r, hc, staged, none⟩
    have told := applySet_told (n := n) (members ▸ told_setCueTable s ct owner)
    have table : (applySet k owner n s).cueTable = ct.putSet k .free := by rw [applySet_cueTable, members]; rfl
    refine ⟨_, exec_commitTimeExpiry_of_applies live set run attached, told.only, ?_⟩
    rw [table]
    refine ⟨fun i free => ?_, fun i c hc other => ?_, fun i c r hc hk hr => ?_, fun j => ?_, pending, deferred, gens,
      told.told⟩
    · refine (others i fun m => ?_).trans free
      obtain ⟨c, hc, _⟩ := mem_membersOf.1 m
      cases free.symm.trans hc
    · refine (others i fun m => ?_).trans hc
      obtain ⟨d, hd, hk⟩ := mem_membersOf.1 m
      cases hc.symm.trans hd
      exact other hk
    · exact ⟨_, taken i c r (mem_membersOf.2 ⟨c, hc, hk⟩) hc hr, appliedTo_applyRecord r c⟩
    · rw [CueTable.putSet_commitSet]
      simp only [CueTable.commitSet, sets]
  · obtain ⟨members, all, leaves⟩ := applyMembers_of_asks (s.cueTable.membersOf k) s owner applied shift posts once
      listed fun i m => by
        obtain ⟨c, r, hc, rest⟩ := asks i m
        obtain ⟨d, hd, hk⟩ := mem_membersOf.1 m
        cases hc.symm.trans hd
        have own := (counted.owned i c k hc hk).2
        rw [set] at own
        exact ⟨c, r, hc, (Option.some.inj own).symm, rest⟩
    have told := applySet_told (n := n) members
    refine ⟨_, exec_commitTimeExpiry_of_applies live set run attached, told.only, ?_⟩
    rw [applySet_cueTable]
    refine ⟨all.others, leaves, all.gens, fun j => ?_, all.pending, all.deferred, all.entry, told.told⟩
    rw [CueTable.putSet_commitSet, all.sets]

end Sys2Proof.Machine
end

section
/-! PROOFS. STAGE and UNSTAGE (R68 to R72, R196): how the body of STAGE is read, which check refuses it, and what
staging and unstaging do. -/

namespace Sys2Proof.Machine

/-! ### The body of STAGE (R70, R196) -/

section Body

variable {f : StageBody} {c : Cue} {r : StagedRecord} {k : Option SetId} {a : Option Action}

theorem stageBody_readFrom (b : List Byte) : (stageBody b).ReadFrom b := ⟨rfl, rfl, rfl, rfl, rfl, rfl⟩

/-- The action that a STAGE names: none without the byte, and else the action its byte is the code of. -/
def StageBody.ReadsAction (f : StageBody) (a : Option Action) : Prop :=
  f.action = none ∧ a = none ∨ ∃ b x, f.action = some b ∧ actionOf b = some x ∧ a = some x

/-- The set that a STAGE names: none without the byte, and else the set its byte is the number of. -/
def StageBody.ReadsSet (f : StageBody) (k : Option SetId) : Prop :=
  f.set = none ∧ k = none ∨ ∃ b j, f.set = some b ∧ indexOf 8 b = some j ∧ k = some j

theorem readsAction_or (f : StageBody) : (∃ a, f.ReadsAction a) ∨ ∃ b, f.action = some b ∧ actionOf b = none := by
  cases action : f.action with
  | none => exact .inl ⟨none, .inl ⟨action, rfl⟩⟩
  | some b =>
    cases read : actionOf b with
    | none => exact .inr ⟨b, rfl, read⟩
    | some x => exact .inl ⟨some x, .inr ⟨b, x, action, read, rfl⟩⟩

theorem readsSet_or (f : StageBody) : (∃ k, f.ReadsSet k) ∨ ∃ b, f.set = some b ∧ indexOf 8 b = none := by
  cases set : f.set with
  | none => exact .inl ⟨none, .inl ⟨set, rfl⟩⟩
  | some b =>
    cases read : indexOf 8 b with
    | none => exact .inr ⟨b, rfl, read⟩
    | some j => exact .inl ⟨some j, .inr ⟨b, j, set, read, rfl⟩⟩

theorem check_of_noAction {b : Byte} (action : f.action = some b) (bad : actionOf b = none) : f.check c = none := by
  simp [StageBody.check, action, bad]

theorem check_of_noSet {b : Byte} (set : f.set = some b) (bad : indexOf 8 b = none) : f.check c = none := by
  unfold StageBody.check
  simp only [set, bad, Option.map_none]
  split <;> simp_all

/-- With an action and a set that can be read, the fields are checked as they stand. -/
theorem check_of_reads (action : f.ReadsAction a) (set : f.ReadsSet k) : f.check c =
    if f.isEmpty || !f.widthFits a c || !f.remainingFits c then none else
      some ({ action := a, width := f.width, period := f.period, remaining := f.remaining, shift := f.shift }, k) := by
  rcases action with ⟨action, rfl⟩ | ⟨b, x, action, read, rfl⟩ <;>
    rcases set with ⟨set, rfl⟩ | ⟨b', j, set, read', rfl⟩ <;> simp [StageBody.check, *]

/-- Without any field there is no record (the first row of R70). -/
theorem isEmpty_iff : f.isEmpty = true ↔
    f.action = none ∧ f.width = none ∧ f.period = none ∧ f.remaining = none ∧ f.shift = none := by
  simp [StageBody.isEmpty, and_assoc]

/-- The rows of R70 on the width. -/
theorem widthFits_eq_false_iff (action : f.ReadsAction a) : f.widthFits a c = false ↔
    (f.action = some 3 ∧ f.width = none) ∨ (∃ b, f.action = some b ∧ b ≠ 3 ∧ f.width.isSome = true)
      ∨ f.width = some 0 ∨ (f.width.isSome = true ∧ f.action = none ∧ c.action ≠ .pulse) := by
  rcases action with ⟨action, rfl⟩ | ⟨b, x, action, read, rfl⟩
  · cases width : f.width with
    | none => simp [StageBody.widthFits, action, width]
    | some w => simp [StageBody.widthFits, action, width]; tauto
  · have pulse := (actionOf_coded read).pulse_iff
    cases width : f.width with
    | none => simp [StageBody.widthFits, widthFits, action, width, pulse]
    | some w => simp [StageBody.widthFits, widthFits, action, width]; tauto

/-- The row of R70 on the remaining count. -/
theorem remainingFits_eq_false_iff : f.remainingFits c = false ↔
    ∃ n, f.remaining = some n ∧ n ≠ 0 ∧ (f.period = some 0 ∨ (f.period = none ∧ c.period = none)) := by
  cases remaining : f.remaining with
  | none => simp [StageBody.remainingFits, remaining]
  | some n => cases period : f.period <;> simp [StageBody.remainingFits, remaining, period]

/-- The third check fails exactly where a row of the table of R70 is met. -/
theorem check_eq_none : f.check c = none ↔ f.Unfit c := by
  unfold StageBody.Unfit
  rcases readsAction_or f with ⟨a, action⟩ | ⟨b, action, bad⟩
  · rcases readsSet_or f with ⟨k, set⟩ | ⟨b, set, bad⟩
    · have coded : ¬ ∃ b, f.action = some b ∧ 4 ≤ b.toNat := by
        rintro ⟨b, named, out⟩
        rcases action with ⟨none, _⟩ | ⟨b', x, some, read, _⟩
        · cases none.symm.trans named
        · cases some.symm.trans named
          cases read.symm.trans (actionOf_eq_none.2 out)
      have inRange : ¬ ∃ b, f.set = some b ∧ 8 ≤ b.toNat := by
        rintro ⟨b, named, out⟩
        rcases set with ⟨none, _⟩ | ⟨b', x, some, read, _⟩
        · cases none.symm.trans named
        · cases some.symm.trans named
          cases read.symm.trans (indexOf_eq_none.2 out)
      rw [check_of_reads action set, ite_eq_left_iff]
      simp only [reduceCtorEq, imp_false, not_not, Bool.or_eq_true, Bool.not_eq_true', isEmpty_iff,
        widthFits_eq_false_iff action, remainingFits_eq_false_iff, coded, inRange, false_or, or_false, or_assoc]
    · have out : ∃ b, f.set = some b ∧ 8 ≤ b.toNat := ⟨b, set, indexOf_eq_none.1 bad⟩
      simp only [check_of_noSet set bad, out, or_true]
  · have out : ∃ b, f.action = some b ∧ 4 ≤ b.toNat := ⟨b, action, actionOf_eq_none.1 bad⟩
    simp only [check_of_noAction action bad, out, or_true, true_or]

/-- The record of a STAGE that passes holds its fields, and the codes name its action and set. -/
theorem makes_of_check (h : f.check c = some (r, k)) : f.Makes r k := by
  obtain ⟨a, action⟩ := (readsAction_or f).resolve_right fun ⟨b, named, bad⟩ => by
    cases (check_of_noAction named bad).symm.trans h
  obtain ⟨j, set⟩ := (readsSet_or f).resolve_right fun ⟨b, named, bad⟩ => by
    cases (check_of_noSet named bad).symm.trans h
  rw [check_of_reads action set, Option.ite_none_left_eq_some, Option.some.injEq] at h
  obtain ⟨_, made⟩ := h
  cases made
  refine ⟨?_, rfl, rfl, rfl, rfl, ?_⟩
  · rcases action with ⟨none, rfl⟩ | ⟨b, x, some, read, rfl⟩
    · exact .inl ⟨none, rfl⟩
    · exact .inr ⟨x, b, rfl, some, actionOf_coded read⟩
  · rcases set with ⟨none, rfl⟩ | ⟨b, j, some, read, rfl⟩
    · exact none
    · rw [some, Option.map_some, ← indexOf_eq_some.1 read, BitVec.ofNat_toNat, BitVec.setWidth_eq]

end Body

/-! ### What STAGE and UNSTAGE do (R70 to R72) -/

section Staging

variable {ct : CueTable} {s : State} {t : Ticket} {b : List Byte} {st : Status} {i : SlotId} {c : Cue}
  {r : StagedRecord} {k : Option SetId} {p : Port} {j : SetId}

theorem stageCue_of_listCheck (u : State) (h : listCheck u t.port .stage b = some st) :
    stageCue t b u = answer t st [] u := by
  simp [stageCue, h]

theorem unstageCue_of_listCheck (u : State) (h : listCheck u t.port .unstage b = some st) :
    unstageCue t b u = answer t st [] u := by
  simp [unstageCue, h]

/-- The common checks pass, and the body's handle names a live cue of the requester (R26, R34). -/
structure NamesOwn (s : State) (t : Ticket) (k : CommandKind) (b : List Byte) (i : SlotId) (c : Cue) : Prop where
  passes : listCheck s t.port k b = none
  live : s.cueTable.live (byteAt b 0) (byteAt b 1) = some (i, c)
  owner : c.owner = t.port

theorem stageCue_of_dead (h : listCheck s t.port .stage b = none)
    (dead : s.cueTable.live (byteAt b 0) (byteAt b 1) = none) : stageCue t b s = answer t .badHandle [] s := by
  simp only [stageCue, h, onOwnedCue_of_dead dead]

theorem stageCue_of_other (h : listCheck s t.port .stage b = none)
    (live : s.cueTable.live (byteAt b 0) (byteAt b 1) = some (i, c)) (other : c.owner ≠ t.port) :
    stageCue t b s = answer t .notOwner [] s := by
  simp only [stageCue, h, onOwnedCue_of_other live other]

theorem unstageCue_of_dead (h : listCheck s t.port .unstage b = none)
    (dead : s.cueTable.live (byteAt b 0) (byteAt b 1) = none) : unstageCue t b s = answer t .badHandle [] s := by
  simp only [unstageCue, h, onOwnedCue_of_dead dead]

theorem unstageCue_of_other (h : listCheck s t.port .unstage b = none)
    (live : s.cueTable.live (byteAt b 0) (byteAt b 1) = some (i, c)) (other : c.owner ≠ t.port) :
    unstageCue t b s = answer t .notOwner [] s := by
  simp only [unstageCue, h, onOwnedCue_of_other live other]

theorem stageCue_of_unfit (h : NamesOwn s t .stage b i c) (unfit : (stageBody b).check c = none) :
    stageCue t b s = answer t .badField [] s := by
  simp only [stageCue, h.passes, onOwnedCue_of_owner h.live h.owner, unfit]

theorem stageCue_of_refusedSet (h : NamesOwn s t .stage b i c) (made : (stageBody b).check c = some (r, k))
    (refused : s.cueTable.refuseSet t.port k = some st) : stageCue t b s = answer t st [] s := by
  simp only [stageCue, h.passes, onOwnedCue_of_owner h.live h.owner, made, refused]

theorem stageCue_of_conflict (h : NamesOwn s t .stage b i c) (made : (stageBody b).check c = some (r, k))
    (passes : s.cueTable.refuseSet t.port k = none) (conflict : c.conflicts k = true) :
    stageCue t b s = answer t .conflict [] s := by
  simp only [stageCue, h.passes, onOwnedCue_of_owner h.live h.owner, made, passes, conflict, if_true]

theorem stageCue_of_fit (h : NamesOwn s t .stage b i c) (made : (stageBody b).check c = some (r, k))
    (passes : s.cueTable.refuseSet t.port k = none) (fits : c.conflicts k = false) :
    stageCue t b s = answer t .ok [flagByte c.staged.isSome] (s.setCueTable (s.cueTable.stageRecord i c r k)) := by
  simp only [stageCue, h.passes, onOwnedCue_of_owner h.live h.owner, made, passes, fits, Bool.false_eq_true, if_false]

theorem unstageCue_of_staged (h : NamesOwn s t .unstage b i c) (staged : c.staged.isSome = true) :
    unstageCue t b s
      = answer t .ok [0] (s.setCueTable ((s.cueTable.leaveSet c.set).setCue i c.unstaged)) := by
  simp only [unstageCue, h.passes, onOwnedCue_of_owner h.live h.owner, staged, if_true]
  rfl

theorem unstageCue_of_unstaged (h : NamesOwn s t .unstage b i c) (unstaged : c.staged = none) :
    unstageCue t b s = answer t .ok [1] s := by
  simp only [unstageCue, h.passes, onOwnedCue_of_owner h.live h.owner, unstaged]
  rfl

/-! The fourth check of STAGE, by the state and the owner of the set named (R70). -/

theorem refuseSet_of_free (free : ct.commitSet j = .free) : ct.refuseSet p (some j) = some .wrongState := by
  simp [CueTable.refuseSet, free]

theorem refuseSet_of_other {o : Port} (owner : (ct.commitSet j).owner? = some o) (other : o ≠ p) :
    ct.refuseSet p (some j) = some .notOwner := by
  cases set : ct.commitSet j <;> rw [set] at owner <;> cases owner <;> simp [CueTable.refuseSet, set, other]

theorem refuseSet_of_scheduled {n : Nat} {time : Time} (set : ct.commitSet j = .scheduled p n time) :
    ct.refuseSet p (some j) = some .wrongState := by
  simp [CueTable.refuseSet, set]

theorem refuseSet_of_opened (opened : ∀ j, k = some j → ∃ n, ct.commitSet j = .opened p n) :
    ct.refuseSet p k = none := by
  cases k with
  | none => rfl
  | some j =>
    obtain ⟨n, set⟩ := opened j rfl
    simp [CueTable.refuseSet, set]

/-- Joining a set touches the sets alone. -/
theorem joinSet_keeps (ct : CueTable) (c : Cue) (k : Option SetId) : (∀ n, (ct.joinSet c k).gen n = ct.gen n)
    ∧ (ct.joinSet c k).pendingList = ct.pendingList ∧ (ct.joinSet c k).deferred = ct.deferred := by
  unfold CueTable.joinSet
  split
  · split <;> exact ⟨fun _ => rfl, rfl, rfl⟩
  · exact ⟨fun _ => rfl, rfl, rfl⟩

end Staging

/-! ### The statement -/

section Statement

variable {s : State} {p : Port} {r : Request} {k : CommandKind} {cl : ListClass} {st : Status} {c : Instr}
  {effect : Ticket → List Byte → State → State}

/-- A granted command that its block answers with a status alone is refused. -/
theorem refused_of_answer (hg : grantedCommand k p = some c) (hc : listClass k = some cl)
    (he : exec c s = takeGranted k p s effect) (grants : s.Grants p k r)
    (h : effect (s.ticket p r) r.body (afterGrant cl p s) = answer (s.ticket p r) st [] (afterGrant cl p s)) :
    s.Refused k p r st := by
  obtain ⟨t, taken, only⟩ := grantedOnly_of_grants grants hc h
  exact ⟨c, cl, t, hg, hc, he.trans taken, only⟩

theorem refused_stage (grants : s.Grants p .stage r) (h : stageCue (s.ticket p r) r.body (afterGrant .normal p s)
    = answer (s.ticket p r) st [] (afterGrant .normal p s)) : s.Refused .stage p r st :=
  refused_of_answer rfl rfl rfl grants h

theorem refused_unstage (grants : s.Grants p .unstage r)
    (h : unstageCue (s.ticket p r) r.body (afterGrant .normal p s)
      = answer (s.ticket p r) st [] (afterGrant .normal p s)) : s.Refused .unstage p r st :=
  refused_of_answer rfl rfl rfl grants h

/-- A granted command that is answered and beside that changes the table. -/
theorem changesTable_of_grants {body : List Byte} {ct : CueTable} (grants : s.Grants p k r)
    (hc : listClass k = some cl) (he : effect (s.ticket p r) r.body (afterGrant cl p s)
      = answer (s.ticket p r) st body ((afterGrant cl p s).setCueTable ct)) :
    ∃ t, takeGranted k p s effect = .next t ∧ ChangesOnly [.cueTable, .arbiter, .ports] s t
      ∧ t.arbiter = s.arbiter.afterGrant cl p ∧ t.ports = s.portsAnswering p r st body ∧ t.cueTable = ct := by
  obtain ⟨only, arbiter, ports⟩ := changesOnly_answerTable s cl p r st body ct
  exact ⟨_, (takeGranted_of_grants grants hc effect).trans (congrArg _ he), only, arbiter, ports, rfl⟩

/-- The common checks pass after the grant where they pass before it. -/
theorem listCheck_afterGrant (run : s.session.phase = .run) (attached : s.attached p = true)
    (long : bodyLength k ≤ r.body.length) :
    listCheck (afterGrant cl p s) (s.ticket p r).port k r.body = none :=
  listCheck_passes (s := afterGrant cl p s) run (by simpa using attached) long

theorem namesOwn_afterGrant {i : SlotId} {d : Cue} (run : s.session.phase = .run) (attached : s.attached p = true)
    (long : bodyLength k ≤ r.body.length)
    (live : s.cueTable.live (byteAt r.body 0) (byteAt r.body 1) = some (i, d)) (own : d.owner = p) :
    NamesOwn (afterGrant cl p s) (s.ticket p r) k r.body i d :=
  ⟨listCheck_afterGrant run attached long, live, own⟩

end Statement

/-- Settles O28: after the common checks the handle decides, then the fields, the set named and the record held; what
passes is stored or discarded. -/
theorem stageAndUnstage : Obligations.StageAndUnstage := by
  refine ⟨fun p r s =>
    ⟨checksFirst_of_listCheck (effect := stageCue) rfl rfl rfl fun _ _ u _ => stageCue_of_listCheck u,
      checksFirst_of_listCheck (effect := unstageCue) rfl rfl rfl fun _ _ u _ => unstageCue_of_listCheck u⟩,
    fun p r k s long grants run attached => ?_, stageBody_readFrom, fun f c => check_eq_none,
    fun f c record k => makes_of_check, fun p r i c s grants run attached long live own => ?_,
    fun p r i c s run attached live own => ⟨fun record k grants long made opened fits => ?_,
      fun grants long staged => ?_, fun grants long unstaged => ?_⟩⟩
  · rcases long with ⟨rfl, long⟩ | ⟨rfl, long⟩
    · have passes := listCheck_afterGrant (k := .stage) (cl := .normal) (r := r) run attached long
      exact ⟨fun dead => refused_stage grants (stageCue_of_dead passes dead),
        fun i c live other => refused_stage grants (stageCue_of_other passes live other)⟩
    · have passes := listCheck_afterGrant (k := .unstage) (cl := .normal) (r := r) run attached long
      exact ⟨fun dead => refused_unstage grants (unstageCue_of_dead passes dead),
        fun i c live other => refused_unstage grants (unstageCue_of_other passes live other)⟩
  · have named := namesOwn_afterGrant (k := .stage) (cl := .normal) run attached long live own
    refine ⟨fun unfit => refused_stage grants (stageCue_of_unfit named unfit), fun record k made => ⟨?_, ?_⟩⟩
    · rintro j rfl
      exact ⟨fun free => refused_stage grants (stageCue_of_refusedSet named made (refuseSet_of_free free)),
        fun o owner other => refused_stage grants (stageCue_of_refusedSet named made (refuseSet_of_other owner other)),
        fun n time set => refused_stage grants (stageCue_of_refusedSet named made (refuseSet_of_scheduled set))⟩
    · intro opened staged other
      exact refused_stage grants (stageCue_of_conflict named made (refuseSet_of_opened opened)
        (by simp [Cue.conflicts, staged, other]))
  · have named := namesOwn_afterGrant (k := .stage) (cl := .normal) run attached long live own
    have alike : c.conflicts k = false := by
      rcases fits with none | same
      · simp [Cue.conflicts, none]
      · simp [Cue.conflicts, same]
    obtain ⟨t, taken, only, arbiter, ports, table⟩ := changesTable_of_grants grants rfl
      (stageCue_of_fit named made (refuseSet_of_opened opened) alike)
    obtain ⟨gens, pending, deferred⟩ := joinSet_keeps s.cueTable c k
    refine ⟨t, taken, only, arbiter, ports, ?_⟩
    rw [table]
    exact ⟨s.cueTable.stageRecord_cue i c record k, s.cueTable.joinSet_commitSet c k,
      fun j => (CueTable.setCue_gen _ i j _).trans (gens j), pending, deferred⟩
  · have named := namesOwn_afterGrant (k := .unstage) (cl := .normal) run attached long live own
    obtain ⟨t, taken, only, arbiter, ports, table⟩ := changesTable_of_grants grants rfl
      (unstageCue_of_staged named staged)
    refine ⟨t, taken, only, arbiter, ports, ?_⟩
    rw [table]
    exact ⟨s.cueTable.unstageRecord_cue i c, s.cueTable.leaveSet_commitSet c.set,
      fun j => (CueTable.setCue_gen _ i j _).trans (s.cueTable.leaveSet_gen c.set j),
      s.cueTable.leaveSet_pendingList c.set, s.cueTable.leaveSet_deferred c.set⟩
  · have named := namesOwn_afterGrant (k := .unstage) (cl := .normal) run attached long live own
    exact grantedOnly_of_grants grants rfl (unstageCue_of_unstaged named unstaged)

end Sys2Proof.Machine
end

section
/-! PROOFS. OPEN_SET, COMMIT_SET and ABANDON_SET (R77 to R79): which check refuses each, and what each does. -/

namespace Sys2Proof.Machine

/-! ### What each does -/

section Commanding

variable {ct : CueTable} {s : State} {t : Ticket} {b : List Byte} {st : Status} {k : SetId} {o : Port} {n : Nat}
  {time : Time}

theorem indexOf_of_code {x : Byte} (code : x = setCode k) : indexOf 8 x = some k := by
  rw [code, indexOf_eq_some, setCode, BitVec.toNat_ofNat]
  exact Nat.mod_eq_of_lt (k.isLt.trans (by decide))

theorem lowestFreeSet_eq_some (free : ct.commitSet k = .free) (least : ∀ j, j < k → ct.commitSet j ≠ .free) :
    ct.lowestFreeSet = some k := by
  unfold CueTable.lowestFreeSet
  rw [List.find?_eq_some_iff_getElem]
  refine ⟨by simp [free], k.val, by simp [indices], by simp [indices], fun j hj => ?_⟩
  have taken := least ⟨j, hj.trans k.isLt⟩ hj
  simpa [indices] using taken

theorem lowestFreeSet_eq_none (taken : ∀ j, ct.commitSet j ≠ .free) : ct.lowestFreeSet = none := by
  unfold CueTable.lowestFreeSet
  rw [List.find?_eq_none]
  intro j _
  simpa using taken j

theorem openSet_of_listCheck (u : State) (h : listCheck u t.port .openSet b = some st) :
    openSet t b u = answer t st [] u := by
  simp [openSet, h]

theorem openSet_of_free (h : listCheck s t.port .openSet b = none) (lowest : s.cueTable.lowestFreeSet = some k) :
    openSet t b s = answer t .ok [setCode k] (s.setCueTable (s.cueTable.putSet k (.opened t.port 0))) := by
  simp [openSet, h, lowest]

theorem openSet_of_full (h : listCheck s t.port .openSet b = none) (full : s.cueTable.lowestFreeSet = none) :
    openSet t b s = answer t .noSlot [] s := by
  simp [openSet, h, full]

theorem commitSet_of_listCheck (u : State) (h : listCheck u t.port .commitSet b = some st) :
    commitSet t b u = answer t st [] u := by
  simp [commitSet, h]

theorem commitSet_of_outside (h : listCheck s t.port .commitSet b = none) (outside : indexOf 8 (byteAt b 0) = none) :
    commitSet t b s = answer t .badField [] s := by
  simp [commitSet, h, outside]

theorem commitSet_of_free (h : listCheck s t.port .commitSet b = none) (names : indexOf 8 (byteAt b 0) = some k)
    (free : s.cueTable.commitSet k = .free) : commitSet t b s = answer t .wrongState [] s := by
  simp [commitSet, h, names, free]

theorem commitSet_of_other (h : listCheck s t.port .commitSet b = none) (names : indexOf 8 (byteAt b 0) = some k)
    (owner : (s.cueTable.commitSet k).owner? = some o) (other : o ≠ t.port) :
    commitSet t b s = answer t .notOwner [] s := by
  cases set : s.cueTable.commitSet k <;> rw [set] at owner <;> cases owner <;>
    simp [commitSet, h, names, set, other]

theorem commitSet_of_scheduled (h : listCheck s t.port .commitSet b = none) (names : indexOf 8 (byteAt b 0) = some k)
    (set : s.cueTable.commitSet k = .scheduled t.port n time) : commitSet t b s = answer t .wrongState [] s := by
  simp [commitSet, h, names, set]

theorem commitSet_of_ahead (h : listCheck s t.port .commitSet b = none) (names : indexOf 8 (byteAt b 0) = some k)
    (set : s.cueTable.commitSet k = .opened t.port n) (ahead : isAhead s.now (timeAt b 1) = true) :
    commitSet t b s = answer t .ok (setCode k :: timeBytes (timeAt b 1) ++ [countByte n])
      (s.setCueTable (s.cueTable.putSet k (.scheduled t.port n (timeAt b 1)))) := by
  simp [commitSet, h, names, set, ahead]

theorem commitSet_of_late (h : listCheck s t.port .commitSet b = none) (names : indexOf 8 (byteAt b 0) = some k)
    (set : s.cueTable.commitSet k = .opened t.port n) (late : isAhead s.now (timeAt b 1) = false) :
    commitSet t b s = answer t .late [] s := by
  simp [commitSet, h, names, set, late]

theorem abandonSet_of_listCheck (u : State) (h : listCheck u t.port .abandonSet b = some st) :
    abandonSet t b u = answer t st [] u := by
  simp [abandonSet, h]

theorem abandonSet_of_outside (h : listCheck s t.port .abandonSet b = none)
    (outside : indexOf 8 (byteAt b 0) = none) : abandonSet t b s = answer t .badField [] s := by
  simp [abandonSet, h, outside]

theorem abandonSet_of_free (h : listCheck s t.port .abandonSet b = none) (names : indexOf 8 (byteAt b 0) = some k)
    (free : s.cueTable.commitSet k = .free) : abandonSet t b s = answer t .wrongState [] s := by
  simp [abandonSet, h, names, free, CommitSet.owner?]

theorem abandonSet_of_other (h : listCheck s t.port .abandonSet b = none) (names : indexOf 8 (byteAt b 0) = some k)
    (owner : (s.cueTable.commitSet k).owner? = some o) (other : o ≠ t.port) :
    abandonSet t b s = answer t .notOwner [] s := by
  simp [abandonSet, h, names, owner, other]

theorem abandonSet_of_own (h : listCheck s t.port .abandonSet b = none) (names : indexOf 8 (byteAt b 0) = some k)
    (owner : (s.cueTable.commitSet k).owner? = some t.port) :
    abandonSet t b s = answer t .ok [countByte (s.cueTable.membersOf k).length]
      (s.setCueTable (s.cueTable.freeSetWhole k)) := by
  simp [abandonSet, h, names, owner]

end Commanding

/-! ### The statement -/

/-- The refusals of COMMIT_SET and ABANDON_SET by the set named (R78, R79). -/
theorem setCommand_refusals {s : State} {p : Port} {r : Request} {c : CommandKind}
    (which : c = .commitSet ∧ 5 ≤ r.body.length ∨ c = .abandonSet ∧ 1 ≤ r.body.length) (grants : s.Grants p c r)
    (run : s.session.phase = .run) (attached : s.attached p = true) :
    (8 ≤ (byteAt r.body 0).toNat → s.Refused c p r .badField)
    ∧ ∀ k : SetId, byteAt r.body 0 = setCode k →
      (s.cueTable.commitSet k = .free → s.Refused c p r .wrongState)
      ∧ (∀ o, (s.cueTable.commitSet k).owner? = some o → o ≠ p → s.Refused c p r .notOwner)
      ∧ (∀ n time, c = .commitSet → s.cueTable.commitSet k = .scheduled p n time → s.Refused c p r .wrongState) := by
  rcases which with ⟨rfl, long⟩ | ⟨rfl, long⟩
  · have passes := listCheck_afterGrant (k := .commitSet) (cl := .normal) (r := r) run attached long
    have refused {st : Status} :=
      refused_of_answer (c := .commitSet p) (effect := commitSet) (st := st) rfl rfl rfl grants
    exact ⟨fun outside => refused (commitSet_of_outside passes (indexOf_eq_none.2 outside)),
      fun k code => ⟨fun free => refused (commitSet_of_free passes (indexOf_of_code code) free),
        fun o owner other => refused (commitSet_of_other passes (indexOf_of_code code) owner other),
        fun n time _ set => refused (commitSet_of_scheduled passes (indexOf_of_code code) set)⟩⟩
  · have passes := listCheck_afterGrant (k := .abandonSet) (cl := .normal) (r := r) run attached long
    have refused {st : Status} :=
      refused_of_answer (c := .abandonSet p) (effect := abandonSet) (st := st) rfl rfl rfl grants
    exact ⟨fun outside => refused (abandonSet_of_outside passes (indexOf_eq_none.2 outside)),
      fun k code => ⟨fun free => refused (abandonSet_of_free passes (indexOf_of_code code) free),
        fun o owner other => refused (abandonSet_of_other passes (indexOf_of_code code) owner other),
        fun n time other => by cases other⟩⟩

/-- Settles O29: after the common checks the set's state and owner decide; a command that passes puts one set record, or
frees the set whole. -/
theorem setCommands : Obligations.SetCommands := by
  refine ⟨fun p r s =>
    ⟨checksFirst_of_listCheck (effect := openSet) rfl rfl rfl fun _ _ u _ => openSet_of_listCheck u,
      checksFirst_of_listCheck (effect := commitSet) rfl rfl rfl fun _ _ u _ => commitSet_of_listCheck u,
      checksFirst_of_listCheck (effect := abandonSet) rfl rfl rfl fun _ _ u _ => abandonSet_of_listCheck u⟩,
    fun p r c s which => setCommand_refusals which, fun p r k s run attached => ⟨fun grants free least => ?_,
      fun grants taken => ?_, fun n grants long code set => ⟨fun ahead => ?_, fun late => ?_⟩,
      fun grants long code own => ?_⟩⟩
  · obtain ⟨t, taken, only, arbiter, ports, table⟩ := changesTable_of_grants grants rfl
      (openSet_of_free (listCheck_afterGrant run attached (Nat.zero_le _)) (lowestFreeSet_eq_some free least))
    exact ⟨t, taken, only, arbiter, ports, table⟩
  · exact grantedOnly_of_grants grants rfl
      (openSet_of_full (listCheck_afterGrant run attached (Nat.zero_le _)) (lowestFreeSet_eq_none taken))
  · obtain ⟨t, taken, only, arbiter, ports, table⟩ := changesTable_of_grants grants rfl
      (commitSet_of_ahead (listCheck_afterGrant run attached long) (indexOf_of_code code) set ahead)
    exact ⟨t, taken, only, arbiter, ports, table⟩
  · exact grantedOnly_of_grants grants rfl
      (commitSet_of_late (listCheck_afterGrant run attached long) (indexOf_of_code code) set late)
  · obtain ⟨t, taken, only, arbiter, ports, table⟩ := changesTable_of_grants grants rfl
      (abandonSet_of_own (listCheck_afterGrant run attached long) (indexOf_of_code code) own)
    refine ⟨t, taken, only, arbiter, ports, ?_⟩
    rw [table]
    exact ⟨s.cueTable.freeSetWhole_cue k, s.cueTable.freeSetWhole_commitSet k, s.cueTable.freeSetWhole_pendingList k,
      s.cueTable.freeSetWhole_deferred k, s.cueTable.freeSetWhole_gen k⟩

end Sys2Proof.Machine
end

section
/-! PROOFS. The law of the lines at the output unit's own operations: exclusion, holdoffs, group size and pulse ends
(R89 to R104). -/

namespace Sys2Proof.Machine

namespace OutputUnit

/-! ### The law of one unit -/

/-- The law of the lines as far as it is the output unit's own, in every phase and trip state. -/
structure Lawful (o : OutputUnit) : Prop where
  interlocked : o.Interlocked
  groupedSafe : o.GroupedSafe
  gapKept : o.GapKept
  pulsesActive : o.PulsesActive
  bounded : o.GroupsBounded

section Laws

variable {o o' : OutputUnit} {now : Time} {l : Line} {g : Group}

/-- The unit at its reset value. -/
theorem lawful_reset : OutputUnit.reset.Lawful := by
  have line (l : Line) : OutputUnit.reset.line l = .reset := look_replicate _ l
  have group (g : Group) : OutputUnit.reset.group g = .reset := look_replicate _ g
  have alone (g : Group) : OutputUnit.reset.members g = [] := by simp [members, line, LineRecord.reset]
  exact
    { interlocked := fun l m g a => by simp [line, LineRecord.reset] at a
      groupedSafe := fun l _ => by simp [line, LineRecord.reset]
      gapKept := fun g h e => by simp [group, GroupRecord.reset] at e
      pulsesActive := fun l e => by simp [line, LineRecord.reset] at e
      bounded := fun g => by simp [alone] }

/-- The law reads lines and groups alone. -/
theorem Lawful.of_same (h : o.Lawful) (lines : o'.lines = o.lines) (groups : o'.groups = o.groups) : o'.Lawful := by
  obtain ⟨ls, gs, trip, notices⟩ := o
  obtain ⟨ls', gs', trip', notices'⟩ := o'
  cases lines
  cases groups
  exact ⟨h.interlocked, h.groupedSafe, h.gapKept, h.pulsesActive, h.bounded⟩

theorem AtSafe.of_same (h : o.AtSafe) (lines : o'.lines = o.lines) : o'.AtSafe := by
  intro l
  have same : o'.line l = o.line l := congrArg (look · l) lines
  rw [same]
  exact h l

/-- An operation that leaves the settings keeps the law if what it activates and guards is lawful: an ACTIVE line shares
its group with no other, a holdoff stands as the law asks, and a pulse end on an ACTIVE line. -/
theorem Lawful.of_steady (h : o.Lawful) (steady : o.Steady now o')
    (interlocked : ∀ m n g, (o.line m).group = some g → (o.line n).group = some g → (o'.line m).level = .active →
      (o'.line n).level = .active → m = n)
    (guarded : ∀ g x, (o'.group g).holdoff = some x →
      (o.group g).gap ≠ 0 ∧ ∀ m, (o.line m).group = some g → (o'.line m).level = .inactive)
    (pulses : ∀ m, (o'.line m).pulseEnd.isSome = true → (o'.line m).level = .active) : o'.Lawful where
  interlocked m n g a b := interlocked m n g ((steady.lines m).group ▸ a) ((steady.lines n).group ▸ b)
  groupedSafe m a := (steady.lines m).safe.trans (h.groupedSafe m ((steady.lines m).group ▸ a))
  gapKept g x e := by
    obtain ⟨gap, rest⟩ := guarded g x e
    exact ⟨(steady.groups g).gap ▸ gap, fun m a => rest m ((steady.lines m).group ▸ a)⟩
  pulsesActive := pulses
  bounded g := by rw [steady.members]; exact h.bounded g

/-! ### Level changes and pulse ends (R89, R92) -/

/-- An ACTIVE line deactivates, and its group is guarded when it has a gap (R98). -/
theorem Lawful.deactivate (h : o.Lawful) (now : Time) (hl : (o.line l).level = .active) :
    (o.deactivate now l).Lawful := by
  have stays (m : Line) (a : ((o.deactivate now l).line m).level = .active) : m ≠ l ∧ (o.line m).level = .active := by
    rw [deactivate_line] at a
    split at a
    · cases a
    · next other => exact ⟨other, a⟩
  have rests (m : Line) (i : m = l ∨ (o.line m).level = .inactive) :
      ((o.deactivate now l).line m).level = .inactive := by
    rw [deactivate_line]
    split
    · rfl
    · next other => exact i.resolve_left other
  refine h.of_steady (deactivate_steady now o l)
    (fun m n g a b x y => h.interlocked m n g a b (stays m x).2 (stays n y).2) (fun g x e => ?_) (fun m e => ?_)
  · rw [deactivate_group] at e
    split at e
    · next own =>
      refine ⟨own.2, fun m a => rests m ?_⟩
      cases lm : (o.line m).level with
      | inactive => exact .inr rfl
      | active => exact .inl (h.interlocked m l g a own.1 lm hl)
    · obtain ⟨gap, all⟩ := h.gapKept g x e
      exact ⟨gap, fun m a => rests m (.inr (all m a))⟩
  · rw [deactivate_line] at e ⊢
    split at e
    · cases e
    · next other => rw [if_neg other]; exact h.pulsesActive m e

/-- The group check allows an activation when every other member is INACTIVE and a holdoff names the line (R97). -/
theorem groupAllows_iff : o.groupAllows l = true ↔ ∀ g, (o.line l).group = some g →
    (∀ m, m ≠ l → (o.line m).group = some g → (o.line m).level = .inactive)
      ∧ ∀ h, (o.group g).holdoff = some h → h.line = some l := by
  unfold groupAllows
  cases hg : (o.line l).group with
  | none => simp
  | some g =>
    have others : (o.members g).all (fun m => m == l || (o.line m).level == .inactive) = true ↔
        ∀ m, m ≠ l → (o.line m).group = some g → (o.line m).level = .inactive := by
      simp only [members, List.all_eq_true, List.mem_filter, mem_indices, true_and, beq_iff_eq, Bool.or_eq_true]
      exact forall_congr' fun m =>
        ⟨fun h other a => (h a).resolve_left other, fun h a => or_iff_not_imp_left.2 fun other => h other a⟩
    simp only [Bool.and_eq_true, others, Option.some.injEq, forall_eq']
    refine and_congr_right fun _ => ?_
    cases (o.group g).holdoff <;> simp

/-- A line that its group lets pass activates, and the holdoff of the group is gone (R97, R100). -/
theorem Lawful.activate (h : o.Lawful) {pe : Option Time} (allowed : o.groupAllows l = true)
    (range : ∀ t, pe = some t → distance now t ≤ 65535) : (o.activate now l pe).Lawful := by
  have allows := groupAllows_iff.1 allowed
  have stays (m : Line) (other : m ≠ l) (a : ((o.activate now l pe).line m).level = .active) :
      (o.line m).level = .active := by
    rwa [activate_line, if_neg other] at a
  have alone (m : Line) (g : Group) (hl : (o.line l).group = some g) (hm : (o.line m).group = some g)
      (a : ((o.activate now l pe).line m).level = .active) : m = l := by
    by_contra other
    have rests := (allows g hl).1 m other hm
    rw [stays m other a] at rests
    cases rests
  refine h.of_steady (activate_steady now o l range) (fun m n g a b x y => ?_) (fun g x e => ?_) (fun m e => ?_)
  · by_cases hm : m = l
    · subst hm; exact (alone n g a b y).symm
    · by_cases hn : n = l
      · subst hn; exact alone m g b a x
      · exact h.interlocked m n g a b (stays m hm x) (stays n hn y)
  · rw [activate_group] at e
    split at e
    · cases e
    · next kept =>
      obtain ⟨gap, all⟩ := h.gapKept g x e
      refine ⟨gap, fun m a => ?_⟩
      rw [activate_line]
      split
      · next same =>
        subst same
        exact absurd ⟨a, by simp [e, (allows g a).2 x e]⟩ kept
      · exact all m a
  · rw [activate_line] at e ⊢
    split
    · rfl
    · next other => rw [if_neg other] at e; exact h.pulsesActive m e

/-- A pulse end is cleared, or set on an ACTIVE line. -/
theorem Lawful.setPulseEnd (h : o.Lawful) {pe : Option Time} (range : ∀ t, pe = some t → distance now t ≤ 65535)
    (active : pe.isSome = true → (o.line l).level = .active) :
    (o.setLine l { o.line l with pulseEnd := pe }).Lawful := by
  have level (m : Line) : ((o.setLine l { o.line l with pulseEnd := pe }).line m).level = (o.line m).level := by
    rw [setLine_line]
    split
    · next same => rw [same]
    · rfl
  refine h.of_steady (setPulseEnd_steady now o l range) (fun m n g a b x y => ?_) (fun g x e => ?_) (fun m e => ?_)
  · exact h.interlocked m n g a b (level m ▸ x) (level n ▸ y)
  · obtain ⟨gap, all⟩ := h.gapKept g x e
    exact ⟨gap, fun m a => (level m).trans (all m a)⟩
  · rw [level]
    rw [setLine_line] at e
    split at e
    · next same => exact same ▸ active e
    · exact h.pulsesActive m e

/-! ### Drives (R90) -/

theorem Lawful.drive (h : o.Lawful) (now : Time) (l : Line) : (o.drive now l).Lawful := by
  have none (t : Time) (e : (Option.none : Option Time) = some t) : distance now t ≤ 65535 := by cases e
  have cleared : (o.setLine l { o.line l with pulseEnd := Option.none }).Lawful :=
    h.setPulseEnd none fun e => by cases e
  unfold OutputUnit.drive
  dsimp only
  split
  · next level _ => exact h.deactivate now level
  · next _ safe =>
    refine h.activate (groupAllows_iff.2 fun g hg => ?_) none
    have grouped := h.groupedSafe l (by simp [hg])
    rw [safe] at grouped
    cases grouped
  · exact cleared
  · exact cleared

theorem Lawful.driveAll (h : o.Lawful) (now : Time) : (o.driveAll now).Lawful :=
  List.foldlRecOn (motive := Lawful) (indices 16) _ h fun _ k l _ => k.drive now l

/-- A drive leaves the other lines, and brings its own to its safe level. -/
theorem AtSafe.drive_of_others (h : ∀ m, m ≠ l → (o.line m).level = (o.line m).safe ∧ (o.line m).pulseEnd = none) :
    (o.drive now l).AtSafe := by
  intro m
  rw [drive_line]
  split
  · exact ⟨rfl, rfl⟩
  · next other => exact h m other

theorem AtSafe.drive (h : o.AtSafe) (now : Time) (l : Line) : (o.drive now l).AtSafe :=
  .drive_of_others fun m _ => h m

/-! ### Apply requests (R92) -/

theorem Lawful.tryActivate (h : o.Lawful) {pe : Option Time} (range : ∀ t, pe = some t → distance now t ≤ 65535) :
    (o.tryActivate now l pe).1.Lawful := by
  unfold OutputUnit.tryActivate
  split
  · next allowed => exact h.activate allowed range
  · exact h

theorem Lawful.apply (h : o.Lawful) (now : Time) (l : Line) (a : Action) (w : Option Half) :
    (o.apply now l a w).1.Lawful := by
  have activates (b : Action) : (o.tryActivate now l (pulseEndOf now b w)).1.Lawful :=
    h.tryActivate fun _ e => distance_pulseEndOf now e
  unfold OutputUnit.apply
  dsimp only
  split
  · exact h
  · exact activates .set
  · exact activates .toggle
  · exact activates .pulse
  · exact h.setPulseEnd (now := now) (by simp) fun e => by cases e
  · next active => exact h.setPulseEnd (fun _ e => distance_pulseEndOf now e) fun _ => active
  · next active => exact h.deactivate now active
  · next active => exact h.deactivate now active

/-! ### The end of a holdoff (R99) -/

theorem Lawful.opens (h : o.Lawful) (g : Group) : ((o.setHoldoff g none).sendNotice g).Lawful := by
  refine h.of_steady (now := 0) (open_steady 0 o g) h.interlocked (fun j x e => ?_) h.pulsesActive
  rw [sendNotice_group, setHoldoff_group] at e
  split at e
  · cases e
  · exact h.gapKept j x e

end Laws

end OutputUnit

end Sys2Proof.Machine
end

section
/-! PROOFS. The law of the lines at a configuration write, which is taken in SETUP, where every line stands at its safe
level (R91, R103, R104). -/

namespace Sys2Proof.Machine

namespace OutputUnit

section Configuring

variable {o : OutputUnit} {now : Time} {l : Line} {g j : Group}

/-! ### Lines at their safe levels -/

/-- Every line at its safe level, grouped lines at INACTIVE, and the groups in size: what SETUP asks of the lines. -/
structure Settled (o : OutputUnit) : Prop where
  atSafe : o.AtSafe
  groupedSafe : o.GroupedSafe
  bounded : o.GroupsBounded

/-- A holdoff stands in the group only with a gap. -/
def Guards (o : OutputUnit) (g : Group) : Prop := ∀ h, (o.group g).holdoff = some h → (o.group g).gap ≠ 0

/-- No grouped line is ACTIVE. -/
theorem Settled.grouped_inactive (h : o.Settled) (hg : (o.line l).group = some g) : (o.line l).level = .inactive :=
  (h.atSafe l).1.trans (h.groupedSafe l (by simp [hg]))

/-- Settled lines, and groups that guard only with a gap: the law in SETUP. -/
structure Ready (o : OutputUnit) : Prop extends Settled o where
  guards : ∀ g, o.Guards g

theorem Ready.lawful (h : o.Ready) : o.Lawful where
  interlocked l m g a _ x _ := by
    rw [h.grouped_inactive a] at x
    cases x
  groupedSafe := h.groupedSafe
  gapKept g x e := ⟨h.guards g x e, fun l a => h.grouped_inactive a⟩
  pulsesActive l e := by simp [(h.atSafe l).2] at e
  bounded := h.bounded

theorem Lawful.ready (h : o.Lawful) (safe : o.AtSafe) : o.Ready :=
  ⟨⟨safe, h.groupedSafe, h.bounded⟩, fun g x e => (h.gapKept g x e).1⟩

/-! ### A holdoff set afresh (R104) -/

/-- With gap 0 nothing of a gap is left. -/
theorem gap_ne_zero_of_longestGapLeft {n : Nat} (h : o.longestGapLeft now g = some n) : (o.group g).gap ≠ 0 := by
  intro zero
  have left (r : LineRecord) : r.gapLeft now (o.group g).gap = none := by
    unfold LineRecord.gapLeft
    split <;> simp [zero]
  have none : o.longestGapLeft now g = none := by
    unfold longestGapLeft
    refine List.foldlRecOn (motive := fun best => best = none) (o.members g) _ rfl fun best ih m _ => ?_
    subst ih
    exact left _
  rw [h] at none
  cases none

@[simp] theorem recompute_line : (o.recompute now g).line l = o.line l := by
  unfold recompute
  split
  · rfl
  · split <;> rfl

/-- The group set afresh guards only with a gap, whatever it held before. -/
theorem recompute_guards_self : (o.recompute now g).Guards g := by
  intro x e
  unfold recompute at e ⊢
  split at e
  · next n left => simpa [setHoldoff_group] using gap_ne_zero_of_longestGapLeft left
  · split at e
    · simp [setHoldoff_group] at e
    · next bare => simp [e] at bare

theorem recompute_group_of_ne (h : j ≠ g) : (o.recompute now g).group j = o.group j := by
  unfold recompute
  split
  · rw [setHoldoff_group, if_neg h]
  · split
    · rw [sendNotice_group, setHoldoff_group, if_neg h]
    · rfl

theorem Guards.recompute (h : o.Guards j) : (o.recompute now g).Guards j := by
  by_cases same : j = g
  · subst same; exact recompute_guards_self
  · unfold Guards
    rw [recompute_group_of_ne same]
    exact h

/-- What is asked of the lines does not read the groups' records. -/
theorem Settled.of_lines {o' : OutputUnit} (h : o.Settled) (lines : ∀ l, o'.line l = o.line l) : o'.Settled where
  atSafe l := by rw [lines]; exact h.atSafe l
  groupedSafe l := by rw [lines]; exact h.groupedSafe l
  bounded g := by simpa only [members, lines] using h.bounded g

theorem Ready.recompute (h : o.Ready) (now : Time) (g : Group) : (o.recompute now g).Ready :=
  ⟨h.toSettled.of_lines fun _ => recompute_line, fun j => (h.guards j).recompute⟩

theorem Ready.recompute? (h : o.Ready) (now : Time) (g : Option Group) : (o.recompute? now g).Ready := by
  cases g with
  | none => exact h
  | some g => exact h.recompute now g

/-! ### The writes (R88, R91, R103, R105) -/

theorem mem_members (g : Group) : l ∈ o.members g ↔ (o.line l).group = some g := by simp [members]

/-- A line joins a group with fewer than four other members (R96, R103). -/
theorem groupsBounded_setLine (h : o.GroupsBounded) {r : LineRecord}
    (room : ∀ g, r.group = some g → (o.othersIn g l).length < Config.groupBound) :
    (o.setLine l r).GroupsBounded := by
  intro g
  have once : ((o.setLine l r).members g).Nodup := (nodup_indices 16).filter _
  by_cases joins : r.group = some g
  · have sub : (o.setLine l r).members g ⊆ l :: o.othersIn g l := fun m hm => by
      rw [mem_members, setLine_line] at hm
      split at hm
      · next same => exact same ▸ List.mem_cons_self
      · next other => exact List.mem_cons_of_mem _ (List.mem_filter.2 ⟨(mem_members g).2 hm, by simpa using other⟩)
    have short := (once.subperm sub).length_le
    have left := room g joins
    rw [List.length_cons] at short
    omega
  · have sub : (o.setLine l r).members g ⊆ o.members g := fun m hm => by
      rw [mem_members, setLine_line] at hm
      split at hm
      · exact absurd hm joins
      · exact (mem_members g).2 hm
    exact (once.subperm sub).length_le.trans (h g)

/-- A line whose group stands. -/
theorem groupsBounded_setLine_of_same (h : o.GroupsBounded) {r : LineRecord} (same : r.group = (o.line l).group) :
    (o.setLine l r).GroupsBounded := by
  intro g
  have members : (o.setLine l r).members g = o.members g := by
    unfold OutputUnit.members
    refine List.filter_congr fun m _ => ?_
    rw [setLine_line]
    split
    · next e => rw [same, e]
    · rfl
  rw [members]
  exact h g

/-- A line record replaced by one that obeys the law in SETUP. -/
theorem Ready.setLine (h : o.Ready) {r : LineRecord} (safe : r.level = r.safe ∧ r.pulseEnd = none)
    (grouped : r.group.isSome = true → r.safe = .inactive) (bounded : (o.setLine l r).GroupsBounded) :
    (o.setLine l r).Ready where
  atSafe m := by
    rw [setLine_line]
    split
    · exact safe
    · exact h.atSafe m
  groupedSafe m := by
    rw [setLine_line]
    split
    · exact grouped
    · exact h.groupedSafe m
  bounded := bounded
  guards := h.guards

/-- Of the lines a written safe level changes only its own line's. -/
theorem setSafe_line (o : OutputUnit) (l m : Line) (v : Level) : (o.setLine l { o.line l with safe := v }).line m =
    { o.line m with safe := if m = l then v else (o.line m).safe } := by
  rw [setLine_line]
  split
  · next same => rw [same]
  · rfl

/-- A safe level that is INACTIVE for a grouped line keeps the law (R103). -/
theorem Lawful.setSafe (h : o.Lawful) {v : Level} (permitted : (o.line l).group.isSome = true → v = .inactive) :
    (o.setLine l { o.line l with safe := v }).Lawful where
  interlocked m n g := by
    rw [setSafe_line, setSafe_line]
    exact h.interlocked m n g
  groupedSafe m := by
    rw [setSafe_line]
    intro grouped
    dsimp only at grouped ⊢
    split
    · next same => exact permitted (same ▸ grouped)
    · exact h.groupedSafe m grouped
  gapKept g x e := by
    obtain ⟨gap, rest⟩ := h.gapKept g x e
    exact ⟨gap, fun m => by rw [setSafe_line]; exact rest m⟩
  pulsesActive m := by
    rw [setSafe_line]
    exact h.pulsesActive m
  bounded := groupsBounded_setLine_of_same h.bounded rfl

/-- A safe level is written and the line driven to it (R91). -/
theorem Ready.writeSafe (h : o.Ready) {v : Level} (permitted : (o.line l).group.isSome = true → v = .inactive)
    (now : Time) : ((o.setLine l { o.line l with safe := v }).drive now l).Ready := by
  refine ((h.lawful.setSafe permitted).drive now l).ready (AtSafe.drive_of_others fun m other => ?_)
  rw [setLine_line, if_neg other]
  exact h.atSafe m

/-- A line whose safe level is INACTIVE joins a group, or a line leaves its group, and the groups are set afresh (R103,
R104). -/
theorem Ready.writeGroup (h : o.Ready) {v : Option Group} (safe : v.isSome = true → (o.line l).safe = .inactive)
    (room : ∀ g, v = some g → (o.othersIn g l).length < Config.groupBound) (now : Time) :
    (o.configure now (.group l v)).Ready := by
  have moved : (o.setLine l { o.line l with group := v }).Ready :=
    h.setLine (h.atSafe l) safe (groupsBounded_setLine h.bounded room)
  have left := moved.recompute? now (o.line l).group
  unfold configure
  dsimp only
  split
  · exact left
  · exact left.recompute? now v

/-- A gap is written and the group set afresh (R104). -/
theorem Ready.writeGap (h : o.Ready) (now : Time) (g : Group) (v : Half) : (o.configure now (.gap g v)).Ready where
  toSettled := h.toSettled.of_lines fun l => recompute_line
  guards j := by
    by_cases same : j = g
    · subst same; exact recompute_guards_self
    · unfold configure Guards
      rw [recompute_group_of_ne same, setGroup_group, if_neg same]
      exact h.guards j

/-- A write that passes the constraints of R103 keeps the law and the safe levels. -/
theorem Ready.configure (h : o.Ready) {w : ConfigWrite} (permitted : w.permitted o = true) (now : Time) :
    (o.configure now w).Ready := by
  cases w with
  | polarity l v => exact h.setLine (h.atSafe l) (h.groupedSafe l) (groupsBounded_setLine_of_same h.bounded rfl)
  | safeLevel l v =>
    refine h.writeSafe (fun grouped => ?_) now
    cases v with
    | inactive => rfl
    | active => simp_all [ConfigWrite.permitted]
  | group l v =>
    cases v with
    | none => exact h.writeGroup (fun e => by cases e) (fun g e => by cases e) now
    | some g =>
      simp only [ConfigWrite.permitted, Bool.and_eq_true, beq_iff_eq, decide_eq_true_eq] at permitted
      obtain ⟨safe, room⟩ := permitted
      exact h.writeGroup (fun _ => safe) (fun j e => by cases e; exact room) now
  | gap g v => exact h.writeGap now g v
  | policy g v =>
    refine ⟨h.toSettled.of_lines fun l => rfl, fun j x e => ?_⟩
    simp only [OutputUnit.configure, setGroup_group] at e ⊢
    split at e
    · next same =>
      subst same
      simpa using h.guards _ x e
    · next other => rw [if_neg other]; exact h.guards j x e
  | prescale | lease | quota => exact h

end Configuring

end OutputUnit

end Sys2Proof.Machine
end

section
/-! PROOFS. The law of the lines at every command (R91, R97, R99, R103, R114): most leave the lines, the phase and the
trip alone; the others drive every line where they bring SETUP or a trip. -/

namespace Sys2Proof.Machine

/-! ### The law in its two parts -/

/-- Every line is held at its safe level: in SETUP and while TRIPPED (R91, R114). -/
def State.Held (s : State) : Prop := s.session.phase = .setup ∨ s.output.trip.isTripped = true

theorem outputLaw_iff (s : State) : s.OutputLaw ↔ s.output.Lawful ∧ (s.Held → s.output.AtSafe) :=
  ⟨fun ⟨interlocked, grouped, gaps, pulses, bounded, held⟩ => ⟨⟨interlocked, grouped, gaps, pulses, bounded⟩, held⟩,
    fun ⟨h, held⟩ => ⟨h.interlocked, h.groupedSafe, h.gapKept, h.pulsesActive, h.bounded, held⟩⟩

/-- The law holds after an event if it did before. -/
def KeepsLaw (s t : State) : Prop := s.OutputLaw → t.OutputLaw

section Kept

variable {s t u : State}

theorem KeepsLaw.refl (s : State) : KeepsLaw s s := id

theorem KeepsLaw.trans (h : KeepsLaw s t) (k : KeepsLaw t u) : KeepsLaw s u := k ∘ h

/-- The lines stand, and where they are to be held they were held before. -/
theorem KeepsLaw.of_lines (lines : t.output.lines = s.output.lines) (groups : t.output.groups = s.output.groups)
    (held : t.Held → s.Held) : KeepsLaw s t := fun h => by
  obtain ⟨lawful, safe⟩ := (outputLaw_iff s).1 h
  exact (outputLaw_iff t).2 ⟨lawful.of_same lines groups, fun a => (safe (held a)).of_same lines⟩

/-- Output unit and phase stand. -/
theorem KeepsLaw.of_same (output : t.output = s.output) (phase : t.session.phase = s.session.phase) :
    KeepsLaw s t :=
  .of_lines (by rw [output]) (by rw [output]) (by unfold State.Held; rw [output, phase]; exact id)

/-- Every line is driven, and nothing else changes of lines and groups. -/
theorem KeepsLaw.of_driveAll {o : OutputUnit} (lines : o.lines = s.output.lines) (groups : o.groups = s.output.groups)
    {now : Time} (driven : t.output = o.driveAll now) : KeepsLaw s t := fun h => by
  obtain ⟨lawful, _⟩ := (outputLaw_iff s).1 h
  refine (outputLaw_iff t).2 ?_
  rw [driven]
  exact ⟨(lawful.of_same lines groups).driveAll now, fun _ => OutputUnit.driveAll_atSafe o now⟩

/-- The output unit alone changes, lawfully, and keeps safe levels where they are held. -/
theorem KeepsLaw.of_output {o : OutputUnit} (trip : o.trip = s.output.trip)
    (kept : s.output.Lawful → (s.Held → s.output.AtSafe) → o.Lawful ∧ (s.Held → o.AtSafe)) :
    KeepsLaw s (s.setOutput o) := fun h => by
  obtain ⟨lawful, safe⟩ := (outputLaw_iff s).1 h
  refine (outputLaw_iff _).2 ?_
  unfold State.Held
  rw [setOutput_output, setOutput_session, trip]
  exact kept lawful safe

end Kept

/-! ### Shared operations -/

section Shared

variable (s : State)

theorem post_keepsLaw (p : Port) (e : EventRecord) : KeepsLaw s (post p e s) := .of_same (by simp) (by simp)

theorem postAll_keepsLaw (e : EventRecord) : KeepsLaw s (postAll e s) := .of_same (by simp) (by simp)

theorem driveLine_keepsLaw (l : Line) : KeepsLaw s (driveLine l s) :=
  .of_output (OutputUnit.drive_trip _ _ l) fun lawful safe =>
    ⟨lawful.drive s.now l, fun held => (safe held).drive s.now l⟩

/-- After a drive of every line the phase may be any. -/
theorem driveEvery_keepsLaw (x : Session) : KeepsLaw s (driveEvery (s.setSession x)) :=
  .of_driveAll (o := s.output) rfl rfl (driveEvery_output _)

theorem answer_keepsLaw (t : Ticket) (st : Status) (b : List Byte) : KeepsLaw s (answer t st b s) := .of_same rfl rfl

theorem setSession_keepsLaw {x : Session} (h : x.phase = s.session.phase) : KeepsLaw s (s.setSession x) :=
  .of_same rfl h

theorem setClaims_keepsLaw (b : ClaimUnit) : KeepsLaw s (s.setClaims b) := .of_same rfl rfl

theorem setInputs_keepsLaw (b : Inputs) : KeepsLaw s (s.setInputs b) := .of_same rfl rfl

theorem setArbiter_keepsLaw (b : Arbiter) : KeepsLaw s (s.setArbiter b) := .of_same rfl rfl

theorem setCueTable_keepsLaw (b : CueTable) : KeepsLaw s (s.setCueTable b) := .of_same rfl rfl

theorem changePort_keepsLaw (p : Port) (f : PortUnit → PortUnit) : KeepsLaw s (s.changePort p f) := .of_same rfl rfl

theorem tripEntry_keepsLaw (cause : TripCause) : KeepsLaw s (tripEntry cause s) :=
  .of_driveAll (o := { s.output with trip := .tripped cause s.now }) rfl rfl (tripEntry_output cause s)

/-- RUN holds no line that SETUP does not hold. -/
theorem phaseCheck_keepsLaw : KeepsLaw s (phaseCheck s) := by
  unfold phaseCheck
  split
  · have runs : KeepsLaw s (s.setSession { s.session with phase := .run }) :=
      .of_lines rfl rfl fun held => held.imp_left fun e => by cases e
    exact runs.trans (postAll_keepsLaw _ _)
  · exact .refl s

theorem decideHalt_keepsLaw (p : Port) (w : HaltWaiter) : KeepsLaw s (decideHalt p w s) :=
  (driveEvery_keepsLaw s _).trans (setArbiter_keepsLaw _ _)

theorem emptyRunCheck_keepsLaw : KeepsLaw s (emptyRunCheck s) := by
  rcases emptyRunCheck_cases s with e | e <;> rw [e]
  · exact .refl s
  · exact driveEvery_keepsLaw s _

theorem transferLine_keepsLaw (p : Port) (l : Line) : KeepsLaw s (transferLine p l s) := .of_same (by simp) (by simp)

variable {s} {t : State}

/-- A step of the firing engine beside the output unit. -/
theorem TableStep.keepsLaw (h : TableStep s t) : KeepsLaw s t :=
  .of_same (h.only.2 .output (by decide)) (congrArg Session.phase (h.only.2 .session (by decide)))

variable {p : Port} {k : CommandKind}

theorem keepsLaw_of_whenLive {event : State → State} (e : whenLive s event = .next t) (h : KeepsLaw s (event s)) :
    KeepsLaw s t :=
  of_whenLive (P := KeepsLaw s) e (.refl s) h

theorem keepsLaw_of_takeDirect {effect : Ticket → List Byte → State → State}
    (e : takeDirect k p s effect = .next t) (h : ∀ c b u, KeepsLaw u (effect c b u)) : KeepsLaw s t :=
  of_takeDirect (P := KeepsLaw s) e (.refl s) fun _ _ => KeepsLaw.trans (.of_same rfl rfl) (h _ _ (takeHead p s))

theorem keepsLaw_of_takeGranted {effect : Ticket → List Byte → State → State} {c : ListClass}
    (e : takeGranted k p s effect = .next t) (hc : listClass k = some c) (h : ∀ c b u, KeepsLaw u (effect c b u)) :
    KeepsLaw s t :=
  of_takeGranted (P := KeepsLaw s) e hc (.refl s) fun _ _ =>
    KeepsLaw.trans (.of_same rfl rfl) (h _ _ (afterGrant c p s))

end Shared

/-! ### Output, trip and reset (R94, R99, R107 to R112, R192) -/

section Output

variable {s t : State}

theorem execDeviceReset_keepsLaw {cause : ResetCause} (e : execDeviceReset cause s = .next t) : KeepsLaw s t := by
  rcases execDeviceReset_cases e with rfl | rfl
  · refine fun _ => (outputLaw_iff _).2 ⟨OutputUnit.lawful_reset, fun _ l => ?_⟩
    rw [show (s.enterReset cause).output.line l = .reset from look_replicate _ l]
    exact ⟨rfl, rfl⟩
  · exact .refl _

theorem execResetEnd_keepsLaw (e : execResetEnd s = .next t) : KeepsLaw s t := by
  obtain rfl := Host.Outcome.next.inj e
  split
  · dsimp only
    split
    · exact (setInputs_keepsLaw s _).trans (tripEntry_keepsLaw _ .input)
    · exact setInputs_keepsLaw s _
  · exact .refl s

theorem execFaultLow_keepsLaw (e : execFaultLow s = .next t) : KeepsLaw s t := by
  refine keepsLaw_of_whenLive e ?_
  split
  · split
    · exact (setInputs_keepsLaw s _).trans (tripEntry_keepsLaw _ .input)
    · exact setInputs_keepsLaw s _
  · exact .refl s

theorem execTrip_keepsLaw {p : Port} (e : execTrip p s = .next t) : KeepsLaw s t := by
  refine keepsLaw_of_takeDirect e fun c b u => ?_
  split
  · exact (tripEntry_keepsLaw u _).trans (answer_keepsLaw _ _ _ _)
  · exact answer_keepsLaw u _ _ _

/-- In NORMAL no line is held that was not. -/
theorem execClearTrip_keepsLaw {p : Port} (e : execClearTrip p s = .next t) : KeepsLaw s t := by
  refine keepsLaw_of_takeDirect e fun c b u => ?_
  split
  · exact answer_keepsLaw u _ _ _
  · split
    · exact answer_keepsLaw u _ _ _
    · have cleared : KeepsLaw u (u.setOutput { u.output with trip := .normal }) :=
        .of_lines rfl rfl fun held => .inl (held.resolve_right (by simp [Trip.isTripped]))
      exact (cleared.trans (postAll_keepsLaw _ _)).trans (answer_keepsLaw _ _ _ _)

/-- A pulse ends on an ACTIVE line, and no line is held then: a held line has no pulse end. -/
theorem execPulseEndExpiry_keepsLaw {l : Line} (e : execPulseEndExpiry l s = .next t) : KeepsLaw s t := by
  refine keepsLaw_of_whenLive e ?_
  split
  · next ends =>
    refine .of_output (OutputUnit.deactivate_trip _ _ l) fun lawful safe => ⟨?_, fun held => ?_⟩
    · exact lawful.deactivate s.now (lawful.pulsesActive l (by simp [ends]))
    · rw [(safe held l).2] at ends
      cases ends
  · exact .refl s

theorem execHoldoffExpiry_keepsLaw {g : Group} (e : execHoldoffExpiry g s = .next t) : KeepsLaw s t := by
  refine keepsLaw_of_whenLive e ?_
  split
  · split
    · exact .of_output rfl fun lawful safe => ⟨lawful.opens g, safe⟩
    · exact .refl s
  · exact .refl s

theorem execTbStep_keepsLaw (e : execTbStep s = .next t) : KeepsLaw s t := by
  rcases execTbStep_cases e with ⟨_, rfl⟩ | rfl
  · exact .of_same rfl rfl
  · exact .refl _

theorem execRefclkPeriodEnd_keepsLaw {pins : InputSample} (e : execRefclkPeriodEnd pins s = .next t) :
    KeepsLaw s t := by
  rcases execRefclkPeriodEnd_cases e with ⟨_, rfl⟩ | rfl
  · exact .of_same rfl rfl
  · exact .refl _

end Output

/-! ### The firing engine (R43 to R63, R80 to R83) -/

section Firing

variable {s t : State}

/-- An apply request is made in RUN and NORMAL alone, when no line is held (R46, R47). -/
theorem occur_keepsLaw (i : SlotId) (c : Cue) (s : State) : KeepsLaw s (occur i c s) := by
  have answered (a : ApplyAnswer) (u : State) : KeepsLaw u (takeAnswer i c a u) := by
    cases a with
    | applied =>
      unfold takeAnswer
      dsimp only
      split
      · exact (post_keepsLaw u _ _).trans (continueCue_tableStep i _ _).keepsLaw
      · exact (continueCue_tableStep i _ u).keepsLaw
    | refused g => exact (post_keepsLaw u _ _).trans (continueCue_tableStep i _ _).keepsLaw
    | deferred g => exact setCueTable_keepsLaw u _
  unfold occur
  split
  · exact setCueTable_keepsLaw s _
  · next present =>
    split
    · exact ((postMissed_tableStep i c s).trans (continueCue_tableStep i _ _)).keepsLaw
    · next normal =>
      have free : ¬ s.Held := fun held => held.elim (fun setup => present (by simp [setup])) normal
      have applied : KeepsLaw s (s.setOutput (s.output.apply s.now c.line c.action c.width).1) :=
        .of_output (OutputUnit.apply_trip _ _ _ _ _) fun lawful _ =>
          ⟨lawful.apply s.now c.line c.action c.width, fun held => absurd held free⟩
      exact applied.trans (answered _ _)

theorem execOccurrence_keepsLaw (e : execOccurrence s = .next t) : KeepsLaw s t := by
  refine keepsLaw_of_whenLive e ?_
  split
  · exact (setCueTable_keepsLaw s _).trans (occur_keepsLaw _ _ _)
  · exact .refl s

theorem applyMember_tableStep (s : State) (i : SlotId) : TableStep s (applyMember s i) := by
  unfold applyMember
  split
  · exact .refl s
  · split
    · exact storeCue_tableStep i _ s
    · dsimp only
      split
      · exact storeCue_tableStep i _ s
      · exact shiftCue_tableStep i _ s _

theorem applySet_tableStep (k : SetId) (owner : Port) (n : Nat) (s : State) : TableStep s (applySet k owner n s) := by
  have members : TableStep s ((s.cueTable.membersOf k).foldl applyMember s) :=
    List.foldlRecOn (motive := TableStep s) _ _ (.refl s) fun u h i _ => h.trans (applyMember_tableStep u i)
  exact (members.trans (setCueTable_tableStep _ _)).trans (post_tableStep _ _ _)

theorem execCommitTimeExpiry_keepsLaw {k : SetId} (e : execCommitTimeExpiry k s = .next t) : KeepsLaw s t := by
  refine keepsLaw_of_whenLive e ?_
  split
  · split
    · exact .refl s
    · split
      · exact (applySet_tableStep k _ _ s).keepsLaw
      · exact setCueTable_keepsLaw s _
  · exact .refl s
  · exact .refl s

theorem execOpeningNotice_keepsLaw {g : Group} (e : execOpeningNotice g s = .next t) : KeepsLaw s t := by
  refine keepsLaw_of_whenLive e ?_
  split
  · exact .of_lines rfl rfl id
  · exact .refl s

end Firing

/-! ### The session (chapter 9) -/

section Sessions

variable {s t : State} {p : Port}

/-- A configuration value is taken into force in SETUP, where every line is held (R91, R153, R155). -/
theorem configure_keepsLaw {w : ConfigWrite} (setup : s.session.phase = .setup)
    (permitted : w.permitted s.output = true) : KeepsLaw s (configure w s) := fun h => by
  obtain ⟨lawful, safe⟩ := (outputLaw_iff s).1 h
  have ready := (lawful.ready (safe (.inl setup))).configure permitted s.now
  exact (outputLaw_iff _).2 ⟨ready.lawful, fun _ => ready.atSafe⟩

theorem writeConfig_keepsLaw (c : Ticket) (b : List Byte) (s : State) : KeepsLaw s (writeConfig c b s) := by
  unfold writeConfig
  split
  · exact answer_keepsLaw s _ _ _
  · next notRun =>
    have setup : s.session.phase = .setup := by cases h : s.session.phase <;> simp_all
    iterate 2
      split
      · exact answer_keepsLaw s _ _ _
    split
    · exact answer_keepsLaw s _ _ _
    · exact answer_keepsLaw s _ _ _
    · split
      · exact answer_keepsLaw s _ _ _
      · next w passes =>
        have permitted := (Option.filter_eq_some_iff.1 passes).2
        exact (configure_keepsLaw setup permitted).trans (answer_keepsLaw _ _ _ _)

theorem execConfirm_keepsLaw (e : execConfirm p s = .next t) : KeepsLaw s t := by
  refine keepsLaw_of_takeDirect e fun c b u => ?_
  unfold confirm
  iterate 5
    split
    · exact answer_keepsLaw u _ _ _
  have recorded : KeepsLaw u (u.setSession { u.session with confirmed := put u.session.confirmed c.port true }) :=
    setSession_keepsLaw u rfl
  exact (recorded.trans (phaseCheck_keepsLaw _)).trans (answer_keepsLaw _ _ _ _)

theorem execHaltVote_keepsLaw (e : execHaltVote p s = .next t) : KeepsLaw s t := by
  refine keepsLaw_of_takeDirect e fun c b u => ?_
  have voted : KeepsLaw u (u.setSession { u.session with voted := put u.session.voted c.port true }) :=
    setSession_keepsLaw u rfl
  unfold haltVote
  split
  · exact answer_keepsLaw u _ _ _
  · dsimp only
    split
    · exact voted.trans (decideHalt_keepsLaw _ _ _)
    · exact voted.trans (answer_keepsLaw _ _ _ _)

theorem execAttach_keepsLaw (e : execAttach p s = .next t) : KeepsLaw s t := by
  refine keepsLaw_of_takeDirect e fun c b u => ?_
  unfold attach
  split <;> exact .of_same rfl rfl

theorem departureCheck_keepsLaw (c : Ticket) (s : State) : KeepsLaw s (departureCheck c s) := by
  unfold departureCheck
  split
  · exact (phaseCheck_keepsLaw s).trans (answer_keepsLaw _ _ _ _)
  · split
    · exact (emptyRunCheck_keepsLaw s).trans (answer_keepsLaw _ _ _ _)
    · split
      · exact decideHalt_keepsLaw s _ _
      · exact answer_keepsLaw s _ _ _

theorem completeDetach_keepsLaw (c : Ticket) (s : State) : KeepsLaw s (completeDetach c s) := by
  have forgotten (u : State) : KeepsLaw u (u.setSession (u.session.forget c.port)) := setSession_keepsLaw u rfl
  unfold completeDetach
  dsimp only
  split
  · exact (forgotten s).trans (departureCheck_keepsLaw c _)
  · split
    · exact ((changePort_keepsLaw s c.port PortUnit.leave).trans (forgotten _)).trans (departureCheck_keepsLaw c _)
    · exact answer_keepsLaw s _ _ _

theorem execDetachCompletion_keepsLaw (e : execDetachCompletion p s = .next t) : KeepsLaw s t := by
  refine keepsLaw_of_whenLive e ?_
  split
  · exact (setClaims_keepsLaw s _).trans (completeDetach_keepsLaw _ _)
  · exact .refl s

theorem execHaltCompletion_keepsLaw (e : execHaltCompletion s = .next t) : KeepsLaw s t := by
  have resumed (w : Option HaltWaiter) (u : State) : KeepsLaw u (resumeWaiter w u) := by
    unfold resumeWaiter
    split
    · exact answer_keepsLaw u _ _ _
    · exact answer_keepsLaw u _ _ _
    · exact changePort_keepsLaw u _ _
    · exact .refl u
  have halted (u : State) : KeepsLaw u (u.setSession u.session.afterHalt) := setSession_keepsLaw u rfl
  refine keepsLaw_of_whenLive e ?_
  split
  · exact (((setClaims_keepsLaw s _).trans (halted _)).trans (postAll_keepsLaw _ _)).trans (resumed _ _)
  · exact .refl s

theorem execLapse_keepsLaw (e : execLapse p s = .next t) : KeepsLaw s t := by
  refine keepsLaw_of_whenLive e ?_
  split
  · exact .of_same (by simp [lapsePort, withdraw]) (by simp [lapsePort, withdraw, Session.forget])
  · exact .refl s

theorem completeCleanup_keepsLaw (p : Port) (s : State) : KeepsLaw s (completeCleanup p s) := by
  have cleared : KeepsLaw s (clearCleanup p s) := changePort_keepsLaw s p _
  unfold completeCleanup
  split
  · exact cleared.trans (phaseCheck_keepsLaw _)
  · split
    · exact cleared.trans (emptyRunCheck_keepsLaw _)
    · split
      · exact decideHalt_keepsLaw s _ _
      · exact cleared

theorem execLapseCleanupCompletion_keepsLaw (e : execLapseCleanupCompletion p s = .next t) : KeepsLaw s t := by
  refine keepsLaw_of_whenLive e ?_
  split
  · exact (setClaims_keepsLaw s _).trans (completeCleanup_keepsLaw p _)
  · exact .refl s

end Sessions

/-! ### Hand-overs (R90, R126, R131, R132) -/

section Handovers

variable {s t : State} {h : Handover}

theorem execSafeLevelDrive_keepsLaw (e : execSafeLevelDrive h s = .next t) : KeepsLaw s t := by
  refine keepsLaw_of_whenLive e ?_
  cases h with
  | release p =>
    dsimp only
    split
    · exact (driveLine_keepsLaw s _).trans (setClaims_keepsLaw _ _)
    · exact .refl s
  | departure p why =>
    dsimp only
    split
    · exact (driveLine_keepsLaw s _).trans (setClaims_keepsLaw _ _)
    · exact .refl s
  | halt =>
    dsimp only
    split
    · exact (driveEvery_keepsLaw s s.session).trans (setClaims_keepsLaw _ _)
    · exact .refl s

theorem finishRelease_keepsLaw (p : Port) (j : ReleaseJob) (s : State) : KeepsLaw s (finishRelease p j s) := by
  have given : KeepsLaw s (if s.mayTransfer p j then transferLine p j.line s else s) := by
    split
    · exact transferLine_keepsLaw s p j.line
    · exact .refl s
  exact (given.trans (setClaims_keepsLaw _ _)).trans (answer_keepsLaw _ _ _ _)

theorem execClaimTransfer_keepsLaw (e : execClaimTransfer h s = .next t) : KeepsLaw s t := by
  refine keepsLaw_of_whenLive e ?_
  cases h with
  | release p =>
    dsimp only
    split
    · exact finishRelease_keepsLaw p _ s
    · exact .refl s
  | departure p why =>
    dsimp only
    split
    · exact (transferLine_keepsLaw s p _).trans (setClaims_keepsLaw _ _)
    · exact .refl s
  | halt => exact .refl s

end Handovers

end Sys2Proof.Machine
end

section
/-! PROOFS. The commands that leave lines, phase and trip alone, and with them the law of the lines at every step. -/

namespace Sys2Proof.Machine

/-! ### The port units (chapter 10) -/

section PortUnits

variable {s t : State} {p : Port}

theorem takeBytes_keepsLaw (p : Port) (bytes : List Byte) (s : State) : KeepsLaw s (takeBytes p bytes s) := by
  have loaded : KeepsLaw s (reloadLease p s) := by
    unfold reloadLease
    split
    · exact changePort_keepsLaw s p _
    · exact .refl s
  have dropped (d : DropReason) (u : State) : KeepsLaw u (setDrop p d u) := changePort_keepsLaw u p _
  have repeated (a : LastAccepted) (u : State) : KeepsLaw u (duplicate p a u) := by
    unfold duplicate withdrawIfFull
    split
    · exact dropped _ u
    · split
      · split
        · exact changePort_keepsLaw u p _
        · exact (changePort_keepsLaw u p _).trans (setArbiter_keepsLaw _ _)
      · exact dropped _ u
  have queued (r : Received) (u : State) : KeepsLaw u (queueRequest p r u) := by
    unfold queueRequest
    split
    · exact changePort_keepsLaw u p _
    · exact dropped _ u
  unfold takeBytes acceptRequest
  split
  · exact .refl s
  · split
    · exact dropped _ s
    · dsimp only
      split
      · exact loaded
      · split
        · exact loaded.trans (repeated _ _)
        · exact loaded.trans (queued _ _)

theorem execFaultHigh_keepsLaw (e : execFaultHigh s = .next t) : KeepsLaw s t := by
  refine keepsLaw_of_whenLive e ?_
  split
  · exact setInputs_keepsLaw s _
  · exact .refl s

theorem execFrameStart_keepsLaw (e : execFrameStart p s = .next t) : KeepsLaw s t := by
  refine keepsLaw_of_whenLive e ?_
  split
  · exact (setInputs_keepsLaw s _).trans (changePort_keepsLaw _ p _)
  · exact .refl s

theorem execFrameEnd_keepsLaw {sdi : List Bool} (e : execFrameEnd p sdi s = .next t) : KeepsLaw s t := by
  have taken : KeepsLaw s (takeSelEdge p s) := setInputs_keepsLaw s _
  refine keepsLaw_of_whenLive e ?_
  split
  · split
    · exact (taken.trans (changePort_keepsLaw _ p _)).trans (takeBytes_keepsLaw p _ _)
    · exact taken
  · exact .refl s

theorem execPresentRequest_keepsLaw (e : execPresentRequest p s = .next t) : KeepsLaw s t := by
  refine keepsLaw_of_whenLive e ?_
  split
  · exact setArbiter_keepsLaw s _
  · exact .refl s

theorem execReplyArrival_keepsLaw (e : execReplyArrival p s = .next t) : KeepsLaw s t := by
  refine keepsLaw_of_whenLive e ?_
  split
  · exact .refl s
  · split
    · exact changePort_keepsLaw s p _
    · split
      · exact changePort_keepsLaw s p _
      · exact .refl s

theorem execEventPosted_keepsLaw (e : execEventPosted p s = .next t) : KeepsLaw s t := by
  refine keepsLaw_of_whenLive e ?_
  split
  · exact .refl s
  · exact changePort_keepsLaw s p _

/-- The port unit answers its head itself (R183). -/
theorem takeHead_answer_keepsLaw (c : Ticket) (st : Status) (s : State) :
    KeepsLaw s (answer c st [] (takeHead p s)) := .of_same rfl rfl

theorem execBadKind_keepsLaw (e : execBadKind p s = .next t) : KeepsLaw s t := by
  refine keepsLaw_of_whenLive e ?_
  split
  · split
    · exact takeHead_answer_keepsLaw _ _ s
    · exact .refl s
  · exact .refl s

theorem execPortUnitNotAttached_keepsLaw (e : execPortUnitNotAttached p s = .next t) : KeepsLaw s t := by
  refine keepsLaw_of_whenLive e ?_
  split
  · split
    · exact takeHead_answer_keepsLaw _ _ s
    · exact .refl s
  · exact .refl s

theorem execReadTime_keepsLaw (e : execReadTime p s = .next t) : KeepsLaw s t :=
  keepsLaw_of_takeDirect e fun _ _ u => answer_keepsLaw u _ _ _

theorem execReadEvents_keepsLaw (e : execReadEvents p s = .next t) : KeepsLaw s t := by
  refine keepsLaw_of_takeDirect e fun c b u => ?_
  unfold readEvents
  split <;> exact answer_keepsLaw u _ _ _

theorem execAckEvents_keepsLaw (e : execAckEvents p s = .next t) : KeepsLaw s t := by
  refine keepsLaw_of_takeDirect e fun c b u => ?_
  unfold ackEvents
  split
  · exact answer_keepsLaw u _ _ _
  · exact (changePort_keepsLaw u c.port _).trans (answer_keepsLaw _ _ _ _)

theorem execReadConfig_keepsLaw (e : execReadConfig p s = .next t) : KeepsLaw s t := by
  refine keepsLaw_of_takeDirect e fun c b u => ?_
  unfold readConfig
  split
  · exact answer_keepsLaw u _ _ _
  · split <;> exact answer_keepsLaw u _ _ _

end PortUnits

/-! ### Claims (chapter 7) -/

section Claims

variable {s t : State} {p : Port}

theorem execClaim_keepsLaw (e : execClaim p s = .next t) : KeepsLaw s t := by
  refine keepsLaw_of_takeDirect e fun c b u => ?_
  have recorded (v : ClaimUnit) (st : Status) (body : List Byte) : KeepsLaw u (answer c st body (u.setClaims v)) :=
    (setClaims_keepsLaw u v).trans (answer_keepsLaw _ _ _ _)
  unfold claim claimLine
  iterate 2
    split
    · exact answer_keepsLaw u _ _ _
  split
  · dsimp only
    split
    · exact recorded _ _ _
    · iterate 3
        split
        · exact answer_keepsLaw u _ _ _
      exact recorded _ _ _
  · exact answer_keepsLaw u _ _ _

theorem execQueryLine_keepsLaw (e : execQueryLine p s = .next t) : KeepsLaw s t := by
  refine keepsLaw_of_takeDirect e fun c b u => ?_
  unfold queryLine
  split
  · exact answer_keepsLaw u _ _ _
  · split <;> exact answer_keepsLaw u _ _ _

theorem execRelease_keepsLaw (e : execRelease p s = .next t) : KeepsLaw s t := by
  refine keepsLaw_of_takeGranted e rfl fun c b u => ?_
  unfold releaseLine
  iterate 2
    split
    · exact answer_keepsLaw u _ _ _
  split
  · exact (setCueTable_keepsLaw u _).trans (setClaims_keepsLaw _ _)
  · exact setClaims_keepsLaw u _

theorem execReleaseAtClaimUnit_keepsLaw (e : execReleaseAtClaimUnit p s = .next t) : KeepsLaw s t := by
  refine keepsLaw_of_whenLive e ?_
  split
  · unfold decideRelease
    dsimp only
    split
    · exact setClaims_keepsLaw s _
    · split <;> exact (setClaims_keepsLaw s _).trans (answer_keepsLaw _ _ _ _)
  · exact .refl s

theorem execPortReleaseStart_keepsLaw {why : Departure} (e : execPortReleaseStart p why s = .next t) :
    KeepsLaw s t := by
  refine keepsLaw_of_whenLive e ?_
  split
  · split
    · exact setClaims_keepsLaw s _
    · exact .refl s
  · exact .refl s

theorem execHaltRelease_keepsLaw (e : execHaltRelease s = .next t) : KeepsLaw s t := by
  refine keepsLaw_of_whenLive e ?_
  split
  · exact setClaims_keepsLaw s _
  · exact .refl s

end Claims

/-! ### List-class commands and purges (chapters 2 and 4, R38 to R41) -/

section Listing

variable {s t : State} {p : Port}

/-- A granted command that is answered and beside that changes the table alone. -/
theorem keepsLaw_of_answers {k : CommandKind} {effect : Ticket → List Byte → State → State} {l : ListClass}
    (e : takeGranted k p s effect = .next t) (hc : listClass k = some l)
    (ha : ∀ c b u, AnswersMoving c u (effect c b u)) : KeepsLaw s t :=
  keepsLaw_of_takeGranted e hc fun c b u => by
    obtain ⟨st, body, ct, -, same⟩ := ha c b u
    rw [same]
    exact (setCueTable_keepsLaw u ct).trans (answer_keepsLaw _ _ _ _)

theorem execAddCue_keepsLaw (e : execAddCue p s = .next t) : KeepsLaw s t := by
  refine keepsLaw_of_takeGranted e rfl fun c b u => ?_
  rcases addCue_cases c b u with ⟨st, refused⟩ | ⟨q, i, body, -, -, -, -, enters⟩
  · rw [refused]
    exact answer_keepsLaw u _ _ _
  · rw [enters]
    exact (setCueTable_keepsLaw u _).trans (answer_keepsLaw _ _ _ _)

theorem purgePort_keepsLaw (p : Port) (why : Departure) (owes : Option Ticket) (s : State) :
    KeepsLaw s (purgePort p why owes s) :=
  (setCueTable_keepsLaw s _).trans (setClaims_keepsLaw _ _)

theorem grantPurge_keepsLaw (p : Port) (s : State) : KeepsLaw s (grantPurge p s) := .of_same rfl rfl

theorem execDetach_keepsLaw (e : execDetach p s = .next t) : KeepsLaw s t :=
  keepsLaw_of_takeGranted e rfl fun _ _ u => purgePort_keepsLaw _ _ _ u

theorem execLapsePurge_keepsLaw (e : execLapsePurge p s = .next t) : KeepsLaw s t := by
  refine keepsLaw_of_whenLive e ?_
  split
  · exact (grantPurge_keepsLaw p s).trans (purgePort_keepsLaw p _ _ _)
  · exact .refl s

theorem execHaltPurge_keepsLaw (e : execHaltPurge s = .next t) : KeepsLaw s t := by
  refine keepsLaw_of_whenLive e ?_
  split
  · exact (grantPurge_keepsLaw _ s).trans ((setCueTable_keepsLaw _ _).trans (setClaims_keepsLaw _ _))
  · exact .refl s

end Listing

/-! ### Every command -/

/-- Every command keeps the law of the lines. -/
theorem exec_keepsLaw {c : Instr} {s t : State} (e : exec c s = .next t) : KeepsLaw s t := by
  cases c with
  | deviceReset cause => exact execDeviceReset_keepsLaw e
  | resetEnd => exact execResetEnd_keepsLaw e
  | tbStep => exact execTbStep_keepsLaw e
  | faultLow => exact execFaultLow_keepsLaw e
  | faultHigh => exact execFaultHigh_keepsLaw e
  | frameStart p => exact execFrameStart_keepsLaw e
  | frameEnd p sdi => exact execFrameEnd_keepsLaw e
  | presentRequest p => exact execPresentRequest_keepsLaw e
  | replyArrival p => exact execReplyArrival_keepsLaw e
  | eventPosted p => exact execEventPosted_keepsLaw e
  | badKind p => exact execBadKind_keepsLaw e
  | readTime p => exact execReadTime_keepsLaw e
  | readEvents p => exact execReadEvents_keepsLaw e
  | ackEvents p => exact execAckEvents_keepsLaw e
  | attach p => exact execAttach_keepsLaw e
  | writeConfig p => exact keepsLaw_of_takeDirect e writeConfig_keepsLaw
  | readConfig p => exact execReadConfig_keepsLaw e
  | confirm p => exact execConfirm_keepsLaw e
  | haltVote p => exact execHaltVote_keepsLaw e
  | claim p => exact execClaim_keepsLaw e
  | queryLine p => exact execQueryLine_keepsLaw e
  | trip p => exact execTrip_keepsLaw e
  | clearTrip p => exact execClearTrip_keepsLaw e
  | addCue p => exact execAddCue_keepsLaw e
  | cancelCue p => exact keepsLaw_of_answers e rfl cancelCue_answers
  | queryCue p => exact keepsLaw_of_answers e rfl queryCue_answers
  | stage p => exact keepsLaw_of_answers e rfl stageCue_answers
  | unstage p => exact keepsLaw_of_answers e rfl unstageCue_answers
  | openSet p => exact keepsLaw_of_answers e rfl openSet_answers
  | commitSet p => exact keepsLaw_of_answers e rfl commitSet_answers
  | abandonSet p => exact keepsLaw_of_answers e rfl abandonSet_answers
  | release p => exact execRelease_keepsLaw e
  | releaseAtClaimUnit p => exact execReleaseAtClaimUnit_keepsLaw e
  | detach p => exact execDetach_keepsLaw e
  | lapsePurge p => exact execLapsePurge_keepsLaw e
  | haltPurge => exact execHaltPurge_keepsLaw e
  | safeLevelDrive h => exact execSafeLevelDrive_keepsLaw e
  | claimTransfer h => exact execClaimTransfer_keepsLaw e
  | portReleaseStart p why => exact execPortReleaseStart_keepsLaw e
  | haltRelease => exact execHaltRelease_keepsLaw e
  | detachCompletion p => exact execDetachCompletion_keepsLaw e
  | haltCompletion => exact execHaltCompletion_keepsLaw e
  | lapse p => exact execLapse_keepsLaw e
  | lapseCleanupCompletion p => exact execLapseCleanupCompletion_keepsLaw e
  | occurrence => exact execOccurrence_keepsLaw e
  | commitTimeExpiry k => exact execCommitTimeExpiry_keepsLaw e
  | openingNotice g => exact execOpeningNotice_keepsLaw e
  | pulseEndExpiry l => exact execPulseEndExpiry_keepsLaw e
  | holdoffExpiry g => exact execHoldoffExpiry_keepsLaw e
  | refclkPeriodEnd pins => exact execRefclkPeriodEnd_keepsLaw e
  | portUnitNotAttached p => exact execPortUnitNotAttached_keepsLaw e

/-- Settles O13: every command keeps the law, and the queue of commands holds no line. -/
theorem outputLawKept : Obligations.OutputLawKept := fun _ _ h e =>
  step_of_exec (law := State.OutputLaw) (fun _ _ h e => exec_keepsLaw e h) (fun _ h => h) h e

end Sys2Proof.Machine
end

section
/-! PROOFS. What the output unit's events do, each completed: the two expiries (R94, R98, R99, R101), the drive of each
hand-over (R90, R126, R131, R132), the apply request (R92, R97), and the pins (R88, R191). -/

namespace Sys2Proof.Machine

/-! ### Deactivations and their notices (R98, R101) -/

namespace OutputUnit

section Notices

variable {o : OutputUnit} {now : Time} {l : Line} {g : Group}

/-- A deactivation opens a group with gap 0 and no holdoff, and the notice is sent. -/
theorem deactivate_opens (hg : (o.line l).group = some g) (gap : (o.group g).gap = 0)
    (free : (o.group g).holdoff = none) : (o.deactivate now l).notices = o.notices ++ [g] := by
  simp [deactivate, hg, memberDown_opens, gap, free]

/-- No other deactivation sends one. -/
theorem deactivate_quiet (h : ∀ g, (o.line l).group = some g → (o.group g).gap ≠ 0 ∨ (o.group g).holdoff ≠ none) :
    (o.deactivate now l).notices = o.notices := by
  unfold deactivate
  cases hg : (o.line l).group with
  | none => rfl
  | some g =>
    unfold memberDown
    dsimp only
    split
    · next gap =>
      have stands : (o.group g).holdoff.isNone = false := 
        Option.isNone_eq_false_iff.2 (Option.ne_none_iff_isSome.1 ((h g hg).resolve_left (not_not_intro gap)))
      simp [stands]
    · rfl

end Notices

end OutputUnit

theorem changesOnly_setOutput (s : State) (o : OutputUnit) : ChangesOnly [.output] s (s.setOutput o) :=
  ⟨rfl, fun b hb => by cases b <;> simp_all [Block.same]⟩

theorem changesOnly_output_claims (s : State) (o : OutputUnit) (u : ClaimUnit) :
    ChangesOnly [.output, .claims] s ((s.setOutput o).setClaims u) :=
  ⟨rfl, fun b hb => by cases b <;> simp_all [Block.same]⟩

/-! ### The expiries (R94, R99) -/

section Expiries

variable {s : State}

theorem exec_pulseEndExpiry {l : Line} (live : s.live = true) (ends : (s.output.line l).pulseEnd = some s.now) :
    exec (.pulseEndExpiry l) s = .next (s.setOutput (s.output.deactivate s.now l)) := by
  show execPulseEndExpiry l s = _
  simp [execPulseEndExpiry, whenLive_of_live live, ends]

theorem exec_holdoffExpiry {g : Group} {h : Holdoff} (live : s.live = true)
    (stands : (s.output.group g).holdoff = some h) (ends : h.endsAt = s.now) :
    exec (.holdoffExpiry g) s = .next (s.setOutput ((s.output.setHoldoff g none).sendNotice g)) := by
  show execHoldoffExpiry g s = _
  simp [execHoldoffExpiry, whenLive_of_live live, stands, ends]

/-- Settles O14: a pulse end is the deactivation of its line; a holdoff end is the opening of its group. -/
theorem outputExpiries : Obligations.OutputExpiries := by
  intro s live
  refine ⟨fun l ends => ?_, fun g h stands ends => ?_⟩
  · refine ⟨_, exec_pulseEndExpiry live ends, changesOnly_setOutput s _, s.output.deactivate_line s.now l,
      s.output.deactivate_group s.now l, s.output.deactivate_trip s.now l,
      fun g hg gap free => OutputUnit.deactivate_opens hg gap free,
      fun quiet => OutputUnit.deactivate_quiet fun g hg => ?_⟩
    rcases quiet with alone | ⟨j, hj, gap⟩
    · rw [alone] at hg
      cases hg
    · rw [hj] at hg
      cases hg
      exact .inl gap
  · exact ⟨_, exec_holdoffExpiry live stands ends, changesOnly_setOutput s _, rfl,
      fun j => s.output.setHoldoff_group g j none, rfl, rfl⟩

end Expiries

/-! ### The drives of hand-overs (R90, R126, R131, R132) -/

section Drives

variable {s : State} {p : Port}

theorem exec_driveRelease {j : ReleaseJob} {moved : Option ReleaseJob → ClaimUnit} (live : s.live = true)
    (serves : s.claims.Serves p j moved) (stage : j.stage = .drive) :
    exec (.safeLevelDrive (.release p)) s =
      .next ((driveLine j.line s).setClaims (moved (some { j with stage := .transfer }))) := by
  have served := served_of_serves serves
  rw [stage] at served
  show execSafeLevelDrive (.release p) s = _
  simp only [execSafeLevelDrive, whenLive_of_live live, served, moveRelease_of_serves serves]

theorem exec_driveDeparture {why : Departure} {owes : Option Ticket} {l : Line} {rest : List Line}
    (live : s.live = true)
    (giving : s.claims.departure p why = some { owes := owes, stage := .giving (l :: rest) false }) :
    exec (.safeLevelDrive (.departure p why)) s = .next ((driveLine l s).setClaims
      (s.claims.setDeparture p why (some { owes := owes, stage := .giving (l :: rest) true }))) := by
  show execSafeLevelDrive (.departure p why) s = _
  simp only [execSafeLevelDrive, whenLive_of_live live, giving]

theorem exec_driveHalt (live : s.live = true) (asked : s.claims.halt = .drive) :
    exec (.safeLevelDrive .halt) s = .next ((driveEvery s).setClaims { s.claims with halt := .release }) := by
  show execSafeLevelDrive .halt s = _
  simp [execSafeLevelDrive, whenLive_of_live live, asked]

/-- Settles O15: each hand-over has its drive, of one line or of every line, and moves on. -/
theorem safeLevelDrives : Obligations.SafeLevelDrives := by
  intro s live law
  obtain ⟨lawful, -⟩ := (outputLaw_iff s).1 law
  have one (l : Line) (u : ClaimUnit) : LineDriven s.output ((driveLine l s).setClaims u).output l s.now := by
    rw [setClaims_output, driveLine_output]
    exact OutputUnit.drive_lineDriven _ _ lawful.groupedSafe lawful.gapKept l
  have every (u : ClaimUnit) : Driven s.output ((driveEvery s).setClaims u).output s.now := by
    rw [setClaims_output, driveEvery_output]
    exact OutputUnit.driveAll_driven _ _ lawful.interlocked lawful.groupedSafe lawful.gapKept
  refine ⟨fun p j moved serves stage => ?_, fun p why owes l rest giving => ?_, fun asked => ?_⟩
  · exact ⟨_, exec_driveRelease live serves stage, changesOnly_output_claims s _ _, one j.line _, rfl⟩
  · exact ⟨_, exec_driveDeparture live giving, changesOnly_output_claims s _ _, one l _, rfl⟩
  · exact ⟨_, exec_driveHalt live asked, changesOnly_output_claims s _ _, every _, s.output.driveAll_trip s.now, rfl⟩

end Drives

/-! ### The apply request, row by row (R92) -/

namespace OutputUnit

section Apply

variable {o : OutputUnit} {now : Time} {l m : Line} {a : Action} {w : Option Half}

theorem pulseEndOf_eq (now : Time) (a : Action) (w : Option Half) :
    pulseEndOf now a w = if a = .pulse then w.map (fun n => later now n.toNat) else none := by
  cases a <;> rfl

theorem apply_of_active_stays (active : (o.line l).level = .active) (h : a = .set ∨ a = .pulse) :
    o.apply now l a w = (o.setLine l { o.line l with pulseEnd := pulseEndOf now a w }, .applied) := by
  rcases h with rfl | rfl <;> simp [apply, active, pulseEndOf]

theorem apply_of_active_falls (active : (o.line l).level = .active) (h : a = .clear ∨ a = .toggle) :
    o.apply now l a w = (o.deactivate now l, .applied) := by
  rcases h with rfl | rfl <;> simp [apply, active]

theorem apply_of_inactive_clear (inactive : (o.line l).level = .inactive) :
    o.apply now l .clear w = (o, .applied) := by
  simp [apply, inactive]

theorem apply_of_inactive (inactive : (o.line l).level = .inactive) (h : a ≠ .clear) :
    o.apply now l a w = o.tryActivate now l (pulseEndOf now a w) := by
  cases a with
  | clear => exact absurd rfl h
  | set | toggle | pulse => simp [apply, inactive]

theorem apply_of_allowed (inactive : (o.line l).level = .inactive) (h : a ≠ .clear) (allows : o.groupAllows l = true) :
    o.apply now l a w = (o.activate now l (pulseEndOf now a w), .applied) := by
  rw [apply_of_inactive inactive h, tryActivate, if_pos allows]

theorem apply_of_refused (inactive : (o.line l).level = .inactive) (h : a ≠ .clear)
    (allows : o.groupAllows l = false) : o.apply now l a w = (o, o.turnAway l) := by
  rw [apply_of_inactive inactive h, tryActivate, allows]
  rfl

/-- The rows of the table: what the line's level and the action make of the request. -/
theorem apply_rows (o : OutputUnit) (now : Time) (l : Line) (a : Action) (w : Option Half) :
    (o.apply now l a w).1 = o
      ∨ (∃ pe, (o.apply now l a w).1 = o.setLine l { o.line l with pulseEnd := pe })
      ∨ (o.apply now l a w).1 = o.deactivate now l
      ∨ ∃ pe, (o.apply now l a w).1 = o.activate now l pe := by
  cases level : (o.line l).level with
  | active =>
    cases a with
    | set => exact .inr (.inl ⟨_, by rw [apply_of_active_stays level (.inl rfl)]⟩)
    | pulse => exact .inr (.inl ⟨_, by rw [apply_of_active_stays level (.inr rfl)]⟩)
    | clear => exact .inr (.inr (.inl (by rw [apply_of_active_falls level (.inl rfl)])))
    | toggle => exact .inr (.inr (.inl (by rw [apply_of_active_falls level (.inr rfl)])))
  | inactive =>
    by_cases clears : a = .clear
    · subst clears
      exact .inl (by rw [apply_of_inactive_clear level])
    · cases allows : o.groupAllows l with
      | true => exact .inr (.inr (.inr ⟨_, by rw [apply_of_allowed level clears allows]⟩))
      | false => exact .inl (by rw [apply_of_refused level clears allows])

/-- No request touches another line. -/
theorem apply_line_of_ne (other : m ≠ l) : (o.apply now l a w).1.line m = o.line m := by
  rcases apply_rows o now l a w with e | ⟨pe, e⟩ | e | ⟨pe, e⟩
  · rw [e]
  · rw [e, setLine_line, if_neg other]
  · rw [e, deactivate_line, if_neg other]
  · rw [e, activate_line, if_neg other]

/-- An activation that the group lets pass leaves the group without holdoff: one that stands names the line (R97,
R100). -/
theorem activate_group_of_allowed {pe : Option Time} (allows : o.groupAllows l = true) (g : Group) :
    (o.activate now l pe).group g =
      if (o.line l).group = some g then { o.group g with holdoff := none } else o.group g := by
  rw [activate_group]
  by_cases own : (o.line l).group = some g
  · rw [if_pos own]
    cases stands : (o.group g).holdoff with
    | none => simp [← stands]
    | some h => simp [own, (groupAllows_iff.1 allows g own).2 h stands]
  · rw [if_neg own, if_neg fun both => own both.1]

/-- Only a group refuses or defers, by its policy (R97). -/
theorem turnAway_of_refused (allows : o.groupAllows l = false) : ∃ g, (o.line l).group = some g
    ∧ o.turnAway l = if (o.group g).policy = .refuse then .refused g else .deferred g := by
  cases own : (o.line l).group with
  | none => simp [groupAllows, own] at allows
  | some g =>
    refine ⟨g, rfl, ?_⟩
    cases policy : (o.group g).policy <;> simp [turnAway, own, policy]

end Apply

end OutputUnit

/-- Settles O17: each row is one operation on the line, whose effect on line, group and notices is known. -/
theorem applyRequestTable : Obligations.ApplyRequestTable := by
  intro o o' now l a w x applied pulse allowed
  have ends : pulse = pulseEndOf now a w := (OutputUnit.pulseEndOf_eq now a w).symm
  have passes : o.groupAllows l = true ↔ allowed := OutputUnit.groupAllows_iff
  have unit : o' = (o.apply now l a w).1 := by rw [applied]
  rw [ends]
  refine ⟨fun m other => unit ▸ OutputUnit.apply_line_of_ne other, unit ▸ OutputUnit.apply_trip now o l a w,
    fun active stays => ?_, fun active falls => ?_, fun inactive clears => ?_, fun inactive asks pass => ?_,
    fun inactive asks barred => ?_⟩
  · rw [OutputUnit.apply_of_active_stays active stays] at applied
    cases applied
    exact ⟨rfl, by rw [OutputUnit.setLine_line, if_pos rfl], fun g => rfl, rfl⟩
  · rw [OutputUnit.apply_of_active_falls active falls] at applied
    cases applied
    exact ⟨rfl, by rw [OutputUnit.deactivate_line, if_pos rfl], o.deactivate_group now l,
      fun g own gap free => OutputUnit.deactivate_opens own gap free, OutputUnit.deactivate_quiet⟩
  · subst clears
    rw [OutputUnit.apply_of_inactive_clear inactive] at applied
    cases applied
    exact ⟨rfl, rfl⟩
  · have allows := passes.2 pass
    rw [OutputUnit.apply_of_allowed inactive asks allows] at applied
    cases applied
    exact ⟨rfl, by rw [OutputUnit.activate_line, if_pos rfl], OutputUnit.activate_group_of_allowed allows,
      o.activate_notices now l _⟩
  · have refused : o.groupAllows l = false := by
      rw [← Bool.not_eq_true, passes]
      exact barred
    rw [OutputUnit.apply_of_refused inactive asks refused] at applied
    cases applied
    exact ⟨rfl, OutputUnit.turnAway_of_refused refused⟩

/-! ### The pins (R88, R191) -/

/-- The rows of R88 that drive the pin high. -/
theorem pinLevel_eq_high {x : Level} {y : Polarity} :
    pinLevel x y = .high ↔ (x = .active ∧ y = .activeHigh) ∨ (x = .inactive ∧ y = .activeLow) := by
  cases x <;> cases y <;> simp [pinLevel]

theorem attnPin_eq_low {s : State} {p : Port} :
    s.attnPin p = .low ↔ (s.port p).replies ≠ [] ∨ (s.port p).events ≠ [] := by
  unfold State.attnPin
  split
  · next idle => simpa using idle
  · next busy => simpa [← not_and_or] using busy

/-- Settles O16: the four combinations of R88, and the two queues of R191. -/
theorem pinsFollowState : Obligations.PinsFollowState := fun _ => ⟨fun _ => pinLevel_eq_high, fun _ => attnPin_eq_low⟩

end Sys2Proof.Machine
end

section
/-! PROOFS. The trip: its entry (R108, R110), the two sensed edges of FAULT# and the end of device reset (R107), and the
commands TRIP (R111) and CLEAR_TRIP (R112). -/

namespace Sys2Proof.Machine

/-! ### Trip entry as a whole (R108, R110) -/

section Entry

variable (cause : TripCause) (s : State)

theorem changesOnly_tripEntry : ChangesOnly [.output, .ports] s (tripEntry cause s) :=
  ⟨by simp, fun b hb => by cases b <;> simp_all [Block.same]⟩

/-- The drive of an entry is that of the lines as they stood: the trip record alone is written before it. -/
theorem tripEntry_entered {s : State} (law : s.OutputLaw) :
    TripEntered s.output (tripEntry cause s).output cause s.now := by
  obtain ⟨lawful, -⟩ := (outputLaw_iff s).1 law
  have driven := OutputUnit.driveAll_driven { s.output with trip := .tripped cause s.now } s.now
    lawful.interlocked lawful.groupedSafe lawful.gapKept
  rw [tripEntry_output]
  exact ⟨OutputUnit.driveAll_trip _ _, driven.lines, driven.still, driven.guarded, driven.opened, driven.notices⟩

theorem portsReceive_tripEntry : PortsReceive s (tripEntry cause s) (trippedRecord cause s.now) :=
  tripEntry_port cause s

theorem changesOnly_setInputs (i : Inputs) : ChangesOnly [.inputs] s (s.setInputs i) :=
  ⟨rfl, fun b hb => by cases b <;> simp_all [Block.same]⟩

/-- An entry with cause INPUT, whole: the event that takes the low FAULT# has renewed the inputs before it (R107). -/
theorem tripEntry_of_fault {s : State} (law : s.OutputLaw) (i : Inputs) :
    ChangesOnly [.inputs, .output, .ports] s (tripEntry .input (s.setInputs i))
      ∧ (tripEntry .input (s.setInputs i)).inputs = i
      ∧ TripEntered s.output (tripEntry .input (s.setInputs i)).output .input s.now
      ∧ PortsReceive s (tripEntry .input (s.setInputs i))
          { kind := .tripped, aux := 4, ref := 0, value := 0, time := s.now } := by
  have renewed := changesOnly_of_subset (cs := [.inputs, .output, .ports]) (changesOnly_setInputs s i) (by simp)
  have entered := changesOnly_of_subset (cs := [.inputs, .output, .ports])
    (changesOnly_tripEntry .input (s.setInputs i)) (by simp)
  have trips := tripEntry_entered .input (setInputs_keepsLaw s i law)
  have posts := portsReceive_tripEntry .input (s.setInputs i)
  exact ⟨changesOnly_trans renewed entered, tripEntry_inputs .input _, trips, posts⟩

end Entry

/-! ### The end of device reset (R107) -/

section ResetEnd

variable {s : State}

theorem exec_resetEnd_of_high (held : s.inputs.resetHeld = true) (rises : s.inputs.resetPin.sensed = .high)
    (fault : s.inputs.faultPin.sensed = .high) :
    exec .resetEnd s = .next (s.setInputs { s.inputs with resetHeld := false }) := by
  show execResetEnd s = _
  simp [execResetEnd, State.resetRises, held, rises, fault]

theorem exec_resetEnd_of_low (held : s.inputs.resetHeld = true) (rises : s.inputs.resetPin.sensed = .high)
    (fault : s.inputs.faultPin.sensed = .low) :
    exec .resetEnd s = .next (tripEntry .input (s.setInputs { s.inputs with resetHeld := false })) := by
  show execResetEnd s = _
  simp [execResetEnd, State.resetRises, held, rises, fault]

/-- Settles O5: the level of FAULT# decides whether the part goes live alone or with a trip entry. -/
theorem resetEndReleasesThePart : Obligations.ResetEndReleasesThePart := by
  intro s held rises law
  cases fault : s.inputs.faultPin.sensed with
  | high =>
    exact ⟨_, exec_resetEnd_of_high held rises fault, changesOnly_of_subset (changesOnly_setInputs s _) (by simp), rfl,
      fun _ => ⟨rfl, rfl⟩, fun low => by cases low⟩
  | low =>
    obtain ⟨only, inputs, trips, posts⟩ := tripEntry_of_fault law { s.inputs with resetHeld := false }
    exact ⟨_, exec_resetEnd_of_low held rises fault, only, inputs, fun high => (by cases high),
      fun _ => ⟨trips, posts⟩⟩

end ResetEnd

/-! ### The sensed edges of FAULT# (R107) -/

section FaultEdges

variable {s : State} {rest : List PinLevel}

theorem takeFaultEdge_of_cons {e : PinLevel} (edges : s.inputs.faultEdges = e :: rest) :
    takeFaultEdge s = s.setInputs { s.inputs with faultEdges := rest } := by
  simp [takeFaultEdge, edges]

theorem exec_faultLow_of_normal (live : s.live = true) (edges : s.inputs.faultEdges = .low :: rest)
    (normal : s.output.trip = .normal) :
    exec .faultLow s = .next (tripEntry .input (s.setInputs { s.inputs with faultEdges := rest })) := by
  show execFaultLow s = _
  simp [execFaultLow, whenLive_of_live live, ← takeFaultEdge_of_cons edges, edges, normal]

theorem exec_faultLow_of_tripped (live : s.live = true) (edges : s.inputs.faultEdges = .low :: rest)
    (stands : s.output.trip ≠ .normal) :
    exec .faultLow s = .next (s.setInputs { s.inputs with faultEdges := rest }) := by
  show execFaultLow s = _
  cases trip : s.output.trip with
  | normal => exact absurd trip stands
  | tripped => simp [execFaultLow, whenLive_of_live live, ← takeFaultEdge_of_cons edges, edges, trip]

theorem exec_faultHigh (live : s.live = true) (edges : s.inputs.faultEdges = .high :: rest) :
    exec .faultHigh s = .next (s.setInputs { s.inputs with faultEdges := rest }) := by
  show execFaultHigh s = _
  simp [execFaultHigh, whenLive_of_live live, ← takeFaultEdge_of_cons edges, edges]

/-- Settles O10: a fall enters TRIPPED from NORMAL alone; every other edge is only taken. -/
theorem faultEdgesAtTheTrip : Obligations.FaultEdgesAtTheTrip := by
  intro s rest live
  refine ⟨fun edges normal law => ?_, exec_faultLow_of_tripped live, exec_faultHigh live⟩
  exact ⟨_, exec_faultLow_of_normal live edges normal, tripEntry_of_fault law _⟩

end FaultEdges

/-! ### An effect between the taking of a command and its answer -/

section Completion

variable {s t : State} {p : Port} {r : Request} {status : Status} {body : List Byte}

/-- Beside the blocks of the effect, the arbiter and the ports change. -/
theorem changesOnly_answered {bs : List Block} (effect : ChangesOnly bs (takeHead p s) t)
    (sub : bs ⊆ [.output, .arbiter, .ports]) :
    ChangesOnly [.output, .arbiter, .ports] s (answer (s.ticket p r) status body t) := by
  have taken : ChangesOnly [.arbiter, .ports] s (takeHead p s) :=
    ⟨rfl, fun b hb => by cases b <;> simp_all [Block.same]⟩
  have answered : ChangesOnly [.ports] t (answer (s.ticket p r) status body t) :=
    ⟨rfl, fun b hb => by cases b <;> simp_all [Block.same]⟩
  exact changesOnly_trans (changesOnly_of_subset taken (by simp))
    (changesOnly_trans (changesOnly_of_subset effect sub) (changesOnly_of_subset answered (by simp)))

/-- Every port receives what the effect posts; the port of the command has its reply produced as well. -/
theorem portsAnswerAndReceive_answered {e : EventRecord} (effect : PortsReceive (takeHead p s) t e) :
    PortsAnswerAndReceive s (answer (s.ticket p r) status body t) p r status body e := by
  intro q
  rw [answer_port, effect q, takeHead_port]
  by_cases own : q = p <;> simp [own]

end Completion

/-! ### TRIP (R111) -/

section TripCommand

variable {s : State} {p : Port} {r : Request}

theorem exec_trip_of_normal (h : s.Takes p .trip r) (normal : s.output.trip = .normal) :
    exec (.trip p) s = .next (answer (s.ticket p r) .ok (tripBody (.port p) s.now)
      (tripEntry (.port p) (takeHead p s))) := by
  show execTrip p s = _
  simp [execTrip, takeDirect_of_takes h, normal]

theorem exec_trip_of_tripped {cause : TripCause} {entry : Time} (h : s.Takes p .trip r)
    (stands : s.output.trip = .tripped cause entry) :
    exec (.trip p) s = .next (answer (s.ticket p r) .ok (tripBody cause entry) (takeHead p s)) := by
  show execTrip p s = _
  simp [execTrip, takeDirect_of_takes h, stands]

/-- Settles O11: an entry between the taking and the answer while NORMAL, and the answer alone while TRIPPED. -/
theorem tripCommand : Obligations.TripCommand := by
  intro p r s takes
  refine ⟨fun normal law => ?_, fun cause entry stands => ?_⟩
  · have lawTaken : (takeHead p s).OutputLaw := KeepsLaw.of_same rfl rfl law
    have trips := tripEntry_entered (.port p) lawTaken
    have posts := portsReceive_tripEntry (.port p) (takeHead p s)
    refine ⟨_, exec_trip_of_normal takes normal, changesOnly_answered (changesOnly_tripEntry _ _) (by simp), ?_, ?_,
      portsAnswerAndReceive_answered posts⟩
    · rw [answer_output]
      exact trips
    · rw [answer_arbiter, tripEntry_arbiter, takeHead_arbiter]
  · exact ⟨_, exec_trip_of_tripped takes stands, answeredOnly_takeHead s p r _ _⟩

end TripCommand

/-! ### CLEAR_TRIP (R112) -/

section ClearTripCommand

variable {s : State} {p : Port} {r : Request}

theorem exec_clearTrip_of_low (h : s.Takes p .clearTrip r) (fault : s.inputs.faultPin.sensed = .low) :
    exec (.clearTrip p) s = .next (answer (s.ticket p r) .stillFaulted [] (takeHead p s)) := by
  show execClearTrip p s = _
  simp [execClearTrip, takeDirect_of_takes h, fault]

theorem exec_clearTrip_of_normal (h : s.Takes p .clearTrip r) (fault : s.inputs.faultPin.sensed = .high)
    (normal : s.output.trip = .normal) :
    exec (.clearTrip p) s = .next (answer (s.ticket p r) .ok (1 :: 0xFF :: timeBytes 0) (takeHead p s)) := by
  show execClearTrip p s = _
  simp [execClearTrip, takeDirect_of_takes h, fault, normal, flagByte, Config.absentCode]

theorem exec_clearTrip_of_tripped {cause : TripCause} {entry : Time} (h : s.Takes p .clearTrip r)
    (fault : s.inputs.faultPin.sensed = .high) (stands : s.output.trip = .tripped cause entry) :
    exec (.clearTrip p) s = .next (answer (s.ticket p r) .ok (0 :: tripBody cause entry)
      (postAll (tripClearedRecord p s.now) ((takeHead p s).setOutput { s.output with trip := .normal }))) := by
  show execClearTrip p s = _
  simp [execClearTrip, takeDirect_of_takes h, fault, stands, flagByte]

/-- A new output unit and a record posted to every ATTACHED port. -/
theorem changesOnly_postAll_setOutput (s : State) (o : OutputUnit) (e : EventRecord) :
    ChangesOnly [.output, .ports] s (postAll e (s.setOutput o)) :=
  ⟨by simp, fun b hb => by cases b <;> simp_all [Block.same]⟩

/-- Settles O12: only with FAULT# high and a trip standing does anything change between the taking and the answer. -/
theorem clearTripCommand : Obligations.ClearTripCommand := by
  intro p r s takes
  refine ⟨fun low => ?_, fun high normal => ?_, fun cause entry high stands => ?_⟩
  · exact ⟨_, exec_clearTrip_of_low takes low, answeredOnly_takeHead s p r _ _⟩
  · exact ⟨_, exec_clearTrip_of_normal takes high normal, answeredOnly_takeHead s p r _ _⟩
  · exact ⟨_, exec_clearTrip_of_tripped takes high stands,
      changesOnly_answered (changesOnly_postAll_setOutput _ _ _) (by simp), by simp, by simp,
      portsAnswerAndReceive_answered fun q => postAll_port _ _ q⟩

end ClearTripCommand

end Sys2Proof.Machine
end

section
/-! PROOFS. The claim records at every command: most leave them as they are (R118). -/

namespace Sys2Proof

/-- The commands that may change a claim record. -/
def Instr.changesRecords : Instr → Bool
  | .deviceReset _ | .claim _ | .releaseAtClaimUnit _ | .claimTransfer _ | .portReleaseStart _ _ | .haltRelease => true
  | _ => false

end Sys2Proof

namespace Sys2Proof.Machine

/-! ### The claim unit's own operations -/

section Unit

variable (u : ClaimUnit) (p : Port) (why : Departure)

@[simp] theorem setRecord_records (l : Line) (r : ClaimRecord) :
    (u.setRecord l r).records = put u.records l r := rfl

/-- A port that leaves every waiter list leaves each holder and the order of the others (R130). -/
@[simp] theorem forgetWaiter_record (l : Line) : (u.forgetWaiter p).record l =
    { u.record l with waiters := (u.record l).waiters.filter (fun q => q != p) } := look_changeAll _ _ l

@[simp] theorem setDeparture_records (d : Option PortRelease) : (u.setDeparture p why d).records = u.records := by
  cases why <;> rfl

@[simp] theorem notified_records (owes : Option Ticket) : (u.notified p why owes).records = u.records := by
  cases why <;> rfl

/-- Where a RELEASE has come to stands beside the claim records. -/
@[simp] theorem records_moveRelease (j : ReleaseJob) (next : Option ReleaseJob) :
    (u.moveRelease p j next).records = u.records := by
  show (({ u with records := u.records } : ClaimUnit).moveRelease p j next).records = u.records
  rw [moveRelease_records]

@[simp] theorem proceed_records (owes : Option Ticket) (lines : List Line) :
    (u.proceed p why owes lines).records = u.records := by
  cases lines with
  | nil => rw [ClaimUnit.proceed, complete_notified, notified_records]
  | cons l rest => exact setDeparture_records u p why _

end Unit

/-! ### Operations that leave the claim unit -/

section Left

variable (s : State) (p : Port)

@[simp] theorem loadLease_claims : (loadLease p s).claims = s.claims := rfl
@[simp] theorem clearCleanup_claims : (clearCleanup p s).claims = s.claims := rfl
@[simp] theorem takeSelEdge_claims : (takeSelEdge p s).claims = s.claims := rfl
@[simp] theorem takeFaultEdge_claims : (takeFaultEdge s).claims = s.claims := rfl
@[simp] theorem setDrop_claims (d : DropReason) : (setDrop p d s).claims = s.claims := rfl
@[simp] theorem withdraw_claims : (withdraw p s).claims = s.claims := rfl

@[simp] theorem phaseCheck_claims : (phaseCheck s).claims = s.claims := (phaseCheck_changes s).2 .claims (by decide)

@[simp] theorem emptyRunCheck_claims : (emptyRunCheck s).claims = s.claims := by
  rcases emptyRunCheck_cases s with e | e <;> simp [e]

@[simp] theorem lapsePort_claims : (lapsePort p s).claims = s.claims := by simp [lapsePort]

@[simp] theorem departureCheck_claims (t : Ticket) : (departureCheck t s).claims = s.claims := by
  unfold departureCheck
  split
  · simp
  · split
    · simp
    · split <;> simp

@[simp] theorem completeDetach_claims (t : Ticket) : (completeDetach t s).claims = s.claims := by
  unfold completeDetach
  dsimp only
  split
  · simp
  · split <;> simp

@[simp] theorem completeCleanup_claims : (completeCleanup p s).claims = s.claims := by
  unfold completeCleanup
  split
  · simp
  · split
    · simp
    · split <;> simp

@[simp] theorem resumeWaiter_claims (w : Option HaltWaiter) : (resumeWaiter w s).claims = s.claims := by
  unfold resumeWaiter
  split <;> simp

@[simp] theorem reloadLease_claims : (reloadLease p s).claims = s.claims := by unfold reloadLease; split <;> simp

@[simp] theorem duplicate_claims (a : LastAccepted) : (duplicate p a s).claims = s.claims := by
  unfold duplicate withdrawIfFull
  split
  · simp
  · split
    · split <;> simp
    · simp

@[simp] theorem queueRequest_claims (r : Received) : (queueRequest p r s).claims = s.claims := by
  unfold queueRequest
  split <;> simp

@[simp] theorem takeBytes_claims (bytes : List Byte) : (takeBytes p bytes s).claims = s.claims := by
  unfold takeBytes acceptRequest
  split
  · rfl
  · split
    · simp
    · dsimp only
      split
      · simp
      · split <;> simp

variable {s} {t : State}

/-- An operation on the cue table beside which only records are posted. -/
theorem TableStep.claims (h : TableStep s t) : t.claims = s.claims := h.only.2 .claims (by decide)

theorem AnswersMoving.claims {c : Ticket} (h : AnswersMoving c s t) : t.claims = s.claims := by
  obtain ⟨st, b, ct, -, rfl⟩ := h
  rfl

@[simp] theorem addCue_claims (c : Ticket) (b : List Byte) : (addCue c b s).claims = s.claims := by
  rcases addCue_cases c b s with ⟨st, e⟩ | ⟨q, i, body, -, -, -, -, e⟩ <;> rw [e] <;> rfl

/-- What the output unit answers to an occurrence changes table and ports. -/
@[simp] theorem takeAnswer_claims (i : SlotId) (c : Cue) (a : ApplyAnswer) :
    (takeAnswer i c a s).claims = s.claims := by
  cases a with
  | applied =>
    unfold takeAnswer
    dsimp only
    split
    · exact (continueCue_tableStep i _ _).claims.trans (post_claims _ _ s)
    · exact (continueCue_tableStep i _ s).claims
  | refused g => exact (continueCue_tableStep i _ _).claims.trans (post_claims _ _ s)
  | deferred g => rfl

@[simp] theorem occur_claims (i : SlotId) (c : Cue) : (occur i c s).claims = s.claims := by
  unfold occur
  split
  · rfl
  · split
    · exact ((postMissed_tableStep i c s).trans (continueCue_tableStep i _ _)).claims
    · exact takeAnswer_claims i c _

end Left

/-! ### The guards of events -/

section Guards

variable {s t : State} {p : Port} {k : CommandKind}

theorem records_of_whenLive {event : State → State} (e : whenLive s event = .next t)
    (h : (event s).claims.records = s.claims.records) : t.claims.records = s.claims.records :=
  of_whenLive (P := fun u => u.claims.records = s.claims.records) e rfl h

theorem records_of_takeDirect {effect : Ticket → List Byte → State → State} (e : takeDirect k p s effect = .next t)
    (h : ∀ c b u, (effect c b u).claims.records = u.claims.records) : t.claims.records = s.claims.records :=
  of_takeDirect (P := fun u => u.claims.records = s.claims.records) e rfl fun _ _ => h _ _ _

theorem records_of_takeGranted {effect : Ticket → List Byte → State → State} {c : ListClass}
    (e : takeGranted k p s effect = .next t) (hc : listClass k = some c)
    (h : ∀ c b u, (effect c b u).claims.records = u.claims.records) : t.claims.records = s.claims.records :=
  of_takeGranted (P := fun u => u.claims.records = s.claims.records) e hc rfl fun _ _ => h _ _ _

/-- A granted command that is answered and beside that changes the table alone. -/
theorem records_of_answers {effect : Ticket → List Byte → State → State} {c : ListClass}
    (e : takeGranted k p s effect = .next t) (hc : listClass k = some c)
    (h : ∀ c b u, AnswersMoving c u (effect c b u)) : t.claims.records = s.claims.records :=
  records_of_takeGranted e hc fun c b u => congrArg ClaimUnit.records (h c b u).claims

end Guards

/-! ### Every command -/

section Commands

variable {s t : State}

/-- A RELEASE that passes the cue table begins its work at the claim unit, and no claim changes yet. -/
theorem releaseLine_records (c : Ticket) (b : List Byte) (s : State) :
    (releaseLine c b s).claims.records = s.claims.records := by
  unfold releaseLine
  split
  · rfl
  · split
    · rfl
    · split <;> rfl

/-- Every other command leaves the claim records as they are. -/
theorem exec_records {c : Instr} (hc : c.changesRecords = false) (e : exec c s = .next t) :
    t.claims.records = s.claims.records := by
  cases c with
  | deviceReset | claim | releaseAtClaimUnit | claimTransfer | portReleaseStart | haltRelease => cases hc
  | resetEnd =>
    obtain rfl := Host.Outcome.next.inj e
    split
    · dsimp only
      split <;> simp
    · rfl
  | refclkPeriodEnd pins => rcases execRefclkPeriodEnd_cases e with ⟨_, rfl⟩ | rfl <;> rfl
  | tbStep => rcases execTbStep_cases e with ⟨_, rfl⟩ | rfl <;> rfl
  | faultLow =>
    refine records_of_whenLive (show execFaultLow s = .next t from e) ?_
    split
    · split <;> simp
    · rfl
  | faultHigh => refine records_of_whenLive (show execFaultHigh s = .next t from e) ?_; split <;> simp
  | frameStart p => refine records_of_whenLive (show execFrameStart p s = .next t from e) ?_; split <;> simp
  | frameEnd p sdi =>
    refine records_of_whenLive (show execFrameEnd p sdi s = .next t from e) ?_
    split
    · split <;> simp [endFrame]
    · rfl
  | presentRequest p => refine records_of_whenLive (show execPresentRequest p s = .next t from e) ?_; split <;> simp
  | replyArrival p =>
    refine records_of_whenLive (show execReplyArrival p s = .next t from e) ?_
    split
    · rfl
    · split
      · simp
      · split <;> simp
  | eventPosted p => refine records_of_whenLive (show execEventPosted p s = .next t from e) ?_; split <;> simp
  | badKind p =>
    refine records_of_whenLive (show execBadKind p s = .next t from e) ?_
    split
    · split <;> simp
    · rfl
  | portUnitNotAttached p =>
    refine records_of_whenLive (show execPortUnitNotAttached p s = .next t from e) ?_
    split
    · split <;> simp
    · rfl
  | readTime p => exact records_of_takeDirect (show execReadTime p s = .next t from e) fun c b u => rfl
  | readEvents p =>
    refine records_of_takeDirect (show execReadEvents p s = .next t from e) fun c b u => ?_
    unfold readEvents
    split <;> rfl
  | ackEvents p =>
    refine records_of_takeDirect (show execAckEvents p s = .next t from e) fun c b u => ?_
    unfold ackEvents
    split <;> rfl
  | attach p =>
    refine records_of_takeDirect (show execAttach p s = .next t from e) fun c b u => ?_
    unfold attach
    split <;> rfl
  | writeConfig p =>
    refine records_of_takeDirect (show execWriteConfig p s = .next t from e) fun c b u => ?_
    unfold writeConfig
    iterate 3
      split
      · rfl
    split
    · rfl
    · rfl
    · split <;> rfl
  | readConfig p =>
    refine records_of_takeDirect (show execReadConfig p s = .next t from e) fun c b u => ?_
    unfold readConfig
    split
    · rfl
    · split <;> rfl
  | confirm p =>
    refine records_of_takeDirect (show execConfirm p s = .next t from e) fun c b u => ?_
    unfold confirm
    iterate 5
      split
      · rfl
    simp
  | haltVote p =>
    refine records_of_takeDirect (show execHaltVote p s = .next t from e) fun c b u => ?_
    unfold haltVote
    split
    · rfl
    · dsimp only
      split <;> simp
  | queryLine p =>
    refine records_of_takeDirect (show execQueryLine p s = .next t from e) fun c b u => ?_
    unfold queryLine
    split
    · rfl
    · split <;> rfl
  | trip p => refine records_of_takeDirect (show execTrip p s = .next t from e) fun c b u => ?_; split <;> simp
  | clearTrip p =>
    refine records_of_takeDirect (show execClearTrip p s = .next t from e) fun c b u => ?_
    split
    · rfl
    · split <;> simp
  | addCue p => exact records_of_takeGranted (show execAddCue p s = .next t from e) rfl fun c b u => by simp
  | cancelCue p => exact records_of_answers e rfl cancelCue_answers
  | queryCue p => exact records_of_answers e rfl queryCue_answers
  | stage p => exact records_of_answers e rfl stageCue_answers
  | unstage p => exact records_of_answers e rfl unstageCue_answers
  | openSet p => exact records_of_answers e rfl openSet_answers
  | commitSet p => exact records_of_answers e rfl commitSet_answers
  | abandonSet p => exact records_of_answers e rfl abandonSet_answers
  | release p => exact records_of_takeGranted (show execRelease p s = .next t from e) rfl releaseLine_records
  | detach p => exact records_of_takeGranted (show execDetach p s = .next t from e) rfl fun c b u => rfl
  | lapsePurge p => refine records_of_whenLive (show execLapsePurge p s = .next t from e) ?_; split <;> rfl
  | haltPurge => refine records_of_whenLive (show execHaltPurge s = .next t from e) ?_; split <;> rfl
  | safeLevelDrive h =>
    refine records_of_whenLive (show execSafeLevelDrive h s = .next t from e) ?_
    cases h <;> dsimp only <;> split <;> simp
  | detachCompletion p =>
    refine records_of_whenLive (show execDetachCompletion p s = .next t from e) ?_
    split <;> simp
  | haltCompletion => refine records_of_whenLive (show execHaltCompletion s = .next t from e) ?_; split <;> simp
  | lapse p => refine records_of_whenLive (show execLapse p s = .next t from e) ?_; split <;> simp
  | lapseCleanupCompletion p =>
    refine records_of_whenLive (show execLapseCleanupCompletion p s = .next t from e) ?_
    split <;> simp
  | occurrence => refine records_of_whenLive (show execOccurrence s = .next t from e) ?_; split <;> simp
  | commitTimeExpiry k =>
    refine records_of_whenLive (show execCommitTimeExpiry k s = .next t from e) ?_
    split
    · split
      · rfl
      · split
        · exact congrArg ClaimUnit.records (applySet_tableStep k _ _ s).claims
        · rfl
    · rfl
    · rfl
  | openingNotice g => refine records_of_whenLive (show execOpeningNotice g s = .next t from e) ?_; split <;> rfl
  | pulseEndExpiry l => refine records_of_whenLive (show execPulseEndExpiry l s = .next t from e) ?_; split <;> rfl
  | holdoffExpiry g =>
    refine records_of_whenLive (show execHoldoffExpiry g s = .next t from e) ?_
    split
    · split <;> rfl
    · rfl

end Commands

end Sys2Proof.Machine
end

section
/-! PROOFS. The law of claims at every step (R119): each holder, waiter list and transfer of the claim unit. -/

namespace Sys2Proof.Machine

/-! ### One record -/

namespace ClaimRecord.Lawful

variable {r : ClaimRecord} {p : Port}

/-- A free line with an empty waiter list. -/
theorem free : ({ held := none, waiters := [] } : ClaimRecord).Lawful :=
  ⟨List.nodup_nil, Nat.zero_le 3, fun _ _ => List.not_mem_nil, fun _ => rfl⟩

/-- A port takes a free line, for which nobody waits (R121). -/
theorem taken (law : r.Lawful) (isFree : r.held = none) (at' : Time) :
    ({ r with held := some { holder := p, claimedAt := at' } } : ClaimRecord).Lawful := by
  obtain ⟨-, -, -, nobody⟩ := law
  rw [nobody isFree]
  exact ⟨List.nodup_nil, Nat.zero_le 3, fun _ _ => List.not_mem_nil, fun none => nomatch none⟩

/-- The ports that wait leave room for one more beside the holder: with it and the new waiter they are at most four. -/
theorem room {h : Holding} {waiters : List Port} (once : waiters.Nodup) (holder : h.holder ∉ waiters)
    (other : h.holder ≠ p) (new : p ∉ waiters) : (waiters ++ [p]).length ≤ 3 := by
  have all : (h.holder :: p :: waiters).Nodup := by
    simp [once, holder, other, new]
  have four := all.length_le_card
  simp only [List.length_cons, Fintype.card_fin, List.length_append, List.length_nil] at four ⊢
  omega

/-- A port that neither holds the line nor waits for it joins the end of the waiter list (R122). -/
theorem joined (law : r.Lawful) {h : Holding} (held : r.held = some h) (other : h.holder ≠ p)
    (new : p ∉ r.waiters) :
    ({ r with waiters := r.waiters ++ [p] } : ClaimRecord).Lawful := by
  obtain ⟨once, -, holder, -⟩ := law
  refine ⟨?_, room once (holder h held) other new, fun h' held' => ?_, fun none => ?_⟩
  · exact once.append (List.nodup_singleton p) (List.disjoint_singleton.2 new)
  · cases held.symm.trans held'
    simp [holder h held, other]
  · cases held.symm.trans none

/-- Waiters leave the list, and the others keep their order (R128, R130). -/
theorem left (law : r.Lawful) (stays : Port → Bool) :
    ({ r with waiters := r.waiters.filter stays } : ClaimRecord).Lawful := by
  obtain ⟨once, few, holder, nobody⟩ := law
  exact ⟨once.filter stays, (List.length_filter_le _ _).trans few,
    fun h held mem => holder h held (List.mem_filter.1 mem).1, fun none => by simp [nobody none]⟩

end ClaimRecord.Lawful

/-! ### The claim unit -/

section Unit

variable {s t : State} {p : Port}

theorem claimLaw_of_records (law : s.ClaimLaw) (same : t.claims.records = s.claims.records) : t.ClaimLaw := fun l => by
  unfold ClaimUnit.record
  rw [same]
  exact law l

/-- One line's record has been replaced by a lawful one. -/
theorem claimLaw_of_put (law : s.ClaimLaw) (l : Line) {r : ClaimRecord} (lawful : r.Lawful)
    (changed : t.claims.records = put s.claims.records l r) : t.ClaimLaw := fun m => by
  unfold ClaimUnit.record
  rw [changed, look_put]
  split
  · exact lawful
  · exact law m

theorem claimLaw_reset (cause : ResetCause) (s : State) : (s.enterReset cause).ClaimLaw := fun l => by
  have record : (s.enterReset cause).claims.record l = { held := none, waiters := [] } := look_replicate _ l
  rw [record]
  exact .free

/-- After a transfer the first waiter holds the line and waits no more, or the line is free (R126, R131). -/
theorem recordAfter_lawful (law : s.ClaimLaw) (p : Port) (l : Line) : (s.recordAfter p l).Lawful := by
  obtain ⟨once, few, -, -⟩ := law l
  unfold State.recordAfter
  split
  · split
    · next q rest _ waiters =>
      rw [waiters] at once few
      obtain ⟨out, once⟩ := List.nodup_cons.1 once
      exact ⟨once, Nat.le_of_succ_le few, fun h held => by cases held; exact out, fun none => nomatch none⟩
    · exact .free
  · exact law l

theorem transferLine_claimLaw (law : s.ClaimLaw) (p : Port) (l : Line) : (transferLine p l s).ClaimLaw :=
  claimLaw_of_put law l (recordAfter_lawful law p l) (by rw [transferLine_claims])

theorem claimLine_claimLaw (law : s.ClaimLaw) (c : Ticket) (l : Line) (wait : Bool) :
    (claimLine c l wait s).ClaimLaw := by
  unfold claimLine
  dsimp only
  split
  · next free =>
    exact claimLaw_of_put law l ((law l).taken free s.now) rfl
  · next h held =>
    split
    · exact law
    · next other =>
      split
      · exact law
      · split
        · exact law
        · next new => exact claimLaw_of_put law l ((law l).joined held other new) rfl

theorem claim_claimLaw (law : s.ClaimLaw) (c : Ticket) (b : List Byte) : (claim c b s).ClaimLaw := by
  unfold claim
  iterate 2
    split
    · exact law
  split
  · exact claimLine_claimLaw law c _ _
  · exact law

theorem decideRelease_claimLaw (law : s.ClaimLaw) (j : ReleaseJob) : (decideRelease p j s).ClaimLaw := by
  unfold decideRelease
  dsimp only
  split
  · exact claimLaw_of_records law (by simp)
  · split
    · exact claimLaw_of_put law j.line ((law j.line).left (fun q => q != p)) (by simp)
    · exact claimLaw_of_records law (by simp)

theorem finishRelease_claimLaw (law : s.ClaimLaw) (j : ReleaseJob) : (finishRelease p j s).ClaimLaw := by
  have given : (if s.mayTransfer p j then transferLine p j.line s else s).ClaimLaw := by
    split
    · exact transferLine_claimLaw law p j.line
    · exact law
  exact claimLaw_of_records given (by simp [finishRelease])

end Unit

/-! ### Every command -/

section Commands

variable {s t : State}

theorem execClaimTransfer_claimLaw {h : Handover} (law : s.ClaimLaw) (e : execClaimTransfer h s = .next t) :
    t.ClaimLaw := by
  refine of_whenLive (P := State.ClaimLaw) e law ?_
  cases h with
  | release p =>
    dsimp only
    split
    · exact finishRelease_claimLaw law _
    · exact law
  | departure p why =>
    dsimp only
    split
    · next l _ _ => exact claimLaw_of_records (transferLine_claimLaw law p l) (by simp)
    · exact law
  | halt => exact law

theorem execPortReleaseStart_claimLaw {p : Port} {why : Departure} (law : s.ClaimLaw)
    (e : execPortReleaseStart p why s = .next t) : t.ClaimLaw := by
  refine of_whenLive (P := State.ClaimLaw) e law ?_
  split
  · split
    · have forgotten : (s.setClaims (s.claims.forgetWaiter p)).ClaimLaw := fun l => by
        rw [setClaims_claims, forgetWaiter_record]
        exact (law l).left _
      exact claimLaw_of_records forgotten (by simp)
    · exact law
  · exact law

theorem execHaltRelease_claimLaw (law : s.ClaimLaw) (e : execHaltRelease s = .next t) : t.ClaimLaw := by
  refine of_whenLive (P := State.ClaimLaw) e law ?_
  split
  · intro l
    have record : (look (changeAll s.claims.records fun _ => { held := none, waiters := [] }) l).Lawful := by
      rw [look_changeAll]
      exact .free
    exact record
  · exact law

/-- Every command keeps the law of claims: most leave the claim records alone. -/
theorem exec_claimLaw {c : Instr} (law : s.ClaimLaw) (e : exec c s = .next t) : t.ClaimLaw := by
  cases hc : c.changesRecords with
  | false => exact claimLaw_of_records law (exec_records hc e)
  | true =>
    cases c with
    | deviceReset cause =>
      rcases execDeviceReset_cases e with rfl | rfl
      · exact claimLaw_reset cause s
      · exact law
    | claim p =>
      exact of_takeDirect (show execClaim p s = .next t from e) law fun r _ =>
        claim_claimLaw (s := takeHead p s) law _ _
    | releaseAtClaimUnit p =>
      refine of_whenLive (P := State.ClaimLaw) (show execReleaseAtClaimUnit p s = .next t from e) law ?_
      split
      · exact decideRelease_claimLaw law _
      · exact law
    | claimTransfer h => exact execClaimTransfer_claimLaw law e
    | portReleaseStart p why => exact execPortReleaseStart_claimLaw law e
    | haltRelease => exact execHaltRelease_claimLaw law e
    | _ => cases hc

/-- Settles O43: a waiter joins once beside the holder, waiters leave, or the first of them becomes the holder. -/
theorem claimLawKept : Obligations.ClaimLawKept := fun _ _ law e =>
  step_of_exec (law := State.ClaimLaw) (fun _ _ law e => exec_claimLaw law e) (fun _ law => law) law e

end Commands

end Sys2Proof.Machine
end

section
/-! PROOFS. The commands of a line's claim, each completed: RELEASE at the cue table unit (R39, R125, R126), CLAIM
(R120 to R122) and QUERY_LINE (R134, R197). -/

namespace Sys2Proof.Machine

/-- The byte that codes a line names it (R193). -/
theorem indexOf_of_lineCode {x : Byte} {l : Line} (code : x = lineCode l) : indexOf 16 x = some l := by
  rw [code, indexOf_eq_some, lineCode, BitVec.toNat_ofNat]
  exact Nat.mod_eq_of_lt (l.isLt.trans (by decide))

/-! ### RELEASE at the cue table unit (R125, R126) -/

section Release

variable {s : State} {p : Port} {r : Request} {t : Ticket} {b : List Byte} {l : Line}

theorem releaseLine_of_listCheck {st : Status} (u : State) (h : listCheck u t.port .release b = some st) :
    releaseLine t b u = answer t st [] u := by
  simp [releaseLine, h]

theorem releaseLine_of_noLine (passes : listCheck s t.port .release b = none) (out : 16 ≤ (byteAt b 0).toNat) :
    releaseLine t b s = answer t .badField [] s := by
  simp [releaseLine, passes, indexOf_eq_none.2 out]

theorem releaseLine_of_holder (passes : listCheck s t.port .release b = none) (line : indexOf 16 (byteAt b 0) = some l)
    (holds : s.claims.holder l = some t.port) :
    releaseLine t b s = (s.setCueTable (s.cueTable.linePurge t.port l)).setClaims
      (s.claims.setRelease t.port (some { ticket := t, line := l, stage := .drive })) := by
  simp [releaseLine, passes, line, holds]

theorem releaseLine_of_other (passes : listCheck s t.port .release b = none) (line : indexOf 16 (byteAt b 0) = some l)
    (other : s.claims.holder l ≠ some t.port) :
    releaseLine t b s =
      s.setClaims (s.claims.setRelease t.port (some { ticket := t, line := l, stage := .undecided })) := by
  simp [releaseLine, passes, line, other]

/-- A granted command that hands its work to the claim unit, and is not answered yet. -/
theorem changesOnly_handedOn (s : State) (c : ListClass) (p : Port) (ct : CueTable) (u : ClaimUnit) :
    ChangesOnly [.cueTable, .claims, .arbiter, .ports] s (((afterGrant c p s).setCueTable ct).setClaims u) :=
  ⟨rfl, fun b hb => by cases b <;> simp_all [Block.same]⟩

theorem refused_release_of_noLine (grants : s.Grants p .release r) (run : s.session.phase = .run)
    (attached : s.attached p = true) (out : 16 ≤ (byteAt r.body 0).toNat) : s.Refused .release p r .badField := by
  refine refused_of_answer (effect := releaseLine) rfl rfl rfl grants ?_
  by_cases long : bodyLength .release ≤ r.body.length
  · exact releaseLine_of_noLine (listCheck_afterGrant run attached long) out
  · exact releaseLine_of_listCheck _
      (listCheck_short (s := afterGrant .urgent p s) run (by simpa using attached) (Nat.lt_of_not_le long))

/-- Settles O33: after the common checks and the line, the holder's cues on the line are purged, and no other port's. -/
theorem releaseAtCueTable : Obligations.ReleaseAtCueTable := by
  refine ⟨fun p r s =>
    ⟨checksFirst_of_listCheck (effect := releaseLine) rfl rfl rfl fun _ _ u _ => releaseLine_of_listCheck u,
      refused_release_of_noLine⟩, fun p r l s grants run attached long code => ?_⟩
  have passes := listCheck_afterGrant (cl := .urgent) run attached (k := .release) (r := r) long
  have line := indexOf_of_lineCode code
  have taken := takeGranted_of_grants grants rfl releaseLine
  by_cases holds : s.claims.holder l = some p
  · have effect := releaseLine_of_holder passes line holds
    exact ⟨_, taken.trans (congrArg _ effect), changesOnly_handedOn s .urgent p _ _, rfl, rfl,
      fun _ => ⟨rfl, purged_purge _ _, s.cueTable.purge_commitSet _⟩, fun other => absurd holds other⟩
  · have effect := releaseLine_of_other passes line holds
    exact ⟨_, taken.trans (congrArg _ effect), changesOnly_handedOn s .urgent p s.cueTable _, rfl, rfl,
      fun own => absurd own holds, fun _ => ⟨rfl, rfl⟩⟩

end Release

/-! ### CLAIM (R120 to R122) -/

section Claim

variable {s : State} {p : Port} {t : Ticket} {b : List Byte} {l : Line} {wait : Bool}

/-- The place of a port is counted from 1, over those before it (R122). -/
theorem placeOf_of_splits {before after : List Port} (out : p ∉ before) :
    placeOf p (before ++ p :: after) = before.length + 1 := by
  induction before with
  | nil => simp [placeOf]
  | cons q rest ih =>
    obtain ⟨other, out⟩ := not_or.1 fun mem => out (List.mem_cons.2 mem)
    simp [placeOf, Ne.symm other, ih out]

theorem claimLine_of_free (free : (s.claims.record l).held = none) :
    claimLine t l wait s = answer t .ok (lineCode l :: timeBytes s.now) (s.setClaims (s.claims.setRecord l
      { held := some { holder := t.port, claimedAt := s.now }, waiters := (s.claims.record l).waiters })) := by
  simp [claimLine, free]

theorem claimLine_of_own {at' : Time} (held : (s.claims.record l).held = some { holder := t.port, claimedAt := at' }) :
    claimLine t l wait s = answer t .ok (lineCode l :: timeBytes at') s := by
  simp [claimLine, held]

variable {h : Holding}

theorem claimLine_busy (held : (s.claims.record l).held = some h) (other : h.holder ≠ t.port) :
    claimLine t l false s = answer t .busy [portCode h.holder] s := by
  simp [claimLine, held, other]

theorem claimLine_waiting {before after : List Port} (held : (s.claims.record l).held = some h)
    (other : h.holder ≠ t.port) (waiters : (s.claims.record l).waiters = before ++ t.port :: after)
    (out : t.port ∉ before) :
    claimLine t l true s = answer t .queued [portCode h.holder, countByte (before.length + 1)] s := by
  simp [claimLine, held, other, waiters, placeOf_of_splits out]

theorem claimLine_joining (held : (s.claims.record l).held = some h) (other : h.holder ≠ t.port)
    (new : t.port ∉ (s.claims.record l).waiters) :
    claimLine t l true s = answer t .queued [portCode h.holder, countByte ((s.claims.record l).waiters.length + 1)]
      (s.setClaims (s.claims.setRecord l { held := some h, waiters := (s.claims.record l).waiters ++ [t.port] })) := by
  simp [claimLine, held, other, new]

theorem claim_of_setup (setup : s.session.phase = .setup) : claim t b s = answer t .wrongPhase [] s := by
  simp [claim, setup]

/-- Beside a short body, a line or a mode outside its codes is BAD_FIELD (R120). -/
theorem claim_of_unfit (run : s.session.phase = .run)
    (unfit : b.length < 2 ∨ 16 ≤ (byteAt b 0).toNat ∨ 2 ≤ (byteAt b 1).toNat) :
    claim t b s = answer t .badField [] s := by
  have inRun : ¬ s.session.phase = .setup := by rw [run]; nofun
  unfold claim
  rw [if_neg inRun]
  split
  · rfl
  · next long =>
    rcases unfit.resolve_left long with line | mode
    · rw [indexOf_eq_none.2 line]
    · have neither : (byteAt b 1 != 0 && byteAt b 1 != 1) = true := by
        rw [Bool.and_eq_true, bne_iff_ne, bne_iff_ne]
        exact ⟨fun e => by simp [e] at mode, fun e => by simp [e] at mode⟩
      rw [neither, choiceOf, if_pos rfl]
      cases indexOf 16 (byteAt b 0) <;> rfl

/-- In RUN a body with a line and a mode comes to the claim record of the line. -/
theorem claim_of_fit (run : s.session.phase = .run) (long : 2 ≤ b.length) (code : byteAt b 0 = lineCode l)
    (mode : byteAt b 1 = if wait then 1 else 0) : claim t b s = claimLine t l wait s := by
  have inRun : ¬ s.session.phase = .setup := by rw [run]; nofun
  have whole : ¬ b.length < bodyLength .claim := Nat.not_lt.2 long
  unfold claim
  rw [if_neg inRun, if_neg whole, indexOf_of_lineCode code, mode]
  cases wait <;> rfl

variable {r : Request} {k : CommandKind} {effect : Ticket → List Byte → State → State} {status : Status}
  {body : List Byte} {u : ClaimUnit}

/-- A direct command that is answered and beside that changes the claim unit. -/
theorem changesClaims_of_takes (takes : s.Takes p k r) (he : effect (s.ticket p r) r.body (takeHead p s)
      = answer (s.ticket p r) status body ((takeHead p s).setClaims u)) :
    ∃ t, takeDirect k p s effect = .next t ∧ ChangesOnly [.claims, .arbiter, .ports] s t
      ∧ t.arbiter = s.arbiter.without p ∧ t.ports = s.portsAnswering p r status body ∧ t.claims = u := by
  refine ⟨_, (takeDirect_of_takes takes effect).trans (congrArg _ he), ⟨rfl, fun b hb => ?_⟩, rfl, ?_, rfl⟩
  · cases b <;> simp_all [Block.same]
  · simp [State.portsAnswering]

/-- Settles O38: phase and body are checked first, and then the line's record decides. -/
theorem claimAnswers : Obligations.ClaimAnswers := by
  intro p r l s takes
  refine ⟨fun setup => answeredOnly_of_takes (effect := claim) takes (claim_of_setup setup),
    fun run unfit => answeredOnly_of_takes (effect := claim) takes (claim_of_unfit run unfit),
    fun run long code modes => ?_⟩
  have comes {wait : Bool} (mode : byteAt r.body 1 = if wait then 1 else 0) :
      claim (s.ticket p r) r.body (takeHead p s) = claimLine (s.ticket p r) l wait (takeHead p s) :=
    claim_of_fit (s := takeHead p s) run long code mode
  obtain ⟨wait, mode⟩ : ∃ wait : Bool, byteAt r.body 1 = if wait then 1 else 0 :=
    modes.elim (fun now => ⟨false, now⟩) fun waits => ⟨true, waits⟩
  refine ⟨fun free => ?_, fun at' own => ?_, fun h held other => ⟨fun now => ?_,
    fun before after waits waiters out => ?_, fun waits new => ?_⟩⟩
  · exact changesClaims_of_takes (effect := claim) takes
      ((comes mode).trans (claimLine_of_free (s := takeHead p s) free))
  · exact answeredOnly_of_takes (effect := claim) takes
      ((comes mode).trans (claimLine_of_own (s := takeHead p s) own))
  · exact answeredOnly_of_takes (effect := claim) takes
      ((comes (wait := false) now).trans (claimLine_busy (s := takeHead p s) held other))
  · exact answeredOnly_of_takes (effect := claim) takes
      ((comes (wait := true) waits).trans (claimLine_waiting (s := takeHead p s) held other waiters out))
  · exact changesClaims_of_takes (effect := claim) takes
      ((comes (wait := true) waits).trans (claimLine_joining (s := takeHead p s) held other new))

end Claim

/-! ### QUERY_LINE (R134, R197) -/

section Query

/-! The fields of the report, each where R197 places it. -/

variable (c : ClaimRecord) (r : LineRecord) (h : Option Holdoff)

theorem lineReport_length : (lineReport c r h).length = 25 := rfl

/-- The bits of the presence byte do not overlap. -/
theorem lineReport_presence : byteAt (lineReport c r h) 0 = (if c.held.isSome then 8 else 0)
    + (if r.pulseEnd.isSome then 4 else 0) + (if r.lastChange.isSome then 2 else 0) + (if h.isSome then 1 else 0) := by
  show presenceBit c.held.isSome 0x08 ||| presenceBit r.pulseEnd.isSome 0x04 ||| presenceBit r.lastChange.isSome 0x02
    ||| presenceBit h.isSome 0x01 = _
  unfold presenceBit
  cases c.held.isSome <;> cases r.pulseEnd.isSome <;> cases r.lastChange.isSome <;> cases h.isSome <;> rfl

theorem lineReport_holder : byteAt (lineReport c r h) 1 = portCode? (c.held.map (·.holder)) := rfl

theorem lineReport_claimedAt : timeAt (lineReport c r h) 2 = (c.held.map (·.claimedAt)).getD 0 :=
  timeAt_of_bytes rfl rfl rfl rfl

theorem lineReport_waiterCount : byteAt (lineReport c r h) 6 = countByte c.waiters.length := rfl

theorem lineReport_waiter {n : Nat} (few : n < 3) : byteAt (lineReport c r h) (7 + n) = portCode? c.waiters[n]? := by
  match n, few with
  | 0, _ => rfl
  | 1, _ => rfl
  | 2, _ => rfl

theorem lineReport_level : byteAt (lineReport c r h) 10 = levelCode r.level := rfl

theorem lineReport_pulseEnd : timeAt (lineReport c r h) 11 = r.pulseEnd.getD 0 := timeAt_of_bytes rfl rfl rfl rfl

theorem lineReport_lastChange : timeAt (lineReport c r h) 15 = r.lastChange.getD 0 := timeAt_of_bytes rfl rfl rfl rfl

theorem lineReport_group : byteAt (lineReport c r h) 19 = groupCode? r.group := rfl

theorem lineReport_holdoffLine : byteAt (lineReport c r h) 20 = lineCode? (h.bind (·.line)) := rfl

theorem lineReport_holdoffEnd : timeAt (lineReport c r h) 21 = (h.map (·.endsAt)).getD 0 :=
  timeAt_of_bytes rfl rfl rfl rfl

variable {s : State} {t : Ticket} {b : List Byte} {l : Line}

theorem queryLine_of_noLine (unfit : b = [] ∨ 16 ≤ (byteAt b 0).toNat) :
    queryLine t b s = answer t .badField [] s := by
  unfold queryLine
  split
  · rfl
  · next long =>
    have some : b ≠ [] := fun none => long (by rw [none]; exact Nat.one_pos)
    rw [indexOf_eq_none.2 (unfit.resolve_left some)]

theorem queryLine_of_line (long : 1 ≤ b.length) (code : byteAt b 0 = lineCode l) :
    queryLine t b s =
      answer t .ok (lineReport (s.claims.record l) (s.output.line l) (s.output.holdoffOf l)) s := by
  have whole : ¬ b.length < bodyLength .queryLine := Nat.not_lt.2 long
  simp only [queryLine, if_neg whole, indexOf_of_lineCode code]

/-- Settles O39: the answer is the report of the line, whose bytes are read off it one field after another. -/
theorem queryLineReports : Obligations.QueryLineReports := by
  refine ⟨fun p r s takes unfit =>
    answeredOnly_of_takes (effect := queryLine) takes (queryLine_of_noLine unfit),
    fun p r l s takes long code => ?_⟩
  obtain ⟨t, taken, only⟩ := answeredOnly_of_takes (effect := queryLine) takes (queryLine_of_line long code)
  refine ⟨t, _, taken, only, lineReport_length _ _ _, lineReport_presence _ _ _, ?_, ?_, lineReport_level _ _ _,
    lineReport_pulseEnd _ _ _, lineReport_lastChange _ _ _, lineReport_group _ _ _, lineReport_waiterCount _ _ _,
    fun n few => ?_, ?_, ?_⟩
  · rw [lineReport_holder, takeHead_claims]
    cases (s.claims.record l).held <;> rfl
  · rw [lineReport_claimedAt, takeHead_claims]
    cases (s.claims.record l).held <;> rfl
  · rw [lineReport_waiter _ _ _ few, takeHead_claims]
    cases (s.claims.record l).waiters[n]? <;> rfl
  · rw [lineReport_holdoffLine, takeHead_output]
    rcases s.output.holdoffOf l with _ | ⟨_ | m, ends⟩ <;> rfl
  · rw [lineReport_holdoffEnd, takeHead_output]
    cases s.output.holdoffOf l <;> rfl

end Query

end Sys2Proof.Machine
end

section
/-! PROOFS. The claim unit's hand-overs, each completed: the decision of a RELEASE (R128), transfers (R124, R126, R131),
the start of a port release (R130) and the halt release (R132). -/

namespace Sys2Proof.Machine

theorem changesOnly_setClaims (s : State) (u : ClaimUnit) : ChangesOnly [.claims] s (s.setClaims u) :=
  ⟨rfl, fun b hb => by cases b <;> simp_all [Block.same]⟩

theorem changesOnly_answer (s : State) (t : Ticket) (st : Status) (b : List Byte) :
    ChangesOnly [.ports] s (answer t st b s) :=
  ⟨rfl, fun c hc => by cases c <;> simp_all [Block.same]⟩

/-- Work of the claim unit that ends with the answer to its command. -/
theorem changesOnly_answerClaims {s t : State} (effect : ChangesOnly [.claims, .ports] s t) (c : Ticket) (st : Status)
    (b : List Byte) (u : ClaimUnit) : ChangesOnly [.claims, .ports] s (answer c st b (t.setClaims u)) :=
  changesOnly_trans effect (changesOnly_trans (changesOnly_of_subset (changesOnly_setClaims t u) (by simp))
    (changesOnly_of_subset (changesOnly_answer _ c st b) (by simp)))

/-! ### The decision of a RELEASE (R128) -/

section Decision

variable {s : State} {p : Port} {j : ReleaseJob} {moved : Option ReleaseJob → ClaimUnit}

theorem exec_releaseAtClaimUnit (live : s.live = true) (serves : s.claims.Serves p j moved)
    (stage : j.stage = .undecided) : exec (.releaseAtClaimUnit p) s = .next (decideRelease p j s) := by
  have served := served_of_serves serves
  rw [stage] at served
  show execReleaseAtClaimUnit p s = _
  simp only [execReleaseAtClaimUnit, whenLive_of_live live, served]

theorem decideRelease_of_holder (serves : s.claims.Serves p j moved) (holds : s.claims.holder j.line = some p) :
    decideRelease p j s = s.setClaims (moved (some { j with stage := .drive })) := by
  simp only [decideRelease, if_pos holds, moveRelease_of_serves serves]

theorem decideRelease_of_waiter (serves : s.claims.Serves p j moved) (other : s.claims.holder j.line ≠ some p)
    (waits : p ∈ (s.claims.record j.line).waiters) :
    decideRelease p j s = answer j.ticket .ok [lineCode j.line, portCode? (s.claims.holder j.line), 1]
      (s.setClaims { moved none with
        records := put s.claims.records j.line { s.claims.record j.line with
          waiters := (s.claims.record j.line).waiters.filter (fun q => q != p) } }) := by
  simp only [decideRelease, if_neg other, if_pos waits, ClaimUnit.setRecord, moveRelease_records,
    moveRelease_of_serves serves]
  rfl

theorem decideRelease_of_neither (serves : s.claims.Serves p j moved) (other : s.claims.holder j.line ≠ some p)
    (absent : p ∉ (s.claims.record j.line).waiters) :
    decideRelease p j s = answer j.ticket .notOwner [] (s.setClaims (moved none)) := by
  simp only [decideRelease, if_neg other, if_neg absent, moveRelease_of_serves serves]

/-- Settles O40: the record makes a holder's RELEASE go on, takes a waiter off its list, and turns any other away. -/
theorem releaseDecided : Obligations.ReleaseDecided := by
  intro p j moved s live serves stage
  have taken := exec_releaseAtClaimUnit live serves stage
  refine ⟨fun holds => ?_, fun other waits => ?_, fun other absent => ?_⟩
  · exact ⟨_, taken.trans (congrArg _ (decideRelease_of_holder serves holds)), changesOnly_setClaims s _, rfl⟩
  · exact ⟨_, taken.trans (congrArg _ (decideRelease_of_waiter serves other waits)),
      changesOnly_answerClaims (changesOnly_refl _ s) _ _ _ _, rfl, rfl⟩
  · exact ⟨_, taken.trans (congrArg _ (decideRelease_of_neither serves other absent)),
      changesOnly_answerClaims (changesOnly_refl _ s) _ _ _ _, rfl, rfl⟩

end Decision

/-! ### Transfers (R124, R126, R131) -/

section Transfers

variable {s : State} {p : Port} {l : Line} {j : ReleaseJob} {moved : Option ReleaseJob → ClaimUnit}

theorem recordAfter_of_waiter {next : Port} {rest : List Port} (run : s.session.phase = .run)
    (holds : s.claims.holder l = some p) (waiters : (s.claims.record l).waiters = next :: rest) :
    s.recordAfter p l = { held := some { holder := next, claimedAt := s.now }, waiters := rest } := by
  simp [State.recordAfter, holds, run, waiters]

theorem recordAfter_of_nobody (holds : s.claims.holder l = some p)
    (nobody : s.session.phase = .setup ∨ (s.claims.record l).waiters = []) :
    s.recordAfter p l = { held := none, waiters := [] } := by
  unfold State.recordAfter
  rw [if_pos holds]
  split
  · next run waiters => rcases nobody with setup | none <;> simp_all
  · rfl

/-- No port is told of a transfer that leaves the line free (R124). -/
theorem portAfter_of_nobody (nobody : s.session.phase = .setup ∨ (s.claims.record l).waiters = []) (q : Port) :
    s.portAfter p l q = s.port q := by
  refine if_neg fun ⟨_, run, first⟩ => ?_
  rcases nobody with setup | none <;> simp_all

theorem exec_transferRelease (live : s.live = true) (serves : s.claims.Serves p j moved)
    (stage : j.stage = .transfer) : exec (.claimTransfer (.release p)) s = .next (finishRelease p j s) := by
  have served := served_of_serves serves
  rw [stage] at served
  show execClaimTransfer (.release p) s = _
  simp only [execClaimTransfer, whenLive_of_live live, served]

/-- The end of a release that may take its line: the line's record passes on, and the reply carries the new holder. -/
theorem finishRelease_of_may (serves : s.claims.Serves p j moved) (may : s.mayTransfer p j = true) :
    finishRelease p j s = answer j.ticket .ok
      [lineCode j.line, portCode? ((s.recordAfter p j.line).held.map (·.holder)), 0]
      ((transferLine p j.line s).setClaims
        { moved none with records := put s.claims.records j.line (s.recordAfter p j.line) }) := by
  simp only [finishRelease, if_pos may, transferLine_claims, moveRelease_records, moveRelease_of_serves serves,
    ClaimUnit.holder, look_put_self]
  rfl

/-- The end of a release whose line keeps its record (log 16, 17). -/
theorem finishRelease_of_not (serves : s.claims.Serves p j moved)
    (keeps : s.claims.holder j.line ≠ some p ∨ s.mayTransfer p j = false) :
    finishRelease p j s = answer j.ticket .ok [lineCode j.line, portCode? (s.claims.holder j.line), 0]
      (s.setClaims (moved none)) := by
  have same : (if s.mayTransfer p j then transferLine p j.line s else s) = s := by
    split
    · next may => exact transferLine_of_not_holder p j.line s (keeps.resolve_right (by simp [may]))
    · rfl
  simp only [finishRelease, same, moveRelease_of_serves serves]
  rfl

/-- What a release that may take its line changes, and what every port receives. -/
theorem transferred_of_may (live : s.live = true) (serves : s.claims.Serves p j moved) (stage : j.stage = .transfer)
    (may : s.mayTransfer p j = true) :
    ∃ t, exec (.claimTransfer (.release p)) s = .next t ∧ ChangesOnly [.claims, .ports] s t
      ∧ t.claims = { moved none with records := put s.claims.records j.line (s.recordAfter p j.line) }
      ∧ ∀ q, t.port q = if q = j.ticket.port
          then (s.portAfter p j.line q).produce j.ticket .ok
            [lineCode j.line, portCode? ((s.recordAfter p j.line).held.map (·.holder)), 0]
          else s.portAfter p j.line q := by
  refine ⟨_, (exec_transferRelease live serves stage).trans (congrArg _ (finishRelease_of_may serves may)),
    changesOnly_answerClaims (transferLine_only p j.line s) _ _ _ _, rfl, fun q => ?_⟩
  rw [answer_port, setClaims_port, transferLine_port]

variable {why : Departure} {owes : Option Ticket} {rest : List Line}

theorem exec_transferDeparture (live : s.live = true)
    (giving : s.claims.departure p why = some { owes := owes, stage := .giving (l :: rest) true }) :
    exec (.claimTransfer (.departure p why)) s = .next ((transferLine p l s).setClaims
      (({ s.claims with records := put s.claims.records l (s.recordAfter p l) } : ClaimUnit).proceed p why owes
        rest)) := by
  show execClaimTransfer (.departure p why) s = _
  simp only [execClaimTransfer, whenLive_of_live live, giving, transferLine_claims]

/-- Settles O41: the line's record passes on or stays, and then the release is answered or the port release goes on. -/
theorem claimTransfers : Obligations.ClaimTransfers := by
  intro p s live
  refine ⟨fun j moved serves stage => ?_, fun why owes l rest giving => ?_⟩
  · refine ⟨fun next rest run holds may waiters => ?_, fun holds may nobody => ?_, fun keeps => ?_⟩
    · obtain ⟨t, taken, only, claims, ports⟩ :=
        transferred_of_may live serves stage ((mayTransfer_iff s p j).2 may)
      rw [recordAfter_of_waiter run holds waiters] at claims ports
      exact ⟨t, taken, only, claims, ports⟩
    · obtain ⟨t, taken, only, claims, ports⟩ :=
        transferred_of_may live serves stage ((mayTransfer_iff s p j).2 may)
      rw [recordAfter_of_nobody holds nobody] at claims ports
      refine ⟨t, taken, only, claims, table_ext fun q => (ports q).trans ?_⟩
      rw [portAfter_of_nobody nobody, look_put]
      split
      · next own => rw [own]; rfl
      · rfl
    · have kept : s.claims.holder j.line ≠ some p ∨ s.mayTransfer p j = false :=
        keeps.imp_right fun ⟨late, cue⟩ =>
          Bool.eq_false_iff.2 fun may => ((mayTransfer_iff s p j).1 may).elim late cue
      exact ⟨_, (exec_transferRelease live serves stage).trans (congrArg _ (finishRelease_of_not serves kept)),
        changesOnly_answerClaims (changesOnly_refl _ s) _ _ _ _, rfl, rfl⟩
  · refine ⟨_, exec_transferDeparture live giving, ?_, fun m more goesOn => ?_, fun last => ?_, fun q => ?_⟩
    · exact changesOnly_trans (transferLine_only p l s)
        (changesOnly_of_subset (changesOnly_setClaims _ _) (by simp))
    · rw [goesOn]
      rfl
    · rw [last]
      exact complete_notified why owes
    · rw [setClaims_port, transferLine_port]

end Transfers

/-! ### The start of a port release and the halt release (R130, R132) -/

section Starts

variable {s : State} {p : Port} {why : Departure} {owes : Option Ticket}

/-- No drive or transfer holds the start of a port release for a lapse (R130). -/
theorem mayStart_of_undecided {u : ClaimUnit} (free : why = .lapse → look u.detaching p = none
      ∧ (∀ j, look u.releases p = some j → j.stage = .undecided)
      ∧ ∀ j, j ∈ look u.late p → j.stage = .undecided) :
    u.mayStart p why = true := by
  cases why with
  | detach => rfl
  | lapse =>
    obtain ⟨none, present, late⟩ := free rfl
    have present : (look u.releases p).all (fun j => j.stage == .undecided) = true := by
      rw [Option.all_eq_true]
      exact fun j hj => beq_iff_eq.2 (present j hj)
    simp only [ClaimUnit.mayStart, none, present, Option.isNone_none, Bool.true_and, List.all_eq_true, beq_iff_eq]
    exact late

theorem exec_portReleaseStart (live : s.live = true)
    (asked : s.claims.departure p why = some { owes := owes, stage := .notStarted })
    (may : s.claims.mayStart p why = true) :
    exec (.portReleaseStart p why) s =
      .next (s.setClaims ((s.claims.forgetWaiter p).proceed p why owes (s.claims.linesOf p))) := by
  show execPortReleaseStart p why s = _
  simp [execPortReleaseStart, whenLive_of_live live, asked, may]

theorem linesOf_eq_nil {u : ClaimUnit} (none : ∀ m, u.holder m ≠ some p) : u.linesOf p = [] :=
  List.filter_eq_nil_iff.2 fun m _ => by simpa using none m

theorem exec_haltRelease (live : s.live = true) (asked : s.claims.halt = .release) :
    exec .haltRelease s = .next (s.setClaims { s.claims with
      records := changeAll s.claims.records (fun _ => { held := none, waiters := [] })
      halt := .notice }) := by
  show execHaltRelease s = _
  simp only [execHaltRelease, whenLive_of_live live, if_pos asked]

/-- Settles O42: the port leaves the waiter lists and its port release goes on with its lines; a halt frees them all. -/
theorem releasesStart : Obligations.ReleasesStart := by
  intro s live
  refine ⟨fun p why owes asked free => ?_, fun asked => ?_⟩
  · refine ⟨_, s.claims.forgetWaiter p, exec_portReleaseStart live asked (mayStart_of_undecided free),
      changesOnly_setClaims s _, rfl, forgetWaiter_record s.claims p, fun l rest lines => ?_, fun none => ?_⟩
    · have lines : s.claims.linesOf p = l :: rest := lines
      rw [lines]
      rfl
    · rw [linesOf_eq_nil none]
      exact complete_notified why owes
  · exact ⟨_, exec_haltRelease live asked, changesOnly_setClaims s _, rfl, look_changeAll _ _, rfl⟩

end Starts

end Sys2Proof.Machine
end

section
/-! PROOFS. The arbiter's walk and its switches (R141, R142, R146), and PRESENT_REQUEST (R137, R138). -/

namespace Sys2Proof.Machine

/-! ### Pairs and their ports (R140) -/

section Pairs

theorem PairName.eq_other_of_ne {q r : PairName} (h : q ≠ r) : q = r.other := by
  cases q <;> cases r <;> simp_all [PairName.other]

theorem ListClass.eq_other_of_ne {c d : ListClass} (h : c ≠ d) : c = d.other := by
  cases c <;> cases d <;> simp_all [ListClass.other]

@[simp] theorem ListClass.other_ne (c : ListClass) : c.other ≠ c := by cases c <;> decide

@[simp] theorem pairOf_first (q : PairName) : pairOf q.first = q := by cases q <;> rfl

@[simp] theorem pairOf_second (q : PairName) : pairOf q.second = q := by cases q <;> rfl

/-- A pair has two ports. -/
theorem eq_of_pair : ∀ {x y z : Port}, pairOf x = pairOf y → pairOf z = pairOf y → x ≠ y → z ≠ y → x = z := by decide

variable (w : Switches) (c : ListClass) (q : PairName)

@[simp] theorem pairOf_pointed : pairOf (w.pointed c q) = q := by
  unfold Switches.pointed
  split <;> simp

@[simp] theorem pairOf_unpointed : pairOf (w.unpointed c q) = q := by
  unfold Switches.unpointed
  split <;> simp

theorem unpointed_ne_pointed : w.unpointed c q ≠ w.pointed c q := by
  unfold Switches.unpointed Switches.pointed
  split <;> cases q <;> decide

end Pairs

/-! ### The switches after a grant (R142) -/

section Moving

variable (w : Switches) (c : ListClass) (p : Port)

@[simp] theorem moved_classSwitch : (w.moved c p).classSwitch = c.other := by
  unfold Switches.moved
  cases c <;> cases pairOf p <;> rfl

@[simp] theorem moved_root : (w.moved c p).root c = (pairOf p).other := by
  unfold Switches.moved
  cases c <;> cases pairOf p <;> rfl

@[simp] theorem moved_root_other : (w.moved c p).root c.other = w.root c.other := by
  unfold Switches.moved
  cases c <;> cases pairOf p <;> rfl

@[simp] theorem moved_pairSwitch : (w.moved c p).pairSwitch c (pairOf p) = (p == (pairOf p).first) := by
  unfold Switches.moved
  cases c <;> cases pairOf p <;> rfl

@[simp] theorem moved_pairSwitch_beside :
    (w.moved c p).pairSwitch c (pairOf p).other = w.pairSwitch c (pairOf p).other := by
  unfold Switches.moved
  cases c <;> cases pairOf p <;> rfl

@[simp] theorem moved_pairSwitch_other (q : PairName) :
    (w.moved c p).pairSwitch c.other q = w.pairSwitch c.other q := by
  unfold Switches.moved
  cases c <;> cases pairOf p <;> cases q <;> rfl

@[simp] theorem moved_pointed_other (q : PairName) : (w.moved c p).pointed c.other q = w.pointed c.other q := by
  simp [Switches.pointed]

@[simp] theorem moved_pointed_beside :
    (w.moved c p).pointed c (pairOf p).other = w.pointed c (pairOf p).other := by
  simp [Switches.pointed]

/-- The pair's switch points away from the port granted. -/
theorem moved_pointed_ne : (w.moved c p).pointed c (pairOf p) ≠ p := by
  unfold Switches.pointed
  rw [moved_pairSwitch]
  split
  · next first =>
    rw [beq_iff_eq] at first
    rw [first, pairOf_first]
    cases pairOf p <;> decide
  · next second => exact fun e => second (beq_iff_eq.2 e.symm)

end Moving

/-! ### The waiting bound (R146) -/

section Waiting

variable {w : Switches} {v : Leaves} {c : ListClass} {p : Port}

theorem Leaves.pairHolds_of_holds (h : v.holds c p = true) : v.pairHolds c (pairOf p) = true := by
  unfold Leaves.pairHolds
  fin_cases p <;> simp_all [pairOf, PairName.first, PairName.second]

theorem Leaves.holds_of_pairHolds {r : PairName} (h : v.pairHolds c r = true) :
    ∃ q, v.holds c q = true ∧ pairOf q = r :=
  (Bool.or_eq_true_iff.1 h).elim (fun h => ⟨_, h, pairOf_first r⟩) fun h => ⟨_, h, pairOf_second r⟩

theorem Leaves.classHolds_of_pair {q : PairName} (h : v.pairHolds c q = true) : v.classHolds c = true := by
  cases q <;> simp [Leaves.classHolds, h]

/-- The branch a switch gives: the one it points at if a request waits there, and the other one otherwise. -/
theorem branch_taken {α : Type} {waits : α → Bool} {x y z : α} (h : waits y = true) (two : y ≠ x → y = z) :
    waits (if waits x then x else z) = true ∧ ((if waits x then x else z) ≠ y → (if waits x then x else z) = x) := by
  split
  · next pointed => exact ⟨pointed, fun _ => rfl⟩
  · next idle =>
    have other : y = z := two fun e => idle (e ▸ h)
    exact ⟨other ▸ h, fun passed => absurd other.symm passed⟩

/-- The class to which the walk goes (R141). -/
def Switches.classTaken (w : Switches) (v : Leaves) : ListClass :=
  if v.classHolds w.classSwitch then w.classSwitch else w.classSwitch.other

/-- The pair to which it goes within a class. -/
def Switches.pairTaken (w : Switches) (v : Leaves) (c : ListClass) : PairName :=
  if v.pairHolds c (w.root c) then w.root c else (w.root c).other

/-- The port at which it ends within a pair. -/
def Switches.portTaken (w : Switches) (v : Leaves) (c : ListClass) (r : PairName) : Port :=
  if v.holds c (w.pointed c r) then w.pointed c r else w.unpointed c r

theorem walk_of_holds {d : ListClass} {r : PairName} {q : Port} (hd : w.classTaken v = d) (hr : w.pairTaken v d = r)
    (hq : w.portTaken v d r = q) (h : v.holds d q = true) : w.walk v = some (d, q) := by
  subst hd hr hq
  exact if_pos h

theorem classTaken_spec (h : v.classHolds c = true) :
    v.classHolds (w.classTaken v) = true ∧ (w.classTaken v ≠ c → w.classTaken v = w.classSwitch) :=
  branch_taken h ListClass.eq_other_of_ne

theorem pairTaken_spec {r : PairName} (h : v.pairHolds c r = true) :
    v.pairHolds c (w.pairTaken v c) = true ∧ (w.pairTaken v c ≠ r → w.pairTaken v c = w.root c) :=
  branch_taken h PairName.eq_other_of_ne

theorem pairOf_portTaken (r : PairName) : pairOf (w.portTaken v c r) = r := by
  unfold Switches.portTaken
  split <;> simp

theorem portTaken_spec {r : PairName} (h : v.holds c p = true) (hp : pairOf p = r) :
    v.holds c (w.portTaken v c r) = true ∧ (w.portTaken v c r ≠ p → w.portTaken v c r = w.pointed c r) := by
  refine branch_taken h fun other => eq_of_pair ?_ ?_ other (unpointed_ne_pointed w c r) <;> simp [hp]

/-- Beside a leaf that holds a request the walk ends at some leaf; it passes by the leaf's class, pair or port only
where the switch points elsewhere (R141). -/
theorem walk_passes (h : v.holds c p = true) : ∃ d q, w.walk v = some (d, q)
    ∧ (d ≠ c → w.classSwitch ≠ c)
    ∧ (d = c → pairOf q ≠ pairOf p → w.root c ≠ pairOf p)
    ∧ (d = c → pairOf q = pairOf p → q ≠ p → w.pointed c (pairOf p) ≠ p) := by
  obtain ⟨classWaits, classPasses⟩ := classTaken_spec (w := w) (Leaves.classHolds_of_pair (Leaves.pairHolds_of_holds h))
  generalize hd : w.classTaken v = d at classWaits classPasses
  obtain ⟨y, hy⟩ := (classHolds_iff v d).1 classWaits
  obtain ⟨pairWaits, -⟩ := pairTaken_spec (w := w) (Leaves.pairHolds_of_holds hy)
  obtain ⟨z, hz, pair⟩ := Leaves.holds_of_pairHolds pairWaits
  obtain ⟨waits, -⟩ := portTaken_spec (w := w) hz pair
  refine ⟨d, _, walk_of_holds hd rfl rfl waits, fun other => classPasses other ▸ other, ?_, ?_⟩
  · rintro rfl other
    rw [pairOf_portTaken] at other
    exact (pairTaken_spec (Leaves.pairHolds_of_holds h)).2 other ▸ other
  · rintro rfl same other
    rw [pairOf_portTaken] at same
    rw [same] at other
    exact (portTaken_spec h rfl).2 other ▸ other

/-- How many grants to other leaves the switches can still put before a leaf that holds a request. -/
def Switches.before (w : Switches) (c : ListClass) (p : Port) : Nat :=
  (if w.classSwitch = c then 0 else 1) + (if w.root c = pairOf p then 0 else 2)
    + (if w.pointed c (pairOf p) = p then 0 else 4)

theorem before_lt_eight (w : Switches) (c : ListClass) (p : Port) : w.before c p < 8 := by
  unfold Switches.before
  split <;> split <;> split <;> omega

/-- A grant to another leaf turns the switches toward the leaf that waits. -/
theorem before_decreases (h : v.holds c p = true) : w.walk v = some (c, p)
    ∨ ∃ d q, w.walk v = some (d, q) ∧ (w.moved d q).before c p < w.before c p := by
  obtain ⟨d, q, walk, classAway, rootAway, portAway⟩ := walk_passes (w := w) h
  by_cases otherClass : d ≠ c
  · obtain rfl : c = d.other := ListClass.eq_other_of_ne otherClass.symm
    have away := classAway otherClass
    refine .inr ⟨d, q, walk, ?_⟩
    simp only [Switches.before, moved_classSwitch, moved_root_other, moved_pointed_other, away, if_true, if_false]
    omega
  obtain rfl : d = c := not_not.1 otherClass
  by_cases otherPair : pairOf q ≠ pairOf p
  · have away := rootAway rfl otherPair
    refine .inr ⟨d, q, walk, ?_⟩
    have turned := PairName.eq_other_of_ne otherPair.symm
    rw [turned] at away
    simp only [Switches.before, turned, moved_classSwitch, moved_root, moved_pointed_beside, away, ListClass.other_ne,
      if_true, if_false]
    split <;> omega
  have pair : pairOf q = pairOf p := not_not.1 otherPair
  by_cases here : q = p
  · exact .inl (here ▸ walk)
  · have away := portAway rfl pair here
    have toward : (w.moved d q).pointed d (pairOf p) = p :=
      eq_of_pair (by rw [pairOf_pointed, pair]) pair.symm (pair ▸ moved_pointed_ne w d q) (Ne.symm here)
    refine .inr ⟨d, q, walk, ?_⟩
    simp only [Switches.before, toward, away, if_true, if_false]
    split <;> split <;> split <;> split <;> omega

theorem mem_grantsOf (vs : List Leaves) (h : ∀ v, v ∈ vs → v.holds c p = true) (enough : w.before c p < vs.length) :
    (c, p) ∈ grantsOf w vs := by
  induction vs generalizing w with
  | nil => cases enough
  | cons v rest ih =>
    have later (u : Switches) : u.before c p < rest.length → (c, p) ∈ grantsOf u rest :=
      ih fun v m => h v (List.mem_cons_of_mem _ m)
    unfold grantsOf
    rcases before_decreases (w := w) (h v List.mem_cons_self) with here | ⟨d, q, other, nearer⟩
    · simp [here]
    · rw [other]
      exact List.mem_cons_of_mem _ (later _ (by simp only [List.length_cons] at enough; omega))

/-- Settles O36: each grant to another leaf leaves fewer that can come before the waiting one, and there are never more
than seven. -/
theorem waitingBound : Obligations.WaitingBound := fun c p w vs eight holds =>
  mem_grantsOf vs holds (eight ▸ before_lt_eight w c p)

end Waiting

/-! ### PRESENT_REQUEST (R136 to R138) -/

section Presenting

variable {s : State} {p : Port} {r : Request} {k : CommandKind} {c : ListClass}

/-- A head command is the first of its queue; none of its port is in progress, and a reply entry is free (R183). -/
theorem head_eq_some (h : s.head p = some r) :
    (s.port p).cmds.head? = some r ∧ (s.port p).setAside = false ∧ (s.port p).freeEntry = true := by
  unfold State.head at h
  dsimp only at h
  split at h
  · cases h
  · next free =>
    simp only [Bool.or_eq_true, Bool.not_eq_true', not_or, Bool.not_eq_true, Bool.not_eq_false] at free
    exact ⟨h, free.1, free.2⟩

theorem headClass_of_head (h : s.head p = some r) (hk : kindOf r.kind = some k) (hc : listClass k = some c) :
    s.headClass p = some c := by
  simp [State.headClass, (head_eq_some h).1, hk, hc]

/-- A list-class head of an ATTACHED port that is not yet presented can be presented beside no purge request alone. -/
theorem presentable_eq (h : s.head p = some r) (hk : kindOf r.kind = some k) (hc : listClass k = some c)
    (attached : s.attached p = true) (unpresented : look s.arbiter.presented p = false) :
    s.presentable p = (look s.arbiter.purges p).isEmpty := by
  simp [State.presentable, State.passes, h, hk, hc, attached, unpresented]

theorem exec_presentRequest (live : s.live = true) : exec (.presentRequest p) s = .next (if s.presentable p then
    s.setArbiter { s.arbiter with presented := put s.arbiter.presented p true } else s) :=
  whenLive_of_live live _

/-- Settles O35: the purge requests of the port's leaf alone decide whether its head can be presented. -/
theorem presentRequestWaits : Obligations.PresentRequestWaits := by
  intro p r k c s live head hk hc attached unpresented
  have able := presentable_eq head hk hc attached unpresented
  rw [exec_presentRequest live, able]
  refine ⟨fun quiet => ?_, fun purge => by simp [purge]⟩
  refine ⟨s.setArbiter { s.arbiter with presented := put s.arbiter.presented p true }, by simp [quiet],
    ⟨rfl, fun b hb => ?_⟩, rfl, ?_⟩
  · cases b <;> simp_all [Block.same]
  · have waits : s.headClass p = some c := headClass_of_head head hk hc
    simpa [State.leafHolds, State.headClass] using .inl waits

end Presenting

end Sys2Proof.Machine
end

section
/-! PROOFS. Events that leave the arbiter, the session and the queues of the ports alone, once their command, if any,
has been taken: all but the commands of frames, sessions and purges. -/

namespace Sys2Proof.Machine

/-! ### What a calm event leaves -/

/-- A port unit whose state and queues are the same. -/
structure PortUnit.SameQueues (u v : PortUnit) : Prop where
  state : v.state = u.state
  cmds : v.cmds = u.cmds
  replies : v.replies = u.replies
  setAside : v.setAside = u.setAside
  events : v.events = u.events

/-- The arbiter, the session, and each port's state and queues have not changed. -/
structure Calm (s t : State) : Prop where
  arbiter : t.arbiter = s.arbiter
  session : t.session = s.session
  units : ∀ q, (s.port q).SameQueues (t.port q)

section Calms

variable {s t u : State}

theorem PortUnit.SameQueues.refl (u : PortUnit) : u.SameQueues u := ⟨rfl, rfl, rfl, rfl, rfl⟩

theorem PortUnit.SameQueues.trans {u v w : PortUnit} (h : u.SameQueues v) (k : v.SameQueues w) : u.SameQueues w :=
  ⟨k.state.trans h.state, k.cmds.trans h.cmds, k.replies.trans h.replies, k.setAside.trans h.setAside,
    k.events.trans h.events⟩

theorem receive_sameQueues (u : PortUnit) (e : EventRecord) : u.SameQueues (u.receive e) := by
  unfold PortUnit.receive
  split <;> exact ⟨rfl, rfl, rfl, rfl, rfl⟩

theorem Calm.trans (h : Calm s t) (k : Calm t u) : Calm s u :=
  ⟨k.arbiter.trans h.arbiter, k.session.trans h.session, fun q => (h.units q).trans (k.units q)⟩

/-- An event in which arbiter, session and ports stand. -/
theorem Calm.of_same (arbiter : t.arbiter = s.arbiter) (session : t.session = s.session) (ports : t.ports = s.ports) :
    Calm s t :=
  ⟨arbiter, session, fun q => by unfold State.port; rw [ports]; exact .refl _⟩

theorem Calm.refl (s : State) : Calm s s := .of_same rfl rfl rfl

variable (s)

theorem setInputs_calm (b : Inputs) : Calm s (s.setInputs b) := .of_same rfl rfl rfl

theorem setTimeBase_calm (b : TimeBase) : Calm s (s.setTimeBase b) := .of_same rfl rfl rfl

theorem setCueTable_calm (ct : CueTable) : Calm s (s.setCueTable ct) := .of_same rfl rfl rfl

theorem setOutput_calm (o : OutputUnit) : Calm s (s.setOutput o) := .of_same rfl rfl rfl

theorem setClaims_calm (b : ClaimUnit) : Calm s (s.setClaims b) := .of_same rfl rfl rfl

theorem withPending_calm (cs : List Instr) : Calm s (s.withPending cs) := .of_same rfl rfl rfl

variable {s}

theorem changePort_calm {p : Port} {f : PortUnit → PortUnit} (h : (s.port p).SameQueues (f (s.port p))) :
    Calm s (s.changePort p f) where
  arbiter := rfl
  session := rfl
  units q := by
    rw [changePort_port]
    split
    · next same => exact same ▸ h
    · exact .refl _

variable (s)

theorem answer_calm (c : Ticket) (st : Status) (b : List Byte) : Calm s (answer c st b s) :=
  changePort_calm ⟨rfl, rfl, rfl, rfl, rfl⟩

theorem post_calm (p : Port) (e : EventRecord) : Calm s (post p e s) where
  arbiter := post_arbiter p e s
  session := post_session p e s
  units q := by
    rw [post_port]
    split
    · exact receive_sameQueues _ e
    · exact .refl _

theorem postAll_calm (e : EventRecord) : Calm s (postAll e s) where
  arbiter := postAll_arbiter e s
  session := postAll_session e s
  units q := by rw [postAll_port]; exact receive_sameQueues _ e

theorem driveEvery_calm : Calm s (driveEvery s) := setOutput_calm s _

theorem tripEntry_calm (cause : TripCause) : Calm s (tripEntry cause s) :=
  ((setOutput_calm s _).trans (driveEvery_calm _)).trans (postAll_calm _ _)

theorem loadLease_calm (p : Port) : Calm s (loadLease p s) := changePort_calm ⟨rfl, rfl, rfl, rfl, rfl⟩

theorem transferLine_calm (p : Port) (l : Line) : Calm s (transferLine p l s) := by
  unfold transferLine
  split
  · dsimp only
    split
    · exact (setClaims_calm s _).trans (post_calm _ _ _)
    · exact setClaims_calm s _
  · exact .refl s

end Calms

/-! ### The firing engine (R43 to R63, R80 to R83) -/

section Firing

variable (i : SlotId) (c : Cue) (s : State)

theorem postMissed_calm : Calm s (postMissed i c s) := by
  unfold postMissed
  split
  · exact post_calm s _ _
  · exact .refl s

theorem retire_calm : Calm s (retire i c s) := by
  unfold retire
  dsimp only
  split
  · exact (post_calm s _ _).trans (setCueTable_calm _ _)
  · exact setCueTable_calm s _

theorem catchUpSkip_calm {goOn : Cue → State → State} (h : ∀ d u, Calm u (goOn d u)) :
    Calm s (catchUpSkip i c goOn s) := by
  unfold catchUpSkip
  dsimp only
  split
  · exact (postMissed_calm i c s).trans (retire_calm i _ _)
  · exact (postMissed_calm i c s).trans (h _ _)

theorem continueCue_calm : Calm s (continueCue i c s) := by
  have enters (d : Cue) (u : State) : Calm u (enterPending i d u) := setCueTable_calm u _
  unfold continueCue advance
  dsimp only
  split
  · exact retire_calm i _ s
  · split
    · exact enters _ s
    · split
      · exact catchUpSkip_calm i _ s enters
      · exact enters _ s

theorem shiftCue_calm (shift : Triple) : Calm s (shiftCue i c shift s) := by
  have stores (d : Cue) (u : State) : Calm u (storeCue i d u) := setCueTable_calm u _
  have replaces (d : Cue) (u : State) : Calm u (replacePending i d u) := setCueTable_calm u _
  unfold shiftCue
  dsimp only
  split
  · exact stores _ s
  · split
    · exact replaces _ s
    · split
      · exact (stores c s).trans (catchUpSkip_calm i _ _ replaces)
      · exact replaces _ s
  · split
    · exact stores _ s
    · split
      · exact (stores c s).trans (catchUpSkip_calm i _ _ stores)
      · exact stores _ s

theorem takeAnswer_calm (a : ApplyAnswer) : Calm s (takeAnswer i c a s) := by
  cases a with
  | applied =>
    unfold takeAnswer
    dsimp only
    split
    · exact (post_calm s _ _).trans (continueCue_calm i _ _)
    · exact continueCue_calm i _ s
  | refused g => exact (post_calm s _ _).trans (continueCue_calm i _ _)
  | deferred g => exact setCueTable_calm s _

theorem occur_calm : Calm s (occur i c s) := by
  unfold occur
  split
  · exact setCueTable_calm s _
  · split
    · exact (postMissed_calm i c s).trans (continueCue_calm i _ _)
    · exact (setOutput_calm s _).trans (takeAnswer_calm i c _ _)

theorem applyMember_calm : Calm s (applyMember s i) := by
  unfold applyMember
  split
  · exact .refl s
  · split
    · exact setCueTable_calm s _
    · dsimp only
      split
      · exact setCueTable_calm s _
      · exact shiftCue_calm i _ s _

theorem applySet_calm (k : SetId) (owner : Port) (n : Nat) : Calm s (applySet k owner n s) := by
  have members : Calm s ((s.cueTable.membersOf k).foldl applyMember s) :=
    List.foldlRecOn (motive := Calm s) _ _ (.refl s) fun u h i _ => h.trans (applyMember_calm i u)
  exact (members.trans (setCueTable_calm _ _)).trans (post_calm _ _ _)

end Firing

/-! ### Commands that are taken and calm otherwise -/

/-- The command `i` is calm, once a head has been taken for it, directly or at the grant of its request. -/
inductive Routine (i : Instr) (s t : State) : Prop
  | calm (h : Calm s t)
  | direct (p : Port) (r : Request) (head : s.head p = some r) (h : Calm (takeHead p s) t)
  | granted (p : Port) (r : Request) (k : CommandKind) (c : ListClass) (command : grantedCommand k p = some i)
      (listed : listClass k = some c) (grants : s.Grants p k r) (h : Calm (afterGrant c p s) t)

section Routines

variable {i : Instr} {s t : State} {p : Port} {k : CommandKind}

theorem routine_of_whenLive {event : State → State} (e : whenLive s event = .next t) (h : Calm s (event s)) :
    Routine i s t :=
  of_whenLive (P := Routine i s) e (.calm (.refl s)) (.calm h)

theorem routine_of_takeDirect {effect : Ticket → List Byte → State → State} (e : takeDirect k p s effect = .next t)
    (h : ∀ c b u, Calm u (effect c b u)) : Routine i s t :=
  of_takeDirect (P := Routine i s) e (.calm (.refl s)) fun r takes => .direct p r takes.2.1 (h _ _ _)

theorem execResetEnd_routine (e : execResetEnd s = .next t) : Routine i s t := by
  obtain rfl := Host.Outcome.next.inj e
  refine .calm ?_
  split
  · dsimp only
    split
    · exact (setInputs_calm s _).trans (tripEntry_calm _ _)
    · exact setInputs_calm s _
  · exact .refl s

theorem execTbStep_routine (e : execTbStep s = .next t) : Routine i s t := by
  rcases execTbStep_cases e with ⟨-, rfl⟩ | rfl
  · exact .calm (setTimeBase_calm s _)
  · exact .calm (.refl _)

theorem execRefclkPeriodEnd_routine {pins : InputSample} (e : execRefclkPeriodEnd pins s = .next t) :
    Routine i s t := by
  rcases execRefclkPeriodEnd_cases e with ⟨-, rfl⟩ | rfl
  · exact .calm ((setTimeBase_calm s _).trans (setInputs_calm _ _))
  · exact .calm (.refl _)

theorem execFaultLow_routine (e : execFaultLow s = .next t) : Routine i s t := by
  refine routine_of_whenLive e ?_
  split
  · split
    · exact (setInputs_calm s _).trans (tripEntry_calm _ _)
    · exact setInputs_calm s _
  · exact .refl s

theorem execFaultHigh_routine (e : execFaultHigh s = .next t) : Routine i s t := by
  refine routine_of_whenLive e ?_
  split
  · exact setInputs_calm s _
  · exact .refl s

theorem execPulseEndExpiry_routine {l : Line} (e : execPulseEndExpiry l s = .next t) : Routine i s t := by
  refine routine_of_whenLive e ?_
  split
  · exact setOutput_calm s _
  · exact .refl s

theorem execHoldoffExpiry_routine {g : Group} (e : execHoldoffExpiry g s = .next t) : Routine i s t := by
  refine routine_of_whenLive e ?_
  split
  · split
    · exact setOutput_calm s _
    · exact .refl s
  · exact .refl s

theorem execTrip_routine (e : execTrip p s = .next t) : Routine i s t := by
  refine routine_of_takeDirect e fun c b u => ?_
  split
  · exact (tripEntry_calm u _).trans (answer_calm _ _ _ _)
  · exact answer_calm u _ _ _

theorem execClearTrip_routine (e : execClearTrip p s = .next t) : Routine i s t := by
  refine routine_of_takeDirect e fun c b u => ?_
  split
  · exact answer_calm u _ _ _
  · split
    · exact answer_calm u _ _ _
    · exact ((setOutput_calm u _).trans (postAll_calm _ _)).trans (answer_calm _ _ _ _)

theorem execOccurrence_routine (e : execOccurrence s = .next t) : Routine i s t := by
  refine routine_of_whenLive e ?_
  split
  · exact (setCueTable_calm s _).trans (occur_calm _ _ _)
  · exact .refl s

theorem execCommitTimeExpiry_routine {k : SetId} (e : execCommitTimeExpiry k s = .next t) : Routine i s t := by
  refine routine_of_whenLive e ?_
  split
  · split
    · exact .refl s
    · split
      · exact applySet_calm s k _ _
      · exact setCueTable_calm s _
  · exact .refl s
  · exact .refl s

theorem execOpeningNotice_routine {g : Group} (e : execOpeningNotice g s = .next t) : Routine i s t := by
  refine routine_of_whenLive e ?_
  split
  · exact (setOutput_calm s _).trans (setCueTable_calm _ _)
  · exact .refl s

/-! ### The port units and the session unit -/

theorem execFrameStart_routine (e : execFrameStart p s = .next t) : Routine i s t := by
  refine routine_of_whenLive e ?_
  split
  · exact (setInputs_calm s _).trans (changePort_calm ⟨rfl, rfl, rfl, rfl, rfl⟩)
  · exact .refl s

/-- The port unit answers its head itself, or leaves it (R183). -/
theorem execBadKind_routine (e : execBadKind p s = .next t) : Routine i s t := by
  refine of_whenLive (P := Routine i s) e (.calm (.refl s)) ?_
  split
  · next r head =>
    split
    · exact .direct p r head (answer_calm _ _ _ _)
    · exact .calm (.refl s)
  · exact .calm (.refl s)

theorem execPortUnitNotAttached_routine (e : execPortUnitNotAttached p s = .next t) : Routine i s t := by
  refine of_whenLive (P := Routine i s) e (.calm (.refl s)) ?_
  split
  · next r head =>
    split
    · exact .direct p r head (answer_calm _ _ _ _)
    · exact .calm (.refl s)
  · exact .calm (.refl s)

theorem execReadTime_routine (e : execReadTime p s = .next t) : Routine i s t :=
  routine_of_takeDirect e fun _ _ u => answer_calm u _ _ _

theorem execReadEvents_routine (e : execReadEvents p s = .next t) : Routine i s t := by
  refine routine_of_takeDirect e fun c b u => ?_
  unfold readEvents
  split <;> exact answer_calm u _ _ _

theorem execReadConfig_routine (e : execReadConfig p s = .next t) : Routine i s t := by
  refine routine_of_takeDirect e fun c b u => ?_
  unfold readConfig
  split
  · exact answer_calm u _ _ _
  · split <;> exact answer_calm u _ _ _

/-! ### Claims (chapter 7) -/

theorem execClaim_routine (e : execClaim p s = .next t) : Routine i s t := by
  refine routine_of_takeDirect e fun c b u => ?_
  have recorded (v : ClaimUnit) (st : Status) (body : List Byte) : Calm u (answer c st body (u.setClaims v)) :=
    (setClaims_calm u v).trans (answer_calm _ _ _ _)
  unfold claim claimLine
  iterate 2
    split
    · exact answer_calm u _ _ _
  split
  · dsimp only
    split
    · exact recorded _ _ _
    · iterate 3
        split
        · exact answer_calm u _ _ _
      exact recorded _ _ _
  · exact answer_calm u _ _ _

theorem execQueryLine_routine (e : execQueryLine p s = .next t) : Routine i s t := by
  refine routine_of_takeDirect e fun c b u => ?_
  unfold queryLine
  split
  · exact answer_calm u _ _ _
  · split <;> exact answer_calm u _ _ _

theorem execReleaseAtClaimUnit_routine (e : execReleaseAtClaimUnit p s = .next t) : Routine i s t := by
  refine routine_of_whenLive e ?_
  split
  · unfold decideRelease
    dsimp only
    split
    · exact setClaims_calm s _
    · split <;> exact (setClaims_calm s _).trans (answer_calm _ _ _ _)
  · exact .refl s

theorem execPortReleaseStart_routine {why : Departure} (e : execPortReleaseStart p why s = .next t) :
    Routine i s t := by
  refine routine_of_whenLive e ?_
  split
  · split
    · exact setClaims_calm s _
    · exact .refl s
  · exact .refl s

theorem execHaltRelease_routine (e : execHaltRelease s = .next t) : Routine i s t := by
  refine routine_of_whenLive e ?_
  split
  · exact setClaims_calm s _
  · exact .refl s

theorem execSafeLevelDrive_routine {h : Handover} (e : execSafeLevelDrive h s = .next t) : Routine i s t := by
  refine routine_of_whenLive e ?_
  cases h with
  | release p =>
    dsimp only
    split
    · exact (setOutput_calm s _).trans (setClaims_calm _ _)
    · exact .refl s
  | departure p why =>
    dsimp only
    split
    · exact (setOutput_calm s _).trans (setClaims_calm _ _)
    · exact .refl s
  | halt =>
    dsimp only
    split
    · exact (driveEvery_calm s).trans (setClaims_calm _ _)
    · exact .refl s

theorem execClaimTransfer_routine {h : Handover} (e : execClaimTransfer h s = .next t) : Routine i s t := by
  refine routine_of_whenLive e ?_
  cases h with
  | release p =>
    dsimp only
    split
    · next j _ =>
      have given : Calm s (if s.mayTransfer p j then transferLine p j.line s else s) := by
        split
        · exact transferLine_calm s p j.line
        · exact .refl s
      exact (given.trans (setClaims_calm _ _)).trans (answer_calm _ _ _ _)
    · exact .refl s
  | departure p why =>
    dsimp only
    split
    · exact (transferLine_calm s p _).trans (setClaims_calm _ _)
    · exact .refl s
  | halt => exact .refl s

end Routines

/-! ### List-class commands (chapters 2 and 4, R125, R151) -/

section Listing

variable {i : Instr} {s t : State} {p : Port} {k : CommandKind}

theorem AnswersMoving.calm {c : Ticket} (h : AnswersMoving c s t) : Calm s t := by
  obtain ⟨st, b, ct, -, rfl⟩ := h
  exact (setCueTable_calm s ct).trans (answer_calm _ _ _ _)

theorem addCue_calm (c : Ticket) (b : List Byte) (s : State) : Calm s (addCue c b s) := by
  rcases addCue_cases c b s with ⟨st, refused⟩ | ⟨q, j, body, -, -, -, -, enters⟩
  · rw [refused]
    exact answer_calm s _ _ _
  · rw [enters]
    exact (setCueTable_calm s _).trans (answer_calm _ _ _ _)

theorem releaseLine_calm (c : Ticket) (b : List Byte) (s : State) : Calm s (releaseLine c b s) := by
  unfold releaseLine
  iterate 2
    split
    · exact answer_calm s _ _ _
  split
  · exact (setCueTable_calm s _).trans (setClaims_calm _ _)
  · exact setClaims_calm s _

theorem purgePort_calm (p : Port) (why : Departure) (owes : Option Ticket) (s : State) :
    Calm s (purgePort p why owes s) :=
  (setCueTable_calm s _).trans (setClaims_calm _ _)

/-- The command of a list-class kind takes the grant of its request, and its effect is calm (R136, R137). -/
theorem exec_takesGrant (command : grantedCommand k p = some i) : ∃ effect : Ticket → List Byte → State → State,
    (∀ s, exec i s = takeGranted k p s effect) ∧ ∀ c b u, Calm u (effect c b u) := by
  cases k with
  | cancelCue => cases command; exact ⟨_, fun _ => rfl, fun c b u => (cancelCue_answers c b u).calm⟩
  | queryCue => cases command; exact ⟨_, fun _ => rfl, fun c b u => (queryCue_answers c b u).calm⟩
  | stage => cases command; exact ⟨_, fun _ => rfl, fun c b u => (stageCue_answers c b u).calm⟩
  | unstage => cases command; exact ⟨_, fun _ => rfl, fun c b u => (unstageCue_answers c b u).calm⟩
  | openSet => cases command; exact ⟨_, fun _ => rfl, fun c b u => (openSet_answers c b u).calm⟩
  | commitSet => cases command; exact ⟨_, fun _ => rfl, fun c b u => (commitSet_answers c b u).calm⟩
  | abandonSet => cases command; exact ⟨_, fun _ => rfl, fun c b u => (abandonSet_answers c b u).calm⟩
  | addCue => cases command; exact ⟨_, fun _ => rfl, addCue_calm⟩
  | release => cases command; exact ⟨_, fun _ => rfl, releaseLine_calm⟩
  | detach => cases command; exact ⟨_, fun _ => rfl, fun c _ u => purgePort_calm c.port .detach (some c) u⟩
  | _ => cases command

theorem routine_of_grantedCommand {c : ListClass} (command : grantedCommand k p = some i)
    (listed : listClass k = some c) (e : exec i s = .next t) : Routine i s t := by
  obtain ⟨effect, takes, calm⟩ := exec_takesGrant command
  rw [takes] at e
  exact of_takeGranted (P := Routine i s) e listed (.calm (.refl s)) fun r grants =>
    .granted p r k c command listed grants (calm _ _ _)

end Listing

end Sys2Proof.Machine

namespace Sys2Proof

/-- The commands that may change the arbiter, the session or the queues beyond the taking of a head or a grant. -/
def Instr.stirs : Instr → Bool
  | .deviceReset _ | .frameEnd _ _ | .presentRequest _ | .replyArrival _ | .eventPosted _ | .ackEvents _ | .attach _
  | .writeConfig _ | .confirm _ | .haltVote _ | .lapsePurge _ | .haltPurge | .detachCompletion _ | .haltCompletion
  | .lapse _ | .lapseCleanupCompletion _ => true
  | _ => false

end Sys2Proof

namespace Sys2Proof.Machine

/-- Every other command is calm once it is taken. -/
theorem exec_routine {i : Instr} {s t : State} (calm : i.stirs = false) (e : exec i s = .next t) : Routine i s t := by
  cases i with
  | deviceReset | frameEnd | presentRequest | replyArrival | eventPosted | ackEvents | attach | writeConfig | confirm
  | haltVote | lapsePurge | haltPurge | detachCompletion | haltCompletion | lapse | lapseCleanupCompletion => cases calm
  | resetEnd => exact execResetEnd_routine e
  | tbStep => exact execTbStep_routine e
  | faultLow => exact execFaultLow_routine e
  | faultHigh => exact execFaultHigh_routine e
  | frameStart p => exact execFrameStart_routine e
  | badKind p => exact execBadKind_routine e
  | readTime p => exact execReadTime_routine e
  | readEvents p => exact execReadEvents_routine e
  | readConfig p => exact execReadConfig_routine e
  | claim p => exact execClaim_routine e
  | queryLine p => exact execQueryLine_routine e
  | trip p => exact execTrip_routine e
  | clearTrip p => exact execClearTrip_routine e
  | addCue p => exact routine_of_grantedCommand (k := .addCue) rfl rfl e
  | cancelCue p => exact routine_of_grantedCommand (k := .cancelCue) rfl rfl e
  | queryCue p => exact routine_of_grantedCommand (k := .queryCue) rfl rfl e
  | stage p => exact routine_of_grantedCommand (k := .stage) rfl rfl e
  | unstage p => exact routine_of_grantedCommand (k := .unstage) rfl rfl e
  | openSet p => exact routine_of_grantedCommand (k := .openSet) rfl rfl e
  | commitSet p => exact routine_of_grantedCommand (k := .commitSet) rfl rfl e
  | abandonSet p => exact routine_of_grantedCommand (k := .abandonSet) rfl rfl e
  | release p => exact routine_of_grantedCommand (k := .release) rfl rfl e
  | detach p => exact routine_of_grantedCommand (k := .detach) rfl rfl e
  | releaseAtClaimUnit p => exact execReleaseAtClaimUnit_routine e
  | safeLevelDrive h => exact execSafeLevelDrive_routine e
  | claimTransfer h => exact execClaimTransfer_routine e
  | portReleaseStart p why => exact execPortReleaseStart_routine e
  | haltRelease => exact execHaltRelease_routine e
  | occurrence => exact execOccurrence_routine e
  | commitTimeExpiry k => exact execCommitTimeExpiry_routine e
  | openingNotice g => exact execOpeningNotice_routine e
  | pulseEndExpiry l => exact execPulseEndExpiry_routine e
  | holdoffExpiry g => exact execHoldoffExpiry_routine e
  | refclkPeriodEnd pins => exact execRefclkPeriodEnd_routine e
  | portUnitNotAttached p => exact execPortUnitNotAttached_routine e

end Sys2Proof.Machine
end

section
/-! PROOFS. The bounds of the queues at every command (R137, R181, R183, R188): what the law asks of one port, and that
each command keeps it. -/

namespace Sys2Proof.Machine

/-! ### The law of one port -/

/-- The queues of a port unit stay within their bounds; `presented` tells whether its head command waits on a leaf. -/
structure PortUnit.Bounded (u : PortUnit) (presented : Bool) : Prop where
  commands : u.cmds.length ≤ Config.commandQueueBound
  replies : u.replies.length + (if u.setAside then 1 else 0) ≤ Config.replyQueueBound
  events : u.events.length ≤ Config.eventQueueBound
  presented : presented = true → u.setAside = false ∧ u.freeEntry = true
  unattached : u.state ≠ .attached → u.events = []

theorem attached_eq_false_iff (s : State) (p : Port) : s.attached p = false ↔ (s.port p).state ≠ .attached := by
  simp [State.attached]

theorem queuesBounded_iff (s : State) :
    s.QueuesBounded ↔ ∀ p, (s.port p).Bounded (look s.arbiter.presented p) :=
  ⟨fun h p => ⟨h.commands p, h.replies p, h.events p, h.presented p,
      fun away => h.unattached p ((attached_eq_false_iff s p).2 away)⟩,
    fun h => ⟨fun p => (h p).commands, fun p => (h p).replies, fun p => (h p).events, fun p => (h p).presented,
      fun p away => (h p).unattached ((attached_eq_false_iff s p).1 away)⟩⟩

theorem freeEntry_iff (u : PortUnit) :
    u.freeEntry = true ↔ u.replies.length + (if u.setAside then 1 else 0) < Config.replyQueueBound := by
  simp [PortUnit.freeEntry]

namespace PortUnit.Bounded

variable {u v : PortUnit} {b : Bool}

theorem of_same (h : u.Bounded b) (k : u.SameQueues v) : v.Bounded b := by
  have free : v.freeEntry = u.freeEntry := by unfold PortUnit.freeEntry; rw [k.replies, k.setAside]
  exact ⟨k.cmds ▸ h.commands, by rw [k.replies, k.setAside]; exact h.replies, k.events ▸ h.events,
    by rw [k.setAside, free]; exact h.presented, by rw [k.state, k.events]; exact h.unattached⟩

/-- A reply entry is set aside only where one is free (R183). -/
theorem taken (h : u.Bounded b) (free : u.freeEntry = true) : u.setEntryAside.Bounded false :=
  { h with
    presented := nofun
    replies := by
      have room := (freeEntry_iff u).1 free
      exact Nat.lt_of_le_of_lt (Nat.le_add_right _ _) room }

/-- Where the event queue becomes shorter, or is emptied with the attachment. -/
theorem of_events (h : u.Bounded b) {st : PortState} {es : List EventRecord} {o : Byte}
    (few : es.length ≤ Config.eventQueueBound) (away : st ≠ .attached → es = []) :
    ({ u with state := st, events := es, overflow := o } : PortUnit).Bounded b :=
  { h with events := few, unattached := away }

/-- A reply read leaves its queue (R176). -/
theorem closeFrame (h : u.Bounded b) (f : Snapshot) (bytes : List Byte) : (u.closeFrame f bytes).Bounded b := by
  have fewer : (u.closeFrame f bytes).replies.length ≤ u.replies.length := by
    unfold PortUnit.closeFrame
    dsimp only
    split
    · simp
    · exact Nat.le_refl _
  exact { h with
    replies := (Nat.add_le_add_right fewer _).trans h.replies
    presented := fun m => by
      obtain ⟨none, free⟩ := h.presented m
      exact ⟨none, (freeEntry_iff _).2 (Nat.lt_of_le_of_lt (Nat.add_le_add_right fewer _) ((freeEntry_iff u).1 free))⟩ }

/-- A copy of the last reply needs a free entry, and a presented request one more (R137, R180). -/
theorem copyReply (h : u.Bounded b) (free : u.freeEntry = true) {b' : Bool}
    (still : b' = true → b = true ∧ u.copyReply.freeEntry = true) : u.copyReply.Bounded b' :=
  { h with
    replies := by
      have room := (freeEntry_iff u).1 free
      have one : u.lastReply.toList.length ≤ 1 := by cases u.lastReply <;> simp
      rw [PortUnit.copyReply, List.length_append, Nat.add_right_comm]
      exact (Nat.add_le_add_left one _).trans room
    presented := fun m => ⟨(h.presented (still m).1).1, (still m).2⟩ }

/-- A new request needs room in the command queue (R181). -/
theorem queued (h : u.Bounded b) (room : u.cmds.length < Config.commandQueueBound) (r : Request)
    (a : Option LastAccepted) (d : DropReason) :
    ({ u with cmds := u.cmds ++ [r], lastAccepted := a, drop := d } : PortUnit).Bounded b :=
  { h with
    commands := by
      rw [List.length_append]
      exact room }

/-- A reply takes the entry that was set aside for it, beside which no request is presented (R137, R184). -/
theorem takeReply (h : u.Bounded b) (aside : u.setAside = true) (r : Reply) : (u.takeReply r).Bounded b :=
  { h with
    commands := by
      show u.cmds.tail.length ≤ _
      have := h.commands
      simp only [List.length_tail]
      omega
    replies := by
      have room := h.replies
      rw [aside] at room
      simpa [PortUnit.takeReply] using room
    presented := fun m => by
      have none := (h.presented m).1
      rw [aside] at none
      cases none }

/-- A record joins the event queue of an ATTACHED port while there is room (R188). -/
theorem takeRecord (h : u.Bounded b) (e : EventRecord) : (u.takeRecord e).Bounded b := by
  unfold PortUnit.takeRecord
  split
  · next attached =>
    split
    · next room =>
      refine { h with events := ?_, unattached := fun away => absurd attached away }
      rw [List.length_append]
      exact room
    · exact { h with }
  · exact h
  · exact h

end PortUnit.Bounded

/-! ### The law of all ports -/

/-- What the law reads has not changed, nor have the switches. -/
structure QueuesStay (s t : State) : Prop where
  switches : t.arbiter.switches = s.arbiter.switches
  presented : t.arbiter.presented = s.arbiter.presented
  units : ∀ q, (s.port q).SameQueues (t.port q)

section Ports

variable {s t u : State} {p : Port}

theorem Calm.queues (h : Calm s t) : QueuesStay s t := ⟨by rw [h.arbiter], by rw [h.arbiter], h.units⟩

theorem QueuesStay.refl (s : State) : QueuesStay s s := (Calm.refl s).queues

theorem QueuesStay.trans (h : QueuesStay s t) (k : QueuesStay t u) : QueuesStay s u :=
  ⟨k.switches.trans h.switches, k.presented.trans h.presented, fun q => (h.units q).trans (k.units q)⟩

/-- The law goes on where one port keeps it and of the others nothing changes that it reads. -/
theorem State.QueuesBounded.of_port (h : s.QueuesBounded) (units : ∀ q, q ≠ p → (s.port q).SameQueues (t.port q))
    (presented : ∀ q, q ≠ p → look t.arbiter.presented q = look s.arbiter.presented q)
    (here : (t.port p).Bounded (look t.arbiter.presented p)) : t.QueuesBounded := by
  refine (queuesBounded_iff t).2 fun q => ?_
  by_cases same : q = p
  · exact same ▸ here
  · rw [presented q same]
    exact ((queuesBounded_iff s).1 h q).of_same (units q same)

theorem State.QueuesBounded.stay (h : s.QueuesBounded) (k : QueuesStay s t) : t.QueuesBounded :=
  (queuesBounded_iff t).2 fun q => by
    rw [k.presented]
    exact ((queuesBounded_iff s).1 h q).of_same (k.units q)

theorem State.QueuesBounded.changePort (h : s.QueuesBounded) {f : PortUnit → PortUnit}
    (here : (s.port p).Bounded (look s.arbiter.presented p) →
      (f (s.port p)).Bounded (look s.arbiter.presented p)) : (s.changePort p f).QueuesBounded :=
  h.of_port (fun q other => by rw [changePort_port_ne p q f s other]; exact .refl _) (fun _ _ => rfl)
    (by rw [changePort_port_self]; exact here ((queuesBounded_iff s).1 h p))

/-- A port unit that changes while its request is taken off its leaf (R139). -/
theorem State.QueuesBounded.changeWithdraw (h : s.QueuesBounded) {f : PortUnit → PortUnit}
    (here : (s.port p).Bounded (look s.arbiter.presented p) → (f (s.port p)).Bounded false) :
    (withdraw p (s.changePort p f)).QueuesBounded := by
  have unit (q : Port) : (withdraw p (s.changePort p f)).port q = (s.changePort p f).port q := rfl
  have leaf (q : Port) : look (withdraw p (s.changePort p f)).arbiter.presented q =
      look (put s.arbiter.presented p false) q := rfl
  refine h.of_port (p := p) (fun q other => ?_) (fun q other => ?_) ?_
  · rw [unit, changePort_port_ne p q f s other]
    exact .refl _
  · rw [leaf, look_put_ne _ _ other]
  · rw [unit, leaf, changePort_port_self, look_put_self]
    exact here ((queuesBounded_iff s).1 h p)

/-- A command is taken where a reply entry is free; it waits on no leaf then (R137, R183). -/
theorem State.QueuesBounded.takeHead (h : s.QueuesBounded) (free : (s.port p).freeEntry = true) :
    (takeHead p s).QueuesBounded :=
  h.of_port (fun q other => by rw [takeHead_port, if_neg other]; exact .refl _)
    (fun _ other => look_put_ne _ _ other) (by
      rw [takeHead_port_self]
      show (s.port p).setEntryAside.Bounded (look (put s.arbiter.presented p false) p)
      rw [look_put_self]
      exact ((queuesBounded_iff s).1 h p).taken free)

theorem State.QueuesBounded.afterGrant {r : Request} {k : CommandKind} (h : s.QueuesBounded) (c : ListClass)
    (grants : s.Grants p k r) : (afterGrant c p s).QueuesBounded := by
  have moved : (moveSwitches c p s).QueuesBounded := ⟨h.commands, h.replies, h.events, h.presented, h.unattached⟩
  exact moved.takeHead (h.presented p (presented_of_granted grants.2)).2

theorem bounded_of_whenLive {event : State → State} (e : whenLive s event = .next t) (h : s.QueuesBounded)
    (he : (event s).QueuesBounded) : t.QueuesBounded := of_whenLive e h he

theorem bounded_of_takeDirect {k : CommandKind} {effect : Ticket → List Byte → State → State}
    (e : takeDirect k p s effect = .next t) (h : s.QueuesBounded)
    (he : ∀ c b u, u.QueuesBounded → (effect c b u).QueuesBounded) : t.QueuesBounded :=
  of_takeDirect (P := State.QueuesBounded) e h fun _ takes => he _ _ _ (h.takeHead (head_eq_some takes.2.1).2.2)

theorem Routine.bounded {i : Instr} (h : s.QueuesBounded) (k : Routine i s t) : t.QueuesBounded := by
  cases k with
  | calm calm => exact h.stay calm.queues
  | direct p r head calm => exact (h.takeHead (head_eq_some head).2.2).stay calm.queues
  | granted p r k c _ _ grants calm => exact (h.afterGrant c grants).stay calm.queues

end Ports

/-! ### The commands that change queues (R137, R149, R151, R168, R176 to R190) -/

section Queues

variable {s t : State} {p : Port}

theorem execDeviceReset_bounded {cause : ResetCause} (h : s.QueuesBounded) (e : execDeviceReset cause s = .next t) :
    t.QueuesBounded := by
  rcases execDeviceReset_cases e with rfl | rfl
  · refine (queuesBounded_iff _).2 fun p => ?_
    have unit : (s.enterReset cause).port p = .reset := look_replicate _ p
    have leaf : look (s.enterReset cause).arbiter.presented p = false := look_replicate _ p
    rw [unit, leaf]
    exact ⟨by decide, by decide, by decide, nofun, fun _ => rfl⟩
  · exact h

theorem duplicate_bounded (h : s.QueuesBounded) (a : LastAccepted) : (duplicate p a s).QueuesBounded := by
  have dropped (d : DropReason) : (setDrop p d s).QueuesBounded :=
    h.stay (changePort_calm ⟨rfl, rfl, rfl, rfl, rfl⟩).queues
  unfold duplicate
  split
  · exact dropped _
  · split
    · next free =>
      unfold withdrawIfFull
      split
      · next still =>
        rw [changePort_port_self] at still
        exact h.changePort fun unit => unit.copyReply free fun waits => ⟨waits, still⟩
      · exact h.changeWithdraw fun unit => unit.copyReply free nofun
    · exact dropped _

theorem queueRequest_bounded (h : s.QueuesBounded) (r : Received) : (queueRequest p r s).QueuesBounded := by
  unfold queueRequest
  split
  · next room => exact h.changePort fun unit => unit.queued room _ _ _
  · exact h.stay (changePort_calm ⟨rfl, rfl, rfl, rfl, rfl⟩).queues

theorem reloadLease_calm (p : Port) (s : State) : Calm s (reloadLease p s) := by
  unfold reloadLease
  split
  · exact loadLease_calm s p
  · exact .refl s

theorem takeBytes_bounded (h : s.QueuesBounded) (bytes : List Byte) : (takeBytes p bytes s).QueuesBounded := by
  have loaded := h.stay (reloadLease_calm p s).queues
  unfold takeBytes
  split
  · exact h
  · split
    · exact h.stay (changePort_calm ⟨rfl, rfl, rfl, rfl, rfl⟩).queues
    · unfold acceptRequest
      dsimp only
      split
      · exact loaded
      · split
        · exact duplicate_bounded loaded _
        · exact queueRequest_bounded loaded _

theorem execFrameEnd_bounded {sdi : List Bool} (h : s.QueuesBounded) (e : execFrameEnd p sdi s = .next t) :
    t.QueuesBounded := by
  have taken : (takeSelEdge p s).QueuesBounded := h.stay (setInputs_calm s _).queues
  refine bounded_of_whenLive e h ?_
  split
  · split
    · exact takeBytes_bounded (taken.changePort fun unit => unit.closeFrame _ _) _
    · exact taken
  · exact h

/-- A head can be presented only while a reply entry is free (R137, R183). -/
theorem free_of_presentable (h : s.presentable p = true) :
    (s.port p).setAside = false ∧ (s.port p).freeEntry = true := by
  unfold State.presentable at h
  split at h
  · next r head => exact (head_eq_some head).2
  · cases h

theorem execPresentRequest_bounded (h : s.QueuesBounded) (e : execPresentRequest p s = .next t) :
    t.QueuesBounded := by
  refine bounded_of_whenLive e h ?_
  split
  · next able =>
    exact h.of_port (fun _ _ => .refl _) (fun _ other => look_put_ne _ _ other)
      { (queuesBounded_iff s).1 h p with presented := fun _ => free_of_presentable (s := s) able }
  · exact h

theorem execReplyArrival_bounded (h : s.QueuesBounded) (e : execReplyArrival p s = .next t) : t.QueuesBounded := by
  refine bounded_of_whenLive e h ?_
  split
  · exact h
  · split
    · exact h.stay (changePort_calm ⟨rfl, rfl, rfl, rfl, rfl⟩).queues
    · split
      · next aside => exact h.changePort fun unit => (unit.takeReply aside _).of_same ⟨rfl, rfl, rfl, rfl, rfl⟩
      · exact h

theorem execEventPosted_bounded (h : s.QueuesBounded) (e : execEventPosted p s = .next t) : t.QueuesBounded := by
  refine bounded_of_whenLive e h ?_
  split
  · exact h
  · exact h.changePort fun unit => (unit.takeRecord _).of_same ⟨rfl, rfl, rfl, rfl, rfl⟩

theorem execAckEvents_bounded (h : s.QueuesBounded) (e : execAckEvents p s = .next t) : t.QueuesBounded := by
  refine bounded_of_takeDirect e h fun c b u hu => ?_
  unfold ackEvents
  split
  · exact hu.stay (answer_calm u _ _ _).queues
  · refine State.QueuesBounded.stay ?_ (answer_calm _ _ _ _).queues
    exact hu.changePort fun unit => unit.of_events ((List.length_drop ..).trans_le ((Nat.sub_le ..).trans unit.events))
      fun away => by rw [unit.unattached away, List.drop_nil]

theorem setSession_queues (x : Session) (s : State) : QueuesStay s (s.setSession x) := ⟨rfl, rfl, fun _ => .refl _⟩

theorem execAttach_bounded (h : s.QueuesBounded) (e : execAttach p s = .next t) : t.QueuesBounded := by
  refine bounded_of_takeDirect e h fun c b u hu => ?_
  have attached : (u.changePort c.port PortUnit.attach).QueuesBounded := hu.changePort fun unit =>
    have emptied := unit.of_events (st := .attached) (es := []) (o := 0) (Nat.zero_le _) fun _ => rfl
    emptied.of_same ⟨rfl, rfl, rfl, rfl, rfl⟩
  have joined := attached.stay ((setSession_queues (u.session.forget c.port) _).trans (loadLease_calm _ c.port).queues)
  unfold attach
  split
  · exact hu.stay (answer_calm u _ _ _).queues
  · exact hu.stay (answer_calm u _ _ _).queues
  · exact joined.stay (answer_calm _ _ _ _).queues
  · exact joined.stay (answer_calm _ _ _ _).queues

end Queues

/-! ### The checks of the session unit (R160, R163 to R166) -/

section Checks

variable (s : State)

theorem requestPurge_queues (p : Port) (k : PurgeRequest) : QueuesStay s (requestPurge p k s) :=
  ⟨rfl, rfl, fun _ => .refl _⟩

theorem clearCleanup_calm (p : Port) : Calm s (clearCleanup p s) := changePort_calm ⟨rfl, rfl, rfl, rfl, rfl⟩

theorem resumeWaiter_calm (w : Option HaltWaiter) : Calm s (resumeWaiter w s) := by
  unfold resumeWaiter
  split
  · exact answer_calm s _ _ _
  · exact answer_calm s _ _ _
  · exact clearCleanup_calm s _
  · exact .refl s

theorem phaseCheck_queues : QueuesStay s (phaseCheck s) := by
  unfold phaseCheck
  split
  · exact (setSession_queues _ s).trans (postAll_calm _ _).queues
  · exact .refl s

theorem emptyRunCheck_queues : QueuesStay s (emptyRunCheck s) := by
  rcases emptyRunCheck_cases s with e | e <;> rw [e]
  · exact .refl s
  · exact (setSession_queues _ s).trans (driveEvery_calm _).queues

theorem decideHalt_queues (p : Port) (w : HaltWaiter) : QueuesStay s (decideHalt p w s) :=
  ((setSession_queues _ s).trans (driveEvery_calm _).queues).trans (requestPurge_queues _ p .halt)

theorem departureCheck_queues (c : Ticket) : QueuesStay s (departureCheck c s) := by
  unfold departureCheck
  split
  · exact (phaseCheck_queues s).trans (answer_calm _ _ _ _).queues
  · split
    · exact (emptyRunCheck_queues s).trans (answer_calm _ _ _ _).queues
    · split
      · exact decideHalt_queues s _ _
      · exact (answer_calm s _ _ _).queues

end Checks

/-! ### The commands that change the session alone (R156, R159, R162, R163, R169) -/

/-- The session may change, once a head has been taken, but neither queues nor switches do. -/
def LeavesQueues (s t : State) : Prop :=
  QueuesStay s t ∨ ∃ p r, s.head p = some r ∧ QueuesStay (takeHead p s) t

section Sessions

variable {s t : State} {p : Port} {k : CommandKind}

theorem LeavesQueues.bounded (h : s.QueuesBounded) (k : LeavesQueues s t) : t.QueuesBounded := by
  rcases k with stay | ⟨p, r, head, stay⟩
  · exact h.stay stay
  · exact (h.takeHead (head_eq_some head).2.2).stay stay

theorem LeavesQueues.switches (k : LeavesQueues s t) : t.arbiter.switches = s.arbiter.switches := by
  rcases k with stay | ⟨p, r, -, stay⟩ <;> exact stay.switches

theorem leavesQueues_of_whenLive {event : State → State} (e : whenLive s event = .next t)
    (h : QueuesStay s (event s)) : LeavesQueues s t :=
  of_whenLive (P := LeavesQueues s) e (.inl (.refl s)) (.inl h)

theorem leavesQueues_of_takeDirect {effect : Ticket → List Byte → State → State}
    (e : takeDirect k p s effect = .next t) (h : ∀ c b u, QueuesStay u (effect c b u)) : LeavesQueues s t :=
  of_takeDirect (P := LeavesQueues s) e (.inl (.refl s)) fun r takes => .inr ⟨p, r, takes.2.1, h _ _ _⟩

theorem execWriteConfig_queues (e : execWriteConfig p s = .next t) : LeavesQueues s t := by
  refine leavesQueues_of_takeDirect e fun c b u => ?_
  have answered (st : Status) (body : List Byte) : QueuesStay u (answer c st body u) := (answer_calm u _ _ _).queues
  unfold writeConfig
  iterate 3
    split
    · exact answered _ _
  split
  · exact answered _ _
  · exact answered _ _
  · split
    · exact answered _ _
    · exact ((setSession_queues _ u).trans ((setTimeBase_calm _ _).trans (setOutput_calm _ _)).queues).trans
        (answer_calm _ _ _ _).queues

theorem execConfirm_queues (e : execConfirm p s = .next t) : LeavesQueues s t := by
  refine leavesQueues_of_takeDirect e fun c b u => ?_
  unfold confirm
  iterate 5
    split
    · exact (answer_calm u _ _ _).queues
  exact ((setSession_queues _ u).trans (phaseCheck_queues _)).trans (answer_calm _ _ _ _).queues

theorem execHaltVote_queues (e : execHaltVote p s = .next t) : LeavesQueues s t := by
  refine leavesQueues_of_takeDirect e fun c b u => ?_
  unfold haltVote
  split
  · exact (answer_calm u _ _ _).queues
  · dsimp only
    split
    · exact (setSession_queues _ u).trans (decideHalt_queues _ _ _)
    · exact (setSession_queues _ u).trans (answer_calm _ _ _ _).queues

theorem execHaltCompletion_queues (e : execHaltCompletion s = .next t) : LeavesQueues s t := by
  refine leavesQueues_of_whenLive e ?_
  split
  · exact ((setClaims_calm s _).queues.trans (setSession_queues _ _)).trans
      ((postAll_calm _ _).trans (resumeWaiter_calm _ _)).queues
  · exact .refl s

theorem execLapseCleanupCompletion_queues (e : execLapseCleanupCompletion p s = .next t) : LeavesQueues s t := by
  have completed (u : State) : QueuesStay u (completeCleanup p u) := by
    have cleared := (clearCleanup_calm u p).queues
    unfold completeCleanup
    split
    · exact cleared.trans (phaseCheck_queues _)
    · split
      · exact cleared.trans (emptyRunCheck_queues _)
      · split
        · exact decideHalt_queues u _ _
        · exact cleared
  refine leavesQueues_of_whenLive e ?_
  split
  · exact (setClaims_calm s _).queues.trans (completed _)
  · exact .refl s

/-! ### Departures and purges (R40, R41, R151, R168) -/

theorem completeDetach_bounded (h : s.QueuesBounded) (c : Ticket) : (completeDetach c s).QueuesBounded := by
  have checked (u : State) : QueuesStay u (departureCheck c (u.setSession (s.session.forget c.port))) :=
    (setSession_queues _ u).trans (departureCheck_queues _ c)
  have left : (s.changePort c.port PortUnit.leave).QueuesBounded := h.changePort fun unit =>
    have emptied := unit.of_events (st := .detached) (es := []) (o := 0) (Nat.zero_le _) fun _ => rfl
    emptied.of_same ⟨rfl, rfl, rfl, rfl, rfl⟩
  unfold completeDetach
  dsimp only
  split
  · exact h.stay (checked s)
  · split
    · exact left.stay (checked _)
    · exact h.stay (answer_calm s _ _ _).queues

theorem execDetachCompletion_bounded (h : s.QueuesBounded) (e : execDetachCompletion p s = .next t) :
    t.QueuesBounded := by
  refine bounded_of_whenLive e h ?_
  split
  · exact completeDetach_bounded (h.stay (setClaims_calm s _).queues) _
  · exact h

/-- A lapse empties the port's queues and takes its request off its leaf (R139, R168). -/
theorem lapsePort_bounded (h : s.QueuesBounded) (p : Port) : (lapsePort p s).QueuesBounded := by
  have emptied : (withdraw p (s.changePort p PortUnit.lapse)).QueuesBounded := h.changeWithdraw fun _ =>
    ⟨Nat.zero_le _, Nat.zero_le _, Nat.zero_le _, nofun, fun _ => rfl⟩
  exact emptied.stay (((setSession_queues _ _).trans (postAll_calm _ _).queues).trans (requestPurge_queues _ p .lapse))

theorem execLapse_bounded (h : s.QueuesBounded) (e : execLapse p s = .next t) : t.QueuesBounded := by
  refine bounded_of_whenLive e h ?_
  split
  · exact lapsePort_bounded h p
  · exact h

/-! A purge takes the grant of its request, and is calm otherwise (R138, R144). -/

theorem execLapsePurge_purges (e : execLapsePurge p s = .next t) :
    Calm s t ∨ s.purgeGranted p .lapse = true ∧ Calm (grantPurge p s) t := by
  refine of_whenLive (P := fun t => Calm s t ∨ s.purgeGranted p .lapse = true ∧ Calm (grantPurge p s) t) e
    (.inl (.refl s)) ?_
  split
  · next granted => exact .inr ⟨granted, purgePort_calm p _ _ _⟩
  · exact .inl (.refl s)

theorem execHaltPurge_purges (e : execHaltPurge s = .next t) :
    Calm s t ∨ ∃ p, s.purgeGranted p .halt = true ∧ Calm (grantPurge p s) t := by
  refine of_whenLive (P := fun t => Calm s t ∨ ∃ p, s.purgeGranted p .halt = true ∧ Calm (grantPurge p s) t) e
    (.inl (.refl s)) ?_
  split
  · next p leaf =>
    exact .inr ⟨p, List.find?_some (p := fun p => s.purgeGranted p .halt) leaf,
      (setCueTable_calm _ _).trans (setClaims_calm _ _)⟩
  · exact .inl (.refl s)

theorem grantPurge_bounded (h : s.QueuesBounded) (p : Port) : (grantPurge p s).QueuesBounded :=
  ⟨h.commands, h.replies, h.events, h.presented, h.unattached⟩

end Sessions

/-- Every command keeps the bounds of the queues. -/
theorem exec_bounded {i : Instr} {s t : State} (h : s.QueuesBounded) (e : exec i s = .next t) : t.QueuesBounded := by
  cases stirs : i.stirs with
  | false => exact (exec_routine stirs e).bounded h
  | true =>
    cases i with
    | deviceReset cause => exact execDeviceReset_bounded h e
    | frameEnd p sdi => exact execFrameEnd_bounded h e
    | presentRequest p => exact execPresentRequest_bounded h e
    | replyArrival p => exact execReplyArrival_bounded h e
    | eventPosted p => exact execEventPosted_bounded h e
    | ackEvents p => exact execAckEvents_bounded h e
    | attach p => exact execAttach_bounded h e
    | writeConfig p => exact (execWriteConfig_queues e).bounded h
    | confirm p => exact (execConfirm_queues e).bounded h
    | haltVote p => exact (execHaltVote_queues e).bounded h
    | haltCompletion => exact (execHaltCompletion_queues e).bounded h
    | lapseCleanupCompletion p => exact (execLapseCleanupCompletion_queues e).bounded h
    | detachCompletion p => exact execDetachCompletion_bounded h e
    | lapse p => exact execLapse_bounded h e
    | lapsePurge p =>
      rcases execLapsePurge_purges e with calm | ⟨-, calm⟩
      · exact h.stay calm.queues
      · exact (grantPurge_bounded h p).stay calm.queues
    | haltPurge =>
      rcases execHaltPurge_purges e with calm | ⟨p, -, calm⟩
      · exact h.stay calm.queues
      · exact (grantPurge_bounded h p).stay calm.queues
    | _ => cases stirs

end Sys2Proof.Machine
end

section
/-! PROOFS. The law of the session at every command (R147, R148, R163), and with it the laws of queues and session at
every step. -/

namespace Sys2Proof.Machine

/-! ### Events that leave the session and the ports' states -/

/-- The session, each port's state and the switches have not changed. -/
structure SessionStays (s t : State) : Prop where
  session : t.session = s.session
  states : ∀ q, (t.port q).state = (s.port q).state
  switches : t.arbiter.switches = s.arbiter.switches

section Stays

variable {s t u : State} {p : Port}

theorem Calm.sessionStays (h : Calm s t) : SessionStays s t :=
  ⟨h.session, fun q => (h.units q).state, by rw [h.arbiter]⟩

theorem SessionStays.refl (s : State) : SessionStays s s := (Calm.refl s).sessionStays

theorem SessionStays.trans (h : SessionStays s t) (k : SessionStays t u) : SessionStays s u :=
  ⟨k.session.trans h.session, fun q => (k.states q).trans (h.states q), k.switches.trans h.switches⟩

theorem SessionStays.attached (h : SessionStays s t) (q : Port) : t.attached q = s.attached q := by
  unfold State.attached
  rw [h.states]

theorem changePort_sessionStays {f : PortUnit → PortUnit} (h : (f (s.port p)).state = (s.port p).state) :
    SessionStays s (s.changePort p f) where
  session := rfl
  switches := rfl
  states q := by
    rw [changePort_port]
    split
    · next same => rw [h, same]
    · rfl

theorem withdraw_sessionStays (p : Port) (s : State) : SessionStays s (withdraw p s) := ⟨rfl, fun _ => rfl, rfl⟩

theorem requestPurge_sessionStays (p : Port) (k : PurgeRequest) (s : State) : SessionStays s (requestPurge p k s) :=
  ⟨rfl, fun _ => rfl, rfl⟩

theorem takeHead_sessionStays (p : Port) (s : State) : SessionStays s (takeHead p s) where
  session := rfl
  switches := rfl
  states q := by
    rw [takeHead_port]
    split
    · next same => rw [same]; rfl
    · rfl

theorem takeBytes_sessionStays (p : Port) (bytes : List Byte) (s : State) : SessionStays s (takeBytes p bytes s) := by
  have dropped (d : DropReason) (u : State) : SessionStays u (setDrop p d u) := changePort_sessionStays rfl
  have copied (u : State) : SessionStays u (u.changePort p PortUnit.copyReply) := changePort_sessionStays rfl
  have repeated (a : LastAccepted) (u : State) : SessionStays u (duplicate p a u) := by
    unfold duplicate withdrawIfFull
    split
    · exact dropped _ u
    · split
      · split
        · exact copied u
        · exact (copied u).trans (withdraw_sessionStays p _)
      · exact dropped _ u
  have queued (r : Received) (u : State) : SessionStays u (queueRequest p r u) := by
    unfold queueRequest
    split
    · exact changePort_sessionStays rfl
    · exact dropped _ u
  have loaded := (reloadLease_calm p s).sessionStays
  unfold takeBytes acceptRequest
  split
  · exact .refl s
  · split
    · exact dropped _ s
    · dsimp only
      split
      · exact loaded
      · split
        · exact loaded.trans (repeated _ _)
        · exact loaded.trans (queued _ _)

theorem sessionStays_of_whenLive {event : State → State} (e : whenLive s event = .next t)
    (h : SessionStays s (event s)) : SessionStays s t := of_whenLive (P := SessionStays s) e (.refl s) h

theorem execFrameEnd_sessionStays {sdi : List Bool} (e : execFrameEnd p sdi s = .next t) : SessionStays s t := by
  have taken : SessionStays s (takeSelEdge p s) := (setInputs_calm s _).sessionStays
  refine sessionStays_of_whenLive e ?_
  split
  · split
    · exact (taken.trans (changePort_sessionStays rfl)).trans (takeBytes_sessionStays p _ _)
    · exact taken
  · exact .refl s

theorem execPresentRequest_sessionStays (e : execPresentRequest p s = .next t) : SessionStays s t := by
  refine sessionStays_of_whenLive e ?_
  split
  · exact ⟨rfl, fun _ => rfl, rfl⟩
  · exact .refl s

theorem execReplyArrival_sessionStays (e : execReplyArrival p s = .next t) : SessionStays s t := by
  refine sessionStays_of_whenLive e ?_
  split
  · exact .refl s
  · split
    · exact changePort_sessionStays rfl
    · split
      · exact changePort_sessionStays rfl
      · exact .refl s

theorem takeRecord_state (u : PortUnit) (e : EventRecord) : (u.takeRecord e).state = u.state := by
  unfold PortUnit.takeRecord
  split
  · split <;> rfl
  · rfl
  · rfl

theorem execEventPosted_sessionStays (e : execEventPosted p s = .next t) : SessionStays s t := by
  refine sessionStays_of_whenLive e ?_
  split
  · exact .refl s
  · exact changePort_sessionStays (takeRecord_state _ _)

theorem execAckEvents_sessionStays (e : execAckEvents p s = .next t) : SessionStays s t := by
  refine of_takeDirect (P := SessionStays s) e (.refl s) fun r _ => (takeHead_sessionStays p s).trans ?_
  unfold ackEvents
  split
  · exact (answer_calm _ _ _ _).sessionStays
  · exact (changePort_sessionStays rfl).trans (answer_calm _ _ _ _).sessionStays

end Stays

/-! ### The law -/

section Law

variable {s t : State} {p : Port}

theorem State.SessionLaw.stay (h : s.SessionLaw) (k : SessionStays s t) : t.SessionLaw :=
  ⟨by rw [k.session]; exact h.flag, by rw [k.session]; exact h.waits,
    by rw [k.session]; exact fun q m => (k.attached q).trans (h.confirmed q m),
    by rw [k.session]; exact fun q m => (k.attached q).trans (h.voted q m)⟩

/-- A port's confirmation and vote are forgotten where it may cease to be ATTACHED (R149, R151, R168). -/
theorem State.SessionLaw.forgets (h : s.SessionLaw) (others : ∀ q, q ≠ p → t.attached q = s.attached q) :
    (t.setSession (s.session.forget p)).SessionLaw := by
  have kept {v : Vector Bool 4} {q : Port} (m : look (put v p false) q = true) : q ≠ p ∧ look v q = true := by
    rw [look_put] at m
    split at m
    · cases m
    · next other => exact ⟨other, m⟩
  refine ⟨h.flag, h.waits, fun q m => ?_, fun q m => ?_⟩ <;> obtain ⟨other, m⟩ := kept m <;>
    rw [setSession_attached, others q other]
  · exact h.confirmed q m
  · exact h.voted q m

theorem changePort_attached_ne {q : Port} (f : PortUnit → PortUnit) (other : q ≠ p) :
    (s.changePort p f).attached q = s.attached q := by
  unfold State.attached
  rw [changePort_port_ne p q f s other]

theorem State.SessionLaw.answer (h : s.SessionLaw) (c : Ticket) (st : Status) (b : List Byte) :
    (answer c st b s).SessionLaw := h.stay (answer_calm s c st b).sessionStays

/-- RUN is entered only outside a halt (R160). -/
theorem phaseCheck_lawful (h : s.SessionLaw) : (phaseCheck s).SessionLaw := by
  unfold phaseCheck
  split
  · next agreed =>
    obtain ⟨-, clean, -⟩ := (agreed_iff s).1 agreed
    have runs : (s.setSession { s.session with phase := .run }).SessionLaw :=
      ⟨fun halting => absurd (clean.symm.trans halting) (by decide), h.waits, h.confirmed, h.voted⟩
    exact runs.stay (postAll_calm _ _).sessionStays
  · exact h

/-- A decided halt brings SETUP, the flag and what waits (R163). -/
theorem decideHalt_lawful (h : s.SessionLaw) (p : Port) (w : HaltWaiter) : (decideHalt p w s).SessionLaw := by
  have attached (q : Port) : (decideHalt p w s).attached q = s.attached q := by
    simp [State.attached, State.port]
  refine ⟨fun _ => by simp, by simp, fun q m => ?_, fun q m => ?_⟩ <;> rw [decideHalt_session] at m <;> rw [attached]
  · exact h.confirmed q m
  · exact h.voted q m

theorem emptyRunCheck_lawful (h : s.SessionLaw) : (emptyRunCheck s).SessionLaw := by
  rcases emptyRunCheck_cases s with e | e <;> rw [e]
  · exact h
  · have setup : (s.setSession { s.session with phase := .setup }).SessionLaw :=
      ⟨fun _ => rfl, h.waits, h.confirmed, h.voted⟩
    exact setup.stay (driveEvery_calm _).sessionStays

theorem departureCheck_lawful (h : s.SessionLaw) (c : Ticket) : (departureCheck c s).SessionLaw := by
  unfold departureCheck
  split
  · exact (phaseCheck_lawful h).answer _ _ _
  · split
    · exact (emptyRunCheck_lawful h).answer _ _ _
    · split
      · exact decideHalt_lawful h _ _
      · exact h.answer _ _ _

theorem lawful_of_whenLive {event : State → State} (e : whenLive s event = .next t) (h : s.SessionLaw)
    (he : (event s).SessionLaw) : t.SessionLaw := of_whenLive e h he

theorem lawful_of_takeDirect {k : CommandKind} {effect : Ticket → List Byte → State → State}
    (e : takeDirect k p s effect = .next t) (h : s.SessionLaw)
    (he : ∀ c b u, u.SessionLaw → u.passes c.port k = true → (effect c b u).SessionLaw) : t.SessionLaw := by
  refine of_takeDirect (P := State.SessionLaw) e h fun r takes =>
    he _ _ _ (h.stay (takeHead_sessionStays p s)) ?_
  obtain ⟨-, -, -, passes⟩ := takes
  simpa [State.passes] using passes

theorem Routine.lawful {i : Instr} (h : s.SessionLaw) (k : Routine i s t) : t.SessionLaw := by
  cases k with
  | calm calm => exact h.stay calm.sessionStays
  | direct p r _ calm => exact (h.stay (takeHead_sessionStays p s)).stay calm.sessionStays
  | granted p r k c _ _ _ calm =>
    have granted : (moveSwitches c p s).SessionLaw := ⟨h.flag, h.waits, h.confirmed, h.voted⟩
    exact (granted.stay (takeHead_sessionStays p _)).stay calm.sessionStays

end Law

/-! ### The commands that change the session -/

section Sessions

variable {s t : State} {p : Port}

theorem execDeviceReset_lawful {cause : ResetCause} (h : s.SessionLaw) (e : execDeviceReset cause s = .next t) :
    t.SessionLaw := by
  rcases execDeviceReset_cases e with rfl | rfl
  · have none (q : Port) (m : look (Vector.replicate 4 false) q = true) : False := by simp at m
    exact ⟨nofun, rfl, fun q m => (none q m).elim, fun q m => (none q m).elim⟩
  · exact h

theorem execAttach_lawful (h : s.SessionLaw) (e : execAttach p s = .next t) : t.SessionLaw := by
  refine lawful_of_takeDirect e h fun c b u hu _ => ?_
  have joined : (loadLease c.port ((u.changePort c.port PortUnit.attach).setSession
      (u.session.forget c.port))).SessionLaw :=
    (hu.forgets fun _ => changePort_attached_ne _).stay (loadLease_calm _ c.port).sessionStays
  unfold attach
  split
  · exact hu.answer _ _ _
  · exact hu.answer _ _ _
  · exact joined.answer _ _ _
  · exact joined.answer _ _ _

/-- A configuration write clears the confirmations (R156). -/
theorem configure_lawful (h : s.SessionLaw) (w : ConfigWrite) : (configure w s).SessionLaw := by
  have none (q : Port) (m : look (Vector.replicate 4 false) q = true) : False := by simp at m
  refine ⟨?_, ?_, fun q m => ?_, ?_⟩
  · cases w <;> exact h.flag
  · cases w <;> exact h.waits
  · have cleared : (configure w s).session.confirmed = Vector.replicate 4 false := by cases w <;> rfl
    rw [cleared] at m
    exact (none q m).elim
  · cases w <;> exact h.voted

theorem execWriteConfig_lawful (h : s.SessionLaw) (e : execWriteConfig p s = .next t) : t.SessionLaw := by
  refine lawful_of_takeDirect e h fun c b u hu _ => ?_
  unfold writeConfig
  iterate 3
    split
    · exact hu.answer _ _ _
  split
  · exact hu.answer _ _ _
  · exact hu.answer _ _ _
  · split
    · exact hu.answer _ _ _
    · exact (configure_lawful hu _).answer _ _ _

/-- A mark set for an ATTACHED port stands only for ATTACHED ports. -/
theorem attached_of_marked {v : Vector Bool 4} (marked : ∀ q, look v q = true → s.attached q = true)
    (attached : s.attached p = true) (q : Port) (m : look (put v p true) q = true) : s.attached q = true := by
  rw [look_put] at m
  split at m
  · next same => exact same ▸ attached
  · exact marked q m

theorem execConfirm_lawful (h : s.SessionLaw) (e : execConfirm p s = .next t) : t.SessionLaw := by
  refine lawful_of_takeDirect e h fun c b u hu passes => ?_
  have attached : u.attached c.port = true := by simpa [State.passes, usableUnattached] using passes
  have recorded : (u.setSession { u.session with confirmed := put u.session.confirmed c.port true }).SessionLaw :=
    ⟨hu.flag, hu.waits, attached_of_marked hu.confirmed attached, hu.voted⟩
  unfold confirm
  iterate 5
    split
    · exact hu.answer _ _ _
  exact (phaseCheck_lawful recorded).answer _ _ _

theorem execHaltVote_lawful (h : s.SessionLaw) (e : execHaltVote p s = .next t) : t.SessionLaw := by
  refine lawful_of_takeDirect e h fun c b u hu passes => ?_
  have attached : u.attached c.port = true := by simpa [State.passes, usableUnattached] using passes
  have recorded : (u.setSession { u.session with voted := put u.session.voted c.port true }).SessionLaw :=
    ⟨hu.flag, hu.waits, hu.confirmed, attached_of_marked hu.voted attached⟩
  unfold haltVote
  split
  · exact hu.answer _ _ _
  · dsimp only
    split
    · exact decideHalt_lawful recorded _ _
    · exact recorded.answer _ _ _

theorem completeDetach_lawful (h : s.SessionLaw) (c : Ticket) : (completeDetach c s).SessionLaw := by
  unfold completeDetach
  dsimp only
  split
  · exact departureCheck_lawful (h.forgets fun _ _ => rfl) c
  · split
    · exact departureCheck_lawful (h.forgets fun _ => changePort_attached_ne _) c
    · exact h.answer _ _ _

theorem execDetachCompletion_lawful (h : s.SessionLaw) (e : execDetachCompletion p s = .next t) :
    t.SessionLaw := by
  refine lawful_of_whenLive e h ?_
  split
  · exact completeDetach_lawful (h.stay (setClaims_calm s _).sessionStays) _
  · exact h

/-- A completed halt leaves no flag, no waiter, no confirmation and no vote (R163). -/
theorem afterHalt_lawful (s : State) (x : Session) : (s.setSession x.afterHalt).SessionLaw := by
  have none (q : Port) (m : look (Vector.replicate 4 false) q = true) : False := by simp at m
  exact ⟨nofun, rfl, fun q m => (none q m).elim, fun q m => (none q m).elim⟩

theorem execHaltCompletion_lawful (h : s.SessionLaw) (e : execHaltCompletion s = .next t) : t.SessionLaw := by
  refine lawful_of_whenLive e h ?_
  split
  · have cleared := afterHalt_lawful (s.setClaims { s.claims with halt := .idle }) s.session
    have told := cleared.stay (postAll_calm _ (phaseRecord .setup s.session.version s.now)).sessionStays
    exact told.stay (resumeWaiter_calm _ s.session.haltWaiter).sessionStays
  · exact h

theorem lapsePort_lawful (h : s.SessionLaw) (p : Port) : (lapsePort p s).SessionLaw := by
  have left : ((s.changePort p PortUnit.lapse).setSession (s.session.forget p)).SessionLaw :=
    h.forgets fun _ => changePort_attached_ne _
  have withdrawn := left.stay (withdraw_sessionStays p _)
  exact (withdrawn.stay (postAll_calm _ _).sessionStays).stay (requestPurge_sessionStays p .lapse _)

theorem execLapse_lawful (h : s.SessionLaw) (e : execLapse p s = .next t) : t.SessionLaw := by
  refine lawful_of_whenLive e h ?_
  split
  · exact lapsePort_lawful h p
  · exact h

theorem completeCleanup_lawful (h : s.SessionLaw) (p : Port) : (completeCleanup p s).SessionLaw := by
  have cleared := h.stay (clearCleanup_calm s p).sessionStays
  unfold completeCleanup
  split
  · exact phaseCheck_lawful cleared
  · split
    · exact emptyRunCheck_lawful cleared
    · split
      · exact decideHalt_lawful h _ _
      · exact cleared

theorem execLapseCleanupCompletion_lawful (h : s.SessionLaw) (e : execLapseCleanupCompletion p s = .next t) :
    t.SessionLaw := by
  refine lawful_of_whenLive e h ?_
  split
  · exact completeCleanup_lawful (h.stay (setClaims_calm s _).sessionStays) p
  · exact h

theorem grantPurge_lawful (h : s.SessionLaw) (p : Port) : (grantPurge p s).SessionLaw :=
  ⟨h.flag, h.waits, h.confirmed, h.voted⟩

end Sessions

/-! ### Every command -/

/-- Every command keeps the law of the session. -/
theorem exec_sessionLaw {i : Instr} {s t : State} (h : s.SessionLaw) (e : exec i s = .next t) : t.SessionLaw := by
  cases stirs : i.stirs with
  | false => exact (exec_routine stirs e).lawful h
  | true =>
    cases i with
    | deviceReset cause => exact execDeviceReset_lawful h e
    | frameEnd p sdi => exact h.stay (execFrameEnd_sessionStays e)
    | presentRequest p => exact h.stay (execPresentRequest_sessionStays e)
    | replyArrival p => exact h.stay (execReplyArrival_sessionStays e)
    | eventPosted p => exact h.stay (execEventPosted_sessionStays e)
    | ackEvents p => exact h.stay (execAckEvents_sessionStays e)
    | attach p => exact execAttach_lawful h e
    | writeConfig p => exact execWriteConfig_lawful h e
    | confirm p => exact execConfirm_lawful h e
    | haltVote p => exact execHaltVote_lawful h e
    | detachCompletion p => exact execDetachCompletion_lawful h e
    | haltCompletion => exact execHaltCompletion_lawful h e
    | lapse p => exact execLapse_lawful h e
    | lapseCleanupCompletion p => exact execLapseCleanupCompletion_lawful h e
    | lapsePurge p =>
      rcases execLapsePurge_purges e with calm | ⟨-, calm⟩
      · exact h.stay calm.sessionStays
      · exact (grantPurge_lawful h p).stay calm.sessionStays
    | haltPurge =>
      rcases execHaltPurge_purges e with calm | ⟨p, -, calm⟩
      · exact h.stay calm.sessionStays
      · exact (grantPurge_lawful h p).stay calm.sessionStays
    | _ => cases stirs

/-- Settles O58: every command keeps both laws, and the queue of commands is part of neither. -/
theorem queueAndSessionLawsKept : Obligations.QueueAndSessionLawsKept :=
  ⟨fun s _ h e => step_of_exec (law := State.QueuesBounded) (fun _ _ h e => exec_bounded h e)
      (fun rest h => h.stay (withPending_calm s rest).queues) h e,
    fun s _ h e => step_of_exec (law := State.SessionLaw) (fun _ _ h e => exec_sessionLaw h e)
      (fun rest h => h.stay (withPending_calm s rest).sessionStays) h e⟩

end Sys2Proof.Machine
end

section
/-! PROOFS. The switches at every command: they move at the grant of a list-class command or of a purge, along its walk,
and at no other command but DEVICE_RESET (R142). -/

namespace Sys2Proof.Machine

section Switching

variable {i : Instr} {s t : State} {p : Port} {k : CommandKind} {c : ListClass}

/-- A granted request stands at the leaf to which the next grant goes (R141). -/
theorem nextGrant_of_granted {r : Request} (listed : listClass k = some c) (h : s.granted k p = some r) :
    s.nextGrant = some (c, p) := by
  unfold State.granted at h
  rw [listed] at h
  split at h
  · next d _ same =>
    cases same
    split at h
    · next granted =>
      simp only [Bool.and_eq_true, beq_iff_eq] at granted
      exact granted.1.2
    · cases h
  · cases h

/-- The command `i` takes the grant of the leaf: as the command of the request there, or as its purge. -/
def State.TakesGrant (s : State) (i : Instr) (c : ListClass) (p : Port) : Prop :=
  (∃ k, listClass k = some c ∧ grantedCommand k p = some i ∧ (s.granted k p).isSome = true)
    ∨ (c = .urgent ∧ (i = .lapsePurge p ∧ s.firstPurge p = some .lapse
      ∨ i = .haltPurge ∧ s.firstPurge p = some .halt))

/-- The switches stand, or the command takes the next grant and moves them along its walk. -/
def SwitchesMove (i : Instr) (s t : State) : Prop :=
  t.arbiter.switches = s.arbiter.switches
    ∨ ∃ c p, s.nextGrant = some (c, p) ∧ t.arbiter.switches = s.arbiter.switches.moved c p ∧ s.TakesGrant i c p

theorem Routine.switches (h : Routine i s t) : SwitchesMove i s t := by
  cases h with
  | calm calm => exact .inl (by rw [calm.arbiter])
  | direct p r _ calm => exact .inl (by rw [calm.arbiter]; rfl)
  | granted p r k c command listed grants calm =>
    exact .inr ⟨c, p, nextGrant_of_granted listed grants.2, by rw [calm.arbiter]; rfl,
      .inl ⟨k, listed, command, by rw [grants.2]; rfl⟩⟩

theorem SwitchesMove.of_purge {kind : PurgeRequest} (granted : s.purgeGranted p kind = true)
    (calm : Calm (grantPurge p s) t) (command : s.firstPurge p = some kind → s.TakesGrant i .urgent p) :
    SwitchesMove i s t := by
  simp only [State.purgeGranted, Bool.and_eq_true, beq_iff_eq] at granted
  exact .inr ⟨.urgent, p, granted.1, by rw [calm.arbiter, grantPurge_switches], command granted.2⟩

theorem attach_arbiter (c : Ticket) (b : List Byte) (s : State) : (attach c b s).arbiter = s.arbiter := by
  unfold attach
  split <;> rfl

theorem completeDetach_switches (c : Ticket) (s : State) :
    (completeDetach c s).arbiter.switches = s.arbiter.switches := by
  unfold completeDetach
  dsimp only
  split
  · exact (departureCheck_queues _ c).switches
  · split
    · exact (departureCheck_queues _ c).switches
    · rfl

theorem lapsePort_switches (p : Port) (s : State) : (lapsePort p s).arbiter.switches = s.arbiter.switches := by
  unfold lapsePort
  rw [(requestPurge_sessionStays p .lapse _).switches, postAll_arbiter]
  rfl

/-- Every command but DEVICE_RESET moves the switches only by taking the next grant. -/
theorem exec_switches (running : ∀ cause, i ≠ .deviceReset cause) (e : exec i s = .next t) : SwitchesMove i s t := by
  cases stirs : i.stirs with
  | false => exact (exec_routine stirs e).switches
  | true =>
    cases i with
    | deviceReset cause => exact absurd rfl (running cause)
    | frameEnd p sdi => exact .inl (execFrameEnd_sessionStays e).switches
    | presentRequest p => exact .inl (execPresentRequest_sessionStays e).switches
    | replyArrival p => exact .inl (execReplyArrival_sessionStays e).switches
    | eventPosted p => exact .inl (execEventPosted_sessionStays e).switches
    | ackEvents p => exact .inl (execAckEvents_sessionStays e).switches
    | writeConfig p => exact .inl (execWriteConfig_queues e).switches
    | confirm p => exact .inl (execConfirm_queues e).switches
    | haltVote p => exact .inl (execHaltVote_queues e).switches
    | haltCompletion => exact .inl (execHaltCompletion_queues e).switches
    | lapseCleanupCompletion p => exact .inl (execLapseCleanupCompletion_queues e).switches
    | attach p =>
      refine of_takeDirect (P := SwitchesMove _ s) (show execAttach p s = .next t from e) (.inl rfl) fun r _ => .inl ?_
      rw [attach_arbiter]
      rfl
    | detachCompletion p =>
      refine of_whenLive (P := SwitchesMove _ s) (show execDetachCompletion p s = .next t from e) (.inl rfl) ?_
      split
      · exact .inl (completeDetach_switches _ _)
      · exact .inl rfl
    | lapse p =>
      refine of_whenLive (P := SwitchesMove _ s) (show execLapse p s = .next t from e) (.inl rfl) ?_
      split
      · exact .inl (lapsePort_switches p s)
      · exact .inl rfl
    | lapsePurge p =>
      rcases execLapsePurge_purges e with calm | ⟨granted, calm⟩
      · exact .inl (by rw [calm.arbiter])
      · exact .of_purge granted calm fun first => .inr ⟨rfl, .inl ⟨rfl, first⟩⟩
    | haltPurge =>
      rcases execHaltPurge_purges e with calm | ⟨p, granted, calm⟩
      · exact .inl (by rw [calm.arbiter])
      · exact .of_purge granted calm fun first => .inr ⟨rfl, .inr ⟨rfl, first⟩⟩
    | _ => cases stirs

/-- A granted command leaves the arbiter as its grant does (R142, R144). -/
theorem exec_of_grants {r : Request} (listed : listClass k = some c) (command : grantedCommand k p = some i)
    (grants : s.Grants p k r) : ∃ t, exec i s = .next t ∧ t.arbiter = s.arbiter.afterGrant c p := by
  obtain ⟨effect, takes, calm⟩ := exec_takesGrant command
  exact ⟨_, (takes s).trans (takeGranted_of_grants grants listed effect), (calm _ _ _).arbiter⟩

/-- Settles O37: grants alone move switches, each those of its walk. -/
theorem switchesMoveAtGrants : Obligations.SwitchesMoveAtGrants := by
  refine ⟨fun i s t running e => exec_switches running e,
    fun k c i p r s listed command grants => exec_of_grants listed command grants,
    fun p s live next => ⟨fun first => ?_, fun first => ?_⟩, fun w c p => ?_⟩
  · obtain ⟨t, e, -, arbiter, -⟩ := (purgesComplete s p live).2.1 next first
    exact ⟨t, e, by rw [arbiter]⟩
  · obtain ⟨t, e, -, arbiter, -⟩ := (purgesComplete s p live).2.2 next first
    exact ⟨t, e, by rw [arbiter]⟩
  · exact ⟨moved_classSwitch w c p, moved_root w c p, moved_pointed_ne w c p, moved_root_other w c p,
      moved_pairSwitch_beside w c p, moved_pairSwitch_other w c p⟩

end Switching

end Sys2Proof.Machine
end

section
/-! PROOFS. The codes of the configuration items and of their values, and the constraints on a value in range (R103, R154,
R193, R194). -/

namespace Sys2Proof.Machine

/-! ### Items (R194) -/

section Items

variable {a b : Byte} {item : ConfigItem} {g : Group}

/-- G1 to G6 are 1 to 6 (R193). -/
theorem groupOf_eq_some : groupOf b = some g ↔ b.toNat = g.val + 1 := by
  have few := g.isLt
  unfold groupOf
  split
  · next zero => subst zero; simp
  · next positive =>
    have before : (b - 1).toNat + 1 = b.toNat := by bv_omega
    rw [indexOf_eq_some]
    omega

theorem byte_eq_of_toNat {n : Nat} (h : a.toNat = n) : a = BitVec.ofNat 8 n :=
  BitVec.eq_of_toNat_eq (by rw [BitVec.toNat_ofNat, ← h, Nat.mod_eq_of_lt a.isLt])

/-- The bytes of an item are its code and its index. -/
theorem itemOf_of_coded (h : item.Coded a b) : itemOf a b = some item := by
  cases item with
  | prescale => obtain ⟨rfl, rfl⟩ := h; rfl
  | polarity l => obtain ⟨rfl, index⟩ := h; exact congrArg (Option.map _) (indexOf_eq_some.2 index)
  | safeLevel l => obtain ⟨rfl, index⟩ := h; exact congrArg (Option.map _) (indexOf_eq_some.2 index)
  | group l => obtain ⟨rfl, index⟩ := h; exact congrArg (Option.map _) (indexOf_eq_some.2 index)
  | gap g => obtain ⟨rfl, index⟩ := h; exact congrArg (Option.map _) (groupOf_eq_some.2 index)
  | policy g => obtain ⟨rfl, index⟩ := h; exact congrArg (Option.map _) (groupOf_eq_some.2 index)
  | lease p => obtain ⟨rfl, index⟩ := h; exact congrArg (Option.map _) (indexOf_eq_some.2 index)
  | quota p => obtain ⟨rfl, index⟩ := h; exact congrArg (Option.map _) (indexOf_eq_some.2 index)
  | members g => obtain ⟨rfl, index⟩ := h; exact congrArg (Option.map _) (groupOf_eq_some.2 index)

/-- No other item has those bytes. -/
theorem coded_of_itemOf (h : itemOf a b = some item) : item.Coded a b := by
  have indexed {n : Nat} {make : Fin n → ConfigItem} (h : (indexOf n b).map make = some item) :
      ∃ i : Fin n, b.toNat = i.val ∧ make i = item := by
    obtain ⟨i, index, made⟩ := Option.map_eq_some_iff.1 h
    exact ⟨i, indexOf_eq_some.1 index, made⟩
  have grouped {make : Group → ConfigItem} (h : (groupOf b).map make = some item) :
      ∃ g : Group, b.toNat = g.val + 1 ∧ make g = item := by
    obtain ⟨g, index, made⟩ := Option.map_eq_some_iff.1 h
    exact ⟨g, groupOf_eq_some.1 index, made⟩
  unfold itemOf at h
  split at h
  · next code =>
    split at h
    · next zero => cases h; exact ⟨byte_eq_of_toNat code, zero⟩
    · cases h
  · next code => obtain ⟨l, index, rfl⟩ := indexed h; exact ⟨byte_eq_of_toNat code, index⟩
  · next code => obtain ⟨l, index, rfl⟩ := indexed h; exact ⟨byte_eq_of_toNat code, index⟩
  · next code => obtain ⟨l, index, rfl⟩ := indexed h; exact ⟨byte_eq_of_toNat code, index⟩
  · next code => obtain ⟨g, index, rfl⟩ := grouped h; exact ⟨byte_eq_of_toNat code, index⟩
  · next code => obtain ⟨g, index, rfl⟩ := grouped h; exact ⟨byte_eq_of_toNat code, index⟩
  · next code => obtain ⟨p, index, rfl⟩ := indexed h; exact ⟨byte_eq_of_toNat code, index⟩
  · next code => obtain ⟨p, index, rfl⟩ := indexed h; exact ⟨byte_eq_of_toNat code, index⟩
  · next code => obtain ⟨g, index, rfl⟩ := grouped h; exact ⟨byte_eq_of_toNat code, index⟩
  · cases h

theorem itemOf_eq_some : itemOf a b = some item ↔ item.Coded a b := ⟨coded_of_itemOf, itemOf_of_coded⟩

end Items

/-! ### Values (R154, R194) -/

section Values

variable {item : ConfigItem} {v : Half} {w : ConfigWrite}

/-- A value of at most 255 is that of its low byte. -/
theorem toNat_lowByte (small : v.toNat ≤ 255) : (v.setWidth 8).toNat = v.toNat := by
  rw [BitVec.toNat_setWidth]
  omega

theorem eq_lowByte {x : Byte} (same : v.toNat = x.toNat) : v.setWidth 8 = x :=
  BitVec.eq_of_toNat_eq ((toNat_lowByte (by omega)).trans same)

/-- A value in the range of its item makes its write. -/
theorem writeOf_of_coded (h : w.Coded item v) : writeOf item v = some w := by
  cases w with
  | prescale x =>
    obtain ⟨rfl, values⟩ := h
    rcases values with ⟨rfl, rfl⟩ | ⟨rfl, rfl⟩ | ⟨rfl, rfl⟩ | ⟨rfl, rfl⟩ <;> rfl
  | polarity l x => obtain ⟨rfl, ⟨rfl, rfl⟩ | ⟨rfl, rfl⟩⟩ := h <;> rfl
  | safeLevel l x => obtain ⟨rfl, ⟨rfl, rfl⟩ | ⟨rfl, rfl⟩⟩ := h <;> rfl
  | group l x =>
    cases x with
    | none => obtain ⟨rfl, rfl⟩ := h; rfl
    | some g =>
      obtain ⟨rfl, value⟩ := h
      have few := g.isLt
      have positive : v ≠ 0 := fun zero => by simp [zero] at value
      have names : groupOf (v.setWidth 8) = some g := groupOf_eq_some.2 ((toNat_lowByte (by omega)).trans value)
      rw [writeOf, if_neg positive, if_pos (by omega), names]
      rfl
  | gap g x => obtain ⟨rfl, rfl⟩ := h; rfl
  | policy g x => obtain ⟨rfl, ⟨rfl, rfl⟩ | ⟨rfl, rfl⟩⟩ := h <;> rfl
  | lease p x =>
    obtain ⟨rfl, value⟩ := h
    have small := x.isLt
    rw [writeOf, if_pos (by omega), eq_lowByte value]
  | quota p x =>
    obtain ⟨rfl, value, bound⟩ := h
    have bound : v.toNat ≤ Config.quotaLimit := bound
    rw [writeOf, if_pos bound, eq_lowByte value]

/-- A write is made only of a value in its range. -/
theorem coded_of_writeOf (h : writeOf item v = some w) : w.Coded item v := by
  have choice {x y : ConfigWrite} (h : (if v = 0 then some x else if v = 1 then some y else none) = some w) :
      w = x ∧ v = 0 ∨ w = y ∧ v = 1 := by
    split at h
    · next zero => exact .inl ⟨(Option.some.inj h).symm, zero⟩
    · split at h
      · next one => exact .inr ⟨(Option.some.inj h).symm, one⟩
      · cases h
  cases item with
  | prescale =>
    unfold writeOf at h
    dsimp only at h
    iterate 4
      split at h
      · next value => cases h; simp [ConfigWrite.Coded, value]
    cases h
  | polarity l => rcases choice h with ⟨rfl, rfl⟩ | ⟨rfl, rfl⟩ <;> simp [ConfigWrite.Coded]
  | safeLevel l => rcases choice h with ⟨rfl, rfl⟩ | ⟨rfl, rfl⟩ <;> simp [ConfigWrite.Coded]
  | policy g => rcases choice h with ⟨rfl, rfl⟩ | ⟨rfl, rfl⟩ <;> simp [ConfigWrite.Coded]
  | group l =>
    unfold writeOf at h
    dsimp only at h
    split at h
    · next zero => cases h; exact ⟨rfl, zero⟩
    · split at h
      · next few =>
        obtain ⟨g, names, rfl⟩ := Option.map_eq_some_iff.1 h
        exact ⟨rfl, (toNat_lowByte (by omega)).symm.trans (groupOf_eq_some.1 names)⟩
      · cases h
  | gap g => cases h; exact ⟨rfl, rfl⟩
  | lease p =>
    unfold writeOf at h
    dsimp only at h
    split at h
    · next small => cases h; exact ⟨rfl, (toNat_lowByte small).symm⟩
    · cases h
  | quota p =>
    unfold writeOf at h
    dsimp only at h
    split at h
    · next bound =>
      cases h
      have bound : v.toNat ≤ 96 := bound
      exact ⟨rfl, (toNat_lowByte (by omega)).symm, bound⟩
    · cases h
  | members g => cases h

theorem writeOf_eq_some : writeOf item v = some w ↔ w.Coded item v := ⟨coded_of_writeOf, writeOf_of_coded⟩

end Values

/-! ### Constraints (R103) -/

section Constraints

variable {o : OutputUnit} {g : Group} {l m : Line}

theorem mem_othersIn : m ∈ o.othersIn g l ↔ m ≠ l ∧ (o.line m).group = some g := by
  simp [OutputUnit.othersIn, OutputUnit.members]

theorem nodup_othersIn : (o.othersIn g l).Nodup := ((nodup_indices 16).filter _).filter _

/-- A group has four other members exactly when four lines can be named. -/
theorem four_le_othersIn : 4 ≤ (o.othersIn g l).length ↔
    ∃ ms : List Line, ms.Nodup ∧ ms.length = 4 ∧ ∀ m, m ∈ ms → m ≠ l ∧ (o.line m).group = some g := by
  constructor
  · intro full
    have part : (o.othersIn g l).take 4 ⊆ o.othersIn g l := (List.take_sublist 4 _).subset
    exact ⟨(o.othersIn g l).take 4, nodup_othersIn.sublist (List.take_sublist 4 _), List.length_take_of_le full,
      fun m mem => mem_othersIn.1 (part mem)⟩
  · rintro ⟨ms, once, four, others⟩
    have sub : ms ⊆ o.othersIn g l := fun m mem => mem_othersIn.2 (others m mem)
    exact four ▸ (once.subperm sub).length_le

/-- A value in range is refused exactly by its constraint. -/
theorem permitted_eq_false_iff (w : ConfigWrite) (o : OutputUnit) : w.permitted o = false ↔ w.Constrained o := by
  unfold ConfigWrite.Constrained
  cases w with
  | safeLevel l v =>
    cases v with
    | inactive => simp [ConfigWrite.permitted]
    | active => simp [ConfigWrite.permitted, Option.isSome_iff_ne_none]
  | group l v =>
    cases v with
    | none => simp [ConfigWrite.permitted]
    | some g =>
      have level : (o.line l).safe ≠ .inactive ↔ (o.line l).safe = .active := by
        cases (o.line l).safe <;> simp
      have bound : ¬ (o.othersIn g l).length < Config.groupBound ↔ 4 ≤ (o.othersIn g l).length := Nat.not_lt
      simp only [ConfigWrite.permitted, Bool.and_eq_false_iff, beq_eq_false_iff_ne, decide_eq_false_iff_not, level,
        bound, four_le_othersIn]
      simp
  | polarity | gap | policy | prescale | lease | quota => simp [ConfigWrite.permitted]

end Constraints

end Sys2Proof.Machine
end

section
/-! PROOFS. The session unit's commands that are answered in SETUP or RUN, each completed: ATTACH (R149, R167),
READ_CONFIG (R157), CONFIRM (R158 to R160) and HALT_VOTE (R162, R163). -/

namespace Sys2Proof.Machine

/-! ### What each operation leaves alone -/

section Frames

variable {s t u : State}

/-- Of two operations in turn the second may change fewer blocks. -/
theorem changesOnly_next {bs cs : List Block} (h : ChangesOnly cs s t) (k : ChangesOnly bs t u) (sub : bs ⊆ cs) :
    ChangesOnly cs s u :=
  changesOnly_trans h (changesOnly_of_subset k sub)

theorem changesOnly_setSession (s : State) (x : Session) : ChangesOnly [.session] s (s.setSession x) :=
  ⟨rfl, fun b hb => by cases b <;> simp_all [Block.same]⟩

theorem changesOnly_changePort (p : Port) (f : PortUnit → PortUnit) (s : State) :
    ChangesOnly [.ports] s (s.changePort p f) :=
  ⟨rfl, fun b hb => by cases b <;> simp_all [Block.same]⟩

theorem changesOnly_setArbiter (s : State) (a : Arbiter) : ChangesOnly [.arbiter] s (s.setArbiter a) :=
  ⟨rfl, fun b hb => by cases b <;> simp_all [Block.same]⟩

theorem changesOnly_postAll (e : EventRecord) (s : State) : ChangesOnly [.ports] s (postAll e s) :=
  ⟨by simp, fun b hb => by cases b <;> simp_all [Block.same]⟩

theorem changesOnly_driveEvery (s : State) : ChangesOnly [.output] s (driveEvery s) := changesOnly_setOutput s _

/-- A command's taking moves the arbiter and the ports. -/
theorem changesOnly_takeHead (p : Port) (s : State) : ChangesOnly [.arbiter, .ports] s (takeHead p s) :=
  changesOnly_next (changesOnly_of_subset (changesOnly_changePort p _ s) (by simp)) (changesOnly_setArbiter _ _)
    (by simp)

end Frames

/-! ### The changes of phase (R160, R163, R166) -/

/-- The phase becomes RUN and PHASE is posted (R160). -/
def startRun (s : State) : State :=
  postAll (phaseRecord .run s.session.version s.now) (s.setSession { s.session with phase := .run })

/-- The phase becomes SETUP and every line is driven (R166). -/
def endRun (s : State) : State := driveEvery (s.setSession { s.session with phase := .setup })

/-- RUN with no port ATTACHED and no lapse cleanup pending (R166). -/
def State.RunEmpty (s : State) : Prop :=
  s.session.phase = .run ∧ (∀ q, s.attached q = false) ∧ ∀ q, (s.port q).cleanup = false

section Phase

variable {s : State}

theorem attachedPorts_isEmpty_iff (s : State) : s.attachedPorts.isEmpty = true ↔ ∀ q, s.attached q = false := by
  rw [List.isEmpty_iff, List.eq_nil_iff_forall_not_mem]
  simp

theorem phaseCheck_startsRun (h : s.agreed = true) : phaseCheck s = startRun s := phaseCheck_of_agreed h

theorem emptyRunCheck_endsRun (h : s.RunEmpty) : emptyRunCheck s = endRun s := by
  obtain ⟨run, left, clean⟩ := h
  have nobody := (attachedPorts_isEmpty_iff s).2 left
  simp [emptyRunCheck, endRun, run, nobody, clean]

/-- A lapse cleanup still pending keeps RUN. -/
theorem emptyRunCheck_of_cleaning {q : Port} (cleaning : (s.port q).cleanup = true) : emptyRunCheck s = s := by
  have not : ((indices 4).all fun p => !(s.port p).cleanup) = false :=
    List.all_eq_false.2 ⟨q, mem_indices q, by simp [cleaning]⟩
  simp [emptyRunCheck, not]

@[simp] theorem startRun_claims (s : State) : (startRun s).claims = s.claims := by simp [startRun]
@[simp] theorem startRun_arbiter (s : State) : (startRun s).arbiter = s.arbiter := by simp [startRun]

@[simp] theorem startRun_session (s : State) : (startRun s).session = { s.session with phase := .run } := by
  simp [startRun]

/-- Every ATTACHED port is told of RUN, with the version in force (R171). -/
@[simp] theorem startRun_port (s : State) (q : Port) : (startRun s).port q = (s.port q).receive
    { kind := .phase, aux := 1, ref := 0, value := s.session.version, time := s.now } := by
  simp [startRun, phaseRecord, phaseCode]

@[simp] theorem startRun_attachedPorts (s : State) : (startRun s).attachedPorts = s.attachedPorts := by
  simp [startRun]

theorem changesOnly_startRun (s : State) : ChangesOnly [.session, .ports] s (startRun s) :=
  changesOnly_next (changesOnly_of_subset (changesOnly_setSession s _) (by simp)) (changesOnly_postAll _ _) (by simp)

@[simp] theorem endRun_claims (s : State) : (endRun s).claims = s.claims := by simp [endRun]
@[simp] theorem endRun_ports (s : State) : (endRun s).ports = s.ports := by simp [endRun]

@[simp] theorem endRun_session (s : State) : (endRun s).session = { s.session with phase := .setup } := by
  simp [endRun]

theorem changesOnly_endRun (s : State) : ChangesOnly [.session, .output] s (endRun s) :=
  changesOnly_next (changesOnly_of_subset (changesOnly_setSession s _) (by simp)) (changesOnly_driveEvery _) (by simp)

/-- A drive of every line of a part that obeys the law of the lines. -/
theorem driveAll_of_law (law : s.OutputLaw) :
    Driven s.output (s.output.driveAll s.now) s.now ∧ (s.output.driveAll s.now).trip = s.output.trip := by
  obtain ⟨lawful, -⟩ := (outputLaw_iff s).1 law
  exact ⟨OutputUnit.driveAll_driven _ _ lawful.interlocked lawful.groupedSafe lawful.gapKept,
    OutputUnit.driveAll_trip _ _⟩

@[simp] theorem endRun_output (s : State) : (endRun s).output = s.output.driveAll s.now := by simp [endRun]

variable (p : Port) (w : HaltWaiter) (s)

/-- A decision asks for the halt purge behind what waits on the leaf (R138, R163). -/
@[simp] theorem decideHalt_arbiter : (decideHalt p w s).arbiter =
    { s.arbiter with purges := put s.arbiter.purges p (look s.arbiter.purges p ++ [.halt]) } := by
  simp [decideHalt, requestPurge, change]

theorem changesOnly_decideHalt : ChangesOnly [.session, .output, .arbiter] s (decideHalt p w s) :=
  ⟨by simp, fun b hb => by cases b <;> simp_all [Block.same]⟩

end Phase

/-! ### Commands taken directly -/

section Direct

variable {s : State} {p : Port} {k : CommandKind} {r : Request}

/-- A command that a port may use only while ATTACHED is one of an ATTACHED port (R148). -/
theorem attached_of_takes (h : s.Takes p k r) (bound : usableUnattached k = false) : s.attached p = true := by
  obtain ⟨-, -, -, passes⟩ := h
  simpa [State.passes, bound] using passes

/-- A command changes what its work changes between its taking and its answer, and the arbiter and the ports. -/
theorem changesOnly_command {bs cs : List Block} {t : State} {c : Ticket} {st : Status} {b : List Byte}
    (work : ChangesOnly bs (takeHead p s) t) (sub : bs ++ [.arbiter, .ports] ⊆ cs) :
    ChangesOnly cs s (answer c st b t) := by
  have taken := changesOnly_of_subset (changesOnly_takeHead p s) (List.Subset.trans (List.subset_append_right bs _) sub)
  have worked := changesOnly_next taken work (List.Subset.trans (List.subset_append_left bs _) sub)
  exact changesOnly_next worked (changesOnly_answer _ _ _ _) fun b mem =>
    sub (List.mem_append_right bs (List.mem_cons_of_mem _ mem))

end Direct

/-! ### ATTACH (R149, R167) -/

section Attach

variable {s : State} {t : Ticket} {b : List Byte}

/-- A unit of a lease is 65536 ticks (R167). -/
theorem leaseEndOf_eq (now : Time) (lease : Byte) :
    leaseEndOf now lease = if lease = 0 then none else some (later now (lease.toNat * 65536)) := rfl

theorem attach_of_cleaning (lapsed : (s.port t.port).state = .lapsed) (cleaning : (s.port t.port).cleanup = true) :
    attach t b s = answer t .busy [] s := by
  simp [attach, lapsed, cleaning]

theorem attach_of_attached (attached : (s.port t.port).state = .attached) :
    attach t b s = answer t .ok s.attachBody s := by
  simp [attach, attached]

theorem attach_of_away (away : (s.port t.port).state = .detached
      ∨ (s.port t.port).state = .lapsed ∧ (s.port t.port).cleanup = false) :
    attach t b s = answer t .ok s.attachBody
      (loadLease t.port ((s.changePort t.port PortUnit.attach).setSession (s.session.forget t.port))) := by
  rcases away with detached | ⟨lapsed, clean⟩
  · simp [attach, detached]
  · simp [attach, lapsed, clean]

/-- The work of an attachment is of the port and the session unit. -/
theorem changesOnly_attaches (p : Port) (s : State) : ChangesOnly [.session, .ports] s
    (loadLease p ((s.changePort p PortUnit.attach).setSession (s.session.forget p))) := by
  have attached : ChangesOnly [.session, .ports] s (s.changePort p PortUnit.attach) :=
    changesOnly_of_subset (changesOnly_changePort _ _ _) (by simp)
  have forgotten := changesOnly_next attached (changesOnly_setSession _ (s.session.forget p)) (by simp)
  exact changesOnly_next forgotten (changesOnly_changePort _ _ _) (by simp)

/-- Settles O44: the state of the port and its cleanup flag select the answer. -/
theorem attachCompletes : Obligations.AttachCompletes := by
  intro p r s takes
  have unit : (takeHead p s).port p = (s.port p).setEntryAside := takeHead_port_self p s
  refine ⟨fun lapsed cleaning => ?_, fun attached => ?_, fun away => ?_⟩
  · exact answeredOnly_of_takes (effect := attach) takes
      (attach_of_cleaning ((congrArg PortUnit.state unit).trans lapsed)
        ((congrArg PortUnit.cleanup unit).trans cleaning))
  · exact answeredOnly_of_takes (effect := attach) takes (attach_of_attached
      ((congrArg PortUnit.state unit).trans attached))
  · have attaches := attach_of_away (s := takeHead p s) (t := s.ticket p r) (b := r.body)
      (by rw [ticket_port, unit]; exact away)
    refine ⟨_, (takeDirect_of_takes takes attach).trans (congrArg _ attaches), ?_, rfl, rfl, ?_⟩
    · exact changesOnly_command (changesOnly_attaches p _) (by simp)
    · simp [loadLease, PortUnit.attach, PortUnit.setEntryAside, Session.forget, leaseEndOf_eq,
        State.attachBody]

end Attach

/-! ### READ_CONFIG (R157) -/

section ReadConfig

variable {s : State} {t : Ticket} {b : List Byte} {item : ConfigItem}

theorem readConfig_of_unfit (unfit : b.length < 2 ∨ itemOf (byteAt b 0) (byteAt b 1) = none) :
    readConfig t b s = answer t .badField [] s := by
  unfold readConfig
  split
  · rfl
  · next long => rw [unfit.resolve_left long]

theorem readConfig_of_item (long : 2 ≤ b.length) (names : itemOf (byteAt b 0) (byteAt b 1) = some item) :
    readConfig t b s =
      answer t .ok ([byteAt b 0, byteAt b 1] ++ s.configBytes item ++ halfBytes s.session.version) s := by
  have whole : ¬ b.length < bodyLength .readConfig := Nat.not_lt.2 long
  rw [readConfig, if_neg whole, names]

/-- The value of an item that is not a member list is its two bytes. -/
theorem configBytes_of_value (value : ∀ g, item ≠ .members g) : s.configBytes item = halfBytes (s.configValue item) := by
  cases item with
  | members g => exact absurd rfl (value g)
  | _ => rfl

/-- At most four lines fill four bytes, the rest 0xFF (R197). -/
theorem memberBytes_of_few {ls : List Line} (few : ls.length ≤ 4) :
    memberBytes ls = ls.map lineCode ++ List.replicate (4 - ls.length) 0xFF := by
  match ls, few with
  | [], _ | [_], _ | [_, _], _ | [_, _, _], _ | [_, _, _, _], _ => rfl

/-- Settles O46: an item is reported with its value, and nothing else is done. -/
theorem readConfigCompletes : Obligations.ReadConfigCompletes := by
  refine ⟨fun _ _ _ => itemOf_eq_some, fun p r s takes => ⟨fun unfit => ?_, fun item long names value => ?_,
    fun g long names bounded => ?_⟩⟩
  · exact answeredOnly_of_takes (effect := readConfig) takes (readConfig_of_unfit unfit)
  · refine answeredOnly_of_takes (effect := readConfig) takes ?_
    rw [readConfig_of_item long names, configBytes_of_value value]
    rfl
  · refine answeredOnly_of_takes (effect := readConfig) takes ?_
    rw [readConfig_of_item long names, ← memberBytes_of_few (bounded g)]
    rfl

end ReadConfig

/-! ### CONFIRM (R158 to R160) -/

/-- A port's confirmation is recorded (R159). -/
def recordConfirmed (p : Port) (s : State) : State :=
  s.setSession { s.session with confirmed := put s.session.confirmed p true }

section Confirm

variable {s : State} {p : Port} {t : Ticket} {b : List Byte}

theorem quotaSum_eq (x : Session) : x.quotaSum =
    (look x.quota 0).toNat + (look x.quota 1).toNat + (look x.quota 2).toNat + (look x.quota 3).toNat := by
  simp [Session.quotaSum, indices, List.finRange_succ, Nat.add_assoc]

theorem confirm_of_run (run : s.session.phase = .run) : confirm t b s = answer t .wrongPhase [] s := by
  simp [confirm, run]

theorem confirm_of_halting (setup : s.session.phase = .setup) (halting : s.session.haltCleanup = true) :
    confirm t b s = answer t .busy [] s := by
  simp [confirm, setup, halting]

theorem confirm_of_short (setup : s.session.phase = .setup) (calm : s.session.haltCleanup = false)
    (short : b.length < 2) : confirm t b s = answer t .badField [] s := by
  simp [confirm, setup, calm, bodyLength, short]

section Checked

variable (setup : s.session.phase = .setup) (calm : s.session.haltCleanup = false) (long : 2 ≤ b.length)
include setup calm long

theorem confirm_of_stale (stale : halfAt b 0 ≠ s.session.version) :
    confirm t b s = answer t .versionMismatch (halfBytes s.session.version) s := by
  have whole : ¬ b.length < bodyLength .confirm := Nat.not_lt.2 long
  simp [confirm, setup, calm, whole, stale]

theorem confirm_of_quotas (current : halfAt b 0 = s.session.version) (above : 96 < s.session.quotaSum) :
    confirm t b s = answer t .badConfig ([7, 0xFF] ++ halfBytes s.session.version) s := by
  have whole : ¬ b.length < bodyLength .confirm := Nat.not_lt.2 long
  have above : Config.quotaLimit < s.session.quotaSum := above
  simp [confirm, setup, calm, whole, current, above, badConfigBody, Config.absentCode]

/-- A confirmation that passes its checks is recorded, and the phase check follows. -/
theorem confirm_of_checked (current : halfAt b 0 = s.session.version) (within : s.session.quotaSum ≤ 96) :
    let u := phaseCheck (recordConfirmed t.port s)
    confirm t b s = answer t .ok [BitVec.ofNat 8 u.confirmedCount, BitVec.ofNat 8 u.attachedCount] u := by
  have whole : ¬ b.length < bodyLength .confirm := Nat.not_lt.2 long
  have within : ¬ Config.quotaLimit < s.session.quotaSum := Nat.not_lt.2 within
  unfold confirm
  rw [if_neg (by simp [setup]), if_neg (by simp [calm]), if_neg whole, if_neg (by simp [current]), if_neg within]
  rfl

end Checked

@[simp] theorem answer_confirmedCount (t : Ticket) (st : Status) (b : List Byte) (s : State) :
    (answer t st b s).confirmedCount = s.confirmedCount := by
  unfold State.confirmedCount
  rw [answer_attachedPorts, answer_session]

/-- A recorded confirmation is the port's own. -/
theorem recordConfirmed_iff (p q : Port) (s : State) :
    look (recordConfirmed p s).session.confirmed q = true ↔ q = p ∨ look s.session.confirmed q = true := by
  unfold recordConfirmed
  rw [setSession_session, look_put]
  split <;> simp_all

/-- With the confirmation of every ATTACHED port, one of which confirms, the phase check succeeds. -/
theorem agreed_of_last (setup : s.session.phase = .setup) (calm : s.session.haltCleanup = false)
    (attached : s.attached p = true) (all : ∀ q, s.attached q = true → q = p ∨ look s.session.confirmed q = true) :
    (recordConfirmed p s).agreed = true :=
  (agreed_iff _).2 ⟨setup, calm, ⟨p, attached⟩, fun q here => (recordConfirmed_iff p q s).2 (all q here)⟩

theorem not_agreed_of_lacking {q : Port} (attached : s.attached q = true)
    (lacks : ¬ (q = p ∨ look s.session.confirmed q = true)) : (recordConfirmed p s).agreed = false := by
  rw [Bool.eq_false_iff, Ne, agreed_iff]
  rintro ⟨-, -, -, all⟩
  exact lacks ((recordConfirmed_iff p q s).1 (all q attached))

/-- In agreement every ATTACHED port is counted (R159). -/
theorem confirmedCount_of_agreed (h : s.agreed = true) : (startRun s).confirmedCount = s.attachedCount := by
  obtain ⟨-, -, -, all⟩ := (agreed_iff s).1 h
  have counted : s.attachedPorts.filter (look s.session.confirmed) = s.attachedPorts :=
    List.filter_eq_self.2 fun q mem => all q ((mem_attachedPorts s q).1 mem)
  unfold State.confirmedCount State.attachedCount
  rw [startRun_attachedPorts, startRun_session]
  exact congrArg List.length counted

@[simp] theorem takeHead_attachedCount (p : Port) (s : State) : (takeHead p s).attachedCount = s.attachedCount :=
  congrArg List.length (takeHead_attachedPorts p s)

@[simp] theorem startRun_attachedCount (s : State) : (startRun s).attachedCount = s.attachedCount :=
  congrArg List.length (startRun_attachedPorts s)

section Confirmed

variable {r : Request} (takes : s.Takes p .confirm r) (setup : s.session.phase = .setup)
  (calm : s.session.haltCleanup = false) (long : 2 ≤ r.body.length) (current : halfAt r.body 0 = s.session.version)
  (within : s.session.quotaSum ≤ 96)
include takes setup calm long current within

/-- A confirmation that is not the last is answered with the counts as they then stand. -/
theorem exec_confirm_of_lacking (lacking : (recordConfirmed p (takeHead p s)).agreed = false) :
    let u := recordConfirmed p (takeHead p s)
    exec (.confirm p) s = .next (answer (s.ticket p r) .ok
      [BitVec.ofNat 8 u.confirmedCount, BitVec.ofNat 8 s.attachedCount] u) := by
  refine (takeDirect_of_takes takes confirm).trans (congrArg _ ?_)
  rw [confirm_of_checked (s := takeHead p s) setup calm long current within, ticket_port, phaseCheck_of_not lacking,
    ← takeHead_attachedCount p s]
  rfl

/-- The last one starts RUN. -/
theorem exec_confirm_of_last (last : (recordConfirmed p (takeHead p s)).agreed = true) :
    exec (.confirm p) s = .next (answer (s.ticket p r) .ok
      [BitVec.ofNat 8 s.attachedCount, BitVec.ofNat 8 s.attachedCount]
      (startRun (recordConfirmed p (takeHead p s)))) := by
  refine (takeDirect_of_takes takes confirm).trans (congrArg _ ?_)
  rw [confirm_of_checked (s := takeHead p s) setup calm long current within, ticket_port, phaseCheck_startsRun last,
    confirmedCount_of_agreed last, startRun_attachedCount, ← takeHead_attachedCount p s]
  rfl

end Confirmed

/-- Settles O47: five checks refuse in turn; a confirmation that passes them is recorded, and the last one starts RUN. -/
theorem confirmCompletes : Obligations.ConfirmCompletes := by
  intro p r s takes
  refine ⟨fun run => answeredOnly_of_takes (effect := confirm) takes (confirm_of_run run),
    fun setup halting => answeredOnly_of_takes (effect := confirm) takes (confirm_of_halting setup halting),
    fun setup calm short => answeredOnly_of_takes (effect := confirm) takes (confirm_of_short setup calm short),
    fun setup calm long stale => answeredOnly_of_takes (effect := confirm) takes
      (confirm_of_stale setup calm long stale), fun setup calm long current => ?_⟩
  intro sum confirmed
  have total : s.session.quotaSum = sum := quotaSum_eq s.session
  have recorded : ChangesOnly [.session] (takeHead p s) (recordConfirmed p (takeHead p s)) :=
    changesOnly_setSession _ _
  refine ⟨fun above => ?_, fun within lacking => ?_, fun within all => ?_⟩
  · exact answeredOnly_of_takes (effect := confirm) takes
      (confirm_of_quotas (s := takeHead p s) setup calm long current (above.trans_eq total.symm))
  · obtain ⟨q, here, lacks⟩ := lacking
    have fails : (recordConfirmed p (takeHead p s)).agreed = false :=
      not_agreed_of_lacking (q := q) ((takeHead_attached p s q).trans here) lacks
    refine ⟨_, _, exec_confirm_of_lacking takes setup calm long current (total.trans_le within) fails,
      changesOnly_command recorded (by simp), rfl, rfl, ?_, by rw [answer_confirmedCount]⟩
    simp [recordConfirmed, State.portsAnswering]
  · have succeeds : (recordConfirmed p (takeHead p s)).agreed = true :=
      agreed_of_last setup calm ((takeHead_attached p s p).trans (attached_of_takes takes rfl))
        fun q here => all q ((takeHead_attached p s q).symm.trans here)
    refine ⟨_, exec_confirm_of_last takes setup calm long current (total.trans_le within) succeeds,
      changesOnly_command (changesOnly_next (changesOnly_of_subset recorded (by simp)) (changesOnly_startRun _)
        (List.Subset.refl _)) (by simp), ?_, ?_, ?_⟩
    · rw [answer_arbiter, startRun_arbiter]
      rfl
    · rw [answer_session, startRun_session]
      rfl
    · exact portsAnswerAndReceive_answered fun q => startRun_port _ q

end Confirm

/-! ### HALT_VOTE (R162, R163) -/

/-- A port's vote is recorded (R162). -/
def recordVote (p : Port) (s : State) : State :=
  s.setSession { s.session with voted := put s.session.voted p true }

section HaltVote

variable {s : State} {p : Port} {t : Ticket} {b : List Byte}

theorem haltVote_of_setup (setup : s.session.phase = .setup) : haltVote t b s = answer t .wrongPhase [] s := by
  simp [haltVote, setup]

/-- A vote that leaves another to come is answered with the counts. -/
theorem haltVote_of_lacking (run : s.session.phase = .run) (lacking : (recordVote t.port s).decidesHalt = false) :
    haltVote t b s = answer t .ok [BitVec.ofNat 8 (recordVote t.port s).votedCount, BitVec.ofNat 8 s.attachedCount]
      (recordVote t.port s) := by
  unfold haltVote
  rw [if_neg (by simp [run])]
  exact if_neg (Bool.eq_false_iff.1 lacking)

/-- The last vote decides the halt on the voter's leaf. -/
theorem haltVote_of_last (run : s.session.phase = .run) (last : (recordVote t.port s).decidesHalt = true) :
    haltVote t b s = decideHalt t.port (.vote t s.attachedCount) (recordVote t.port s) := by
  unfold haltVote
  rw [if_neg (by simp [run])]
  exact if_pos last

/-- With the vote of `p`, a halt is decided exactly when every other ATTACHED port has voted. -/
theorem recordVote_decidesHalt_iff (run : s.session.phase = .run) (attached : s.attached p = true) :
    (recordVote p s).decidesHalt = true ↔ ∀ q, q ≠ p → s.attached q = true → look s.session.voted q = true := by
  have voted (q : Port) : look (recordVote p s).session.voted q = if q = p then true else look s.session.voted q :=
    look_put _ _ _ _
  rw [decidesHalt_iff]
  constructor
  · rintro ⟨-, -, all⟩ q other here
    simpa [voted, other] using all q here
  · refine fun all => ⟨run, ⟨p, attached⟩, fun q here => ?_⟩
    rw [voted]
    split
    · rfl
    · next other => exact all q other here

@[simp] theorem answer_votedCount (t : Ticket) (st : Status) (b : List Byte) (s : State) :
    (answer t st b s).votedCount = s.votedCount := by
  unfold State.votedCount
  rw [answer_attachedPorts, answer_session]

/-- Settles O48: a vote is recorded in RUN, and the last one decides the halt. -/
theorem haltVoteCompletes : Obligations.HaltVoteCompletes := by
  intro p r s takes
  have recorded : ChangesOnly [.session] (takeHead p s) (recordVote p (takeHead p s)) := changesOnly_setSession _ _
  have decided (run : s.session.phase = .run) : (recordVote p (takeHead p s)).decidesHalt = true ↔
      ∀ q, q ≠ p → s.attached q = true → look s.session.voted q = true := by
    have attached : (takeHead p s).attached p = true := (takeHead_attached p s p).trans (attached_of_takes takes rfl)
    simpa only [takeHead_attached, takeHead_session] using recordVote_decidesHalt_iff (s := takeHead p s) run attached
  refine ⟨fun setup => answeredOnly_of_takes (effect := haltVote) takes (haltVote_of_setup setup),
    fun run lacking => ?_, fun run law all => ?_⟩
  · obtain ⟨q, other, here, unvoted⟩ := lacking
    have lacks : (recordVote p (takeHead p s)).decidesHalt = false := by
      rw [Bool.eq_false_iff, Ne, decided run]
      exact fun all => Bool.false_ne_true (unvoted.symm.trans (all q other here))
    refine ⟨_, (takeDirect_of_takes takes haltVote).trans (congrArg _ (haltVote_of_lacking run lacks)),
      changesOnly_command recorded (by simp), rfl, rfl, ?_⟩
    rw [answer_votedCount, takeHead_attachedCount]
    simp [recordVote, State.portsAnswering]
  · have last : (recordVote p (takeHead p s)).decidesHalt = true := (decided run).2 all
    obtain ⟨driven, trip⟩ := driveAll_of_law law
    refine ⟨_, (takeDirect_of_takes takes haltVote).trans (congrArg _ (haltVote_of_last run last)), ?_, ?_, ?_, ?_, ?_,
      ?_⟩
    · exact changesOnly_next (changesOnly_next (changesOnly_of_subset (changesOnly_takeHead p s) (by simp)) recorded
        (by simp)) (changesOnly_decideHalt _ _ _) (by simp)
    · rw [decideHalt_session, takeHead_attachedCount]
      rfl
    · rw [decideHalt_output]
      exact driven
    · rw [decideHalt_output]
      exact trip
    · rw [decideHalt_arbiter]
      rfl
    · rw [decideHalt_ports]
      rfl

end HaltVote

end Sys2Proof.Machine
end

section
/-! PROOFS. Departures from the session, each completed: DETACH_COMPLETION (R151, R152), HALT_COMPLETION (R163), LAPSE
(R168, R185) and LAPSE_CLEANUP_COMPLETION (R169), with the checks that follow (R160, R165, R166). -/

namespace Sys2Proof.Machine

/-- Blocks that an event may change, less one that it leaves. -/
theorem changesOnly_of_same {bs cs : List Block} {s t : State} {b : Block} (h : ChangesOnly cs s t)
    (same : b.same s t) (sub : cs ⊆ b :: bs) : ChangesOnly bs s t :=
  ⟨h.1, fun c out => by
    by_cases here : c = b
    · exact here ▸ same
    · exact h.2 c fun mem => (List.mem_cons.1 (sub mem)).elim here out⟩

/-! ### The check of a departure (R160, R165, R166) -/

/-- The check that follows a departure finds nothing to do: in RUN a vote lacks, or no port is ATTACHED and a lapse
cleanup is pending; in SETUP a halt is on its way, no port is ATTACHED, or a confirmation lacks. -/
def State.CheckFails (s : State) : Prop :=
  s.session.phase = .run
      ∧ ((∃ q, s.attached q = true ∧ look s.session.voted q = false)
        ∨ (∀ q, s.attached q = false) ∧ ∃ q, (s.port q).cleanup = true)
    ∨ s.session.phase = .setup
      ∧ (s.session.haltCleanup = true ∨ (∀ q, s.attached q = false)
        ∨ ∃ q, s.attached q = true ∧ look s.session.confirmed q = false)

section Checks

variable {s : State} {t : Ticket} {p : Port}

theorem not_agreed_iff (s : State) (setup : s.session.phase = .setup) : s.agreed = false ↔
    s.session.haltCleanup = true ∨ (∀ q, s.attached q = false)
      ∨ ∃ q, s.attached q = true ∧ look s.session.confirmed q = false := by
  rw [Bool.eq_false_iff, Ne, agreed_iff]
  simp only [setup, true_and, not_and_or, not_exists, not_forall, Bool.not_eq_true, Bool.not_eq_false, exists_prop]

theorem not_empty_of_attached {q : Port} (here : s.attached q = true) : s.attachedPorts.isEmpty = false :=
  List.isEmpty_eq_false_iff_exists_mem.2 ⟨q, (mem_attachedPorts s q).2 here⟩

theorem not_decidesHalt_of_lacking {q : Port} (here : s.attached q = true) (lacks : look s.session.voted q = false) :
    s.decidesHalt = false := by
  rw [Bool.eq_false_iff, Ne, decidesHalt_iff]
  rintro ⟨-, -, all⟩
  exact Bool.false_ne_true (lacks.symm.trans (all q here))

/-- The three ways for the check to fail, each as the check that finds nothing. -/
theorem State.CheckFails.cases (h : s.CheckFails) :
    (s.session.phase = .setup ∧ s.agreed = false)
      ∨ (s.session.phase = .run ∧ s.attachedPorts.isEmpty = true ∧ emptyRunCheck s = s)
      ∨ (s.session.phase = .run ∧ s.attachedPorts.isEmpty = false ∧ s.decidesHalt = false) := by
  rcases h with ⟨run, ⟨q, here, lacks⟩ | ⟨left, q, cleaning⟩⟩ | ⟨setup, lacks⟩
  · exact .inr (.inr ⟨run, not_empty_of_attached here, not_decidesHalt_of_lacking here lacks⟩)
  · exact .inr (.inl ⟨run, (attachedPorts_isEmpty_iff s).2 left, emptyRunCheck_of_cleaning cleaning⟩)
  · exact .inl ⟨setup, (not_agreed_iff s setup).2 lacks⟩

/-- A departure that is followed by no change of phase is answered. -/
theorem departureCheck_of_fails (h : s.CheckFails) : departureCheck t s = answer t .ok [] s := by
  rcases h.cases with ⟨setup, lacks⟩ | ⟨run, empty, stays⟩ | ⟨run, anyone, lacks⟩
  · simp [departureCheck, setup, phaseCheck_of_not lacks]
  · simp [departureCheck, run, empty, stays]
  · simp [departureCheck, run, anyone, lacks]

/-- A departure that completes the confirmations starts RUN (R160). -/
theorem departureCheck_of_agreed (h : s.agreed = true) : departureCheck t s = answer t .ok [] (startRun s) := by
  obtain ⟨setup, -⟩ := (agreed_iff s).1 h
  simp [departureCheck, setup, phaseCheck_startsRun h]

/-- A departure that completes the votes decides a halt, for which its reply waits (R165). -/
theorem departureCheck_of_decides (h : s.decidesHalt = true) :
    departureCheck t s = decideHalt t.port (.detach t) s := by
  obtain ⟨run, ⟨q, here⟩, -⟩ := (decidesHalt_iff s).1 h
  simp [departureCheck, run, not_empty_of_attached here, h]

/-- The departure of the last port ends RUN (R166). -/
theorem departureCheck_of_empty (h : s.RunEmpty) : departureCheck t s = answer t .ok [] (endRun s) := by
  obtain ⟨run, left, -⟩ := id h
  simp [departureCheck, run, (attachedPorts_isEmpty_iff s).2 left, emptyRunCheck_endsRun h]

end Checks

/-! ### A port that has departed (R151, R152) -/

/-- Between the notice of a DETACH and the check that follows: `unit` stands for the unit of the port, which is not
ATTACHED, and its confirmation and vote are gone. -/
structure Departed (p : Port) (unit : PortUnit) (s u : State) : Prop where
  only : ChangesOnly [.claims, .session, .ports] s u
  session : u.session = s.session.forget p
  ports : u.ports = put s.ports p unit
  away : unit.state ≠ .attached
  cleanup : unit.cleanup = (s.port p).cleanup

namespace Departed

section Checked

variable {s u : State} {p q : Port} {unit : PortUnit} (d : Departed p unit s u)
include d

theorem port_eq (q : Port) : u.port q = if q = p then unit else s.port q := by
  unfold State.port
  rw [d.ports, look_put]

/-- The other ports are ATTACHED as before. -/
theorem attached_iff (q : Port) : u.attached q = true ↔ q ≠ p ∧ s.attached q = true := by
  have away := d.away
  unfold State.attached
  rw [d.port_eq]
  split
  · next own => simp [own, away]
  · next other => simp [other]

theorem attached_eq_false (others : ∀ q, q ≠ p → s.attached q = false) (q : Port) : u.attached q = false := by
  rw [Bool.eq_false_iff, Ne, d.attached_iff]
  rintro ⟨other, here⟩
  exact Bool.false_ne_true ((others q other).symm.trans here)

theorem port_cleanup (q : Port) : (u.port q).cleanup = (s.port q).cleanup := by
  rw [d.port_eq]
  split
  · next own => rw [own, d.cleanup]
  · rfl

theorem voted_of_ne (other : q ≠ p) : look u.session.voted q = look s.session.voted q := by
  rw [d.session]
  exact look_put_ne _ _ other

theorem confirmed_of_ne (other : q ≠ p) : look u.session.confirmed q = look s.session.confirmed q := by
  rw [d.session]
  exact look_put_ne _ _ other

theorem phase_eq : u.session.phase = s.session.phase := by rw [d.session]; rfl

theorem haltCleanup_eq : u.session.haltCleanup = s.session.haltCleanup := by rw [d.session]; rfl

theorem now_eq : u.now = s.now := congrArg TimeBase.tb (d.only.2 .timeBase (by simp))

/-! What the other ports decide of the check. -/

theorem fails_of_vote (run : s.session.phase = .run)
    (lacks : ∃ q, q ≠ p ∧ s.attached q = true ∧ look s.session.voted q = false) : u.CheckFails := by
  obtain ⟨q, other, here, unvoted⟩ := lacks
  exact .inl ⟨d.phase_eq.trans run,
    .inl ⟨q, (d.attached_iff q).2 ⟨other, here⟩, (d.voted_of_ne other).trans unvoted⟩⟩

theorem fails_of_cleaning (run : s.session.phase = .run) (others : ∀ q, q ≠ p → s.attached q = false)
    (cleaning : ∃ q, (s.port q).cleanup = true) : u.CheckFails := by
  obtain ⟨q, cleaning⟩ := cleaning
  exact .inl ⟨d.phase_eq.trans run, .inr ⟨d.attached_eq_false others, q, (d.port_cleanup q).trans cleaning⟩⟩

theorem fails_of_setup (setup : s.session.phase = .setup)
    (lacks : s.session.haltCleanup = true ∨ (∀ q, q ≠ p → s.attached q = false)
      ∨ ∃ q, q ≠ p ∧ s.attached q = true ∧ look s.session.confirmed q = false) : u.CheckFails := by
  refine .inr ⟨d.phase_eq.trans setup, ?_⟩
  rcases lacks with halting | others | ⟨q, other, here, unconfirmed⟩
  · exact .inl (d.haltCleanup_eq.trans halting)
  · exact .inr (.inl (d.attached_eq_false others))
  · exact .inr (.inr ⟨q, (d.attached_iff q).2 ⟨other, here⟩, (d.confirmed_of_ne other).trans unconfirmed⟩)

theorem decidesHalt (run : s.session.phase = .run) (anyone : ∃ q, q ≠ p ∧ s.attached q = true)
    (all : ∀ q, q ≠ p → s.attached q = true → look s.session.voted q = true) : u.decidesHalt = true := by
  obtain ⟨q, present⟩ := anyone
  refine (decidesHalt_iff u).2 ⟨d.phase_eq.trans run, ⟨q, (d.attached_iff q).2 present⟩, fun q here => ?_⟩
  obtain ⟨other, here⟩ := (d.attached_iff q).1 here
  exact (d.voted_of_ne other).trans (all q other here)

theorem runEmpty (run : s.session.phase = .run) (others : ∀ q, q ≠ p → s.attached q = false)
    (clean : ∀ q, (s.port q).cleanup = false) : u.RunEmpty :=
  ⟨d.phase_eq.trans run, d.attached_eq_false others, fun q => (d.port_cleanup q).trans (clean q)⟩

theorem agreed (setup : s.session.phase = .setup) (calm : s.session.haltCleanup = false)
    (anyone : ∃ q, q ≠ p ∧ s.attached q = true)
    (all : ∀ q, q ≠ p → s.attached q = true → look s.session.confirmed q = true) : u.agreed = true := by
  obtain ⟨q, present⟩ := anyone
  refine (agreed_iff u).2 ⟨d.phase_eq.trans setup, d.haltCleanup_eq.trans calm, ⟨q, (d.attached_iff q).2 present⟩,
    fun q here => ?_⟩
  obtain ⟨other, here⟩ := (d.attached_iff q).1 here
  exact (d.confirmed_of_ne other).trans (all q other here)

end Checked

/-! What an event does that ends with the check. -/

section Outcomes

variable {s u : State} {c : Ticket} {unit : PortUnit} {i : Instr} (d : Departed c.port unit s u)
  (e : exec i s = .next (departureCheck c u))
include d e

theorem answered (fails : u.CheckFails) : ∃ t, exec i s = .next t ∧ ChangesOnly [.claims, .session, .ports] s t
    ∧ t.claims = u.claims ∧ t.session = s.session.forget c.port
    ∧ t.ports = put s.ports c.port (unit.produce c .ok []) := by
  rw [departureCheck_of_fails fails] at e
  refine ⟨_, e, changesOnly_next d.only (changesOnly_answer _ _ _ _) (by simp), rfl, d.session, ?_⟩
  rw [answer_ports, d.port_eq, d.ports, if_pos rfl, put_put]

theorem startsRun (agreed : u.agreed = true) : ∃ t, exec i s = .next t ∧ ChangesOnly [.claims, .session, .ports] s t
    ∧ t.claims = u.claims ∧ t.session = { s.session.forget c.port with phase := .run }
    ∧ ∀ q, t.port q = if q = c.port then unit.produce c .ok [] else (s.port q).receive
        { kind := .phase, aux := 1, ref := 0, value := s.session.version, time := s.now } := by
  rw [departureCheck_of_agreed agreed] at e
  refine ⟨_, e, changesOnly_next (changesOnly_next d.only (changesOnly_startRun u) (by simp))
    (changesOnly_answer _ _ _ _) (by simp), by simp, by simp [d.session], fun q => ?_⟩
  have away := d.away
  rw [answer_port, startRun_port, d.port_eq, d.session, d.now_eq]
  split
  · simp [PortUnit.receive, away]
  · rfl

theorem endsRun (law : s.OutputLaw) (empty : u.RunEmpty) : ∃ t, exec i s = .next t
    ∧ ChangesOnly [.claims, .session, .output, .ports] s t
    ∧ t.claims = u.claims ∧ t.session = { s.session.forget c.port with phase := .setup }
    ∧ Driven s.output t.output s.now ∧ t.output.trip = s.output.trip
    ∧ t.ports = put s.ports c.port (unit.produce c .ok []) := by
  rw [departureCheck_of_empty empty] at e
  have output : (endRun u).output = s.output.driveAll s.now := by
    rw [endRun_output, d.now_eq, d.only.2 .output (by simp)]
  obtain ⟨driven, trip⟩ := driveAll_of_law law
  refine ⟨_, e, changesOnly_next (changesOnly_next (changesOnly_of_subset d.only (by simp)) (changesOnly_endRun u)
    (by simp)) (changesOnly_answer _ _ _ _) (by simp), by simp, by simp [d.session], ?_, ?_, ?_⟩
  · rw [answer_output, output]
    exact driven
  · rw [answer_output, output]
    exact trip
  · rw [answer_ports]
    unfold State.port
    rw [endRun_ports, d.ports, look_put_self, put_put]

theorem halts (law : s.OutputLaw) (decides : u.decidesHalt = true) : ∃ t, exec i s = .next t
    ∧ ChangesOnly [.claims, .session, .output, .arbiter, .ports] s t ∧ t.claims = u.claims
    ∧ t.session = { s.session.forget c.port with
        phase := .setup, haltCleanup := true, haltWaiter := some (.detach c) }
    ∧ Driven s.output t.output s.now ∧ t.output.trip = s.output.trip ∧ t.ports = put s.ports c.port unit
    ∧ t.arbiter = { s.arbiter with purges := put s.arbiter.purges c.port (look s.arbiter.purges c.port ++ [.halt]) } := by
  rw [departureCheck_of_decides decides] at e
  have output : (decideHalt c.port (.detach c) u).output = s.output.driveAll s.now := by
    rw [decideHalt_output, d.now_eq, d.only.2 .output (by simp)]
  have arbiter : u.arbiter = s.arbiter := d.only.2 .arbiter (by simp)
  obtain ⟨driven, trip⟩ := driveAll_of_law law
  refine ⟨_, e, changesOnly_next (changesOnly_of_subset d.only (by simp)) (changesOnly_decideHalt _ _ _) (by simp),
    by simp, by simp [d.session], ?_, ?_, ?_, ?_⟩
  · rw [output]
    exact driven
  · rw [output]
    exact trip
  · rw [decideHalt_ports, d.ports]
  · rw [decideHalt_arbiter, arbiter]

end Outcomes

end Departed

/-! ### DETACH_COMPLETION (R151, R152) -/

section DetachCompletion

variable {s : State} {p : Port} {c : Ticket} {rest : List Ticket}

/-- The claim unit once the oldest completion notice of a port's DETACHes has been taken. -/
def ClaimUnit.detachTaken (u : ClaimUnit) (p : Port) (rest : List Ticket) : ClaimUnit :=
  { u with detachDone := put u.detachDone p rest }

theorem exec_detachCompletion (live : s.live = true) (first : look s.claims.detachDone p = c :: rest) :
    exec (.detachCompletion p) s = .next (completeDetach c (s.setClaims (s.claims.detachTaken p rest))) := by
  show execDetachCompletion p s = _
  simp [execDetachCompletion, whenLive_of_live live, first, ClaimUnit.detachTaken]

theorem completeDetach_of_lapsed (lapsed : (s.port c.port).state = .lapsed) :
    completeDetach c s = departureCheck c (s.setSession (s.session.forget c.port)) := by
  simp [completeDetach, lapsed]

theorem completeDetach_of_present (attached : (s.port c.port).state = .attached)
    (present : c.epoch = (s.port c.port).epoch) : completeDetach c s =
      departureCheck c ((s.changePort c.port PortUnit.leave).setSession (s.session.forget c.port)) := by
  simp [completeDetach, attached, State.current, present]

theorem completeDetach_of_anew (attached : (s.port c.port).state = .attached)
    (past : c.epoch ≠ (s.port c.port).epoch) : completeDetach c s = answer c .ok [] s := by
  simp [completeDetach, attached, State.current, past]

/-- The port becomes DETACHED (R151). -/
theorem departed_of_leave (c : Ticket) (s : State) (u : ClaimUnit) :
    Departed c.port (s.port c.port).leave s
      (((s.setClaims u).changePort c.port PortUnit.leave).setSession (s.session.forget c.port)) where
  only := changesOnly_next (changesOnly_next (changesOnly_of_subset (changesOnly_setClaims s u) (by simp))
    (changesOnly_changePort _ _ _) (by simp)) (changesOnly_setSession _ _) (by simp)
  session := rfl
  ports := rfl
  away := nofun
  cleanup := rfl

/-- A port that lapsed in between stays LAPSED (R152). -/
theorem departed_of_lapsed (u : ClaimUnit) (lapsed : (s.port c.port).state = .lapsed) :
    Departed c.port (s.port c.port) s ((s.setClaims u).setSession (s.session.forget c.port)) where
  only := changesOnly_next (changesOnly_of_subset (changesOnly_setClaims s u) (by simp)) (changesOnly_setSession _ _)
    (by simp)
  session := rfl
  ports := (put_look_self _ _).symm
  away := by simp [lapsed]
  cleanup := rfl

/-- Settles O50: a port that is still there becomes DETACHED, a LAPSED one stays, and the check of either finds what the
other ports decide; one that has attached again is only answered. -/
theorem detachCompletes : Obligations.DetachCompletes := by
  intro p c rest s live first own law
  subst own
  intro gone others session claims
  have taken := exec_detachCompletion live first
  have anyone_of_not (h : ¬ others) : ∃ q, q ≠ c.port ∧ s.attached q = true := by simpa [others] using h
  refine ⟨fun present attached => ?_, fun lapsed => ?_, fun past attached => ?_⟩
  · have d := departed_of_leave c s claims
    have e := taken.trans (congrArg _ (completeDetach_of_present (s := s.setClaims claims) attached present))
    refine ⟨fun run _ lacks => d.answered e (d.fails_of_vote run lacks),
      fun run anyone all => d.halts e law (d.decidesHalt run (anyone_of_not anyone) all),
      fun run left clean => d.endsRun e law (d.runEmpty run left clean),
      fun run left cleaning => d.answered e (d.fails_of_cleaning run left cleaning),
      fun setup lacks => d.answered e (d.fails_of_setup setup (or_left_comm.1 lacks)),
      fun setup anyone calm all => d.startsRun e (d.agreed setup calm (anyone_of_not anyone) all)⟩
  · have d := departed_of_lapsed claims lapsed
    have e := taken.trans (congrArg _ (completeDetach_of_lapsed (s := s.setClaims claims) lapsed))
    have other (q : Port) (here : s.attached q = true) : q ≠ c.port := by
      rintro rfl
      simp [State.attached, lapsed] at here
    intro produced fails
    refine ⟨fun h => d.answered e ?_, fun run anyone all => ?_, fun run left clean => ?_, fun setup calm anyone all => ?_⟩
    · rcases h with ⟨run, ⟨q, here, lacks⟩ | ⟨left, cleaning⟩⟩ | ⟨setup, halting | left | ⟨q, here, lacks⟩⟩
      · exact d.fails_of_vote run ⟨q, other q here, here, lacks⟩
      · exact d.fails_of_cleaning run (fun q _ => left q) cleaning
      · exact d.fails_of_setup setup (.inl halting)
      · exact d.fails_of_setup setup (.inr (.inl fun q _ => left q))
      · exact d.fails_of_setup setup (.inr (.inr ⟨q, other q here, here, lacks⟩))
    · obtain ⟨q, here⟩ := anyone
      obtain ⟨t, e, only, claims, session, driven, trip, ports, arbiter⟩ :=
        d.halts e law (d.decidesHalt run ⟨q, other q here, here⟩ fun q _ => all q)
      exact ⟨t, e, changesOnly_of_same (b := .ports) only (ports.trans (put_look_self _ _)) (by simp), claims, session,
        driven, trip, arbiter⟩
    · exact d.endsRun e law (d.runEmpty run (fun q _ => left q) clean)
    · obtain ⟨q, here⟩ := anyone
      exact d.startsRun e (d.agreed setup calm ⟨q, other q here, here⟩ fun q _ => all q)
  · have e := taken.trans (congrArg _ (completeDetach_of_anew (s := s.setClaims claims) attached past))
    exact ⟨_, e, changesOnly_next (changesOnly_of_subset (changesOnly_setClaims s claims) (by simp))
      (changesOnly_answer _ _ _ _) (by simp), rfl, rfl⟩

end DetachCompletion

/-! ### HALT_COMPLETION (R163, R165) -/

section HaltCompletion

variable {s : State}

/-- The part with a halt over, before what waited for it goes on. -/
def haltOver (s : State) : State :=
  postAll (phaseRecord .setup s.session.version s.now)
    ((s.setClaims { s.claims with halt := .idle }).setSession s.session.afterHalt)

theorem exec_haltCompletion (live : s.live = true) (notice : s.claims.halt = .notice) :
    exec .haltCompletion s = .next (resumeWaiter s.session.haltWaiter (haltOver s)) := by
  show execHaltCompletion s = _
  simp [execHaltCompletion, whenLive_of_live live, notice, haltOver]

theorem changesOnly_haltOver (s : State) : ChangesOnly [.claims, .session, .ports] s (haltOver s) :=
  changesOnly_next (changesOnly_next (changesOnly_of_subset (changesOnly_setClaims s _) (by simp))
    (changesOnly_setSession _ _) (by simp)) (changesOnly_postAll _ _) (by simp)

/-- Every ATTACHED port is told of SETUP (R171). -/
theorem haltOver_port (s : State) (q : Port) : (haltOver s).port q = (s.port q).receive
    { kind := .phase, aux := 0, ref := 0, value := s.session.version, time := s.now } := by
  simp [haltOver, phaseRecord, phaseCode]

/-- The flag of one port is cleared. -/
theorem clearCleanup_port (p q : Port) (s : State) :
    (clearCleanup p s).port q = if q = p then { s.port q with cleanup := false } else s.port q := by
  unfold clearCleanup
  rw [changePort_port]
  split
  · next own => rw [own]
  · rfl

theorem changesOnly_resumeWaiter (w : Option HaltWaiter) (s : State) : ChangesOnly [.ports] s (resumeWaiter w s) := by
  unfold resumeWaiter
  split
  · exact changesOnly_answer _ _ _ _
  · exact changesOnly_answer _ _ _ _
  · exact changesOnly_changePort _ _ _
  · exact changesOnly_refl _ _

/-- Settles O51: the session unit's record is that after a halt, and what waited is settled at its own port. -/
theorem haltCompletes : Obligations.HaltCompletes := by
  intro s live notice
  have resumed := changesOnly_resumeWaiter s.session.haltWaiter (haltOver s)
  have session : (resumeWaiter s.session.haltWaiter (haltOver s)).session = s.session.afterHalt :=
    (resumed.2 .session (by simp)).trans (by simp [haltOver])
  have claims : (resumeWaiter s.session.haltWaiter (haltOver s)).claims = { s.claims with halt := .idle } :=
    (resumed.2 .claims (by simp)).trans (by simp [haltOver])
  refine ⟨_, exec_haltCompletion live notice, changesOnly_next (changesOnly_haltOver s) resumed (by simp), claims, ?_⟩
  rw [session]
  refine ⟨fun q => ⟨look_replicate _ q, look_replicate _ q⟩, rfl, rfl, rfl, rfl, rfl, rfl, rfl, ?_⟩
  intro told q
  have here (q : Port) : (haltOver s).port q = told q := haltOver_port s q
  cases s.session.haltWaiter with
  | none => exact here q
  | some w =>
    cases w with
    | vote c n => rw [← here q]; exact answer_port _ c _ _ q
    | detach c => rw [← here q]; exact answer_port _ c _ _ q
    | lapse w => rw [← here q]; exact clearCleanup_port w q _

end HaltCompletion

/-! ### LAPSE (R168, R185) -/

section Lapse

variable {s : State} {p : Port}

/-- The port is LAPSED and its request, if any, off its leaf; the others are still to be told. -/
def afterLapse (p : Port) (s : State) : State :=
  withdraw p ((s.changePort p PortUnit.lapse).setSession (s.session.forget p))

theorem changesOnly_requestPurge (p : Port) (k : PurgeRequest) (s : State) :
    ChangesOnly [.arbiter] s (requestPurge p k s) := changesOnly_setArbiter s _

theorem exec_lapse (live : s.live = true) (attached : s.attached p = true) (due : (s.port p).leaseEnd = some s.now) :
    exec (.lapse p) s = .next (requestPurge p .lapse (postAll (peerLapsedRecord p s.now) (afterLapse p s))) := by
  show execLapse p s = _
  simp [execLapse, whenLive_of_live live, State.leaseOver, attached, due, lapsePort, afterLapse]

theorem changesOnly_afterLapse (p : Port) (s : State) : ChangesOnly [.session, .arbiter, .ports] s (afterLapse p s) :=
  changesOnly_next (changesOnly_next (changesOnly_of_subset (changesOnly_changePort p _ s) (by simp))
    (changesOnly_setSession _ _) (by simp)) (changesOnly_setArbiter _ _) (by simp)

theorem afterLapse_port (p q : Port) (s : State) :
    (afterLapse p s).port q = if q = p then (s.port p).lapse else s.port q :=
  changePort_port p q PortUnit.lapse s

theorem requestPurge_port (p q : Port) (k : PurgeRequest) (s : State) : (requestPurge p k s).port q = s.port q := rfl

/-- A LAPSED port is told nothing. -/
theorem receive_of_lapse (u : PortUnit) (e : EventRecord) : u.lapse.receive e = u.lapse := by
  simp [PortUnit.receive, PortUnit.lapse]

theorem lapse_completes (live : s.live = true) (attached : s.attached p = true)
    (due : (s.port p).leaseEnd = some s.now) : ∃ t, exec (.lapse p) s = .next t
      ∧ ChangesOnly [.session, .arbiter, .ports] s t ∧ t.session = s.session.forget p
      ∧ t.arbiter = { (s.arbiter.without p) with
          purges := put s.arbiter.purges p (look s.arbiter.purges p ++ [.lapse]) }
      ∧ t.port p = (s.port p).lapse
      ∧ ∀ q, q ≠ p → t.port q = (s.port q).receive
          { kind := .peerLapsed, aux := portCode p, ref := 0, value := 0, time := s.now } := by
  have unit (q : Port) : (requestPurge p .lapse (postAll (peerLapsedRecord p s.now) (afterLapse p s))).port q =
      ((afterLapse p s).port q).receive (peerLapsedRecord p s.now) :=
    (requestPurge_port p q .lapse _).trans (postAll_port _ _ q)
  refine ⟨_, exec_lapse live attached due, ?_, ?_, ?_, ?_, fun q other => ?_⟩
  · exact changesOnly_next (changesOnly_next (changesOnly_afterLapse p s) (changesOnly_postAll _ _) (by simp))
      (changesOnly_requestPurge _ _ _) (by simp)
  · rw [requestPurge_session, postAll_session]
    rfl
  · unfold requestPurge
    rw [setArbiter_arbiter, postAll_arbiter]
    rfl
  · rw [unit, afterLapse_port, if_pos rfl, receive_of_lapse]
  · rw [unit, afterLapse_port, if_neg other]
    rfl

end Lapse

/-! ### LAPSE_CLEANUP_COMPLETION (R169) -/

section Cleanup

variable {s : State} {p : Port}

@[simp] theorem clearCleanup_session (p : Port) (s : State) : (clearCleanup p s).session = s.session := rfl

@[simp] theorem clearCleanup_attached (p q : Port) (s : State) : (clearCleanup p s).attached q = s.attached q := by
  unfold State.attached
  rw [clearCleanup_port]
  split <;> rfl

@[simp] theorem clearCleanup_attachedPorts (p : Port) (s : State) :
    (clearCleanup p s).attachedPorts = s.attachedPorts := attachedPorts_congr fun q => clearCleanup_attached p q s

@[simp] theorem clearCleanup_decidesHalt (p : Port) (s : State) : (clearCleanup p s).decidesHalt = s.decidesHalt := by
  simp [State.decidesHalt]

/-- A cleanup that is followed by no change of phase is over. -/
theorem completeCleanup_of_fails (h : (clearCleanup p s).CheckFails) : completeCleanup p s = clearCleanup p s := by
  rcases h.cases with ⟨setup, lacks⟩ | ⟨run, empty, stays⟩ | ⟨run, anyone, lacks⟩
  · rw [clearCleanup_session] at setup
    simp [completeCleanup, setup, phaseCheck_of_not lacks]
  · rw [clearCleanup_session] at run
    rw [clearCleanup_attachedPorts] at empty
    simp [completeCleanup, run, empty, stays]
  · rw [clearCleanup_session] at run
    rw [clearCleanup_attachedPorts] at anyone
    rw [clearCleanup_decidesHalt] at lacks
    simp [completeCleanup, run, anyone, lacks]

/-- With every confirmation there it starts RUN (R160). -/
theorem completeCleanup_of_agreed (h : (clearCleanup p s).agreed = true) :
    completeCleanup p s = startRun (clearCleanup p s) := by
  obtain ⟨setup, -⟩ := (agreed_iff _).1 h
  rw [clearCleanup_session] at setup
  simp [completeCleanup, setup, phaseCheck_startsRun h]

/-- With every vote there it decides a halt, and the flag stays until that completes (R165). -/
theorem completeCleanup_of_decides (h : s.decidesHalt = true) : completeCleanup p s = decideHalt p (.lapse p) s := by
  obtain ⟨run, ⟨q, here⟩, -⟩ := (decidesHalt_iff s).1 h
  simp [completeCleanup, run, not_empty_of_attached here, h]

/-- The last cleanup with no port ATTACHED ends RUN (R166). -/
theorem completeCleanup_of_empty (h : (clearCleanup p s).RunEmpty) :
    completeCleanup p s = endRun (clearCleanup p s) := by
  obtain ⟨run, left, -⟩ := id h
  have empty := (attachedPorts_isEmpty_iff _).2 left
  rw [clearCleanup_session] at run
  rw [clearCleanup_attachedPorts] at empty
  simp [completeCleanup, run, empty, emptyRunCheck_endsRun h]

/-- The claim unit once the completion notice of a port's lapse cleanup has been taken. -/
def ClaimUnit.lapseTaken (u : ClaimUnit) (p : Port) : ClaimUnit := { u with lapseDone := put u.lapseDone p false }

theorem exec_lapseCleanupCompletion (live : s.live = true) (done : look s.claims.lapseDone p = true) :
    exec (.lapseCleanupCompletion p) s = .next (completeCleanup p (s.setClaims (s.claims.lapseTaken p))) := by
  show execLapseCleanupCompletion p s = _
  simp [execLapseCleanupCompletion, whenLive_of_live live, done, ClaimUnit.lapseTaken]

theorem changesOnly_cleared (p : Port) (s : State) (u : ClaimUnit) :
    ChangesOnly [.claims, .ports] s (clearCleanup p (s.setClaims u)) :=
  changesOnly_next (changesOnly_of_subset (changesOnly_setClaims s u) (by simp)) (changesOnly_changePort _ _ _)
    (by simp)

section Outcomes

variable (live : s.live = true) (done : look s.claims.lapseDone p = true)
include live done

theorem cleanup_ends (fails : (clearCleanup p (s.setClaims (s.claims.lapseTaken p))).CheckFails) :
    ∃ t, exec (.lapseCleanupCompletion p) s = .next t ∧ ChangesOnly [.claims, .ports] s t
      ∧ t.claims = s.claims.lapseTaken p ∧ t.ports = put s.ports p { s.port p with cleanup := false } :=
  ⟨_, (exec_lapseCleanupCompletion live done).trans (congrArg _ (completeCleanup_of_fails fails)),
    changesOnly_cleared p s _, rfl, rfl⟩

theorem cleanup_startsRun (away : s.attached p = false)
    (agreed : (clearCleanup p (s.setClaims (s.claims.lapseTaken p))).agreed = true) :
    ∃ t, exec (.lapseCleanupCompletion p) s = .next t ∧ ChangesOnly [.claims, .session, .ports] s t
      ∧ t.claims = s.claims.lapseTaken p ∧ t.session = { s.session with phase := .run }
      ∧ ∀ q, t.port q = if q = p then { s.port p with cleanup := false } else (s.port q).receive
          { kind := .phase, aux := 1, ref := 0, value := s.session.version, time := s.now } := by
  refine ⟨_, (exec_lapseCleanupCompletion live done).trans (congrArg _ (completeCleanup_of_agreed agreed)),
    changesOnly_next (changesOnly_of_subset (changesOnly_cleared p s _) (by simp)) (changesOnly_startRun _) (by simp),
    startRun_claims _, startRun_session _, fun q => ?_⟩
  have away : (s.port p).state ≠ .attached := by simpa [State.attached] using away
  rw [startRun_port, clearCleanup_port]
  split
  · next own => simp [own, PortUnit.receive, away]
  · rfl

theorem cleanup_halts (law : s.OutputLaw) (decides : s.decidesHalt = true) :
    ∃ t, exec (.lapseCleanupCompletion p) s = .next t ∧ ChangesOnly [.claims, .session, .output, .arbiter] s t
      ∧ t.claims = s.claims.lapseTaken p
      ∧ t.session = { s.session with phase := .setup, haltCleanup := true, haltWaiter := some (.lapse p) }
      ∧ Driven s.output t.output s.now ∧ t.output.trip = s.output.trip
      ∧ t.arbiter = { s.arbiter with purges := put s.arbiter.purges p (look s.arbiter.purges p ++ [.halt]) } := by
  obtain ⟨driven, trip⟩ := driveAll_of_law law
  have decides : (s.setClaims (s.claims.lapseTaken p)).decidesHalt = true := decides
  refine ⟨_, (exec_lapseCleanupCompletion live done).trans (congrArg _ (completeCleanup_of_decides decides)),
    changesOnly_next (changesOnly_of_subset (changesOnly_setClaims s _) (by simp)) (changesOnly_decideHalt _ _ _)
      (by simp), decideHalt_claims _ _ _, decideHalt_session _ _ _, ?_, ?_, decideHalt_arbiter _ _ _⟩
  · rw [decideHalt_output]
    exact driven
  · rw [decideHalt_output]
    exact trip

theorem cleanup_endsRun (law : s.OutputLaw)
    (empty : (clearCleanup p (s.setClaims (s.claims.lapseTaken p))).RunEmpty) :
    ∃ t, exec (.lapseCleanupCompletion p) s = .next t ∧ ChangesOnly [.claims, .session, .output, .ports] s t
      ∧ t.claims = s.claims.lapseTaken p ∧ t.session = { s.session with phase := .setup }
      ∧ t.ports = put s.ports p { s.port p with cleanup := false }
      ∧ Driven s.output t.output s.now ∧ t.output.trip = s.output.trip := by
  obtain ⟨driven, trip⟩ := driveAll_of_law law
  refine ⟨_, (exec_lapseCleanupCompletion live done).trans (congrArg _ (completeCleanup_of_empty empty)),
    changesOnly_next (changesOnly_of_subset (changesOnly_cleared p s _) (by simp)) (changesOnly_endRun _) (by simp),
    endRun_claims _, endRun_session _, endRun_ports _, ?_, ?_⟩
  · rw [endRun_output]
    exact driven
  · rw [endRun_output]
    exact trip

end Outcomes

/-- Settles O52: a lease end makes the port LAPSED; the notice of its cleanup clears the flag, and the check of the phase
has its effect. -/
theorem lapseAndCleanup : Obligations.LapseAndCleanup := by
  intro p s live
  refine ⟨fun attached due => ?_, fun done => ?_⟩
  · obtain ⟨t, e, only, session, arbiter, unit, others⟩ := lapse_completes live attached due
    refine ⟨t, e, only, session, arbiter, ?_⟩
    rw [unit]
    exact ⟨rfl, rfl, rfl, rfl, rfl, rfl, rfl, rfl, rfl, rfl, rfl, rfl, rfl, rfl, rfl, rfl, others⟩
  · intro cleared claims
    have attached (q : Port) : (clearCleanup p (s.setClaims claims)).attached q = s.attached q :=
      clearCleanup_attached p q _
    have fails (h : (clearCleanup p (s.setClaims claims)).CheckFails) := cleanup_ends live done h
    refine ⟨fun setup lacks => fails (.inr ⟨setup, ?_⟩), fun setup calm away anyone all => ?_,
      fun run left cleaning => ?_, fun run lacks => ?_, fun run law anyone all => ?_, fun run law left clean => ?_⟩
    · simpa only [attached, clearCleanup_session, setClaims_session] using lacks
    · refine cleanup_startsRun live done away ((agreed_iff _).2 ⟨setup, calm, ?_⟩)
      simpa only [clearCleanup_attached] using ⟨anyone, all⟩
    · obtain ⟨q, other, cleaning⟩ := cleaning
      refine fails (.inl ⟨run, .inr ⟨fun q => (attached q).trans (left q), q, ?_⟩⟩)
      rw [clearCleanup_port, if_neg other]
      exact cleaning
    · obtain ⟨q, here, unvoted⟩ := lacks
      exact fails (.inl ⟨run, .inl ⟨q, (attached q).trans here, unvoted⟩⟩)
    · exact cleanup_halts live done law ((decidesHalt_iff s).2 ⟨run, anyone, all⟩)
    · refine cleanup_endsRun live done law ⟨run, fun q => (attached q).trans (left q), fun q => ?_⟩
      rw [clearCleanup_port]
      split
      · rfl
      · next other => exact clean q other

end Cleanup

end Sys2Proof.Machine
end

section
/-! PROOFS. WRITE_CONFIG, completed (R154 to R156): what a write reads back as, the lines and groups it touches, and the
holdoffs it sets afresh (R104). -/

namespace Sys2Proof.Machine

/-! ### What is left of a gap (R104) -/

namespace OutputUnit

section Gaps

variable {o o' : OutputUnit} {now t : Time} {l : Line} {g : Group}

theorem gapLeft_eq_some {r : LineRecord} {gap : Half} {n : Nat} : r.gapLeft now gap = some n ↔
    r.level = .inactive ∧ ∃ t, r.lastChange = some t ∧ distance t now < gap.toNat
      ∧ n = gap.toNat - distance t now := by
  unfold LineRecord.gapLeft
  cases r.level <;> cases r.lastChange <;> simp [eq_comm]

/-- What is left of the group's gap for each member within it. -/
def gapsLeft (o : OutputUnit) (now : Time) (g : Group) : List Nat :=
  (o.members g).filterMap fun m => (o.line m).gapLeft now (o.group g).gap

theorem mem_gapsLeft {n : Nat} : n ∈ o.gapsLeft now g ↔
    ∃ l t, o.InGap now g l t ∧ n = (o.group g).gap.toNat - distance t now := by
  simp only [gapsLeft, List.mem_filterMap, mem_members, gapLeft_eq_some, InGap]
  constructor
  · rintro ⟨l, member, level, t, changed, near, rfl⟩
    exact ⟨l, t, ⟨member, level, changed, near⟩, rfl⟩
  · rintro ⟨l, t, ⟨member, level, changed, near⟩, rfl⟩
    exact ⟨l, member, level, t, changed, near, rfl⟩

/-- The remainder that counts is the longest. -/
theorem longestGapLeft_eq_max (o : OutputUnit) (now : Time) (g : Group) :
    o.longestGapLeft now g = (o.gapsLeft now g).max? := by
  unfold longestGapLeft gapsLeft
  induction o.members g using List.reverseRecOn with
  | nil => rfl
  | append_singleton ms m ih =>
    rw [List.foldl_append, ih, List.filterMap_append]
    cases best : (ms.filterMap fun m => (o.line m).gapLeft now (o.group g).gap).max? with
    | none =>
      rw [List.max?_eq_none_iff.1 best]
      cases left : (o.line m).gapLeft now (o.group g).gap <;> simp [left]
    | some b =>
      cases left : (o.line m).gapLeft now (o.group g).gap with
      | none => simp [left, best]
      | some n =>
        obtain ⟨mem, top⟩ := (List.max?_eq_some_iff (α := Nat)).1 best
        simp only [List.foldl_cons, List.foldl_nil, left, List.filterMap_cons, List.filterMap_nil]
        refine ((List.max?_eq_some_iff (α := Nat)).2 ⟨?_, fun k hk => ?_⟩).symm
        · rcases max_choice b n with first | second
          · exact List.mem_append_left _ (first.symm ▸ mem)
          · exact List.mem_append_right _ (List.mem_singleton.2 second)
        · rcases List.mem_append.1 hk with old | new
          · exact (top k old).trans (le_max_left b n)
          · exact (List.mem_singleton.1 new).trans_le (le_max_right b n)

theorem longestGapLeft_eq_none_iff : o.longestGapLeft now g = none ↔ ∀ l t, ¬ o.InGap now g l t := by
  rw [longestGapLeft_eq_max, List.max?_eq_none_iff, List.eq_nil_iff_forall_not_mem]
  simp only [mem_gapsLeft]
  exact ⟨fun none l t within => none _ ⟨l, t, within, rfl⟩, fun none n ⟨l, t, within, _⟩ => none l t within⟩

/-- The member that changed last has the longest remainder. -/
theorem longestGapLeft_of_last (within : o.InGap now g l t)
    (last : ∀ m u, o.InGap now g m u → distance t now ≤ distance u now) :
    o.longestGapLeft now g = some ((o.group g).gap.toNat - distance t now) := by
  rw [longestGapLeft_eq_max, List.max?_eq_some_iff]
  refine ⟨mem_gapsLeft.2 ⟨l, t, within, rfl⟩, fun k hk => ?_⟩
  obtain ⟨m, u, other, rfl⟩ := mem_gapsLeft.1 hk
  exact Nat.sub_le_sub_left (last m u other) _

/-- What is left of a span that began at `t` ends with the span. -/
theorem later_remainder {n : Nat} (h : distance t now ≤ n) : later now (n - distance t now) = later t n := by
  have passed : t + BitVec.ofNat 32 (distance t now) = now := by
    rw [distance, BitVec.ofNat_toNat, BitVec.setWidth_eq, BitVec.add_comm, BitVec.sub_add_cancel]
  calc later now (n - distance t now)
      = t + BitVec.ofNat 32 (distance t now) + BitVec.ofNat 32 (n - distance t now) := by rw [passed]; rfl
    _ = t + BitVec.ofNat 32 (distance t now + (n - distance t now)) := by rw [BitVec.add_assoc, ← BitVec.ofNat_add]
    _ = later t n := by rw [Nat.add_sub_of_le h]; rfl

end Gaps

/-! ### A holdoff set afresh (R104) -/

section Afresh

variable {o o' : OutputUnit} {now t : Time} {l : Line} {g j : Group}

/-- Of the group's record a holdoff set afresh changes the holdoff alone. -/
theorem recompute_group : (o.recompute now g).group j = if j = g
    then { o.group g with holdoff := (o.longestGapLeft now g).map fun n => { line := none, endsAt := later now n } }
    else o.group j := by
  by_cases same : j = g
  · subst same
    unfold recompute
    cases left : o.longestGapLeft now j with
    | some n => simp [setHoldoff_group]
    | none =>
      cases held : (o.group j).holdoff with
      | some x => simp [setHoldoff_group]
      | none =>
        rw [if_pos rfl]
        show o.group j = { o.group j with holdoff := none }
        rw [← held]
  · rw [if_neg same, recompute_group_of_ne same]

/-- A holdoff that is cleared so opens its group with one notice. -/
theorem recompute_notices : (o.recompute now g).notices = o.notices ++
    if (o.group g).holdoff.isSome = true ∧ ((o.recompute now g).group g).holdoff = none then [g] else [] := by
  rw [recompute_group, if_pos rfl]
  unfold recompute
  cases o.longestGapLeft now g with
  | some n => simp
  | none => cases held : (o.group g).holdoff <;> simp

/-- The law of a group's holdoff reads the lines and that group. -/
theorem HoldoffAfresh.of_same (h : o.HoldoffAfresh now g) (lines : ∀ l, o'.line l = o.line l)
    (group : o'.group g = o.group g) : o'.HoldoffAfresh now g := by
  unfold HoldoffAfresh InGap at h ⊢
  simpa only [lines, group] using h

/-- A holdoff set afresh is the one that R104 gives. -/
theorem holdoffAfresh_recompute (o : OutputUnit) (now : Time) (g : Group) :
    (o.recompute now g).HoldoffAfresh now g := by
  have record := recompute_group (o := o) (now := now) (g := g) (j := g)
  rw [if_pos rfl] at record
  have gap : ((o.recompute now g).group g).gap = (o.group g).gap := by rw [record]
  have within (l : Line) (t : Time) : (o.recompute now g).InGap now g l t ↔ o.InGap now g l t := by
    unfold InGap
    rw [recompute_line, gap]
  unfold HoldoffAfresh
  simp only [within, gap]
  refine ⟨fun none => ?_, fun l t here last => ?_⟩
  · rw [record, longestGapLeft_eq_none_iff.2 none]
    rfl
  · obtain ⟨-, -, -, near⟩ := id here
    rw [record, longestGapLeft_of_last here last, ← later_remainder near.le]
    rfl

/-- What a configuration write does to the holdoffs: those of some groups are set afresh, every other stays, and one that
is cleared so opens its group with one notice (R104). -/
structure HoldoffsSet (now : Time) (concerned : Group → Prop) (o o' : OutputUnit) : Prop where
  afresh : ∀ g, concerned g → o'.HoldoffAfresh now g
  still : ∀ g, ¬ concerned g → (o'.group g).holdoff = (o.group g).holdoff
  notices : ∃ gs, o'.notices = o.notices ++ gs ∧ gs.Nodup
    ∧ ∀ g, g ∈ gs ↔ concerned g ∧ (o.group g).holdoff.isSome = true ∧ (o'.group g).holdoff = none

namespace HoldoffsSet

variable {concerned others : Group → Prop}

/-- A write that concerns no holdoff. -/
theorem of_still (still : ∀ g, (o'.group g).holdoff = (o.group g).holdoff) (notices : o'.notices = o.notices) :
    HoldoffsSet now (fun _ => False) o o' where
  afresh _ none := none.elim
  still g _ := still g
  notices := ⟨[], by simp [notices], by simp, by simp⟩

theorem of_iff (h : HoldoffsSet now concerned o o') (same : ∀ g, concerned g ↔ others g) :
    HoldoffsSet now others o o' :=
  funext (fun g => propext (same g)) ▸ h

/-- One more group's holdoff is set afresh. -/
theorem recompute (h : HoldoffsSet now concerned o o') (new : ¬ concerned g) :
    HoldoffsSet now (fun j => concerned j ∨ j = g) o (o'.recompute now g) where
  afresh j here := by
    rcases here with old | rfl
    · exact (h.afresh j old).of_same (fun _ => recompute_line)
        (recompute_group_of_ne fun same => new (same ▸ old))
    · exact holdoffAfresh_recompute o' now j
  still j away := by
    rw [recompute_group_of_ne fun same => away (.inr same)]
    exact h.still j fun old => away (.inl old)
  notices := by
    obtain ⟨gs, sent, once, opened⟩ := h.notices
    have fresh : g ∉ gs := fun mem => new ((opened g).1 mem).1
    have before (j : Group) (other : j ≠ g) : j ∈ gs ↔ concerned j ∧ (o.group j).holdoff.isSome = true
        ∧ ((o'.recompute now g).group j).holdoff = none := by
      rw [recompute_group_of_ne other]
      exact opened j
    rw [recompute_notices, h.still g new, sent, List.append_assoc]
    refine ⟨_, rfl, ?_, fun j => ?_⟩
    · split
      · exact List.nodup_append.2 ⟨once, by simp, fun i mem j last same => fresh (by
          rw [← List.mem_singleton.1 last, ← same]
          exact mem)⟩
      · simpa using once
    · rw [List.mem_append]
      by_cases same : j = g
      · subst same
        simp only [fresh, false_or, or_true, true_and]
        split <;> simp_all
      · simp only [before j same, same, or_false]
        split <;> simp [same]

theorem recompute? {v : Option Group} (h : HoldoffsSet now concerned o o') (new : ∀ g, v = some g → ¬ concerned g) :
    HoldoffsSet now (fun j => concerned j ∨ v = some j) o (o'.recompute? now v) := by
  cases v with
  | none => exact h.of_iff (by simp)
  | some g => exact (h.recompute (new g rfl)).of_iff fun j => by simp [eq_comm]

end HoldoffsSet

end Afresh

end OutputUnit

/-! ### The records after a write (R88, R91, R103, R105) -/

/-- A line record after a configuration write, which touches the line that it names. -/
def ConfigWrite.onLine (w : ConfigWrite) (now : Time) (l : Line) (r : LineRecord) : LineRecord :=
  match w with
  | .polarity m v => if l = m then { r with polarity := v } else r
  | .safeLevel m v => if l = m then ({ r with safe := v } : LineRecord).driven now else r
  | .group m v => if l = m then { r with group := v } else r
  | .gap _ _ | .policy _ _ | .prescale _ | .lease _ _ | .quota _ _ => r

/-- The settings of a group after a configuration write; its holdoff is set elsewhere. -/
def ConfigWrite.onGroup (w : ConfigWrite) (g : Group) (r : GroupRecord) : GroupRecord :=
  match w with
  | .gap h v => if g = h then { r with gap := v } else r
  | .policy h v => if g = h then { r with policy := v } else r
  | .polarity _ _ | .safeLevel _ _ | .group _ _ | .prescale _ | .lease _ _ | .quota _ _ => r

namespace OutputUnit

section Records

variable {o : OutputUnit} {now : Time} {l : Line} {g : Group}

theorem recompute?_line {v : Option Group} : (o.recompute? now v).line l = o.line l := by
  cases v with
  | none => rfl
  | some g => exact recompute_line

/-- A holdoff set afresh leaves the settings of every group. -/
theorem recompute_settings (h : Group) :
    ((o.recompute now h).group g).gap = (o.group g).gap
      ∧ ((o.recompute now h).group g).policy = (o.group g).policy := by
  rw [recompute_group]
  split
  · next same => exact ⟨by rw [same], by rw [same]⟩
  · exact ⟨rfl, rfl⟩

theorem recompute?_settings (v : Option Group) :
    ((o.recompute? now v).group g).gap = (o.group g).gap
      ∧ ((o.recompute? now v).group g).policy = (o.group g).policy := by
  cases v with
  | none => exact ⟨rfl, rfl⟩
  | some h => exact recompute_settings h

/-- One line's record changed. -/
theorem setLine_change (o : OutputUnit) (m l : Line) (f : LineRecord → LineRecord) :
    (o.setLine m (f (o.line m))).line l = if l = m then f (o.line l) else o.line l := by
  rw [setLine_line]
  split
  · next same => rw [same]
  · rfl

/-- One group's record changed. -/
theorem setGroup_change (o : OutputUnit) (h g : Group) (f : GroupRecord → GroupRecord) :
    (o.setGroup h (f (o.group h))).group g = if g = h then f (o.group g) else o.group g := by
  rw [setGroup_group]
  split
  · next same => rw [same]
  · rfl

theorem configure_line (o : OutputUnit) (now : Time) (w : ConfigWrite) (l : Line) :
    (o.configure now w).line l = w.onLine now l (o.line l) := by
  cases w with
  | polarity m v => exact setLine_change o m l fun r => { r with polarity := v }
  | safeLevel m v =>
    have written (l : Line) := setLine_change o m l fun r => { r with safe := v }
    refine (drive_line _ now m l).trans ?_
    rw [written, written, if_pos rfl]
    by_cases same : l = m
    · subst same; simp [ConfigWrite.onLine]
    · simp [ConfigWrite.onLine, same]
  | group m v =>
    refine Eq.trans ?_ (setLine_change o m l fun r => { r with group := v })
    unfold configure
    dsimp only
    split
    · exact recompute?_line
    · exact recompute?_line.trans recompute?_line
  | gap h v => exact recompute_line
  | policy | prescale | lease | quota => rfl

theorem configure_settings (o : OutputUnit) (now : Time) (w : ConfigWrite) (g : Group) :
    ((o.configure now w).group g).gap = (w.onGroup g (o.group g)).gap
      ∧ ((o.configure now w).group g).policy = (w.onGroup g (o.group g)).policy := by
  cases w with
  | gap h v =>
    have written := setGroup_change o h g fun r => { r with gap := v }
    have settings := recompute_settings (o := o.setGroup h { o.group h with gap := v }) (now := now) (g := g) h
    rw [written] at settings
    exact settings
  | policy h v =>
    have written := setGroup_change o h g fun r => { r with policy := v }
    exact ⟨congrArg _ written, congrArg _ written⟩
  | safeLevel m v =>
    have steady := (drive_steady now (o.setLine m { o.line m with safe := v }) m).groups g
    exact ⟨steady.gap, steady.policy⟩
  | group m v =>
    have left := recompute?_settings (o := o.setLine m { o.line m with group := v }) (now := now) (g := g)
      (o.line m).group
    unfold configure
    dsimp only
    split
    · exact left
    · obtain ⟨gap, policy⟩ := left
      obtain ⟨gap', policy'⟩ := recompute?_settings
        (o := (o.setLine m { o.line m with group := v }).recompute? now (o.line m).group) (now := now) (g := g) v
      exact ⟨gap'.trans gap, policy'.trans policy⟩
  | polarity | prescale | lease | quota => exact ⟨rfl, rfl⟩

/-- A written safe level moves no grouped line, so that no group hears of it (R98, R103). -/
theorem Ready.safeLevel_still (ready : o.Ready) {m : Line} {v : Level}
    (permitted : (ConfigWrite.safeLevel m v).permitted o = true) (now : Time) :
    HoldoffsSet now (fun _ => False) o (o.configure now (.safeLevel m v)) := by
  have written : (o.setLine m { o.line m with safe := v }).line m = { o.line m with safe := v } :=
    (setLine_line o m m _).trans (if_pos rfl)
  have resting : ((o.setLine m { o.line m with safe := v }).line m).level = .inactive
      ∨ ((o.setLine m { o.line m with safe := v }).line m).group = none := by
    rw [written]
    cases member : (o.line m).group with
    | none => exact .inr rfl
    | some g => exact .inl (ready.grouped_inactive member)
  have safe : ((o.setLine m { o.line m with safe := v }).line m).group.isSome = true →
      ((o.setLine m { o.line m with safe := v }).line m).safe = .inactive := by
    rw [written]
    intro member
    cases v with
    | inactive => rfl
    | active => simp_all [ConfigWrite.permitted]
  refine .of_still (fun g => ?_) ?_
  · refine congrArg GroupRecord.holdoff ((drive_group _ now m safe g).trans (if_neg ?_))
    rintro ⟨member, active, -⟩
    rcases resting with inactive | alone
    · rw [inactive] at active
      cases active
    · rw [alone] at member
      cases member
  · exact (drive_notices_eq _ now m safe).2 (resting.imp_right .inl)

/-- The holdoffs after a write that passes its constraints, in SETUP: the groups whose membership or gap is written are
set afresh (R104). -/
theorem Ready.configure_holdoffs (ready : o.Ready) {w : ConfigWrite} (permitted : w.permitted o = true) (now : Time) :
    HoldoffsSet now (w.Regroups o) o (o.configure now w) := by
  cases w with
  | group m v =>
    have moved : HoldoffsSet now (fun _ => False) o (o.setLine m { o.line m with group := v }) :=
      .of_still (fun _ => rfl) rfl
    have left := moved.recompute? (v := (o.line m).group) (by simp)
    have concerned (g : Group) : (ConfigWrite.group m v).Regroups o g ↔ (o.line m).group = some g ∨ v = some g := by
      simp [ConfigWrite.Regroups]
    unfold OutputUnit.configure
    dsimp only
    split
    · next same => exact left.of_iff fun g => by simp [concerned, same]
    · next other =>
      refine (left.recompute? (v := v) fun g new old => ?_).of_iff fun g => by simp [concerned]
      exact other ((old.resolve_left id).trans new.symm)
  | gap h v =>
    have written : HoldoffsSet now (fun _ => False) o (o.setGroup h { o.group h with gap := v }) :=
      .of_still (fun g => by rw [setGroup_group]; split <;> simp_all) rfl
    exact (written.recompute (g := h) id).of_iff fun g => by simp [ConfigWrite.Regroups, eq_comm]
  | safeLevel m v => exact (ready.safeLevel_still permitted now).of_iff fun g => by simp [ConfigWrite.Regroups]
  | policy h v =>
    have written (g : Group) := setGroup_change o h g fun r => { r with policy := v }
    have still : HoldoffsSet now (fun _ => False) o (o.configure now (.policy h v)) :=
      .of_still (fun g => (congrArg _ (written g)).trans (by split <;> rfl)) rfl
    exact still.of_iff fun g => by simp [ConfigWrite.Regroups]
  | polarity | prescale | lease | quota =>
    exact HoldoffsSet.of_iff (.of_still (fun _ => rfl) rfl) fun g => by simp [ConfigWrite.Regroups]

end Records

end OutputUnit

/-! ### What a write reads back as (R156, R157) -/

/-- The item that a write is of. -/
def ConfigWrite.item : ConfigWrite → ConfigItem
  | .prescale _ => .prescale
  | .polarity l _ => .polarity l
  | .safeLevel l _ => .safeLevel l
  | .group l _ => .group l
  | .gap g _ => .gap g
  | .policy g _ => .policy g
  | .lease p _ => .lease p
  | .quota p _ => .quota p

/-- The code of the value that is written (R194). -/
def ConfigWrite.code : ConfigWrite → Half
  | .prescale v => (prescaleCode v).setWidth 16
  | .polarity _ v => (polarityCode v).setWidth 16
  | .safeLevel _ v => (levelCode v).setWidth 16
  | .group _ v => (groupCode? v).setWidth 16
  | .gap _ v => v
  | .policy _ v => (policyCode v).setWidth 16
  | .lease _ v | .quota _ v => v.setWidth 16

section Values

variable {s : State} {w : ConfigWrite} {item : ConfigItem} {v : Half}

theorem ConfigWrite.Coded.item_eq (h : w.Coded item v) : item = w.item := by
  cases w with
  | group l x => cases x <;> exact h.1
  | _ => exact h.1

theorem byteCode_eq {x : Byte} (same : v.toNat = x.toNat) : x.setWidth 16 = v :=
  BitVec.eq_of_toNat_eq (by
    rw [BitVec.toNat_setWidth, same]
    exact Nat.mod_eq_of_lt (by omega))

theorem ConfigWrite.Coded.code_eq (h : w.Coded item v) : w.code = v := by
  cases w with
  | prescale x =>
    obtain ⟨-, values⟩ := h
    rcases values with ⟨rfl, rfl⟩ | ⟨rfl, rfl⟩ | ⟨rfl, rfl⟩ | ⟨rfl, rfl⟩ <;> rfl
  | polarity l x => obtain ⟨-, ⟨rfl, rfl⟩ | ⟨rfl, rfl⟩⟩ := h <;> rfl
  | safeLevel l x => obtain ⟨-, ⟨rfl, rfl⟩ | ⟨rfl, rfl⟩⟩ := h <;> rfl
  | group l x =>
    cases x with
    | none => obtain ⟨-, rfl⟩ := h; rfl
    | some g =>
      obtain ⟨-, value⟩ := h
      have few := g.isLt
      refine byteCode_eq (value.trans ?_)
      rw [groupCode?, groupCode, BitVec.toNat_ofNat, Nat.mod_eq_of_lt (by omega)]
  | gap g x => exact h.2.symm
  | policy g x => obtain ⟨-, ⟨rfl, rfl⟩ | ⟨rfl, rfl⟩⟩ := h <;> rfl
  | lease p x => exact byteCode_eq h.2
  | quota p x => exact byteCode_eq h.2.1

/-- A line keeps each setting but one that is written. -/
theorem ConfigWrite.onLine_settings (w : ConfigWrite) (now : Time) (l : Line) (r : LineRecord) :
    (.polarity l ≠ w.item → (w.onLine now l r).polarity = r.polarity)
      ∧ (.safeLevel l ≠ w.item → (w.onLine now l r).safe = r.safe)
      ∧ (.group l ≠ w.item → (w.onLine now l r).group = r.group) := by
  cases w with
  | polarity m v => by_cases own : l = m <;> simp [ConfigWrite.onLine, ConfigWrite.item, own]
  | safeLevel m v => by_cases own : l = m <;> simp [ConfigWrite.onLine, ConfigWrite.item, own, LineRecord.driven]
  | group m v => by_cases own : l = m <;> simp [ConfigWrite.onLine, ConfigWrite.item, own]
  | gap | policy | prescale | lease | quota => exact ⟨fun _ => rfl, fun _ => rfl, fun _ => rfl⟩

/-- So does a group. -/
theorem ConfigWrite.onGroup_settings (w : ConfigWrite) (g : Group) (r : GroupRecord) :
    (.gap g ≠ w.item → (w.onGroup g r).gap = r.gap) ∧ (.policy g ≠ w.item → (w.onGroup g r).policy = r.policy) := by
  cases w with
  | gap h v => by_cases own : g = h <;> simp [ConfigWrite.onGroup, ConfigWrite.item, own]
  | policy h v => by_cases own : g = h <;> simp [ConfigWrite.onGroup, ConfigWrite.item, own]
  | polarity | safeLevel | group | prescale | lease | quota => exact ⟨fun _ => rfl, fun _ => rfl⟩

/-- So does the session unit. -/
theorem Session.configure_settings (x : Session) (w : ConfigWrite) (p : Port) :
    (.prescale ≠ w.item → (x.configure w).prescale = x.prescale)
      ∧ (.lease p ≠ w.item → look (x.configure w).lease p = look x.lease p)
      ∧ (.quota p ≠ w.item → look (x.configure w).quota p = look x.quota p) := by
  cases w with
  | prescale v => exact ⟨fun other => absurd rfl other, fun _ => rfl, fun _ => rfl⟩
  | lease q v =>
    refine ⟨fun _ => rfl, fun other => look_put_ne _ _ ?_, fun _ => rfl⟩
    exact fun same => other (congrArg _ same)
  | quota q v =>
    refine ⟨fun _ => rfl, fun _ => rfl, fun other => look_put_ne _ _ ?_⟩
    exact fun same => other (congrArg _ same)
  | polarity | safeLevel | group | gap | policy => exact ⟨fun _ => rfl, fun _ => rfl, fun _ => rfl⟩

theorem configure_output_line (w : ConfigWrite) (s : State) (l : Line) :
    (configure w s).output.line l = w.onLine s.now l (s.output.line l) := OutputUnit.configure_line _ _ _ _

/-- The item written reads as written. -/
theorem configValue_written (w : ConfigWrite) (s : State) : (configure w s).configValue w.item = w.code := by
  cases w with
  | polarity l v =>
    simp [ConfigWrite.item, State.configValue, configure_output_line, ConfigWrite.onLine, ConfigWrite.code]
  | safeLevel l v =>
    simp [ConfigWrite.item, State.configValue, configure_output_line, ConfigWrite.onLine, ConfigWrite.code,
      LineRecord.driven]
  | group l v =>
    simp [ConfigWrite.item, State.configValue, configure_output_line, ConfigWrite.onLine, ConfigWrite.code]
  | gap g v => exact (OutputUnit.configure_settings _ _ _ g).1.trans (by simp [ConfigWrite.onGroup, ConfigWrite.code])
  | policy g v =>
    have written := (OutputUnit.configure_settings s.output s.now (.policy g v) g).2
    simp only [ConfigWrite.onGroup, if_true] at written
    exact congrArg (fun x => (policyCode x).setWidth 16) written
  | prescale v => rfl
  | lease p v => exact congrArg (BitVec.setWidth 16) (look_put_self _ p v)
  | quota p v => exact congrArg (BitVec.setWidth 16) (look_put_self _ p v)

/-- Every other item reads as before. -/
theorem configValue_other (s : State) (other : item ≠ w.item) :
    (configure w s).configValue item = s.configValue item := by
  have line (l : Line) := w.onLine_settings s.now l (s.output.line l)
  have written (g : Group) := OutputUnit.configure_settings s.output s.now w g
  have group (g : Group) := w.onGroup_settings g (s.output.group g)
  have session (p : Port) := s.session.configure_settings w p
  cases item with
  | prescale => exact congrArg (fun x => (prescaleCode x).setWidth 16) ((session 0).1 other)
  | polarity l =>
    simp only [State.configValue, configure_output_line, (line l).1 other]
  | safeLevel l =>
    simp only [State.configValue, configure_output_line, (line l).2.1 other]
  | group l =>
    simp only [State.configValue, configure_output_line, (line l).2.2 other]
  | gap g => exact (written g).1.trans ((group g).1 other)
  | policy g => exact congrArg (fun x => (policyCode x).setWidth 16) ((written g).2.trans ((group g).2 other))
  | lease p => exact congrArg (BitVec.setWidth 16) ((session p).2.1 other)
  | quota p => exact congrArg (BitVec.setWidth 16) ((session p).2.2 other)
  | members g => rfl

end Values

/-! ### WRITE_CONFIG (R155, R156) -/

section WriteConfig

variable {s : State} {t : Ticket} {b : List Byte} {item : ConfigItem} {w : ConfigWrite}

theorem writeConfig_of_run (run : s.session.phase = .run) : writeConfig t b s = answer t .wrongPhase [] s := by
  simp [writeConfig, run]

theorem writeConfig_of_halting (setup : s.session.phase = .setup) (halting : s.session.haltCleanup = true) :
    writeConfig t b s = answer t .busy [] s := by
  simp [writeConfig, setup, halting]

section Checked

variable (setup : s.session.phase = .setup) (calm : s.session.haltCleanup = false)
include setup calm

/-- A short body, unknown bytes and a member list name nothing that can be written. -/
theorem writeConfig_of_unnamed (unnamed : b.length < 4 ∨ itemOf (byteAt b 0) (byteAt b 1) = none
      ∨ ∃ g, itemOf (byteAt b 0) (byteAt b 1) = some (.members g)) :
    writeConfig t b s = answer t .badField [] s := by
  unfold writeConfig
  rw [if_neg (by simp [setup]), if_neg (by simp [calm])]
  split
  · rfl
  · next long =>
    rcases unnamed.resolve_left long with unknown | ⟨g, members⟩
    · rw [unknown]
    · rw [members]

variable (long : 4 ≤ b.length) (names : itemOf (byteAt b 0) (byteAt b 1) = some item)
include long names

/-- A value out of its range, or one that a constraint excludes, is refused. -/
theorem writeConfig_of_refused (writable : ∀ g, item ≠ .members g)
    (refused : (writeOf item (halfAt b 2)).filter (fun w => w.permitted s.output) = none) :
    writeConfig t b s =
      answer t .badConfig ([byteAt b 0, byteAt b 1] ++ halfBytes s.session.version) s := by
  have whole : ¬ b.length < bodyLength .writeConfig := Nat.not_lt.2 long
  unfold writeConfig
  rw [if_neg (by simp [setup]), if_neg (by simp [calm]), if_neg whole, names]
  cases item with
  | members g => exact absurd rfl (writable g)
  | _ => dsimp only; rw [refused]; rfl

/-- A value that passes is taken into force. -/
theorem writeConfig_of_passing (makes : writeOf item (halfAt b 2) = some w) (permitted : w.permitted s.output = true) :
    writeConfig t b s = answer t .ok
      ([byteAt b 0, byteAt b 1] ++ halfBytes (halfAt b 2) ++ halfBytes (configure w s).session.version)
      (configure w s) := by
  have whole : ¬ b.length < bodyLength .writeConfig := Nat.not_lt.2 long
  have passes : (writeOf item (halfAt b 2)).filter (fun w => w.permitted s.output) = some w := by
    simp [makes, permitted]
  unfold writeConfig
  rw [if_neg (by simp [setup]), if_neg (by simp [calm]), if_neg whole, names]
  cases item with
  | members g => cases makes
  | _ => dsimp only; rw [passes]

end Checked

/-- What a write leaves and sets in the session unit's record (R156). -/
theorem configure_session (x : Session) (w : ConfigWrite) : (x.configure w).version = x.version + 1
    ∧ (∀ q, look (x.configure w).confirmed q = false) ∧ (x.configure w).phase = x.phase
    ∧ (x.configure w).voted = x.voted ∧ (x.configure w).haltCleanup = x.haltCleanup
    ∧ (x.configure w).haltWaiter = x.haltWaiter := by
  cases w <;> exact ⟨rfl, fun q => look_replicate false q, rfl, rfl, rfl, rfl⟩

theorem changesOnly_configure (w : ConfigWrite) (s : State) :
    ChangesOnly [.timeBase, .output, .session] s (configure w s) :=
  ⟨rfl, fun b hb => by cases b <;> simp_all [Block.same, configure]⟩

/-- Only a written safe level moves a line. -/
theorem onLine_level (w : ConfigWrite) (now : Time) (l : Line) (r : LineRecord) (fixed : ∀ v, w ≠ .safeLevel l v) :
    (w.onLine now l r).level = r.level ∧ (w.onLine now l r).pulseEnd = r.pulseEnd
      ∧ (w.onLine now l r).lastChange = r.lastChange := by
  unfold ConfigWrite.onLine
  cases w with
  | polarity m v => dsimp only; split <;> exact ⟨rfl, rfl, rfl⟩
  | group m v => dsimp only; split <;> exact ⟨rfl, rfl, rfl⟩
  | safeLevel m v =>
    have other : l ≠ m := fun same => fixed v (same ▸ rfl)
    dsimp only
    rw [if_neg other]
    exact ⟨rfl, rfl, rfl⟩
  | gap | policy | prescale | lease | quota => exact ⟨rfl, rfl, rfl⟩

/-- Settles O45: the codes and constraints are those of R103 and R194; five checks refuse in turn, and a write that
passes is taken into force block by block. -/
theorem writeConfigCompletes : Obligations.WriteConfigCompletes := by
  refine ⟨fun _ _ _ => itemOf_eq_some, fun _ _ _ => writeOf_eq_some, permitted_eq_false_iff, fun p r s takes =>
    ⟨fun run => ?_, fun setup halting => ?_, fun setup calm unnamed => ?_,
      fun item setup calm long names writable refused => ?_, fun item w setup calm long names makes permitted => ?_⟩⟩
  · exact answeredOnly_of_takes (effect := writeConfig) takes (writeConfig_of_run run)
  · exact answeredOnly_of_takes (effect := writeConfig) takes (writeConfig_of_halting setup halting)
  · exact answeredOnly_of_takes (effect := writeConfig) takes (writeConfig_of_unnamed setup calm unnamed)
  · refine answeredOnly_of_takes (effect := writeConfig) takes
      (writeConfig_of_refused (s := takeHead p s) setup calm long names writable ?_)
    rcases refused with out | ⟨w, makes, excluded⟩
    · rw [out]; rfl
    · simp [makes, excluded]
  · have coded := coded_of_writeOf makes
    have named := coded.item_eq
    obtain ⟨version, confirmed, phase, voted, cleanup, waiter⟩ := configure_session s.session w
    have passing := writeConfig_of_passing (s := takeHead p s) (t := s.ticket p r) setup calm long names makes permitted
    have line (l : Line) := configure_output_line w (takeHead p s) l
    refine ⟨_, (takeDirect_of_takes takes writeConfig).trans (congrArg _ passing),
      changesOnly_command (changesOnly_configure w _) (by simp), version, confirmed, phase.trans setup, voted,
      cleanup.trans calm, waiter, ?_, fun other differs => ?_, ?_, ?_, fun l v isSafe => ?_, fun l fixed => ?_,
      fun law => ?_, rfl, ?_⟩
    · rw [named, ← coded.code_eq]
      exact configValue_written w (takeHead p s)
    · exact configValue_other (w := w) (takeHead p s) (named ▸ differs)
    · cases w <;> rfl
    · exact OutputUnit.configure_trip _ _ _
    · refine (line l).trans ?_
      rw [isSafe, ConfigWrite.onLine, if_pos rfl]
      rfl
    · rw [answer_output, line]
      exact onLine_level w _ l _ fixed
    · obtain ⟨lawful, safe⟩ := (outputLaw_iff s).1 law
      have holdoffs := (lawful.ready (safe (.inl setup))).configure_holdoffs permitted s.now
      exact ⟨holdoffs.afresh, holdoffs.still, holdoffs.notices⟩
    · have taken : (configure w (takeHead p s)).ports = (takeHead p s).ports := rfl
      have advanced : (configure w (takeHead p s)).session.version = s.session.version + 1 := version
      rw [answer_ports, advanced]
      unfold State.port
      rw [taken]
      simp [State.portsAnswering]

end WriteConfig

end Sys2Proof.Machine
end

section
/-! PROOFS. Device reset: what DEVICE_RESET leaves in every block, and that the reset state obeys every law (R13, R76,
R87, R96, R118, R147, R192, R200). -/

namespace Sys2Proof.Machine

/-! ### DEVICE_RESET (R192, R200) -/

section DeviceReset

/-- With its cause there, DEVICE_RESET begins a reset. -/
theorem execDeviceReset_of_caused {s : State} {cause : ResetCause} (caused : s.resetCaused cause = true) :
    execDeviceReset cause s = .next (s.enterReset cause) := by
  rw [execDeviceReset, if_pos caused]

/-- Power-on may come at any time, and RESET# acts at its sensed fall. -/
theorem resetCaused_of_fall {s : State} {cause : ResetCause}
    (fall : cause = .resetPin → s.inputs.resetHeld = false ∧ s.inputs.resetPin.sensed = .low) :
    s.resetCaused cause = true := by
  cases cause with
  | powerOn => rfl
  | resetPin =>
    obtain ⟨free, low⟩ := fall rfl
    simp [State.resetCaused, State.resetFalls, free, low]

/-- Every block but the inputs is that of the reset state. -/
theorem enterReset_same (s : State) (cause : ResetCause) {b : Block} (other : b ≠ .inputs) :
    b.same State.reset (s.enterReset cause) := by
  cases b with
  | inputs => exact absurd rfl other
  | timeBase | cueTable | output | claims | arbiter | session | ports => rfl

/-- Settles O3: with its cause there the event is the entry into reset, which writes the reset value of every block but
the inputs. -/
theorem deviceResetReturnsEveryBlock : Obligations.DeviceResetReturnsEveryBlock := fun cause s fall =>
  ⟨s.enterReset cause, execDeviceReset_of_caused (resetCaused_of_fall fall), rfl,
    fun _ other => enterReset_same s cause other, rfl, rfl, fun p => look_replicate [] p, rfl, rfl⟩

end DeviceReset

/-! ### The laws at reset -/

section Laws

@[simp] theorem reset_port (p : Port) : State.reset.port p = .reset := look_replicate _ p

theorem reset_outputLaw : State.reset.OutputLaw := by
  refine (outputLaw_iff _).2 ⟨OutputUnit.lawful_reset, fun _ l => ?_⟩
  have line : State.reset.output.line l = .reset := look_replicate _ l
  rw [line]
  exact ⟨rfl, rfl⟩

/-- No law of held times speaks of the inputs, in which alone the reset state differs from that of a reset just
begun. -/
theorem reset_timely : State.reset.Timely :=
  have h := timely_enterReset State.reset .powerOn
  ⟨h.cues, h.sets, h.pulses, h.holdoffs, h.leases, h.periods, h.ticks⟩

theorem reset_claimLaw : State.reset.ClaimLaw := claimLaw_reset .powerOn State.reset

theorem reset_queuesBounded : State.reset.QueuesBounded := by
  refine (queuesBounded_iff _).2 fun p => ?_
  have leaf : look State.reset.arbiter.presented p = false := look_replicate _ p
  rw [reset_port, leaf]
  exact ⟨by decide, by decide, by decide, nofun, fun _ => rfl⟩

theorem reset_sessionLaw : State.reset.SessionLaw where
  flag := nofun
  waits := rfl
  confirmed q m := by simp [State.reset, Session.reset] at m
  voted q m := by simp [State.reset, Session.reset] at m

/-- What the law of work in progress reads of a port that has nothing in progress. -/
def PortWork.idle : PortWork :=
  { state := .detached, cleanup := false, setAside := false, epoch := 0, produced := [], presented := false
    purges := [], release := none, late := [], detaching := none, lapsing := none, detachDone := [], lapseDone := false
    waiting := [], cleanupWaits := false }

/-- Nothing stands in progress, so each clause of the law speaks of nothing. -/
theorem PortWork.idle_lawful (p : Port) : PortWork.idle.Lawful p where
  cleaning := nofun
  cleanings := Nat.le_refl 0
  lapseStarted := nofun
  lapsePast := by rintro (done | waits) <;> contradiction
  presented := nofun
  owed := Nat.le_refl 0
  produced := nofun
  waiting := nofun
  detachDone := nofun
  detaching := nofun
  release := nofun
  late := nofun

theorem reset_work (p : Port) : State.reset.work p = .idle := by
  simp only [State.work, reset_port]
  simp [State.reset, PortUnit.reset, Arbiter.reset, ClaimUnit.reset, Session.reset, ticketsFor, PortWork.idle]

/-- The table is empty at reset, and no port has work in progress. -/
theorem reset_workLaw : State.reset.WorkLaw := by
  have empty (i : SlotId) : State.reset.cueTable.cue i = none := reset_cue i
  have asksNothing (p : Port) : .halt ∉ (State.reset.work p).purges := by rw [reset_work]; exact List.not_mem_nil
  refine (workLaw_iff _).2 ⟨fun p => ?_, fun i c hc => ?_, fun g i c _ hc => ?_,
    ⟨fun _ _ => empty, fun p asks => absurd asks (asksNothing p), fun busy => absurd rfl busy⟩⟩
  · rw [reset_work]
    exact PortWork.idle_lawful p
  · cases (empty i).symm.trans hc
  · cases (empty i).symm.trans hc

/-- Settles O59: law by law, from the empty table, the free claims, the lines at rest and the idle ports. -/
theorem lawsHoldAtReset : Obligations.LawsHoldAtReset :=
  ⟨reset_outputLaw, reset_timely, listed_reset, counted_reset, consistent_reset, reset_claimLaw, reset_queuesBounded,
    reset_sessionLaw, ordered_reset _, reset_workLaw⟩

end Laws

end Sys2Proof.Machine
end

section
/-! PROOFS. The check of a request, and the frame end (R172 to R182). -/

namespace Sys2Proof.Machine

/-! ### The check of a request (R177) -/

section Check

variable {bytes : List Byte}

theorem checkRequest_of_tooShort (few : bytes.length < 3) : checkRequest bytes = .error .short := by
  rw [checkRequest, if_pos few]

theorem checkRequest_of_badLength (whole : 3 ≤ bytes.length) (long : 24 < (byteAt bytes 2).toNat) :
    checkRequest bytes = .error .badLength := by
  rw [checkRequest, if_neg (Nat.not_lt.2 whole)]
  exact if_pos long

theorem checkRequest_of_cut (whole : 3 ≤ bytes.length) (fits : (byteAt bytes 2).toNat ≤ 24)
    (cut : bytes.length < 5 + (byteAt bytes 2).toNat) : checkRequest bytes = .error .short := by
  rw [checkRequest, if_neg (Nat.not_lt.2 whole)]
  exact (if_neg (Nat.not_lt.2 fits)).trans (if_pos cut)

/-- A stream that holds the request it announces is judged by its CRC alone. -/
theorem checkRequest_of_whole (fits : (byteAt bytes 2).toNat ≤ 24)
    (whole : 5 + (byteAt bytes 2).toNat ≤ bytes.length) :
    checkRequest bytes =
      if halfAt bytes (3 + (byteAt bytes 2).toNat) ≠ crc16 (bytes.take (3 + (byteAt bytes 2).toNat)) then .error .crc
      else .ok
        { request :=
            { kind := byteAt bytes 0, seq := byteAt bytes 1, body := (bytes.drop 3).take (byteAt bytes 2).toNat }
          crc := halfAt bytes (3 + (byteAt bytes 2).toNat) } := by
  have header : ¬ bytes.length < 3 := by omega
  rw [checkRequest, if_neg header]
  exact (if_neg (Nat.not_lt.2 fits)).trans (if_neg (Nat.not_lt.2 whole))

variable {p : Port} {s : State}

theorem takeBytes_of_nil (empty : bytes = []) : takeBytes p bytes s = s := by
  rw [empty, takeBytes]

theorem takeBytes_of_dropped {d : DropReason} (filled : bytes ≠ []) (drops : checkRequest bytes = .error d) :
    takeBytes p bytes s = setDrop p d s := by
  cases bytes with
  | nil => exact absurd rfl filled
  | cons b rest => rw [takeBytes, drops]

theorem takeBytes_of_good {x : Received} (filled : bytes ≠ []) (good : checkRequest bytes = .ok x) :
    takeBytes p bytes s = acceptRequest p x s := by
  cases bytes with
  | nil => exact absurd rfl filled
  | cons b rest => rw [takeBytes, good]

/-- Settles O54: check by check, in the order of R177. -/
theorem requestCheckOrder : Obligations.RequestCheckOrder := fun _ =>
  ⟨fun _ _ => takeBytes_of_nil, fun _ _ _ => takeBytes_of_dropped, checkRequest_of_tooShort,
    checkRequest_of_badLength, checkRequest_of_cut, fun fits whole =>
      ⟨fun differs => (checkRequest_of_whole fits whole).trans (if_pos differs),
        fun agrees => (checkRequest_of_whole fits whole).trans (if_neg (not_not.2 agrees))⟩⟩

end Check

/-! ### What a frame end may touch -/

section Touched

/-- Between two states the unit of one port may differ, and of the arbiter that port's presented mark: it is off only
where no reply entry is free (R137, R139). -/
structure AtPort (p : Port) (s t : State) : Prop where
  only : ChangesOnly [.arbiter, .ports] s t
  ports : t.ports = put s.ports p (t.port p)
  leaf : t.arbiter = s.arbiter ∨ (t.arbiter = s.arbiter.without p ∧ (t.port p).freeEntry = false)

variable {p : Port} {s t : State}

theorem AtPort.refl (p : Port) (s : State) : AtPort p s s :=
  ⟨changesOnly_refl _ s, (put_look_self s.ports p).symm, .inl rfl⟩

/-- The port's unit changed first. -/
theorem AtPort.of_changePort {f : PortUnit → PortUnit} (h : AtPort p (s.changePort p f) t) : AtPort p s t where
  only := changesOnly_trans (changesOnly_of_subset (changesOnly_changePort p f s) (by simp)) h.only
  ports := by rw [h.ports, changePort_ports, put_put]
  leaf := h.leaf

theorem atPort_changePort (p : Port) (f : PortUnit → PortUnit) (s : State) : AtPort p s (s.changePort p f) :=
  (AtPort.refl p _).of_changePort

/-- Changing the unit to what it is changes nothing. -/
theorem changePort_eq_self {f : PortUnit → PortUnit} (same : f (s.port p) = s.port p) : s.changePort p f = s := by
  have ports : change s.ports p f = s.ports := (congrArg (put s.ports p) same).trans (put_look_self _ p)
  rw [State.changePort, ports]
  rfl

theorem atPort_withdrawIfFull (p : Port) (s : State) : AtPort p s (withdrawIfFull p s) := by
  unfold withdrawIfFull
  split
  · exact .refl p s
  · next full =>
    exact ⟨changesOnly_of_subset (changesOnly_setArbiter s _) (by simp), (put_look_self s.ports p).symm,
      .inr ⟨rfl, Bool.eq_false_iff.2 full⟩⟩

@[simp] theorem withdrawIfFull_port (p q : Port) (s : State) : (withdrawIfFull p s).port q = s.port q := by
  unfold withdrawIfFull
  split <;> rfl

end Touched

/-! ### The fifth and the sixth step (R180, R181) -/

section Steps

variable {p : Port} {s : State} {a : LastAccepted} {r : Received}

theorem duplicate_of_unanswered (waits : a.answered = false) : duplicate p a s = setDrop p .duplicate s := by
  simp [duplicate, waits]

theorem duplicate_of_free (answered : a.answered = true) (free : (s.port p).freeEntry = true) :
    duplicate p a s = withdrawIfFull p (s.changePort p PortUnit.copyReply) := by
  simp [duplicate, answered, free]

theorem duplicate_of_full (answered : a.answered = true) (full : (s.port p).freeEntry = false) :
    duplicate p a s = setDrop p .replyFull s := by
  simp [duplicate, answered, full]

theorem atPort_duplicate (p : Port) (a : LastAccepted) (s : State) : AtPort p s (duplicate p a s) := by
  cases answered : a.answered with
  | false => rw [duplicate_of_unanswered answered]; exact atPort_changePort p _ s
  | true =>
    cases free : (s.port p).freeEntry with
    | false => rw [duplicate_of_full answered free]; exact atPort_changePort p _ s
    | true => rw [duplicate_of_free answered free]; exact (atPort_withdrawIfFull p _).of_changePort

theorem queueRequest_of_room (room : (s.port p).cmds.length < 4) :
    queueRequest p r s = s.changePort p (fun u => { u with
      cmds := u.cmds ++ [r.request]
      lastAccepted := some { seq := r.request.seq, crc := r.crc, answered := false }
      drop := .none }) :=
  if_pos room

theorem queueRequest_of_full (full : 4 ≤ (s.port p).cmds.length) : queueRequest p r s = setDrop p .queueFull s :=
  if_neg (Nat.not_lt.2 full)

theorem atPort_queueRequest (p : Port) (r : Received) (s : State) : AtPort p s (queueRequest p r s) := by
  unfold queueRequest
  split <;> exact atPort_changePort p _ s

/-- A request repeats the last accepted one by its seq and its CRC (R180). -/
theorem repeats_of_same {u : PortUnit} (last : u.lastAccepted = some a) (seq : a.seq = r.request.seq)
    (crc : a.crc = r.crc) : u.repeats r = some a := by
  simp [PortUnit.repeats, last, seq, crc]

theorem repeats_of_new {u : PortUnit}
    (fresh : ∀ a, u.lastAccepted = some a → ¬ (a.seq = r.request.seq ∧ a.crc = r.crc)) : u.repeats r = none := by
  simpa [PortUnit.repeats, Option.filter_eq_none_iff] using fresh

end Steps

/-! ### The third to the sixth step (R178 to R181) -/

section Accepting

variable {p : Port} {s : State} {a : LastAccepted} {r : Received}

/-- A good CRC loads the lease of an ATTACHED port, and no other (R178). -/
theorem reloadLease_eq (p : Port) (s : State) :
    reloadLease p s = s.changePort p (fun u => { u with
      leaseEnd := if s.attached p then leaseEndOf s.now (look s.session.lease p) else u.leaseEnd }) := by
  unfold reloadLease
  split
  · rfl
  · exact (changePort_eq_self rfl).symm

/-- The unit of a port from which a request with a good CRC has come: its lease is loaded if it is ATTACHED. -/
def State.reloaded (s : State) (p : Port) : PortUnit :=
  { s.port p with leaseEnd := if s.attached p then leaseEndOf s.now (look s.session.lease p) else (s.port p).leaseEnd }

@[simp] theorem reloadLease_port (p : Port) (s : State) : (reloadLease p s).port p = s.reloaded p := by
  rw [reloadLease_eq, changePort_port_self]
  rfl

theorem acceptRequest_of_null (null : kindOf r.request.kind = some .null) :
    acceptRequest p r s = reloadLease p s := by
  rw [acceptRequest]
  exact if_pos null

theorem acceptRequest_of_repeat (command : kindOf r.request.kind ≠ some .null)
    (again : ((reloadLease p s).port p).repeats r = some a) :
    acceptRequest p r s = duplicate p a (reloadLease p s) := by
  simp only [acceptRequest, if_neg command, again]

theorem acceptRequest_of_new (command : kindOf r.request.kind ≠ some .null)
    (fresh : ((reloadLease p s).port p).repeats r = none) :
    acceptRequest p r s = queueRequest p r (reloadLease p s) := by
  simp only [acceptRequest, if_neg command, fresh]

theorem atPort_acceptRequest (p : Port) (r : Received) (s : State) : AtPort p s (acceptRequest p r s) := by
  have loaded {t : State} (h : AtPort p (reloadLease p s) t) : AtPort p s t := by
    rw [reloadLease_eq] at h
    exact h.of_changePort
  by_cases null : kindOf r.request.kind = some .null
  · rw [acceptRequest_of_null null]
    exact loaded (.refl p _)
  · cases again : ((reloadLease p s).port p).repeats r with
    | none => rw [acceptRequest_of_new null again]; exact loaded (atPort_queueRequest p r _)
    | some a => rw [acceptRequest_of_repeat null again]; exact loaded (atPort_duplicate p a _)

theorem atPort_takeBytes (p : Port) (bytes : List Byte) (s : State) : AtPort p s (takeBytes p bytes s) := by
  by_cases empty : bytes = []
  · rw [takeBytes_of_nil empty]
    exact .refl p s
  · cases checked : checkRequest bytes with
    | error d => rw [takeBytes_of_dropped empty checked]; exact atPort_changePort p _ s
    | ok x => rw [takeBytes_of_good empty checked]; exact atPort_acceptRequest p x s

/-! The port's unit after each case. -/

@[simp] theorem setDrop_port (p : Port) (d : DropReason) (s : State) :
    (setDrop p d s).port p = { s.port p with drop := d } :=
  changePort_port_self p _ s

theorem acceptRequest_port_of_null (null : kindOf r.request.kind = some .null) :
    (acceptRequest p r s).port p = s.reloaded p := by
  rw [acceptRequest_of_null null, reloadLease_port]

/-- A repeat of the last accepted request (R180). -/
theorem acceptRequest_port_of_repeat (command : kindOf r.request.kind ≠ some .null)
    (last : (s.port p).lastAccepted = some a) (seq : a.seq = r.request.seq) (crc : a.crc = r.crc) :
    (a.answered = false → (acceptRequest p r s).port p = { s.reloaded p with drop := .duplicate })
      ∧ (a.answered = true → (s.reloaded p).freeEntry = true →
          (acceptRequest p r s).port p = (s.reloaded p).copyReply)
      ∧ (a.answered = true → (s.reloaded p).freeEntry = false →
          (acceptRequest p r s).port p = { s.reloaded p with drop := .replyFull }) := by
  have again : ((reloadLease p s).port p).repeats r = some a := by
    rw [reloadLease_port]
    exact repeats_of_same last seq crc
  rw [acceptRequest_of_repeat command again, ← reloadLease_port]
  refine ⟨fun waits => ?_, fun answered free => ?_, fun answered full => ?_⟩
  · rw [duplicate_of_unanswered waits, setDrop_port]
  · rw [duplicate_of_free answered free, withdrawIfFull_port, changePort_port_self]
  · rw [duplicate_of_full answered full, setDrop_port]

/-- Any other request (R181). -/
theorem acceptRequest_port_of_new (command : kindOf r.request.kind ≠ some .null)
    (fresh : ∀ a, (s.port p).lastAccepted = some a → ¬ (a.seq = r.request.seq ∧ a.crc = r.crc)) :
    ((s.port p).cmds.length < 4 → (acceptRequest p r s).port p = { s.reloaded p with
      cmds := (s.port p).cmds ++ [r.request]
      lastAccepted := some { seq := r.request.seq, crc := r.crc, answered := false }, drop := .none })
    ∧ (4 ≤ (s.port p).cmds.length → (acceptRequest p r s).port p = { s.reloaded p with drop := .queueFull }) := by
  have unit := reloadLease_port p s
  have new : ((reloadLease p s).port p).repeats r = none := by
    rw [unit]
    exact repeats_of_new fresh
  have held : ((reloadLease p s).port p).cmds = (s.port p).cmds := by
    rw [unit]
    rfl
  rw [acceptRequest_of_new command new]
  refine ⟨fun room => ?_, fun full => ?_⟩
  · rw [queueRequest_of_room (held ▸ room), changePort_port_self, unit]
    rfl
  · rw [queueRequest_of_full (held ▸ full), setDrop_port, unit]

end Accepting

/-! ### The outbound stream (R173, R197) -/

section Stream

theorem Reply.bytes_length (r : Reply) : r.bytes.length = 5 + r.body.length := by
  simp only [Reply.bytes, Reply.covered, halfBytes, List.length_append, List.length_cons, List.length_nil]
  omega

/-- Four header bytes and the reply's. -/
theorem Snapshot.stream_length (f : Snapshot) : f.stream.length = 9 + f.reply.body.length := by
  have header : f.header.bytes.length = 4 := rfl
  rw [Snapshot.stream, List.length_append, header, Reply.bytes_length]
  omega

/-- The head reply is removed when it was captured and its whole stream was transferred (R176). -/
theorem closeFrame_eq (u : PortUnit) (f : Snapshot) (bytes : List Byte) :
    u.closeFrame f bytes = { u with
      snapshot := none
      replies := if f.held = true ∧ 9 + f.reply.body.length ≤ bytes.length then u.replies.tail
        else u.replies } := by
  simp [PortUnit.closeFrame, Snapshot.stream_length]

end Stream

/-! ### FRAME_END -/

section FrameEnd

variable {p : Port} {s : State} {rest : List PinLevel}

theorem takeSelEdge_of_cons {e : PinLevel} (edges : look s.inputs.selEdges p = e :: rest) :
    takeSelEdge p s = s.setInputs { s.inputs with selEdges := put s.inputs.selEdges p rest } := by
  rw [takeSelEdge, change, edges, List.tail_cons]

/-- A sensed rise ends the open frame. -/
theorem execFrameEnd_of_rise {f : Snapshot} (live : s.live = true) (edges : look s.inputs.selEdges p = .high :: rest)
    (opened : (s.port p).snapshot = some f) (sdi : List Bool) :
    execFrameEnd p sdi s = .next (endFrame p f sdi (takeSelEdge p s)) := by
  rw [execFrameEnd, whenLive_of_live live, State.selEdge, edges, List.head?_cons, opened]

/-- The state in which a frame's bytes are taken: its rise is taken and the frame is closed. -/
def State.frameClosed (s : State) (p : Port) (rest : List PinLevel) (f : Snapshot) (bytes : List Byte) : State :=
  (s.setInputs { s.inputs with selEdges := put s.inputs.selEdges p rest }).changePort p fun u => u.closeFrame f bytes

theorem endFrame_of_cons {e : PinLevel} (edges : look s.inputs.selEdges p = e :: rest) (f : Snapshot)
    (sdi : List Bool) : endFrame p f sdi (takeSelEdge p s)
      = takeBytes p (bytesOfBits sdi) (s.frameClosed p rest f (bytesOfBits sdi)) := by
  rw [endFrame, takeSelEdge_of_cons edges, State.frameClosed]

theorem frameClosed_port (f : Snapshot) (bytes : List Byte) :
    (s.frameClosed p rest f bytes).port p = (s.port p).closeFrame f bytes :=
  changePort_port_self p _ _

/-- What the bytes of a frame touch beside the inputs (R176). -/
theorem atPort_frameEnd (s : State) (p : Port) (rest : List PinLevel) (f : Snapshot) (bytes : List Byte) :
    AtPort p (s.setInputs { s.inputs with selEdges := put s.inputs.selEdges p rest })
      (takeBytes p bytes (s.frameClosed p rest f bytes)) :=
  (atPort_takeBytes p bytes _).of_changePort

/-- Settles O55: the frame is closed, and the unit is that of the first step that ends the frame. -/
theorem frameEndSteps : Obligations.FrameEndSteps := by
  intro p sdi rest f s live edges opened bytes closed loaded copied
  have event := (execFrameEnd_of_rise live edges opened sdi).trans (congrArg _ (endFrame_of_cons edges f sdi))
  obtain ⟨only, ports, leaf⟩ := atPort_frameEnd s p rest f bytes
  have inputs := only.2 .inputs (by decide)
  have unit : (s.frameClosed p rest f bytes).port p = closed :=
    (frameClosed_port f bytes).trans (closeFrame_eq _ f bytes)
  have reloaded : (s.frameClosed p rest f bytes).reloaded p = loaded := by
    unfold State.reloaded State.attached
    rw [unit]
    rfl
  refine ⟨_, _, event, changesOnly_next (changesOnly_of_subset (changesOnly_setInputs s _) (by simp)) only (by simp),
    inputs, ports, fun empty => ?_, fun d filled drops => ?_, fun x filled good => ⟨fun null => ?_, fun command =>
      ⟨fun a last seq crc => ?_, fun fresh => ?_⟩⟩, leaf⟩
  · rw [takeBytes_of_nil empty, unit]
  · rw [takeBytes_of_dropped filled drops, setDrop_port, unit]
  · rw [takeBytes_of_good filled good, acceptRequest_port_of_null null, reloaded]
  · have answers := acceptRequest_port_of_repeat (s := s.frameClosed p rest f bytes) command
      ((congrArg PortUnit.lastAccepted unit).trans last) seq crc
    rw [reloaded] at answers
    rw [takeBytes_of_good filled good]
    exact answers
  · have answers := acceptRequest_port_of_new (s := s.frameClosed p rest f bytes) command
      fun a last => fresh a ((congrArg PortUnit.lastAccepted unit).symm.trans last)
    rw [reloaded, unit] at answers
    rw [takeBytes_of_good filled good]
    exact answers

end FrameEnd

end Sys2Proof.Machine
end

section
/-! PROOFS. The frame start: its snapshot, the bytes of the header, and the bits on SDOn (R172, R173, R187, R198,
R200). -/

namespace Sys2Proof.Machine

/-! ### The bytes of the header (R198) -/

section Header

theorem toNat_countByte {n : Nat} (small : n < 256) : (countByte n).toNat = n := by
  rw [countByte, BitVec.toNat_ofNat]
  exact Nat.mod_eq_of_lt small

/-- Two fields of a byte that do not overlap. -/
theorem toNat_shiftLeft_or {x y : Byte} {k : Nat} (high : x.toNat * 2 ^ k < 256) (low : y.toNat < 2 ^ k) :
    ((x <<< k) ||| y).toNat = x.toNat * 2 ^ k + y.toNat := by
  rw [BitVec.toNat_or, BitVec.toNat_shiftLeft, Nat.shiftLeft_eq, Nat.mod_eq_of_lt high, ← Nat.shiftLeft_eq,
    Nat.shiftLeft_add_eq_or_of_lt low]

theorem mul_toNat_flagByte (k : Nat) (b : Bool) : k * (flagByte b).toNat = if b then k else 0 := by
  cases b
  · exact Nat.mul_zero k
  · exact Nat.mul_one k

theorem toNat_flagByte_lt (b : Bool) : (flagByte b).toNat < 2 := by cases b <;> decide

theorem toNat_phaseCode_lt (x : Phase) : (phaseCode x).toNat < 2 := by cases x <;> decide

theorem toNat_portStateCode_lt (x : PortState) : (portStateCode x).toNat < 4 := by cases x <;> decide

variable (h : StatusHeader)

/-- The fields of the first byte, from the lowest up: three bits of count, a flag, two bits of port state, a flag and
the phase. -/
theorem headerByte_state (few : h.replyCount < 8) : (byteAt h.bytes 0).toNat =
    128 * (phaseCode h.phase).toNat + (if h.tripped then 64 else 0) + 16 * (portStateCode h.portState).toNat
      + (if h.cleanup then 8 else 0) + h.replyCount := by
  have count := toNat_countByte (n := h.replyCount) (by omega)
  have cleanup := toNat_flagByte_lt h.cleanup
  have state := toNat_portStateCode_lt h.portState
  have tripped := toNat_flagByte_lt h.tripped
  have phase := toNat_phaseCode_lt h.phase
  have low3 := toNat_shiftLeft_or (x := flagByte h.cleanup) (y := countByte h.replyCount) (k := 3) (by omega)
    (by omega)
  have low4 := toNat_shiftLeft_or (x := portStateCode h.portState) (k := 4) (by omega)
    (low3.trans_lt (by omega))
  have low6 := toNat_shiftLeft_or (x := flagByte h.tripped) (k := 6) (by omega) (low4.trans_lt (by omega))
  have low7 := toNat_shiftLeft_or (x := phaseCode h.phase) (k := 7) (by omega) (low6.trans_lt (by omega))
  show ((phaseCode h.phase <<< 7) ||| (flagByte h.tripped <<< 6) ||| (portStateCode h.portState <<< 4)
    ||| (flagByte h.cleanup <<< 3) ||| countByte h.replyCount).toNat = _
  rw [BitVec.or_assoc, BitVec.or_assoc, BitVec.or_assoc, low7, low6, low4, low3, ← mul_toNat_flagByte,
    ← mul_toNat_flagByte]
  omega

theorem headerByte_counts (free : h.commandFree < 8) (events : h.eventCount < 32) :
    (byteAt h.bytes 1).toNat = 32 * h.commandFree + h.eventCount := by
  have low := toNat_countByte (n := h.eventCount) (by omega)
  have high := toNat_countByte (n := h.commandFree) (by omega)
  show ((countByte h.commandFree <<< 5) ||| countByte h.eventCount).toNat = _
  rw [toNat_shiftLeft_or (by omega) (by omega), low, high]
  omega

/-- The first four bytes of the stream are the header's. -/
theorem byteAt_stream (f : Snapshot) {i : Nat} (first : i < 4) : byteAt f.stream i = byteAt f.header.bytes i :=
  List.getD_append _ _ _ _ first

theorem drop_stream (f : Snapshot) : f.stream.drop 4 = f.reply.bytes := List.drop_left (l₁ := f.header.bytes)

end Header

/-! ### The snapshot and SDOn (R172, R173) -/

section Start

variable {p : Port} {s : State} {rest : List PinLevel}

/-- SDOn is at high impedance while SELn# is high at its latest sample and while RESET# is held. -/
theorem sdoBit_of_idle (idle : s.inputs.resetHeld = true ∨ (look s.inputs.selPins p).last = .high) (n : Nat) :
    s.sdoBit p n = none := by
  rcases idle with held | high
  · simp [State.sdoBit, State.sdoSnapshot, held]
  · simp [State.sdoBit, State.sdoSnapshot, high]

/-- In an open frame SDOn shows the stream, most significant bit first, and then filler. -/
theorem sdoBit_of_open {f : Snapshot} (live : s.live = true) (low : (look s.inputs.selPins p).last = .low)
    (started : s.frameStartWaits p = false) (opened : (s.port p).snapshot = some f) (n : Nat) :
    s.sdoBit p n = some (((f.stream[n / 8]?).getD 0xFF).getLsbD (7 - n % 8)) := by
  obtain ⟨held, -⟩ : s.inputs.resetHeld = false ∧ s.inputs.resetPin.sensed = .high := by
    simpa [State.live] using live
  simp [State.sdoBit, State.sdoSnapshot, held, low, started, opened, Snapshot.sdoByte, Config.filler]

theorem snapshotNow_held : (s.snapshotNow p).held = true ↔ (s.port p).replies ≠ [] := by
  simp [State.snapshotNow]

theorem snapshotNow_reply_of_cons {x : Reply} {more : List Reply} (head : (s.port p).replies = x :: more) :
    (s.snapshotNow p).reply = x := by
  simp [State.snapshotNow, head]

theorem snapshotNow_reply_of_nil (empty : (s.port p).replies = []) : (s.snapshotNow p).reply = .empty := by
  simp [State.snapshotNow, empty]

/-- The first byte, by the states of the part (R198). -/
theorem snapshotNow_byte_state (few : (s.port p).replies.length ≤ 4) : (byteAt (s.snapshotNow p).stream 0).toNat =
    128 * (phaseCode s.session.phase).toNat + (if s.output.trip.isTripped then 64 else 0)
      + 16 * (portStateCode (s.port p).state).toNat + (if (s.port p).cleanup then 8 else 0)
      + (s.port p).replies.length := by
  rw [byteAt_stream _ (by decide)]
  exact headerByte_state (s.header p) (Nat.lt_of_le_of_lt few (by decide))

theorem snapshotNow_byte_counts (events : (s.port p).events.length ≤ 16) :
    (byteAt (s.snapshotNow p).stream 1).toNat = 32 * (4 - (s.port p).cmds.length) + (s.port p).events.length := by
  rw [byteAt_stream _ (by decide)]
  exact headerByte_counts (s.header p) (Nat.lt_of_le_of_lt (Nat.sub_le ..) (by decide))
    (Nat.lt_of_le_of_lt events (by decide))

/-- With its fall taken and no other sensed, the frame has started. -/
theorem frameStartWaits_of_taken (sensed : (look s.inputs.selPins p).sensed = .low)
    (taken : .low ∉ look s.inputs.selEdges p) : s.frameStartWaits p = false := by
  simp [State.frameStartWaits, sensed, taken]

/-- The state in which the frame is open: the fall is taken, and the snapshot captured. -/
def State.frameOpened (s : State) (p : Port) (rest : List PinLevel) : State :=
  (s.setInputs { s.inputs with selEdges := put s.inputs.selEdges p rest }).changePort p fun u =>
    { u with snapshot := some (s.snapshotNow p) }

/-- A sensed fall opens a frame (R173). -/
theorem execFrameStart_of_fall (live : s.live = true) (edges : look s.inputs.selEdges p = .low :: rest) :
    execFrameStart p s = .next (s.frameOpened p rest) := by
  rw [execFrameStart, whenLive_of_live live, State.selEdge, edges, List.head?_cons, State.frameOpened,
    ← takeSelEdge_of_cons edges]

theorem changesOnly_frameOpened (s : State) (p : Port) (rest : List PinLevel) :
    ChangesOnly [.inputs, .ports] s (s.frameOpened p rest) :=
  changesOnly_next (changesOnly_of_subset (changesOnly_setInputs s _) (by simp)) (changesOnly_changePort p _ _)
    (by simp)

/-- In the frame that a fall opens, SDOn shows the snapshot's stream. -/
theorem sdoBit_frameOpened (live : s.live = true) (low : (look s.inputs.selPins p).last = .low)
    (sensed : (look s.inputs.selPins p).sensed = .low) (taken : .low ∉ rest) (n : Nat) :
    (s.frameOpened p rest).sdoBit p n
      = some ((((s.snapshotNow p).stream[n / 8]?).getD 0xFF).getLsbD (7 - n % 8)) := by
  have edges : look (s.frameOpened p rest).inputs.selEdges p = rest := look_put_self _ p rest
  have opened : ((s.frameOpened p rest).port p).snapshot = some (s.snapshotNow p) :=
    congrArg PortUnit.snapshot (changePort_port_self p _ _)
  have started : (s.frameOpened p rest).frameStartWaits p = false :=
    frameStartWaits_of_taken sensed (edges.symm ▸ taken)
  exact sdoBit_of_open (s := s.frameOpened p rest) live low started opened n

/-- Settles O53: the snapshot is that of the state as it stands, and its header, its reply and its bits are read off
it. -/
theorem frameStartCaptures : Obligations.FrameStartCaptures := by
  refine ⟨fun p s => sdoBit_of_idle, fun p rest s live edges => ⟨s.frameOpened p rest, s.snapshotNow p,
    execFrameStart_of_fall live edges, changesOnly_frameOpened s p rest, rfl, rfl, rfl, rfl, rfl, rfl, rfl, rfl,
    rfl, rfl, rfl, fun x more => snapshotNow_reply_of_cons, snapshotNow_reply_of_nil, snapshotNow_held,
    Snapshot.stream_length _, fun few => (snapshotNow_byte_state few).trans ?_, fun _ => snapshotNow_byte_counts, ?_,
    byteAt_stream _ (by decide), drop_stream _, sdoBit_frameOpened live⟩⟩
  · cases s.session.phase <;> cases (s.port p).state <;> rfl
  · refine (byteAt_stream _ (by decide)).trans ?_
    show dropCode (s.port p).drop = _
    cases (s.port p).drop <;> rfl

end Start

end Sys2Proof.Machine
end

section
/-! PROOFS. The arrival of replies and of event records at a port unit (R184, R185, R188). -/

namespace Sys2Proof.Machine

section Arrivals

variable {p : Port} {s : State} {c : Ticket} {x : Reply} {rest : List (Ticket × Reply)}

/-- The ticket of a port's own reply is current while the port has not lapsed since (R185). -/
theorem current_iff (s : State) (c : Ticket) : s.current c = true ↔ c.epoch = (s.port c.port).epoch := by
  simp [State.current]

/-- A reply to a command that waits for it (R184). -/
theorem execReplyArrival_of_current (live : s.live = true) (first : (s.port p).produced = (c, x) :: rest)
    (current : s.current c = true) (aside : (s.port p).setAside = true) :
    execReplyArrival p s = .next (s.changePort p fun u => { u.takeReply x with produced := rest }) := by
  simp [execReplyArrival, whenLive_of_live live, first, current, aside]

/-- A reply owed to a flushed command (R185). -/
theorem execReplyArrival_of_flushed (live : s.live = true) (first : (s.port p).produced = (c, x) :: rest)
    (flushed : s.current c = false) :
    execReplyArrival p s = .next (s.changePort p fun u => { u with produced := rest, owed := false }) := by
  simp [execReplyArrival, whenLive_of_live live, first, flushed]

theorem execEventPosted_of_cons {e : EventRecord} {more : List EventRecord} (live : s.live = true)
    (first : (s.port p).posted = e :: more) :
    execEventPosted p s = .next (s.changePort p fun u => { u.takeRecord e with posted := more }) := by
  simp only [execEventPosted, whenLive_of_live live, first]

variable (u : PortUnit) (e : EventRecord)

/-- A record touches the event queue and the overflow count alone. -/
theorem takeRecord_eq :
    u.takeRecord e = { u with events := (u.takeRecord e).events, overflow := (u.takeRecord e).overflow } := by
  unfold PortUnit.takeRecord
  split
  · split <;> rfl
  · rfl
  · rfl

variable {u}

theorem takeRecord_of_room (attached : u.state = .attached) (room : u.events.length < 16) :
    u.takeRecord e = { u with events := u.events ++ [e] } := by
  rw [PortUnit.takeRecord, attached]
  exact if_pos room

theorem takeRecord_of_full (attached : u.state = .attached) (full : 16 ≤ u.events.length) :
    u.takeRecord e = { u with overflow := if u.overflow = 255 then 255 else u.overflow + 1 } := by
  rw [PortUnit.takeRecord, attached]
  exact if_neg (Nat.not_lt.2 full)

theorem takeRecord_of_away (away : u.state ≠ .attached) : u.takeRecord e = u := by
  unfold PortUnit.takeRecord
  split
  · next attached => exact absurd attached away
  · rfl
  · rfl

/-- The overflow count stays at its ceiling (R188). -/
theorem toNat_overflow (n : Byte) : (if n = 255 then 255 else n + 1).toNat = min 255 (n.toNat + 1) := by
  have bound := n.isLt
  split
  · next ceiling => subst ceiling; rfl
  · next below =>
    have small : n.toNat ≠ 255 := fun e => below (BitVec.eq_of_toNat_eq e)
    rw [BitVec.toNat_add]
    show (n.toNat + 1) % 256 = _
    omega

/-- Settles O56: an arrival takes the reply or discards it by its ticket, and a record posted goes by the port's state
and the room in its queue. -/
theorem repliesAndRecordsArrive : Obligations.RepliesAndRecordsArrive := by
  intro p s live
  refine ⟨fun c x rest first own => ⟨fun epoch aside => ?_, fun epoch => ?_⟩, fun e rest first => ?_⟩
  · have current : s.current c = true := (current_iff s c).2 (own.symm ▸ epoch)
    exact ⟨_, execReplyArrival_of_current live first current aside, changesOnly_changePort p _ s, rfl⟩
  · have flushed : s.current c = false :=
      Bool.eq_false_iff.2 fun current => epoch (own ▸ (current_iff s c).1 current)
    exact ⟨_, execReplyArrival_of_flushed live first flushed, changesOnly_changePort p _ s, rfl⟩
  · refine ⟨_, (s.port p).takeRecord e, execEventPosted_of_cons live first, changesOnly_changePort p _ s, ?_,
      fun attached room => ?_, fun attached full => ?_, fun away => ?_⟩
    · rw [changePort_ports, takeRecord_eq]
    · rw [takeRecord_of_room e attached room]
      exact ⟨rfl, rfl⟩
    · rw [takeRecord_of_full e attached full]
      exact ⟨rfl, toNat_overflow _⟩
    · rw [takeRecord_of_away e away]
      exact ⟨rfl, rfl⟩

end Arrivals

end Sys2Proof.Machine
end

section
/-! PROOFS. A step takes the command at the front of the queue, and every command answers a next state with the queue of
commands that it found (logs 1, 2). -/

namespace Sys2Proof.Machine

/-! ### A step (log 2) -/

@[simp] theorem withPending_withPending (s : State) (bs cs : List Instr) :
    (s.withPending bs).withPending cs = s.withPending cs := rfl

theorem step_of_nil {s : State} (idle : s.pending = []) : step s = .next s := by
  simp only [step, idle]

theorem step_of_cons {s : State} {c : Instr} {rest : List Instr} (queued : s.pending = c :: rest) :
    step s = exec c (s.withPending rest) := by
  simp only [step, queued]

/-- Settles O1: the front command finds the state with the queue's rest, and an empty queue idles. -/
theorem stepTakesFrontCommand : Obligations.StepTakesFrontCommand :=
  ⟨fun c rest s => by rw [step_of_cons (withPending_pending s _), withPending_withPending], fun _ => step_of_nil⟩

/-! ### An answer that keeps the queue (log 1) -/

/-- The answer is a next state, and its queue of commands is that of `s`. -/
def AnswersNext (a : Answer) (s : State) : Prop := ∃ t, a = .next t ∧ t.pending = s.pending

section Guards

variable {s t : State} {p : Port} {k : CommandKind}

theorem answersNext_next (h : t.pending = s.pending) : AnswersNext (.next t) s := ⟨t, rfl, h⟩

theorem answersNext_whenLive {event : State → State} (h : (event s).pending = s.pending) :
    AnswersNext (whenLive s event) s := by
  obtain ⟨t, answers, ⟨_, rfl⟩ | ⟨_, rfl⟩⟩ := whenLive_next s event
  · exact ⟨_, answers, h⟩
  · exact ⟨_, answers, rfl⟩

theorem answersNext_takeDirect {effect : Ticket → List Byte → State → State}
    (h : ∀ c b u, (effect c b u).pending = u.pending) : AnswersNext (takeDirect k p s effect) s := by
  obtain ⟨t, answers, ⟨r, _, rfl⟩ | rfl⟩ := takeDirect_next s p k effect
  · exact ⟨_, answers, h _ _ (takeHead p s)⟩
  · exact ⟨_, answers, rfl⟩

theorem answersNext_takeGranted {effect : Ticket → List Byte → State → State} {c : ListClass}
    (hc : listClass k = some c) (h : ∀ c b u, (effect c b u).pending = u.pending) :
    AnswersNext (takeGranted k p s effect) s := by
  obtain ⟨t, answers, ⟨r, _, rfl⟩ | rfl⟩ := takeGranted_next s p k c hc effect
  · exact ⟨_, answers, h _ _ (afterGrant c p s)⟩
  · exact ⟨_, answers, rfl⟩

/-- A granted command that is answered and at most moves the table. -/
theorem AnswersMoving.pending {c : Ticket} (h : AnswersMoving c s t) : t.pending = s.pending := by
  obtain ⟨_, _, _, _, rfl⟩ := h
  rfl

theorem ChangesOnly.pending {bs : List Block} (h : ChangesOnly bs s t) : t.pending = s.pending := h.1

end Guards

/-! ### Reset, inputs and time base (R1 to R3, R107, R192, R200) -/

section Inputs

variable (s : State)

theorem execDeviceReset_answersNext (cause : ResetCause) : AnswersNext (execDeviceReset cause s) s :=
  answersNext_next (by split <;> rfl)

theorem execResetEnd_answersNext : AnswersNext (execResetEnd s) s := by
  refine answersNext_next ?_
  split
  · dsimp only
    split
    · exact tripEntry_pending _ _
    · rfl
  · rfl

theorem execRefclkPeriodEnd_answersNext (pins : InputSample) : AnswersNext (execRefclkPeriodEnd pins s) s :=
  answersNext_next (by split <;> rfl)

theorem execTbStep_answersNext : AnswersNext (execTbStep s) s := answersNext_whenLive (by split <;> rfl)

theorem execFaultLow_answersNext : AnswersNext (execFaultLow s) s := by
  refine answersNext_whenLive ?_
  split
  · split
    · exact tripEntry_pending _ _
    · rfl
  · rfl

theorem execFaultHigh_answersNext : AnswersNext (execFaultHigh s) s := answersNext_whenLive (by split <;> rfl)

end Inputs

/-! ### The output unit (R94, R99, R111, R112) -/

section Output

variable (s : State)

theorem execPulseEndExpiry_answersNext (l : Line) : AnswersNext (execPulseEndExpiry l s) s :=
  answersNext_whenLive (by split <;> rfl)

theorem execHoldoffExpiry_answersNext (g : Group) : AnswersNext (execHoldoffExpiry g s) s := by
  refine answersNext_whenLive ?_
  split
  · split <;> rfl
  · rfl

theorem execTrip_answersNext (p : Port) : AnswersNext (execTrip p s) s := by
  refine answersNext_takeDirect fun c _ u => ?_
  split
  · rw [answer_pending, tripEntry_pending]
  · rfl

theorem execClearTrip_answersNext (p : Port) : AnswersNext (execClearTrip p s) s := by
  refine answersNext_takeDirect fun c _ u => ?_
  split
  · rfl
  · split
    · rfl
    · rw [answer_pending, postAll_pending, setOutput_pending]

end Output

/-! ### The cue table and the firing engine (R32, R43, R62, R80) -/

section Firing

variable (i : SlotId) (s : State)

theorem addCue_pending (c : Ticket) (b : List Byte) : (addCue c b s).pending = s.pending := by
  rcases addCue_cases c b s with ⟨_, refused⟩ | ⟨_, _, _, _, _, _, _, enters⟩
  · rw [refused]; rfl
  · rw [enters]; rfl

theorem takeAnswer_pending (c : Cue) (a : ApplyAnswer) : (takeAnswer i c a s).pending = s.pending := by
  cases a with
  | applied =>
    refine (continueCue_tableStep i _ _).only.pending.trans ?_
    split
    · exact post_pending _ _ s
    · rfl
  | refused g => exact (continueCue_tableStep i c _).only.pending.trans (post_pending _ _ s)
  | deferred g => rfl

theorem occur_pending (c : Cue) : (occur i c s).pending = s.pending := by
  unfold occur
  split
  · rfl
  · split
    · exact (continueCue_tableStep i _ _).only.pending.trans (postMissed_tableStep i c s).only.pending
    · exact takeAnswer_pending i _ c _

theorem execOccurrence_answersNext : AnswersNext (execOccurrence s) s := by
  refine answersNext_whenLive ?_
  split
  · exact occur_pending _ _ _
  · rfl

theorem execOpeningNotice_answersNext (g : Group) : AnswersNext (execOpeningNotice g s) s :=
  answersNext_whenLive (by split <;> rfl)

theorem applyMember_pending : (applyMember s i).pending = s.pending := by
  unfold applyMember
  split
  · rfl
  · split
    · rfl
    · dsimp only
      split
      · rfl
      · exact (shiftCue_tableStep i _ s _).only.pending

theorem applySet_pending (k : SetId) (owner : Port) (n : Nat) : (applySet k owner n s).pending = s.pending := by
  have members : ((s.cueTable.membersOf k).foldl applyMember s).pending = s.pending :=
    List.foldlRecOn (motive := fun u => u.pending = s.pending) _ _ rfl fun u h i _ =>
      (applyMember_pending i u).trans h
  exact (post_pending _ _ _).trans members

theorem execCommitTimeExpiry_answersNext (k : SetId) : AnswersNext (execCommitTimeExpiry k s) s := by
  refine answersNext_whenLive ?_
  split
  · split
    · rfl
    · split
      · exact applySet_pending s k _ _
      · rfl
  · rfl
  · rfl

end Firing

/-! ### The claim unit (R120 to R132) -/

section Claims

variable (p : Port) (s : State)

theorem transferLine_pending (l : Line) : (transferLine p l s).pending = s.pending := (transferLine_only p l s).pending

theorem claimLine_pending (c : Ticket) (l : Line) (wait : Bool) : (claimLine c l wait s).pending = s.pending := by
  unfold claimLine
  dsimp only
  split
  · rfl
  · iterate 3
      split
      · rfl
    rfl

theorem claim_pending (c : Ticket) (b : List Byte) (s : State) : (claim c b s).pending = s.pending := by
  unfold claim
  iterate 2
    split
    · rfl
  split
  · exact claimLine_pending s c _ _
  · rfl

theorem queryLine_pending (c : Ticket) (b : List Byte) (s : State) : (queryLine c b s).pending = s.pending := by
  unfold queryLine
  iterate 2
    split
    · rfl
  rfl

theorem releaseLine_pending (c : Ticket) (b : List Byte) (s : State) : (releaseLine c b s).pending = s.pending := by
  unfold releaseLine
  iterate 3
    split
    · rfl
  rfl

theorem decideRelease_pending (j : ReleaseJob) : (decideRelease p j s).pending = s.pending := by
  unfold decideRelease
  dsimp only
  iterate 2
    split
    · rfl
  rfl

theorem execReleaseAtClaimUnit_answersNext : AnswersNext (execReleaseAtClaimUnit p s) s := by
  refine answersNext_whenLive ?_
  split
  · exact decideRelease_pending p s _
  · rfl

theorem execPortReleaseStart_answersNext (why : Departure) : AnswersNext (execPortReleaseStart p why s) s := by
  refine answersNext_whenLive ?_
  split
  · split <;> rfl
  · rfl

theorem execSafeLevelDrive_answersNext (h : Handover) : AnswersNext (execSafeLevelDrive h s) s := by
  refine answersNext_whenLive ?_
  cases h with
  | release p => dsimp only; split <;> rfl
  | departure p why => dsimp only; split <;> rfl
  | halt =>
    dsimp only
    split
    · rw [setClaims_pending, driveEvery_pending]
    · rfl

theorem finishRelease_pending (j : ReleaseJob) : (finishRelease p j s).pending = s.pending := by
  have moved : (if s.mayTransfer p j then transferLine p j.line s else s).pending = s.pending := by
    split
    · exact transferLine_pending p s _
    · rfl
  exact moved

theorem execClaimTransfer_answersNext (h : Handover) : AnswersNext (execClaimTransfer h s) s := by
  refine answersNext_whenLive ?_
  cases h with
  | release p =>
    dsimp only
    split
    · exact finishRelease_pending p s _
    · rfl
  | departure p why =>
    dsimp only
    split
    · exact transferLine_pending p s _
    · rfl
  | halt => rfl

theorem execHaltRelease_answersNext : AnswersNext (execHaltRelease s) s := answersNext_whenLive (by split <;> rfl)

end Claims

/-! ### The session unit (R149 to R169) -/

section Session

variable (p : Port) (s : State)

theorem phaseCheck_pending : (phaseCheck s).pending = s.pending := (phaseCheck_changes s).pending

theorem emptyRunCheck_pending : (emptyRunCheck s).pending = s.pending := by
  rcases emptyRunCheck_cases s with stays | ends
  · rw [stays]
  · rw [ends, driveEvery_pending]; rfl

theorem attach_pending (c : Ticket) (b : List Byte) (s : State) : (attach c b s).pending = s.pending := by
  unfold attach
  split <;> rfl

theorem writeConfig_pending (c : Ticket) (b : List Byte) (s : State) : (writeConfig c b s).pending = s.pending := by
  unfold writeConfig
  iterate 3
    split
    · rfl
  split
  · rfl
  · rfl
  · split
    · rfl
    · next w _ => exact (changesOnly_configure w s).pending

theorem readConfig_pending (c : Ticket) (b : List Byte) (s : State) : (readConfig c b s).pending = s.pending := by
  unfold readConfig
  iterate 2
    split
    · rfl
  rfl

theorem confirm_pending (c : Ticket) (b : List Byte) (s : State) : (confirm c b s).pending = s.pending := by
  unfold confirm
  iterate 5
    split
    · rfl
  exact phaseCheck_pending _

theorem haltVote_pending (c : Ticket) (b : List Byte) (s : State) : (haltVote c b s).pending = s.pending := by
  unfold haltVote
  split
  · rfl
  · dsimp only
    split
    · exact decideHalt_pending _ _ _
    · rfl

theorem execDetach_answersNext : AnswersNext (execDetach p s) s := answersNext_takeGranted rfl fun _ _ _ => rfl

theorem execLapsePurge_answersNext : AnswersNext (execLapsePurge p s) s := answersNext_whenLive (by split <;> rfl)

theorem execHaltPurge_answersNext : AnswersNext (execHaltPurge s) s := answersNext_whenLive (by split <;> rfl)

theorem departureCheck_pending (c : Ticket) : (departureCheck c s).pending = s.pending := by
  unfold departureCheck
  split
  · exact phaseCheck_pending s
  · split
    · exact emptyRunCheck_pending s
    · split
      · exact decideHalt_pending _ _ s
      · rfl

theorem completeDetach_pending (c : Ticket) : (completeDetach c s).pending = s.pending := by
  unfold completeDetach
  dsimp only
  split
  · exact departureCheck_pending _ c
  · split
    · exact departureCheck_pending _ c
    · rfl

theorem execDetachCompletion_answersNext : AnswersNext (execDetachCompletion p s) s := by
  refine answersNext_whenLive ?_
  split
  · exact completeDetach_pending _ _
  · rfl

theorem execHaltCompletion_answersNext : AnswersNext (execHaltCompletion s) s := by
  refine answersNext_whenLive ?_
  split
  · exact (changesOnly_resumeWaiter _ _).pending.trans (changesOnly_haltOver s).pending
  · rfl

theorem execLapse_answersNext : AnswersNext (execLapse p s) s := by
  refine answersNext_whenLive ?_
  split
  · rw [lapsePort, requestPurge_pending, postAll_pending]
    exact (changesOnly_afterLapse p s).pending
  · rfl

theorem completeCleanup_pending : (completeCleanup p s).pending = s.pending := by
  unfold completeCleanup
  split
  · exact phaseCheck_pending _
  · split
    · exact emptyRunCheck_pending _
    · split
      · exact decideHalt_pending _ _ s
      · rfl

theorem execLapseCleanupCompletion_answersNext : AnswersNext (execLapseCleanupCompletion p s) s := by
  refine answersNext_whenLive ?_
  split
  · exact completeCleanup_pending p _
  · rfl

end Session

/-! ### The port units (R137, R173 to R190) -/

section PortUnits

variable (p : Port) (s : State)

theorem execPresentRequest_answersNext : AnswersNext (execPresentRequest p s) s :=
  answersNext_whenLive (by split <;> rfl)

theorem execFrameStart_answersNext : AnswersNext (execFrameStart p s) s := answersNext_whenLive (by split <;> rfl)

theorem execFrameEnd_answersNext (sdi : List Bool) : AnswersNext (execFrameEnd p sdi s) s := by
  refine answersNext_whenLive ?_
  split
  · split
    · exact (atPort_takeBytes p _ _).only.pending
    · rfl
  · rfl

theorem execReplyArrival_answersNext : AnswersNext (execReplyArrival p s) s := by
  refine answersNext_whenLive ?_
  split
  · rfl
  · split
    · rfl
    · split <;> rfl

theorem execEventPosted_answersNext : AnswersNext (execEventPosted p s) s := answersNext_whenLive (by split <;> rfl)

theorem execBadKind_answersNext : AnswersNext (execBadKind p s) s := by
  refine answersNext_whenLive ?_
  split
  · split <;> rfl
  · rfl

theorem execPortUnitNotAttached_answersNext : AnswersNext (execPortUnitNotAttached p s) s := by
  refine answersNext_whenLive ?_
  split
  · split <;> rfl
  · rfl

theorem readEvents_pending (c : Ticket) (b : List Byte) (s : State) : (readEvents c b s).pending = s.pending := by
  unfold readEvents
  split <;> rfl

theorem ackEvents_pending (c : Ticket) (b : List Byte) (s : State) : (ackEvents c b s).pending = s.pending := by
  unfold ackEvents
  split <;> rfl

end PortUnits

/-! ### Every command -/

/-- No command stops the part or touches the queue of commands. -/
theorem exec_answersNext (c : Instr) (s : State) : AnswersNext (exec c s) s := by
  cases c with
  | deviceReset cause => exact execDeviceReset_answersNext s cause
  | resetEnd => exact execResetEnd_answersNext s
  | tbStep => exact execTbStep_answersNext s
  | faultLow => exact execFaultLow_answersNext s
  | faultHigh => exact execFaultHigh_answersNext s
  | frameStart p => exact execFrameStart_answersNext p s
  | frameEnd p sdi => exact execFrameEnd_answersNext p s sdi
  | presentRequest p => exact execPresentRequest_answersNext p s
  | replyArrival p => exact execReplyArrival_answersNext p s
  | eventPosted p => exact execEventPosted_answersNext p s
  | badKind p => exact execBadKind_answersNext p s
  | readTime p => exact answersNext_takeDirect fun _ _ _ => rfl
  | readEvents p => exact answersNext_takeDirect readEvents_pending
  | ackEvents p => exact answersNext_takeDirect ackEvents_pending
  | attach p => exact answersNext_takeDirect attach_pending
  | writeConfig p => exact answersNext_takeDirect writeConfig_pending
  | readConfig p => exact answersNext_takeDirect readConfig_pending
  | confirm p => exact answersNext_takeDirect confirm_pending
  | haltVote p => exact answersNext_takeDirect haltVote_pending
  | claim p => exact answersNext_takeDirect claim_pending
  | queryLine p => exact answersNext_takeDirect queryLine_pending
  | trip p => exact execTrip_answersNext s p
  | clearTrip p => exact execClearTrip_answersNext s p
  | addCue p => exact answersNext_takeGranted rfl fun c b u => addCue_pending u c b
  | cancelCue p => exact answersNext_takeGranted rfl fun c b u => (cancelCue_answers c b u).pending
  | queryCue p => exact answersNext_takeGranted rfl fun c b u => (queryCue_answers c b u).pending
  | stage p => exact answersNext_takeGranted rfl fun c b u => (stageCue_answers c b u).pending
  | unstage p => exact answersNext_takeGranted rfl fun c b u => (unstageCue_answers c b u).pending
  | openSet p => exact answersNext_takeGranted rfl fun c b u => (openSet_answers c b u).pending
  | commitSet p => exact answersNext_takeGranted rfl fun c b u => (commitSet_answers c b u).pending
  | abandonSet p => exact answersNext_takeGranted rfl fun c b u => (abandonSet_answers c b u).pending
  | release p => exact answersNext_takeGranted rfl releaseLine_pending
  | releaseAtClaimUnit p => exact execReleaseAtClaimUnit_answersNext p s
  | detach p => exact execDetach_answersNext p s
  | lapsePurge p => exact execLapsePurge_answersNext p s
  | haltPurge => exact execHaltPurge_answersNext s
  | safeLevelDrive h => exact execSafeLevelDrive_answersNext s h
  | claimTransfer h => exact execClaimTransfer_answersNext s h
  | portReleaseStart p why => exact execPortReleaseStart_answersNext p s why
  | haltRelease => exact execHaltRelease_answersNext s
  | detachCompletion p => exact execDetachCompletion_answersNext p s
  | haltCompletion => exact execHaltCompletion_answersNext s
  | lapse p => exact execLapse_answersNext p s
  | lapseCleanupCompletion p => exact execLapseCleanupCompletion_answersNext p s
  | occurrence => exact execOccurrence_answersNext s
  | commitTimeExpiry k => exact execCommitTimeExpiry_answersNext s k
  | openingNotice g => exact execOpeningNotice_answersNext s g
  | pulseEndExpiry l => exact execPulseEndExpiry_answersNext s l
  | holdoffExpiry g => exact execHoldoffExpiry_answersNext s g
  | refclkPeriodEnd pins => exact execRefclkPeriodEnd_answersNext s pins
  | portUnitNotAttached p => exact execPortUnitNotAttached_answersNext p s

/-- Settles O2: each command answers a next state that has the queue it found. -/
theorem everyCommandAnswersNext : Obligations.EveryCommandAnswersNext := exec_answersNext

end Sys2Proof.Machine
end
